-- ==== Sys2Proof/Word.lean ====
section
/-! DEFINITION. The byte of the two links and the widths of the fields a frame carries (R178). -/

namespace Sys2Proof

/-- One byte of a frame. -/
abbrev Byte := BitVec 8

/-- A two-byte field: a node address, a row index, a current (11.3, 11.4). -/
abbrev Half := BitVec 16

/-- A four-byte field: a plant time, a written value (11.4). -/
abbrev Quad := BitVec 32

end Sys2Proof
end

