-- ==== Sys2Proof/Syntax.lean ====
section
/-! DEFINITION. The commands: one constructor for each row of spec/opcode_table.json, with the fields the row's frame
carries (11.3, 11.4) or the record the row's event belongs to. -/

namespace Sys2Proof

/-- What every uplink request carries besides its own fields: destination and source address and the request tag
(R153, 11.1, 11.4). -/
structure Req where
  dst : Half
  src : Half
  tag : Byte
deriving DecidableEq, Repr

/-- The commands of the part, in the table's order. -/
inductive Instr where
  /-- POWER_ON_RESET: power-on or the reset input (R161). -/
  | powerOnReset
  /-- FIELD_FRAME_REJECTED: the bytes of one frame of the field link, from its start delimiter on (R24, R179). -/
  | fieldFrameRejected (bytes : List Byte)
  /-- ROW_SAMPLE: source, current, posture code, tracker fault flag (R8, 11.3). -/
  | rowSample (src current : Half) (posture fault : Byte)
  /-- MAST_SAMPLE: source, irradiance, mean wind, gust (R128, 11.3). -/
  | mastSample (src irradiance mean gust : Half)
  /-- ROBOT_STATUS: source and the ten payload bytes' fields (R15, 11.3). -/
  | robotStatus (src : Half) (kind : Byte) (index : Half) (activity result : Byte) (metres charge : Half) (fault : Byte)
  /-- CART_STATUS: source and the six payload bytes' fields (R22, 11.3). -/
  | cartStatus (src : Half) (slot motion garaged : Byte) (load : Half) (fault : Byte)
  /-- LEAVE_ASK: source (R41). -/
  | leaveAsk (src : Half)
  /-- UPLINK_FRAME_REJECTED: the bytes of one frame of the uplink, from its start delimiter on (R154, R179, R181). -/
  | uplinkFrameRejected (bytes : List Byte)
  /-- TABLE_WRITE: table, record index, field code, value (R157, 11.4). -/
  | tableWrite (q : Req) (table : Byte) (index : Half) (field : Byte) (value : Quad)
  /-- BASELINE_VALUE_WRITE: a write of a row's baseline B (R67). -/
  | baselineValueWrite (q : Req) (index : Half) (value : Quad)
  /-- BASELINE_RESET: a write that sets a row's capture-pending flag (R67). -/
  | baselineReset (q : Req) (index : Half)
  /-- TABLE_READ: table, first index, count (R160, 11.4). -/
  | tableRead (q : Req) (table : Byte) (first : Half) (count : Byte)
  /-- ORDER: the field order to pass on: destination, class, payload (R38, R39, R181). -/
  | order (q : Req) (dest : Half) (cls : Byte) (payload : List Byte)
  /-- COMMIT (R162, R163). -/
  | commit (q : Req)
  /-- DECOMMIT (R164). -/
  | decommit (q : Req)
  /-- TIME_SET: plant time (R46). -/
  | timeSet (q : Req) (time : Quad)
  /-- STORM_FORCE: flags, bit 0 RELEASE, bit 1 PARK, bit 2 LOCKOUT (R152, 11.4). -/
  | stormForce (q : Req) (flags : Byte)
  /-- STORM_ADVISORY: arrival time (R150). -/
  | stormAdvisory (q : Req) (arrival : Quad)
  /-- ADVISORY_CANCEL (R150). -/
  | advisoryCancel (q : Req)
  /-- ROBOT_MANUAL: robot, mode 0 AUTO or 1 MANUAL (R21, R165). -/
  | robotManual (q : Req) (robot mode : Byte)
  /-- ROBOT_CLEAR: robot (R20, R165). -/
  | robotClear (q : Req) (robot : Byte)
  /-- TRANSFER_RESOLVE: robot, row (0xFFFF for NONE) (R123). -/
  | transferResolve (q : Req) (robot : Byte) (row : Half)
  /-- ROUNDS_ENABLE: value (R166). -/
  | roundsEnable (q : Req) (value : Byte)
  /-- CLOSE_NOW (R55). -/
  | closeNow (q : Req)
  /-- ACCOUNT_CLEAR: row (0xFFFF for ALL) (R84, R85, R167). -/
  | accountClear (q : Req) (row : Half)
  /-- RESET_RUN (R168). -/
  | resetRun (q : Req)
  /-- NOTICE_CLEAR: flag marks, bit 0 STORM_STATE to bit 18 FIELD_STALL (R174, 11.4). -/
  | noticeClear (q : Req) (marks : BitVec 24)
  /-- NOTICE_MASK: flag marks (R170). -/
  | noticeMask (q : Req) (marks : BitVec 24)
  /-- CONTROL_UNKNOWN_KIND: a kind code that 11.4 does not list (R181). -/
  | controlUnknownKind (q : Req) (kind : Byte)
  /-- FRAME_START of the field transmitter (R32). -/
  | frameStart
  /-- FRAME_END of the field transmitter (R34). -/
  | frameEnd
  /-- SEND_PERMIT_CHANGE: the line's new level (R35). -/
  | sendPermitChange (asserted : Bool)
  /-- PERMIT_STALL_EXPIRY (R35). -/
  | permitStallExpiry
  /-- UPLINK_FRAME_START (R155, R172). -/
  | uplinkFrameStart
  /-- UPLINK_FRAME_END (R155, R173). -/
  | uplinkFrameEnd
  /-- LEVEL_DEADLINE_EXPIRY of a row (R9). -/
  | levelDeadlineExpiry (row : Nat)
  /-- ROBOT_SILENCE_EXPIRY of a robot (R18). -/
  | robotSilenceExpiry (robot : Nat)
  /-- CART_SILENCE_EXPIRY of a cart (R23). -/
  | cartSilenceExpiry (cart : Nat)
  /-- MAST_SILENCE_EVENT (R128). -/
  | mastSilenceEvent
  /-- MAST_RECORD_STALE of a mast (R59, R87). -/
  | mastRecordStale (mast : Nat)
  /-- PASS_DEADLINE_EXPIRY of a robot's pass (R102). -/
  | passDeadlineExpiry (robot : Nat)
  /-- PHASE_DEADLINE_EXPIRY of a cart's transfer (R117, R118). -/
  | phaseDeadlineExpiry (cart : Nat)
  /-- WATCH_TIMER_EXPIRY (R131). -/
  | watchTimerExpiry
  /-- PARK_TIMER_EXPIRY (R132). -/
  | parkTimerExpiry
  /-- CALM_TIMER_EXPIRY (R131). -/
  | calmTimerExpiry
  /-- RELEASE_TIMER_EXPIRY (R135). -/
  | releaseTimerExpiry
  /-- LOCKOUT_TIMER_EXPIRY (R146). -/
  | lockoutTimerExpiry
  /-- STOW_DEADLINE_EXPIRY of a row (R144). -/
  | stowDeadlineExpiry (row : Nat)
  /-- RELEASE_DEADLINE_EXPIRY of a row (R148). -/
  | releaseDeadlineExpiry (row : Nat)
  /-- PARK_REPEAT_REPLAY of a robot's park order (R140). -/
  | parkRepeatReplay (robot : Nat)
  /-- GARAGE_REPLAY of a cart's CART GARAGE (R141). -/
  | garageReplay (cart : Nat)
  /-- EPOCH_BOUNDARY: the aligned boundary (R48). -/
  | epochBoundary
  /-- ROUND_WINDOW_EDGE (R87). -/
  | roundWindowEdge
  /-- ADVISORY_REACHED (R151). -/
  | advisoryReached
  /-- WALK_STEP: the close walk's step for the row under its cursor (R69). -/
  | walkStep
deriving DecidableEq, Repr

end Sys2Proof
end

