-- ==== Sys2Proof/Config.lean ====
section
/-! DEFINITION. The free values: what the manual leaves open. None has a body, so nothing can be proved of its value. -/

namespace Sys2Proof

/-- The order in which the manual lets several blocks, or several events of one second, act: the key of the
place-numbered candidate at the choice numbered by the first argument (R15, R34, R136; log 2). -/
opaque Config.orderKey : Nat → Nat → Nat

/-- A byte of a TABLE DATA record or an account report for which the layout states no value: the choice number,
then the byte's own number (11.5, 11.6; logs 12 and 34). -/
opaque Config.unstatedByte : Nat → Nat → BitVec 8

/-- What a ROBOT MANUAL mode byte other than 0 or 1 names: true for MANUAL (11.4 lists only 0 and 1; log 13). -/
opaque Config.manualCode : Nat → Bool

end Sys2Proof
end

