-- ==== Sys2Proof/Machine/Params.lean ====
section
/-! DEFINITION. The PARAMETERS table: the thirty-eight parameters with their record index, range, default and class (R159). -/

namespace Sys2Proof.Machine

/-- The parameters, in the order of their record indices (R159, 11.4). -/
inductive Param where
  | epochS | reportDivider | gmin | gDark | mastStale | minSamples | smoothing | sDueDefault | dueHysteresis
  | releaseGust | watchGust | parkGust | lockoutGust | watchDebounce | parkDebounce | calmHold | releaseHold
  | lockoutHold | parkLead
  | mastSilence | robotSilence | cartSilence | parkRepeat | levelTimeout | stowTimeout | slotTime | approachBase
  | travelBase | boardTimeout | alightTimeout
  | passBase | passPerMetre | passCost | chargeReserve | permitStall | windowStart | windowEnd | roundsEnabled
deriving DecidableEq, Repr

/-- All parameters by record index. -/
def Param.all : List Param :=
  [.epochS, .reportDivider, .gmin, .gDark, .mastStale, .minSamples, .smoothing, .sDueDefault, .dueHysteresis,
   .releaseGust, .watchGust, .parkGust, .lockoutGust, .watchDebounce, .parkDebounce, .calmHold, .releaseHold,
   .lockoutHold, .parkLead,
   .mastSilence, .robotSilence, .cartSilence, .parkRepeat, .levelTimeout, .stowTimeout, .slotTime, .approachBase,
   .travelBase, .boardTimeout, .alightTimeout,
   .passBase, .passPerMetre, .passCost, .chargeReserve, .permitStall, .windowStart, .windowEnd, .roundsEnabled]

/-- A parameter's row of R159: record index, least value, greatest value, default, and whether it is staged in
RUNNING. "rounds enabled" takes any written value, other than 0 as yes; its default "yes" is held as 1 (log 17). -/
structure ParamRow where
  index : Nat
  lo : Nat
  hi : Nat
  dflt : Nat
  staged : Bool
deriving DecidableEq, Repr

/-- The table of R159. -/
def Param.info : Param → ParamRow
  | .epochS => ⟨0, 60, 3600, 900, true⟩
  | .reportDivider => ⟨1, 0, 65535, 0, false⟩
  | .gmin => ⟨2, 50, 1600, 200, true⟩
  | .gDark => ⟨3, 0, 1600, 10, false⟩
  | .mastStale => ⟨4, 1, 3600, 120, true⟩
  | .minSamples => ⟨5, 1, 65535, 4, true⟩
  | .smoothing => ⟨6, 0, 8, 2, true⟩
  | .sDueDefault => ⟨7, 1, 1000, 30, true⟩
  | .dueHysteresis => ⟨8, 0, 1000, 10, true⟩
  | .releaseGust => ⟨9, 0, 800, 100, false⟩
  | .watchGust => ⟨10, 0, 800, 120, false⟩
  | .parkGust => ⟨11, 0, 800, 160, false⟩
  | .lockoutGust => ⟨12, 0, 800, 220, false⟩
  | .watchDebounce => ⟨13, 0, 65535, 10, false⟩
  | .parkDebounce => ⟨14, 0, 65535, 3, false⟩
  | .calmHold => ⟨15, 0, 65535, 300, false⟩
  | .releaseHold => ⟨16, 0, 65535, 1200, false⟩
  | .lockoutHold => ⟨17, 0, 65535, 300, false⟩
  | .parkLead => ⟨18, 0, 65535, 1800, false⟩
  | .mastSilence => ⟨19, 1, 65535, 60, false⟩
  | .robotSilence => ⟨20, 1, 65535, 120, false⟩
  | .cartSilence => ⟨21, 1, 65535, 60, false⟩
  | .parkRepeat => ⟨22, 1, 65535, 15, false⟩
  | .levelTimeout => ⟨23, 1, 65535, 90, false⟩
  | .stowTimeout => ⟨24, 1, 65535, 120, false⟩
  | .slotTime => ⟨25, 0, 600, 8, false⟩
  | .approachBase => ⟨26, 0, 65535, 60, false⟩
  | .travelBase => ⟨27, 0, 65535, 30, false⟩
  | .boardTimeout => ⟨28, 1, 65535, 45, false⟩
  | .alightTimeout => ⟨29, 1, 65535, 45, false⟩
  | .passBase => ⟨30, 0, 65535, 120, false⟩
  | .passPerMetre => ⟨31, 0, 60, 3, false⟩
  | .passCost => ⟨32, 0, 65535, 150, false⟩
  | .chargeReserve => ⟨33, 0, 4095, 40, false⟩
  | .permitStall => ⟨34, 1, 65535, 30, false⟩
  | .windowStart => ⟨35, 0, 86399, 1800, false⟩
  | .windowEnd => ⟨36, 0, 86399, 18000, false⟩
  | .roundsEnabled => ⟨37, 0, 4294967295, 1, false⟩

/-- The record index as a place in the table of values. -/
def Param.place (p : Param) : Fin 38 := ⟨p.info.index, by cases p <;> decide⟩

/-- The parameter at a record index. -/
def Param.ofIndex (i : Nat) : Option Param := Param.all[i]?

/-- The values of all parameters. -/
abbrev Params := Vector Nat 38

/-- Every parameter at its default (R159). -/
def Params.defaults : Params := ⟨⟨Param.all.map (fun p => p.info.dflt)⟩, by decide⟩

end Sys2Proof.Machine
end

