-- ==== Sys2Proof/Machine/Table.lean ====
section
/-! DEFINITION. Tables of records by index, in one canonical form: indices rising, and no record stored that equals the
table's reset record. Equal contents are therefore equal data. -/

namespace Sys2Proof.Machine

/-- The canonical form of a table with reset record d. -/
def TabWf {α : Type} (d : α) (l : List (Nat × α)) : Prop :=
  l.Pairwise (fun a b => a.1 < b.1) ∧ ∀ x ∈ l, x.2 ≠ d

/-- The record at index k of a list of stored records; an index not listed reads as d. -/
def tabGet {α : Type} (d : α) : List (Nat × α) → Nat → α
  | [], _ => d
  | x :: t, k => if x.1 = k then x.2 else tabGet d t k

/-- Store v at index k, keeping the canonical form. -/
def tabSet {α : Type} [DecidableEq α] (d : α) : List (Nat × α) → Nat → α → List (Nat × α)
  | [], k, v => if v = d then [] else [(k, v)]
  | x :: t, k, v =>
    if k < x.1 then (if v = d then x :: t else (k, v) :: x :: t)
    else if k = x.1 then (if v = d then t else (k, v) :: t)
    else x :: tabSet d t k v

/-- Change every stored record by f, keeping the canonical form. -/
def tabMap {α : Type} [DecidableEq α] (d : α) (f : α → α) (l : List (Nat × α)) : List (Nat × α) :=
  l.filterMap (fun x => if f x.2 = d then none else some (x.1, f x.2))

theorem mem_tabSet {α : Type} [DecidableEq α] {d : α} {l : List (Nat × α)} {k : Nat} {v : α} {x : Nat × α}
    (h : x ∈ tabSet d l k v) : x ∈ l ∨ (x = (k, v) ∧ v ≠ d) := by
  induction l with
  | nil =>
    by_cases hv : v = d <;> simp [tabSet, hv] at h ⊢
    exact h
  | cons y t ih =>
    simp only [tabSet] at h
    split_ifs at h <;> simp only [List.mem_cons] at h ⊢ <;> tauto

theorem tabSet_wf {α : Type} [DecidableEq α] {d : α} {l : List (Nat × α)} (h : TabWf d l) (k : Nat) (v : α) :
    TabWf d (tabSet d l k v) := by
  refine ⟨?_, fun x hx => (mem_tabSet hx).elim (h.2 x) (fun e => by rw [e.1]; exact e.2)⟩
  replace h := h.1
  induction l with
  | nil => by_cases hv : v = d <;> simp [tabSet, hv]
  | cons y t ih =>
    rw [List.pairwise_cons] at h
    simp only [tabSet]
    split_ifs with h1 h2 h3 h4
    · exact List.pairwise_cons.2 h
    · refine List.pairwise_cons.2 ⟨fun a ha => ?_, List.pairwise_cons.2 h⟩
      rcases List.mem_cons.1 ha with rfl | ha
      · exact h1
      · exact lt_trans h1 (h.1 a ha)
    · exact h.2
    · exact List.pairwise_cons.2 ⟨fun a ha => by simpa [h3] using h.1 a ha, h.2⟩
    · refine List.pairwise_cons.2 ⟨fun a ha => ?_, ih h.2⟩
      rcases mem_tabSet ha with ha | ⟨rfl, _⟩
      · exact h.1 a ha
      · show y.1 < k
        omega

theorem tabMap_wf {α : Type} [DecidableEq α] {d : α} {l : List (Nat × α)} (h : TabWf d l) (f : α → α) :
    TabWf d (tabMap d f l) := by
  refine ⟨?_, fun x hx => ?_⟩
  · refine List.Pairwise.filterMap _ ?_ h.1
    intro a b hab x hx y hy
    split_ifs at hx hy <;> simp_all
    rw [← hx, ← hy]
    exact hab
  · obtain ⟨a, _, ha⟩ := List.mem_filterMap.1 hx
    split_ifs at ha with h1
    simp only [Option.some.injEq] at ha
    rw [← ha]
    exact h1

/-- A table with reset record d. -/
abbrev Tab {α : Type} (d : α) := { l : List (Nat × α) // TabWf d l }

/-- The table in which every record is at its reset value. -/
def Tab.empty {α : Type} (d : α) : Tab d := ⟨[], List.Pairwise.nil, by simp⟩

/-- The record at an index. -/
def Tab.get {α : Type} {d : α} (t : Tab d) (k : Nat) : α := tabGet d t.1 k

/-- Store a record. -/
def Tab.set {α : Type} [DecidableEq α] {d : α} (t : Tab d) (k : Nat) (v : α) : Tab d :=
  ⟨tabSet d t.1 k v, tabSet_wf t.2 k v⟩

/-- Change the record at an index. -/
def Tab.upd {α : Type} [DecidableEq α] {d : α} (t : Tab d) (k : Nat) (f : α → α) : Tab d :=
  t.set k (f (t.get k))

/-- Change every stored record. Records at their reset value are not visited: f leaves the reset record as it is
wherever this is used. -/
def Tab.map {α : Type} [DecidableEq α] {d : α} (t : Tab d) (f : α → α) : Tab d :=
  ⟨tabMap d f t.1, tabMap_wf t.2 f⟩

/-- The indices, ascending, of the stored records that satisfy p. -/
def Tab.idsWhere {α : Type} {d : α} (t : Tab d) (p : α → Bool) : List Nat :=
  t.1.filterMap (fun x => if p x.2 then some x.1 else none)

/-- Whether some stored record satisfies p. -/
def Tab.anyRec {α : Type} {d : α} (t : Tab d) (p : α → Bool) : Bool := t.1.any (fun x => p x.2)

/-- Whether every stored record satisfies p. -/
def Tab.allRec {α : Type} {d : α} (t : Tab d) (p : α → Bool) : Bool := t.1.all (fun x => p x.2)

end Sys2Proof.Machine
end

