-- ==== Sys2Proof/Machine/State.lean ====
section
/-! DEFINITION. The state of the part as plain data, block by block, its values after power-on or the reset input, and
the reasons a step can stop. -/

namespace Sys2Proof.Machine

/-! ### Names -/

/-- The operating mode (R161). -/
inductive Mode where | unconfigured | running
deriving DecidableEq, Repr

/-- A row's reported posture (R5, 11.3). -/
inductive Posture where | tracking | level | stowed | moving
deriving DecidableEq, Repr

/-- A row's posture demand (R5, R6). -/
inductive Demand where | track | level | stow
deriving DecidableEq, Repr

/-- The storm states (R130). -/
inductive StormState where | calm | watch | park | secured | lockout | release
deriving DecidableEq, Repr

/-- A robot's state (R14). -/
inductive RobotState where | unknown | docked | onRow | aboard | offline | stranded | faulted
deriving DecidableEq, Repr

/-- A robot's position: the dock of a row, a row, a cart (R14). -/
inductive Pos where | dock (row : Nat) | row (row : Nat) | cart (cart : Nat)
deriving DecidableEq, Repr

/-- A robot's reported activity (R14, 11.3). -/
inductive Activity where | idle | cleaning | returning | boarding | aboard | alighting
deriving DecidableEq, Repr

/-- The result a robot reports in the first status after a pass (R15, 11.3). -/
inductive PassResult where | complete | incomplete
deriving DecidableEq, Repr

/-- A robot's control mode (R14, R21). -/
inductive CtrlMode where | auto | manual
deriving DecidableEq, Repr

/-- A cart's state (R22). -/
inductive CartState where | unknown | garaged | idle | busy | recover | faulted
deriving DecidableEq, Repr

/-- The kind of a node (R1). -/
inductive NodeKind where | row | robot | cart | mast
deriving DecidableEq, Repr

/-- A node: its kind and its index within the kind (R1). -/
structure NodeId where
  kind : NodeKind
  index : Nat
deriving DecidableEq, Repr

/-- The owner of a queued order (R29). -/
inductive Owner where | round | transfer | storm | row | supervisor
deriving DecidableEq, Repr

/-- The fourteen field order kinds, in the order R40 lists them; class code 0x20 and on (11.2). -/
inductive Kind where
  | rowLevel | rowRelease | rowStow | passSetup | passRun | passAbort | dockHold | board | alight | leaveAnswer
  | cartFetch | cartCarry | cartGarage | cartHold
deriving DecidableEq, Repr

/-- A field order with its parameters (11.3). -/
inductive Order where
  | rowLevel | rowRelease | rowStow
  | passSetup (length brush : Nat)
  | passRun | passAbort | dockHold
  | board (cart : Nat)
  | alight (row : Nat)
  | leaveAnswer (granted : Nat)
  | cartFetch (slot : Nat)
  | cartCarry (slot : Nat)
  | cartGarage (slot : Nat)
  | cartHold
deriving DecidableEq, Repr

/-- The settings of the forward policy (R27). -/
inductive Fwd where | all | none | exceptions
deriving DecidableEq, Repr

/-- Why a round closed (R86). -/
inductive CloseReason where | window | light | storm | disabled | clock
deriving DecidableEq, Repr

/-- The nineteen notice flags, in the order of the table of 9.1 (R169). -/
inductive Flag where
  | stormState | robotFault | robotOffline | stranded | positionConflict | cartFault | transferFailed
  | transferStalled | mastSilent | rowPinned | levelFault | baselineLow | epochVoid | clockStep | accountSaturated
  | fieldFraming | uplinkFraming | unknownNode | fieldStall
deriving DecidableEq, Repr

/-! ### Clock and Epoch Unit -/

/-- Monotonic seconds, plant clock and clock-set flag (R44, R45). -/
structure Clk where
  mono : Nat
  clock : Nat
  set : Bool
deriving DecidableEq, Repr

/-- The epoch record (R47). -/
structure Epoch where
  startPlant : Nat
  startMono : Nat
  nominalEnd : Nat
  voidMark : Bool
deriving DecidableEq, Repr

/-- A close held behind a walk in flight (R50), with whether RESET RUN leaves the staging store untaken (R58). -/
structure HeldClose where
  noTake : Bool
deriving DecidableEq, Repr

/-- The pending values of one row's accounting fields (R52); S_due may be pending as absent. -/
structure RowStage where
  iref : Option Nat
  prated : Option Nat
  length : Option Nat
  sDue : Option (Option Nat)
deriving DecidableEq, Repr

/-- No pending value. -/
def RowStage.none : RowStage := ⟨.none, .none, .none, .none⟩

/-- Pending table edits: the staging store, or a batch in hand (R52, R53). -/
structure Staging where
  rows : Tab RowStage.none
  params : Tab (none : Option Nat)
deriving DecidableEq, Repr

/-- An empty staging store. -/
def Staging.empty : Staging := ⟨Tab.empty _, Tab.empty _⟩

/-- The walk count and the report accumulators (R56). -/
structure Accum where
  walks : Nat
  lost : Nat
  recovered : Nat
  voids : Nat
  thins : Nat
  firstStart : Option Nat
  lastEnd : Nat
  totalT : Nat
  epochs : Nat
deriving DecidableEq, Repr

/-- Accumulators at zero. -/
def Accum.zero : Accum := ⟨0, 0, 0, 0, 0, none, 0, 0, 0⟩

/-- The Clock and Epoch Unit's epoch side (R47 to R58). -/
structure EpochUnit where
  epoch : Option Epoch
  held : Option HeldClose
  staging : Staging
  batch : Option Staging
  acc : Accum
deriving DecidableEq, Repr

/-! ### Control Unit and Uplink Port -/

/-- The PART table (R156). -/
structure PartTable where
  uplink : Nat
  field : Nat
  supervisor : Nat
deriving DecidableEq, Repr

/-- The forward policy (R27). -/
structure FwdPolicy where
  row : Fwd
  robot : Fwd
  cart : Fwd
  mast : Fwd
deriving DecidableEq, Repr

/-- Mode and part-wide tables (R161). The order policy cell of storm state i and column j stands at index 15i + j;
true is DROP (R40). -/
structure Ctl where
  mode : Mode
  part : PartTable
  params : Params
  fwd : FwdPolicy
  policy : Tab false
deriving DecidableEq, Repr

/-- The notice set: one bit per flag, bit 0 STORM_STATE to bit 18 FIELD_STALL (R169 to R173, 11.4). -/
structure Notices where
  latched : BitVec 19
  risen : BitVec 19
  mask : BitVec 19
  owed : Bool
deriving DecidableEq, Repr

/-- A frame waiting in the uplink queue. Addresses, and a NOTICE's contents, are taken at the frame start (R155, R172). -/
inductive UpEntry where
  /-- An answer: the request's source address, the class 0x50 or 0x51, the payload (R153). -/
  | answer (dst cls : Nat) (payload : List Byte)
  /-- A NOTICE (R171). -/
  | notice
  /-- An ACCOUNT REPORT's payload (R57). -/
  | report (payload : List Byte)
  /-- A RELAYED frame: the reporting node's address and the payload (R28). -/
  | relayed (src : Nat) (payload : List Byte)
deriving DecidableEq, Repr

/-- The Uplink Port: queue, frame on the air, receive buffer (R154, R155). -/
structure Uplink where
  queue : List UpEntry
  air : Option (List Byte)
  rx : List Byte
deriving DecidableEq, Repr

/-! ### Order Dispatcher and Field Port -/

/-- An entry of an order queue (R29). -/
structure Entry where
  dest : Nat
  order : Order
  tag : Nat
  last : Bool
  owner : Owner
deriving DecidableEq, Repr

/-- The group in progress: tag, owner, last entry to leave the field port (R32). -/
structure GroupRec where
  tag : Nat
  owner : Owner
  lastLeft : Entry
deriving DecidableEq, Repr

/-- The frame on the field link: its entry, the bytes sent, and whether its sent event is handed on (R34). -/
structure AirFrame where
  entry : Entry
  bytes : List Byte
  handOn : Bool
deriving DecidableEq, Repr

/-- A permit wait: its start and whether FIELD_STALL has latched for it (R35). -/
structure PermitWait where
  start : Nat
  stalled : Bool
deriving DecidableEq, Repr

/-- The Order Dispatcher and the Field Port (R24, R29 to R35). echo: the field address as the last frame start took it,
which the echo check compares with (R24, R156). -/
structure Dispatcher where
  urgent : List Entry
  routine : List Entry
  nextTag : Nat
  group : Option GroupRec
  air : Option AirFrame
  permit : Bool
  fell : Nat
  since : Option Nat
  wait : Option PermitWait
  rx : List Byte
  echo : Nat
deriving DecidableEq, Repr

/-! ### Rows -/

/-- A dock reservation: the robot it is for and, from the grant on, the cart (R12, R107). -/
structure Reservation where
  robot : Nat
  cart : Option Nat
deriving DecidableEq, Repr

/-- A row's configuration (R1, R3). -/
structure RowCfg where
  node : Option Nat
  lane : Nat
  slot : Nat
  iref : Nat
  prated : Nat
  length : Nat
  sDue : Option Nat
deriving DecidableEq, Repr

/-- The Row Supervisor's fields of a row (R5). told: the level claim has been reported reached (R8, log 40). -/
structure RowSup where
  demand : Demand
  reported : Option Posture
  stowClaim : Bool
  levelClaim : Option Nat
  told : Bool
  orderPending : Bool
  levelDeadline : Option Nat
  resync : Bool
  occupant : Option Nat
  reservation : Option Reservation
  pinned : Bool
  levelFault : Bool
deriving DecidableEq, Repr

/-- The Row Supervisor's fields after power-on (R5). -/
def RowSup.powerOn : RowSup := ⟨.track, none, false, none, false, false, none, false, none, none, false, false⟩

/-- The stow progress of a row (R142). -/
inductive StowProgress where | unreached | skipped | sent | done | pinned
deriving DecidableEq, Repr

/-- A row in the stow sweep: progress, sends it has had, stow deadline, whether its entry is waiting, whether that
entry is held after a refusal for a full queue, and the send count of a re-offer whose turn has not come (R142 to R144). -/
structure Stow where
  progress : StowProgress
  sends : Nat
  deadline : Option Nat
  waiting : Bool
  held : Bool
  reoffer : Option Nat
deriving DecidableEq, Repr

/-- A row the sweep has not reached (R142). -/
def Stow.unreached : Stow := ⟨.unreached, 0, none, false, false, none⟩

/-- A row's entry in the release list: release count, deadline, and whether its second release is held for room
(R147, R148). -/
structure RelEntry where
  count : Nat
  deadline : Option Nat
  held : Bool
deriving DecidableEq, Repr

/-- A row's soiling record (R66). -/
structure Soil where
  s : Nat
  b : Option Nat
  capture : Bool
  sPre : Option Nat
  cleaned : Option Nat
deriving DecidableEq, Repr

/-- A row's yield account (R68). -/
structure Account where
  lost : Nat
  lostRes : Nat
  recovered : Nat
  recoveredRes : Nat
  cleanings : Nat
  voids : Nat
  thins : Nat
deriving DecidableEq, Repr

/-- An account at zero (R68, R84). -/
def Account.zero : Account := ⟨0, 0, 0, 0, 0, 0, 0⟩

/-- An epoch bank (R61). -/
structure Bank where
  ratioSum : Nat
  valid : Nat
  stale : Nat
  disturbed : Bool
  broken : Bool
  staged : Bool
deriving DecidableEq, Repr

/-- A row's two epoch banks (R61). -/
structure Banks where
  opened : Option Bank
  closing : Option Bank
deriving DecidableEq, Repr

/-- A row. -/
structure Row where
  cfg : RowCfg
  sup : RowSup
  stow : Stow
  rel : Option RelEntry
  soil : Soil
  acct : Account
  banks : Banks
deriving DecidableEq, Repr

/-- A row after power-on (R1, R3, R5, R61, R66, R68, R142). -/
def Row.powerOn : Row :=
  ⟨⟨none, 0, 0, 0, 0, 1, none⟩, RowSup.powerOn, Stow.unreached, none, ⟨0, none, false, none, none⟩, Account.zero,
   ⟨none, none⟩⟩

/-! ### Robots, carts, masts -/

/-- The phases of a pass (R98). -/
inductive PassPhase where | leveling | setup | running
deriving DecidableEq, Repr

/-- A cleaning assignment (R98, R99, R102). -/
structure Assignment where
  row : Nat
  phase : PassPhase
  heavy : Bool
  tag : Option Nat
  held : Bool
  deadline : Option Nat
  abandoned : Bool
deriving DecidableEq, Repr

/-- A robot's transfer link: queued, or the cart that was granted (R14, R107, R112). -/
inductive Link where | queued | cart (cart : Nat)
deriving DecidableEq, Repr

/-- The park orders (R137). -/
inductive ParkOrder where | hold | abort | via
deriving DecidableEq, Repr

/-- A park list entry: order, last offer time, and whether the offer is held after a refusal (R137, R140). -/
structure ParkEntry where
  order : ParkOrder
  last : Option Nat
  held : Bool
deriving DecidableEq, Repr

/-- A robot: configuration (R1, R4), context (R14), the planner's claim and charge mark (R92, R94), and its park list
entry (R137). -/
structure Robot where
  node : Option Nat
  lane : Nat
  state : RobotState
  pos : Option Pos
  activity : Option Activity
  charge : Nat
  metres : Nat
  fault : Nat
  heard : Option Nat
  ctrl : CtrlMode
  stranded : Bool
  asg : Option Assignment
  link : Option Link
  claim : Option Nat
  mark : Option Nat
  park : Option ParkEntry
deriving DecidableEq, Repr

/-- A robot after power-on, with the configuration given (R4, R14). -/
def Robot.fresh (node : Option Nat) (lane : Nat) : Robot :=
  ⟨node, lane, .unknown, none, none, 0, 0, 0, none, .auto, false, none, none, none, none, none⟩

/-- The purpose of a transfer (R108, R124). -/
inductive Purpose where | round | park
deriving DecidableEq, Repr

/-- The phases of a transfer (R113). -/
inductive Phase where | approach | boarding | travel | alighting
deriving DecidableEq, Repr

/-- The outcomes of a transfer (R113). -/
inductive OutcomeKind where | done | failed | stalled | withdrawn
deriving DecidableEq, Repr

/-- A transfer record (R112, R113). tag: the phase's order is queued or on the air. Not entered and without a tag, the
order is held for room (R113). -/
structure Transfer where
  robot : Nat
  origin : Nat
  dest : Nat
  purpose : Purpose
  phase : Phase
  entered : Bool
  deadline : Option Nat
  stalled : Bool
  tag : Option Nat
deriving DecidableEq, Repr

/-- A cart's last-transfer fields (R112); no outcome from a grant that replaces them until that transfer ends. -/
structure LastTransfer where
  robot : Nat
  dest : Nat
  outcome : Option OutcomeKind
deriving DecidableEq, Repr

/-- A pending CART HOLD: queued or on the air with a tag, or held for room without one (R119). -/
structure HoldRec where
  tag : Option Nat
deriving DecidableEq, Repr

/-- A cart garage list entry (R141). -/
structure GarageEntry where
  last : Option Nat
  held : Bool
deriving DecidableEq, Repr

/-- A cart: configuration (R1, R4), record (R22), transfer (R112), pending hold (R119), garage list entry (R141). -/
structure Cart where
  node : Option Nat
  lane : Nat
  garage : Nat
  state : CartState
  slot : Nat
  moving : Bool
  garaged : Bool
  load : Option Nat
  fault : Nat
  heard : Option Nat
  recover : Bool
  transfer : Option Transfer
  lastTransfer : Option LastTransfer
  hold : Option HoldRec
  garageEntry : Option GarageEntry
deriving DecidableEq, Repr

/-- A cart after power-on, with the configuration given (R4, R22, R126). -/
def Cart.fresh (node : Option Nat) (lane garage : Nat) : Cart :=
  ⟨node, lane, garage, .unknown, 0, false, false, none, 0, none, false, none, none, none, none⟩

/-- A mast's irradiance record (R59). -/
structure IrrRec where
  value : Nat
  time : Nat
deriving DecidableEq, Repr

/-- A mast: configuration (R1, R4), wind record (R127), irradiance record (R59). -/
structure Mast where
  node : Option Nat
  ref : Bool
  gust : Option Nat
  mean : Option Nat
  heard : Option Nat
  irr : Option IrrRec
deriving DecidableEq, Repr

/-- A mast after power-on. -/
def Mast.powerOn : Mast := ⟨none, false, none, none, none, none⟩

/-! ### Site-wide records -/

/-- A site bank (R60). -/
structure SiteBank where
  sum : Nat
  count : Nat
deriving DecidableEq, Repr

/-- The walk record: the close as handed (start and end plant time, T, site-void), the mean irradiance, the cursor and
the four totals (R69). -/
structure Walk where
  start : Nat
  endTime : Nat
  t : Nat
  siteVoid : Bool
  gbar : Nat
  cursor : Nat
  lost : Nat
  recovered : Nat
  voids : Nat
  thins : Nat
deriving DecidableEq, Repr

/-- The Yield Engine's site-wide records (R60, R69). -/
structure YieldUnit where
  openSite : Option SiteBank
  closingSite : Option SiteBank
  walk : Option Walk
deriving DecidableEq, Repr

/-- A due list entry (R89). -/
structure DueEntry where
  row : Nat
  u : Nat
  since : Nat
  claimant : Option Nat
deriving DecidableEq, Repr

/-- The round record and the due list (R86, R89). -/
structure Planner where
  isOpen : Bool
  openedAt : Option Nat
  reason : Option CloseReason
  due : List DueEntry
deriving DecidableEq, Repr

/-- A waiting transfer request (R108). -/
structure Request where
  robot : Nat
  origin : Nat
  dest : Nat
  time : Nat
  purpose : Purpose
deriving DecidableEq, Repr

/-- A storm advisory (R150). -/
structure Advisory where
  arrival : Nat
  parkEntry : Nat
deriving DecidableEq, Repr

/-- The Storm Controller: state, the start times of the running timers (R129), site gust (R128), advisory (R150), and
whether the mast silence event has been raised since a mast was last heard (R128, log 26). -/
structure StormUnit where
  state : StormState
  watchT : Option Nat
  parkT : Option Nat
  calmT : Option Nat
  releaseT : Option Nat
  lockoutT : Option Nat
  gust : Option Nat
  advisory : Option Advisory
  silent : Bool
deriving DecidableEq, Repr

/-- The sweep's mode (R142). -/
inductive SweepMode where | off | park | lockout
deriving DecidableEq, Repr

/-- The sweep record; the rows' progress stands in the rows, and the count of waiting entries is the number of rows
marked waiting (R142). -/
structure Sweep where
  mode : SweepMode
  cursor : Nat
deriving DecidableEq, Repr

/-- The state of the part, with the queue of commands that wait and the counter that selects free values. -/
structure State where
  pending : List Instr
  clk : Clk
  ep : EpochUnit
  ctl : Ctl
  ntc : Notices
  up : Uplink
  dsp : Dispatcher
  lookup : List (Nat × NodeId)
  rows : Tab Row.powerOn
  robots : Tab (Robot.fresh none 0)
  carts : Tab (Cart.fresh none 0 0)
  masts : Tab Mast.powerOn
  yld : YieldUnit
  rnd : Planner
  laneQ : Tab ([] : List Request)
  stm : StormUnit
  swp : Sweep
  choices : Nat
deriving DecidableEq, Repr

/-- The reasons the part stops with a fault: none. Every rule of the manual ends in an effect, an answer or a drop, so
the type has no constructor and no step can fault. -/
inductive Fault where
deriving DecidableEq, Repr

/-- The reasons a command is refused by the model. -/
inductive Refusal where
  /-- Raised by exec for a command that has no meaning yet, naming its mnemonic; safe: the run stops. No arm raises
  it in this model. -/
  | notModelled (mnemonic : String)
deriving DecidableEq, Repr

/-- The part right after power-on or the reset input, with an empty queue: every record at the value its owner's
chapter gives (R1, R3 to R5, R14, R22, R27, R40, R43 to R45, R54, R56, R59 to R61, R66, R68, R106, R126, R127, R130,
R142, R150, R155, R156, R159, R161, R169, R170, R173). The level of send-permit is the model's choice (log 6). -/
def State.reset : State where
  pending := []
  clk := ⟨0, 0, false⟩
  ep := ⟨none, none, Staging.empty, none, Accum.zero⟩
  ctl := ⟨.unconfigured, ⟨0x00F0, 0x00F1, 0x0001⟩, Params.defaults, ⟨.all, .all, .all, .all⟩, Tab.empty _⟩
  ntc := ⟨0, 0, 0, false⟩
  up := ⟨[], none, []⟩
  dsp := ⟨[], [], 0, none, none, false, 0, none, none, [], 0x00F1⟩
  lookup := []
  rows := Tab.empty _
  robots := Tab.empty _
  carts := Tab.empty _
  masts := Tab.empty _
  yld := ⟨none, none, none⟩
  rnd := ⟨false, none, none, []⟩
  laneQ := Tab.empty _
  stm := ⟨.calm, none, none, none, none, none, none, none, false⟩
  swp := ⟨.off, 0⟩
  choices := 0

end Sys2Proof.Machine
end

