-- ==== Sys2Proof/Machine/Flags.lean ====
section
/-! DEFINITION. The notice flags as bits of the three flag sets (R169, R170, 11.4). -/

namespace Sys2Proof.Machine

/-- A flag's bit number: the order of the table of 9.1, from STORM_STATE (11.4). -/
def Flag.idx : Flag → Nat
  | .stormState => 0
  | .robotFault => 1
  | .robotOffline => 2
  | .stranded => 3
  | .positionConflict => 4
  | .cartFault => 5
  | .transferFailed => 6
  | .transferStalled => 7
  | .mastSilent => 8
  | .rowPinned => 9
  | .levelFault => 10
  | .baselineLow => 11
  | .epochVoid => 12
  | .clockStep => 13
  | .accountSaturated => 14
  | .fieldFraming => 15
  | .uplinkFraming => 16
  | .unknownNode => 17
  | .fieldStall => 18

/-- The set holding one flag. -/
def Flag.bit (f : Flag) : BitVec 19 := 1#19 <<< f.idx

/-- Whether a set holds a flag. -/
def hasFlag (set : BitVec 19) (f : Flag) : Bool := set.getLsbD f.idx

/-- The flag marks of a request: bits 19 to 23 are ignored when received (11.4). -/
def flagMarks (marks : BitVec 24) : BitVec 19 := marks.setWidth 19

/-- Latching: the flag set, and its risen mark set only when it was clear (R169). -/
def Notices.latch (n : Notices) (f : Flag) : Notices :=
  if hasFlag n.latched f then n
  else ⟨n.latched ||| f.bit, n.risen ||| f.bit, n.mask, n.owed⟩

/-- NOTICE CLEAR: each marked flag and its risen mark clear, the others kept (R174). -/
def Notices.clear (n : Notices) (marks : BitVec 19) : Notices :=
  ⟨n.latched &&& ~~~marks, n.risen &&& ~~~marks, n.mask, n.owed⟩

/-- Whether replacing the mask unmasks a flag that is set (R170). -/
def Notices.unmasks (n : Notices) (mask : BitVec 19) : Bool :=
  decide (n.latched &&& n.mask &&& ~~~mask ≠ 0#19)

end Sys2Proof.Machine
end

