-- ==== Sys2Proof/Machine/Bytes.lean ====
section
/-! DEFINITION. Bytes on the links: field byte order, the check sequence, building and taking apart a frame (R178, R179,
11.1). -/

namespace Sys2Proof.Machine

/-- The n low-order bytes of a number, most significant first (R178). -/
def be : Nat → Nat → List Byte
  | 0, _ => []
  | n + 1, v => BitVec.ofNat 8 (v / 256 ^ n) :: be n v

/-- The number that bytes spell, most significant first (R178). -/
def ofBe (l : List Byte) : Nat := l.foldl (fun a b => a * 256 + b.toNat) 0

/-- One bit of the check sequence: polynomial 0x1021 (R179). -/
def crcBit (c : Half) : Half := if c.msb then (c <<< 1) ^^^ 0x1021#16 else c <<< 1

/-- One byte of the check sequence, most significant bit first (R179). -/
def crcByte (c : Half) (b : Byte) : Half :=
  crcBit (crcBit (crcBit (crcBit (crcBit (crcBit (crcBit (crcBit (c ^^^ (b.setWidth 16 <<< 8)))))))))

/-- The check sequence of bytes in transmission order, initial value 0xFFFF, no final inversion (R179). -/
def crc (l : List Byte) : Half := l.foldl crcByte 0xFFFF#16

/-- The start delimiter (11.1). -/
def delimiter : Byte := 0xC3#8

/-- A frame on the wire: delimiter, destination, source, class, payload length, payload, check sequence (11.1). -/
def frameBytes (dst src cls : Nat) (payload : List Byte) : List Byte :=
  let body := be 2 dst ++ be 2 src ++ be 1 cls ++ be 1 payload.length ++ payload
  delimiter :: body ++ be 2 (crc body).toNat

/-- A frame that has passed the check sequence and length checks. -/
structure RxFrame where
  dst : Nat
  src : Nat
  cls : Nat
  payload : List Byte
deriving DecidableEq, Repr

/-- What a port finds in the bytes collected between two idle times (R24, R154, R179). -/
inductive RxVerdict where
  /-- The bytes do not begin with the start delimiter: no frame is recognised. -/
  | noFrame
  /-- The check sequence or the length is wrong. -/
  | bad
  /-- Both checks pass. -/
  | good (f : RxFrame)
deriving DecidableEq, Repr

/-- Judge the bytes collected as one frame: check sequence over all between delimiter and the last two bytes, a payload
length of at most 56, and a byte count of 9 plus the payload length (R24, R179). -/
def judgeFrame : List Byte → RxVerdict
  | [] => .noFrame
  | b :: rest =>
    if b ≠ delimiter then .noFrame
    else
      match rest with
      | d1 :: d2 :: s1 :: s2 :: cls :: len :: tail =>
        if len.toNat ≤ 56 ∧ tail.length = len.toNat + 2 then
          let payload := tail.take len.toNat
          if ofBe (tail.drop len.toNat) = (crc (d1 :: d2 :: s1 :: s2 :: cls :: len :: payload)).toNat then
            .good ⟨ofBe [d1, d2], ofBe [s1, s2], cls.toNat, payload⟩
          else .bad
        else .bad
      | _ => .bad

end Sys2Proof.Machine
end

