-- ==== Sys2Proof/Machine/Operands.lean ====
section
/-! DEFINITION. The operand forms: the codes of report, order and request fields (11.2 to 11.4, R180, R181) and the
answer codes (11.4). -/

namespace Sys2Proof.Machine

/-! ### Field reports (11.3) -/

/-- Posture codes of ROW SAMPLE. -/
def Posture.ofCode : Nat → Option Posture
  | 0 => some .tracking
  | 1 => some .level
  | 2 => some .stowed
  | 3 => some .moving
  | _ => none

/-- The code of a posture. -/
def Posture.code : Posture → Nat
  | .tracking => 0
  | .level => 1
  | .stowed => 2
  | .moving => 3

/-- Activity codes of ROBOT STATUS. -/
def Activity.ofCode : Nat → Option Activity
  | 0 => some .idle
  | 1 => some .cleaning
  | 2 => some .returning
  | 3 => some .boarding
  | 4 => some .aboard
  | 5 => some .alighting
  | _ => none

/-- The code of an activity. -/
def Activity.code : Activity → Nat
  | .idle => 0
  | .cleaning => 1
  | .returning => 2
  | .boarding => 3
  | .aboard => 4
  | .alighting => 5

/-- Pass result codes: 0 absent, 1 COMPLETE, 2 INCOMPLETE. -/
def passResultOfCode : Nat → Option (Option PassResult)
  | 0 => some none
  | 1 => some (some .complete)
  | 2 => some (some .incomplete)
  | _ => none

/-- Position codes with the index range of R180: rows to 1023 for DOCK and ROW, carts to 7. -/
def Pos.ofCode (kind index : Nat) : Option Pos :=
  match kind with
  | 0 => if index ≤ 1023 then some (.dock index) else none
  | 1 => if index ≤ 1023 then some (.row index) else none
  | 2 => if index ≤ 7 then some (.cart index) else none
  | _ => none

/-- A flag byte: 0 or 1 (R180). -/
def flagOfCode : Nat → Option Bool
  | 0 => some false
  | 1 => some true
  | _ => none

/-- A ROBOT STATUS whose fields pass R180. -/
structure RobotReport where
  pos : Pos
  activity : Activity
  result : Option PassResult
  metres : Nat
  charge : Nat
  fault : Nat
deriving DecidableEq, Repr

/-- The field check of a ROBOT STATUS (R180). -/
def RobotReport.ofFields (kind index activity result metres charge fault : Nat) : Option RobotReport :=
  match Pos.ofCode kind index, Activity.ofCode activity, passResultOfCode result with
  | some p, some a, some r => if charge ≤ 4095 then some ⟨p, a, r, metres, charge, fault⟩ else none
  | _, _, _ => none

/-- A CART STATUS whose fields pass R180; the load is still an address. -/
structure CartReport where
  slot : Nat
  moving : Bool
  garaged : Bool
  load : Nat
  fault : Nat
deriving DecidableEq, Repr

/-- The field check of a CART STATUS (R180). -/
def CartReport.ofFields (slot motion garaged load fault : Nat) : Option CartReport :=
  match flagOfCode motion, flagOfCode garaged with
  | some m, some g => some ⟨slot, m, g, load, fault⟩
  | _, _ => none

/-- A ROW SAMPLE whose fields pass R180. -/
structure RowReport where
  current : Nat
  posture : Posture
  fault : Bool
deriving DecidableEq, Repr

/-- The field check of a ROW SAMPLE (R180). -/
def RowReport.ofFields (current posture fault : Nat) : Option RowReport :=
  match Posture.ofCode posture, flagOfCode fault with
  | some p, some f => some ⟨current, p, f⟩
  | _, _ => none

/-- A MAST SAMPLE whose fields pass R180. -/
structure MastReport where
  irradiance : Nat
  mean : Nat
  gust : Nat
deriving DecidableEq, Repr

/-- The field check of a MAST SAMPLE (R180). -/
def MastReport.ofFields (irradiance mean gust : Nat) : Option MastReport :=
  if irradiance ≤ 1600 ∧ mean ≤ 800 ∧ gust ≤ 800 then some ⟨irradiance, mean, gust⟩ else none

/-- Class codes of the field reports (11.2). -/
def clsRobotStatus : Nat := 0x10
def clsCartStatus : Nat := 0x11
def clsRowSample : Nat := 0x12
def clsMastSample : Nat := 0x13
def clsLeaveAsk : Nat := 0x14

/-- The payload length of a field report class, none for any other class (11.2, R24). -/
def reportLength : Nat → Option Nat
  | 0x10 => some 10
  | 0x11 => some 6
  | 0x12 => some 4
  | 0x13 => some 6
  | 0x14 => some 0
  | _ => none

/-! ### Field orders (11.2, 11.3, R40) -/

/-- The kind of an order. -/
def Order.kind : Order → Kind
  | .rowLevel => .rowLevel
  | .rowRelease => .rowRelease
  | .rowStow => .rowStow
  | .passSetup _ _ => .passSetup
  | .passRun => .passRun
  | .passAbort => .passAbort
  | .dockHold => .dockHold
  | .board _ => .board
  | .alight _ => .alight
  | .leaveAnswer _ => .leaveAnswer
  | .cartFetch _ => .cartFetch
  | .cartCarry _ => .cartCarry
  | .cartGarage _ => .cartGarage
  | .cartHold => .cartHold

/-- A kind's column of the order policy table (R40). -/
def Kind.idx : Kind → Nat
  | .rowLevel => 0
  | .rowRelease => 1
  | .rowStow => 2
  | .passSetup => 3
  | .passRun => 4
  | .passAbort => 5
  | .dockHold => 6
  | .board => 7
  | .alight => 8
  | .leaveAnswer => 9
  | .cartFetch => 10
  | .cartCarry => 11
  | .cartGarage => 12
  | .cartHold => 13

/-- The class code of an order: 0x20 and on, in R40's order (11.2). -/
def Order.cls (o : Order) : Nat := 0x20 + o.kind.idx

/-- The payload of an order (11.3). -/
def Order.payload : Order → List Byte
  | .passSetup l b => be 2 l ++ be 1 b
  | .board c => be 1 c
  | .alight r => be 2 r
  | .leaveAnswer g => be 1 g
  | .cartFetch s => be 1 s
  | .cartCarry s => be 1 s
  | .cartGarage s => be 1 s
  | _ => []

/-- The order that a class code and a payload spell; none for a class that is no field order or a payload of another
length (R181). -/
def Order.ofWire (cls : Nat) (p : List Byte) : Option Order :=
  match cls, p with
  | 0x20, [] => some .rowLevel
  | 0x21, [] => some .rowRelease
  | 0x22, [] => some .rowStow
  | 0x23, [a, b, c] => some (.passSetup (ofBe [a, b]) c.toNat)
  | 0x24, [] => some .passRun
  | 0x25, [] => some .passAbort
  | 0x26, [] => some .dockHold
  | 0x27, [c] => some (.board c.toNat)
  | 0x28, [a, b] => some (.alight (ofBe [a, b]))
  | 0x29, [g] => some (.leaveAnswer g.toNat)
  | 0x2A, [s] => some (.cartFetch s.toNat)
  | 0x2B, [s] => some (.cartCarry s.toNat)
  | 0x2C, [s] => some (.cartGarage s.toNat)
  | 0x2D, [] => some .cartHold
  | _, _ => none

/-- Whether an order's payload holds only values of its encoding (R181). -/
def Order.encodable : Order → Bool
  | .passSetup _ b => decide (b ≤ 1)
  | .board c => decide (c ≤ 7)
  | .alight r => decide (r ≤ 1023)
  | .leaveAnswer g => decide (g ≤ 1)
  | _ => true

/-- The node kind that takes an order kind (R39). -/
def Kind.target : Kind → NodeKind
  | .rowLevel | .rowRelease | .rowStow => .row
  | .passSetup | .passRun | .passAbort | .dockHold | .board | .alight | .leaveAnswer => .robot
  | .cartFetch | .cartCarry | .cartGarage | .cartHold => .cart

/-- The kinds that no storm lets leave the field port: PASS RUN, PASS SETUP, BOARD (R29, R36, R37). -/
def Kind.stormHeld : Kind → Bool
  | .passSetup | .passRun | .board => true
  | _ => false

/-- The fixed drop set (R40). -/
def Kind.fixedDrop : Kind → Bool
  | .passRun | .passSetup | .board | .cartFetch | .cartCarry | .rowRelease => true
  | _ => false

/-- The storm states in which the fixed drops and the storm checks hold: PARK, SECURED, LOCKOUT, RELEASE (R36, R40). -/
def StormState.stormy : StormState → Bool
  | .park | .secured | .lockout | .release => true
  | _ => false

/-- A storm state's row of the order policy table and its code in a view (11.6). -/
def StormState.idx : StormState → Nat
  | .calm => 0
  | .watch => 1
  | .park => 2
  | .secured => 3
  | .lockout => 4
  | .release => 5

/-! ### Uplink requests and answers (11.4) -/

/-- The answer codes (11.4, R153). -/
inductive Code where
  | accepted | busy | refusedState | windy | tooEarly | queueFull | badTable | badIndex | checkFailed | notConfigured
deriving DecidableEq, Repr

/-- The code byte of an answer. -/
def Code.num : Code → Nat
  | .accepted => 0
  | .busy => 1
  | .refusedState => 2
  | .windy => 3
  | .tooEarly => 4
  | .queueFull => 5
  | .badTable => 6
  | .badIndex => 7
  | .checkFailed => 8
  | .notConfigured => 9

/-- Request class codes (11.2). -/
def clsTableWrite : Nat := 0x40
def clsTableRead : Nat := 0x41
def clsControl : Nat := 0x42
def clsOrder : Nat := 0x43

/-- Uplink frame class codes the part sends (11.2). -/
def clsTableData : Nat := 0x50
def clsAnswer : Nat := 0x51
def clsNotice : Nat := 0x52
def clsReport : Nat := 0x53
def clsRelayed : Nat := 0x54

/-- The argument length of a CONTROL kind, none for a kind 11.4 does not list. -/
def controlArgLength : Nat → Option Nat
  | 1 | 2 | 6 | 11 | 13 => some 0
  | 3 | 5 => some 4
  | 4 | 8 | 10 => some 1
  | 7 | 12 => some 2
  | 9 | 14 | 15 => some 3
  | _ => none

/-- Whether an uplink frame's class and payload length are ones the part takes (R154, R181). -/
def requestLengthOk (cls : Nat) (p : List Byte) : Bool :=
  match cls with
  | 0x40 => decide (p.length = 9)
  | 0x41 => decide (p.length = 5)
  | 0x42 =>
    match p with
    | _ :: k :: arg =>
      match controlArgLength k.toNat with
      | some n => decide (arg.length = n)
      | none => true
    | _ => false
  | 0x43 =>
    match p with
    | _ :: _ :: _ :: c :: rest => (Order.ofWire c.toNat rest).isSome
    | _ => false
  | _ => false

end Sys2Proof.Machine
end

