-- ==== Sys2Proof/Machine/Ops.lean ====
section
/-! DEFINITION. The shared operations: reading and changing records, latching notices, the uplink queue and answers, the
two order queues, and work whose order the manual leaves open. -/

namespace Sys2Proof.Machine

/-! ### Reading -/

/-- The present monotonic time (R44). -/
def State.now (s : State) : Nat := s.clk.mono

/-- The active value of a parameter (R159). -/
def State.par (s : State) (p : Param) : Nat := s.ctl.params.get p.place

/-- Whether the part is RUNNING (R161). -/
def State.running (s : State) : Bool := decide (s.ctl.mode = .running)

/-- The time of day: the plant clock modulo 86400 (R45). -/
def State.tod (s : State) : Nat := s.clk.clock % 86400

def State.row (s : State) (r : Nat) : Row := s.rows.get r
def State.robot (s : State) (x : Nat) : Robot := s.robots.get x
def State.cart (s : State) (c : Nat) : Cart := s.carts.get c
def State.mast (s : State) (m : Nat) : Mast := s.masts.get m

/-- The configured rows, robots, carts and masts in index order (R1). -/
def State.rowIds (s : State) : List Nat := s.rows.idsWhere (fun r => r.cfg.node.isSome)
def State.robotIds (s : State) : List Nat := s.robots.idsWhere (fun x => x.node.isSome)
def State.cartIds (s : State) : List Nat := s.carts.idsWhere (fun c => c.node.isSome)
def State.mastIds (s : State) : List Nat := s.masts.idsWhere (fun m => m.node.isSome)

def State.rowOk (s : State) (r : Nat) : Bool := (s.row r).cfg.node.isSome
def State.robotOk (s : State) (x : Nat) : Bool := (s.robot x).node.isSome
def State.cartOk (s : State) (c : Nat) : Bool := (s.cart c).node.isSome

/-- The address in a node's slot (R2); 0 for an empty slot, to which nothing is ever addressed. -/
def State.rowAddr (s : State) (r : Nat) : Nat := (s.row r).cfg.node.getD 0
def State.robotAddr (s : State) (x : Nat) : Nat := (s.robot x).node.getD 0
def State.cartAddr (s : State) (c : Nat) : Nat := (s.cart c).node.getD 0

/-- The address lookup (R2). -/
def State.nodeAt (s : State) (a : Nat) : Option NodeId :=
  (s.lookup.find? (fun e => decide (e.1 = a))).map (fun e => e.2)

/-- The row, robot or cart at an address, if the lookup gives one of that kind. -/
def State.rowAt (s : State) (a : Nat) : Option Nat :=
  match s.nodeAt a with
  | some ⟨.row, i⟩ => some i
  | _ => none

def State.robotAt (s : State) (a : Nat) : Option Nat :=
  match s.nodeAt a with
  | some ⟨.robot, i⟩ => some i
  | _ => none

def State.cartAt (s : State) (a : Nat) : Option Nat :=
  match s.nodeAt a with
  | some ⟨.cart, i⟩ => some i
  | _ => none

def State.mastAt (s : State) (a : Nat) : Option Nat :=
  match s.nodeAt a with
  | some ⟨.mast, i⟩ => some i
  | _ => none

/-! ### Changing records -/

def State.updCfg (s : State) (r : Nat) (f : RowCfg → RowCfg) : State :=
  { s with rows := s.rows.upd r (fun x => { x with cfg := f x.cfg }) }

def State.updSup (s : State) (r : Nat) (f : RowSup → RowSup) : State :=
  { s with rows := s.rows.upd r (fun x => { x with sup := f x.sup }) }

def State.updStow (s : State) (r : Nat) (f : Stow → Stow) : State :=
  { s with rows := s.rows.upd r (fun x => { x with stow := f x.stow }) }

def State.updRel (s : State) (r : Nat) (f : Option RelEntry → Option RelEntry) : State :=
  { s with rows := s.rows.upd r (fun x => { x with rel := f x.rel }) }

def State.updSoil (s : State) (r : Nat) (f : Soil → Soil) : State :=
  { s with rows := s.rows.upd r (fun x => { x with soil := f x.soil }) }

def State.updAcct (s : State) (r : Nat) (f : Account → Account) : State :=
  { s with rows := s.rows.upd r (fun x => { x with acct := f x.acct }) }

def State.updBanks (s : State) (r : Nat) (f : Banks → Banks) : State :=
  { s with rows := s.rows.upd r (fun x => { x with banks := f x.banks }) }

def State.updRobot (s : State) (x : Nat) (f : Robot → Robot) : State := { s with robots := s.robots.upd x f }

def State.updCart (s : State) (c : Nat) (f : Cart → Cart) : State := { s with carts := s.carts.upd c f }

def State.updMast (s : State) (m : Nat) (f : Mast → Mast) : State := { s with masts := s.masts.upd m f }

/-- Change the Row Supervisor's fields, or the stow progress, of every stored row; f keeps the power-on value. -/
def State.mapSup (s : State) (f : RowSup → RowSup) : State :=
  { s with rows := s.rows.map (fun x => { x with sup := f x.sup }) }

def State.mapStow (s : State) (f : Stow → Stow) : State :=
  { s with rows := s.rows.map (fun x => { x with stow := f x.stow }) }

def State.setDsp (s : State) (f : Dispatcher → Dispatcher) : State := { s with dsp := f s.dsp }

def State.setStm (s : State) (f : StormUnit → StormUnit) : State := { s with stm := f s.stm }

def State.setRnd (s : State) (f : Planner → Planner) : State := { s with rnd := f s.rnd }

def State.setEp (s : State) (f : EpochUnit → EpochUnit) : State := { s with ep := f s.ep }

def State.setYld (s : State) (f : YieldUnit → YieldUnit) : State := { s with yld := f s.yld }

/-- Store a parameter's active value. -/
def State.setPar (s : State) (p : Param) (v : Nat) : State :=
  { s with ctl := { s.ctl with params := s.ctl.params.set p.place v } }

/-! ### Work in an order the manual leaves open -/

/-- Insert a keyed candidate before the first one whose key is not smaller. -/
def insertKeyed {β : Type} (x : Nat × β) : List (Nat × β) → List (Nat × β)
  | [] => [x]
  | y :: t => if x.1 ≤ y.1 then x :: y :: t else y :: insertKeyed x t

/-- The candidates in the order that the free keys of choice n give (log 2). One candidate, or none, leaves nothing
open. -/
def freeOrder {β : Type} (n : Nat) (l : List β) : List β :=
  match l with
  | [] => []
  | [a] => [a]
  | _ => ((l.zipIdx.map (fun p => (Config.orderKey n p.2, p.1))).foldr insertKeyed []).map (fun p => p.2)

/-- Do every piece of work once, in an order that the manual leaves open. -/
def inAnyOrder (l : List (State → State)) (s : State) : State :=
  match l with
  | [] => s
  | [f] => f s
  | _ => (freeOrder s.choices l).foldl (fun t f => f t) { s with choices := s.choices + 1 }

/-- A piece of work that is there only when its condition holds. -/
def onlyIf (b : Bool) (f : State → State) : List (State → State) := if b then [f] else []

/-! ### Uplink queue, notices, answers -/

/-- Whether a NOTICE waits in the uplink queue with its frame not started (R171). -/
def State.noticeWaiting (s : State) : Bool :=
  (if s.up.air.isSome then s.up.queue.tail else s.up.queue).any (fun e => decide (e = .notice))

/-- Put a frame at the tail of the uplink queue. -/
def State.pushUp (s : State) (e : UpEntry) : State := { s with up := { s.up with queue := s.up.queue ++ [e] } }

/-- Offer a NOTICE to the uplink queue: it is placed, or owed when 64 entries are present (R171, R173). -/
def offerNotice (s : State) : State :=
  if s.up.queue.length < 64 then { (s.pushUp .notice) with ntc := { s.ntc with owed := false } }
  else { s with ntc := { s.ntc with owed := true } }

/-- Cause a NOTICE, unless one is waiting or owed (R171). -/
def causeNotice (s : State) : State := if s.noticeWaiting || s.ntc.owed then s else offerNotice s

/-- Latch a flag; the rise of an unmasked flag causes a NOTICE (R169 to R171). -/
def latch (f : Flag) (s : State) : State :=
  if hasFlag s.ntc.latched f then s
  else
    let t := { s with ntc := s.ntc.latch f }
    if hasFlag s.ntc.mask f then t else causeNotice t

/-- Latch a flag when a condition holds. -/
def latchIf (b : Bool) (f : Flag) (s : State) : State := if b then latch f s else s

/-- Offer an answer frame; it is dropped when 64 entries are present (R155). -/
def offerAnswer (dst cls : Nat) (payload : List Byte) (s : State) : State :=
  if s.up.queue.length < 64 then s.pushUp (.answer dst cls payload) else s

/-- Answer a request with a CONTROL ANSWER: tag, request class, kind, code, detail (R153, 11.4). -/
def reply (q : Req) (cls kind : Nat) (code : Code) (detail : List Byte) (s : State) : State :=
  offerAnswer q.src.toNat clsAnswer (q.tag :: (be 1 cls ++ be 1 kind ++ be 1 code.num) ++ detail) s

/-- Answer a CONTROL request of a kind. -/
def replyCtl (q : Req) (kind : Nat) (code : Code) (detail : List Byte) (s : State) : State :=
  reply q clsControl kind code detail s

/-- A frame whose destination is not the part's uplink address is no request to the part (R154). -/
def taken (q : Req) (s : State) (f : State → State) : State :=
  if q.dst.toNat = s.ctl.part.uplink then f s else s

/-- A CONTROL request that is not taken while UNCONFIGURED (R161). -/
def takenRunning (q : Req) (kind : Nat) (s : State) (f : State → State) : State :=
  taken q s (fun s => if s.running then f s else replyCtl q kind .notConfigured [] s)

/-- Offer a report's copy as a RELAYED frame: only while fewer than 48 entries are present (R28). -/
def offerRelay (src cls : Nat) (payload : List Byte) (s : State) : State :=
  if s.up.queue.length < 48 then s.pushUp (.relayed src (be 1 cls ++ payload)) else s

/-! ### The order queues (R29 to R31) -/

/-- How an offer of a group was answered: with its tag, or refused. -/
inductive Offer where
  | accepted (tag : Nat)
  | noRoom
  | stormRefused
deriving DecidableEq, Repr

/-- The consecutive entries of a group: one tag, the last-in-group flag on the final one (R29). -/
def groupEntries (owner : Owner) (dest tag : Nat) : List Order → List Entry
  | [] => []
  | [o] => [⟨dest, o, tag, true, owner⟩]
  | o :: t => ⟨dest, o, tag, false, owner⟩ :: groupEntries owner dest tag t

/-- Offer a group to the routine queue: refused with PASS RUN, PASS SETUP or BOARD in a storm state, refused without
room for all of it among 256 entries, else appended whole with a fresh tag (R29). -/
def offerRoutine (owner : Owner) (dest : Nat) (os : List Order) (s : State) : State × Offer :=
  if s.stm.state.stormy && os.any (fun o => o.kind.stormHeld) then (s, .stormRefused)
  else if s.dsp.routine.length + os.length > 256 then (s, .noRoom)
  else
    (s.setDsp (fun d => { d with
      routine := d.routine ++ groupEntries owner dest d.nextTag os, nextTag := d.nextTag + 1 }),
     .accepted s.dsp.nextTag)

/-- The broadcast address (R2, R145). -/
def broadcast : Nat := 0xFFFF

/-- Whether an urgent entry has a destination and a kind (R30). -/
def Entry.isFor (e : Entry) (dest : Nat) (k : Kind) : Bool := decide (e.dest = dest) && decide (e.order.kind = k)

/-- The urgent entries other than the LOCKOUT broadcast (R30). -/
def urgentWork (l : List Entry) : Nat := (l.filter (fun e => decide (e.dest ≠ broadcast))).length

/-- Offer one order to the urgent queue: absorbed into the present entry of its destination and kind, refused while 128
entries besides the broadcast are present, else appended. The answer says whether it was accepted (R30). -/
def offerUrgent (owner : Owner) (dest : Nat) (o : Order) (s : State) : State × Bool :=
  if s.dsp.urgent.any (fun e => e.isFor dest o.kind) then
    (s.setDsp (fun d => { d with
      urgent := d.urgent.map (fun e => if e.isFor dest o.kind then { e with order := o } else e) }), true)
  else if urgentWork s.dsp.urgent ≥ 128 then (s, false)
  else
    (s.setDsp (fun d => { d with
      urgent := d.urgent ++ [⟨dest, o, d.nextTag, true, owner⟩], nextTag := d.nextTag + 1 }), true)

/-- Place the LOCKOUT broadcast ROW STOW at the head of the urgent queue; one already present moves there (R145). -/
def offerBroadcast (s : State) : State :=
  match s.dsp.urgent.find? (fun e => e.isFor broadcast .rowStow) with
  | some e => s.setDsp (fun d => { d with urgent := e :: d.urgent.filter (fun e => !e.isFor broadcast .rowStow) })
  | none =>
    s.setDsp (fun d => { d with
      urgent := ⟨broadcast, .rowStow, d.nextTag, true, .storm⟩ :: d.urgent, nextTag := d.nextTag + 1 })

/-- Remove the entries of the queues that satisfy p. -/
def dropEntries (p : Entry → Bool) (s : State) : State :=
  s.setDsp (fun d => { d with urgent := d.urgent.filter (fun e => !p e), routine := d.routine.filter (fun e => !p e) })

/-- Withdraw a group by tag: its entries still queued are removed, and a group in progress ends (R31). -/
def withdrawTag (tag : Nat) (s : State) : State :=
  (dropEntries (fun e => decide (e.tag = tag)) s).setDsp (fun d => { d with
    group := if d.group.any (fun g => decide (g.tag = tag)) then none else d.group })

/-- Withdraw a group whose tag may be absent. -/
def withdrawTag? (tag : Option Nat) (s : State) : State :=
  match tag with
  | some t => withdrawTag t s
  | none => s

/-- Whether an entry of the group is still queued: the withdrawal answer is not "none left" (R31, R100). -/
def State.queued (s : State) (tag : Nat) : Bool :=
  s.dsp.routine.any (fun e => decide (e.tag = tag)) || s.dsp.urgent.any (fun e => decide (e.tag = tag))

/-! ### Robots on rows and docks -/

/-- A robot is on a row when its context records the row as its position and it is ON_ROW, STRANDED, OFFLINE or FAULTED
(R13). -/
def Robot.onRow (x : Robot) (r : Nat) : Bool :=
  decide (x.pos = some (.row r)) &&
    (decide (x.state = .onRow) || decide (x.state = .stranded) || decide (x.state = .offline) ||
     decide (x.state = .faulted))

/-- Whether some configured robot is on the row (R13). -/
def State.robotOn (s : State) (r : Nat) : Bool := s.robots.anyRec (fun x => x.node.isSome && x.onRow r)

/-- The dock a robot occupies (R11). -/
def State.dockOf (s : State) (x : Nat) : Option Nat :=
  (s.rows.idsWhere (fun r => decide (r.sup.occupant = some x))).head?

/-- Free every dock the robot is recorded at (R11). -/
def freeDock (x : Nat) (s : State) : State :=
  s.mapSup (fun u => if u.occupant = some x then { u with occupant := none } else u)

/-- Make a robot the occupant of a dock, and of no other; a reservation of that dock becomes the occupancy (R11, R12). -/
def occupy (x r : Nat) (s : State) : State :=
  (freeDock x s).updSup r (fun u => { u with occupant := some x, reservation := none })

/-- Set a row's pinned mark, latching ROW_PINNED when it rises (R13). -/
def pinRow (r : Nat) (s : State) : State :=
  if (s.row r).sup.pinned then s else latch .rowPinned (s.updSup r (fun u => { u with pinned := true }))

/-- Mark a row's open bank disturbed (R62). -/
def disturb (r : Nat) (s : State) : State :=
  s.updBanks r (fun b => { b with opened := b.opened.map (fun k => { k with disturbed := true }) })

/-- Distance along a lane in slots. -/
def slotDist (a b : Nat) : Nat := (a - b) + (b - a)

/-- Do a piece of work for each index in order. -/
def forEach (l : List Nat) (f : Nat → State → State) (s : State) : State := l.foldl (fun t i => f i t) s

/-- Saturating counts at 4,294,967,295 and 65535 (R56, R61, R68). -/
def satQuad (n : Nat) : Nat := min n 4294967295
def satHalf (n : Nat) : Nat := min n 65535

end Sys2Proof.Machine
end

