-- ==== Sys2Proof/Machine/RowSupervisor.lean ====
section
/-! DEFINITION. The Row Supervisor's posture arbitration: claims, demand, posture orders, level requests, the Row
Supervisor's part of a ROW SAMPLE (R5 to R10, R13). The stow sweep stands in Sweep.lean. -/

namespace Sys2Proof.Machine

/-- The demand that the two claims give (R6). -/
def RowSup.wanted (u : RowSup) : Demand :=
  if u.stowClaim then .stow else if u.levelClaim.isSome then .level else .track

/-- A posture order of a row: ROW LEVEL or ROW RELEASE to its controller, owned by ROW (R7). -/
def Entry.isPosture (e : Entry) (addr : Nat) : Bool :=
  decide (e.owner = .row) && decide (e.dest = addr) &&
    (decide (e.order = .rowLevel) || decide (e.order = .rowRelease))

/-- Whether a posture order of the row is in the routine queue unsent (R7). -/
def State.postureUnsent (s : State) (r : Nat) : Bool := s.dsp.routine.any (fun e => e.isPosture (s.rowAddr r))

/-- Withdraw the row's unsent posture order (R7, R31). -/
def dropPosture (r : Nat) (s : State) : State :=
  s.setDsp (fun d => { d with routine := d.routine.filter (fun e => !e.isPosture (s.rowAddr r)) })

/-- Offer a posture order; a full routine queue sets the row's posture order pending mark (R7). -/
def offerPosture (r : Nat) (o : Order) (s : State) : State :=
  match offerRoutine .row (s.rowAddr r) [o] s with
  | (t, .accepted _) => t.updSup r (fun u => { u with orderPending := false })
  | (t, _) => t.updSup r (fun u => { u with orderPending := true })

/-- Work the demand out again after a claim changed, with the order R7 gives for a change. The answer says whether a
change to LEVEL found the row LEVEL and so reports the level claim reached (R7, R8); told once per claim. -/
def applyDemand (r : Nat) (s : State) : State × Bool :=
  let u := (s.row r).sup
  let new := u.wanted
  if new = u.demand then (s, false)
  else
    let hadOrder := s.postureUnsent r || u.orderPending
    let t := (dropPosture r s).updSup r (fun v => { v with demand := new, orderPending := false })
    match new with
    | .stow => (t, false)
    | .level =>
      if u.reported = some .level then
        if u.told then (t, false)
        else (t.updSup r (fun v => { v with told := true, levelDeadline := none }), true)
      else (offerPosture r .rowLevel t, false)
    | .track =>
      if hadOrder && decide (u.demand = .level) && decide (u.reported = some .tracking) then (t, false)
      else (offerPosture r .rowRelease t, false)

/-- The Row Supervisor's answer to a level request (R6, R7). -/
inductive LevelAnswer where
  /-- Another robot holds the level claim. -/
  | refused
  /-- The claim is recorded; the row is not level yet. -/
  | waiting
  /-- The row is level already. -/
  | reached
deriving DecidableEq, Repr

/-- The level request for a robot: refused while another robot holds the claim; behind STOW, or behind a full routine
queue, the level deadline starts at the request (R6, R9). -/
def levelRequest (x r : Nat) (s : State) : State × LevelAnswer :=
  if (s.row r).sup.levelClaim.any (fun y => decide (y ≠ x)) then (s, .refused)
  else
    let t := s.updSup r (fun u => { u with levelClaim := some x, told := false, levelDeadline := none })
    match applyDemand r t with
    | (t, true) => (t, .reached)
    | (t, false) =>
      let u := (t.row r).sup
      if u.stowClaim || u.orderPending then
        (t.updSup r (fun v => { v with levelDeadline := some (t.now + t.par .levelTimeout) }), .waiting)
      else (t, .waiting)

/-- Release a robot's level claim; without one there is nothing to release (R6, R9). -/
def releaseLevel (x r : Nat) (s : State) : State :=
  if (s.row r).sup.levelClaim = some x then
    (applyDemand r
      (s.updSup r (fun u => { u with levelClaim := none, told := false, levelDeadline := none }))).1
  else s

/-- Set a row's stow claim (R6). -/
def setStow (r : Nat) (s : State) : State :=
  (applyDemand r (s.updSup r (fun u => { u with stowClaim := true }))).1

/-- Clear a row's stow claim; the answer is that of applyDemand (R6). -/
def clearStow (r : Nat) (s : State) : State × Bool := applyDemand r (s.updSup r (fun u => { u with stowClaim := false }))

/-- Offer again the order for the present demand of a row whose posture order is pending (R7). A demand of STOW has no
order of R7 (log 19). -/
def reofferPosture (r : Nat) (s : State) : State :=
  let u := (s.row r).sup
  if u.orderPending then
    match u.demand with
    | .stow => s.updSup r (fun v => { v with orderPending := false })
    | .level => offerPosture r .rowLevel s
    | .track => offerPosture r .rowRelease s
  else s

/-- The rows with a pending posture order, offered lowest index first until the queue refuses one (R7, R147). -/
def reofferPostures : List Nat → State → State
  | [], s => s
  | r :: t, s =>
    let s' := reofferPosture r s
    if (s'.row r).sup.orderPending then s' else reofferPostures t s'

/-- The row's ROW LEVEL leaves the field port: the level deadline starts, unless one runs or the claim has been
reported reached (R9). -/
def levelLeft (r : Nat) (s : State) : State :=
  let u := (s.row r).sup
  if u.levelClaim.isSome && !u.told && u.levelDeadline.isNone then
    s.updSup r (fun v => { v with levelDeadline := some (s.now + s.par .levelTimeout) })
  else s

/-- Whether a posture matches a demand (R13). -/
def Posture.meets (p : Posture) (d : Demand) : Bool :=
  match p, d with
  | .tracking, .track => true
  | .level, .level => true
  | .stowed, .stow => true
  | _, _ => false

/-- The tracker fault of a sample: the level-fault mark, latching LEVEL_FAULT if it was clear (R8). -/
def sampleFault (r : Nat) (fault : Bool) (s : State) : State :=
  if fault && !(s.row r).sup.levelFault then
    latch .levelFault (s.updSup r (fun u => { u with levelFault := true }))
  else s

/-- The resync of a first sample: the mark is cleared, and a row that should track and stands level or stowed is
released (R8). A posture order of the row still unsent is withdrawn and the new one takes the tail (log 51). -/
def sampleResync (r : Nat) (p : Posture) (s : State) : State :=
  let u := (s.row r).sup
  if u.resync then
    let t := s.updSup r (fun v => { v with resync := false })
    if decide (u.demand = .track) && (decide (p = .level) || decide (p = .stowed)) then
      offerPosture r .rowRelease (dropPosture r t)
    else t
  else s

/-- A sample that reports the posture the demand asks for, with no robot on the row, clears the pinned mark (R13). -/
def sampleUnpin (r : Nat) (p : Posture) (s : State) : State :=
  let u := (s.row r).sup
  if u.pinned && p.meets u.demand && !s.robotOn r then s.updSup r (fun v => { v with pinned := false }) else s

/-- Level reached: the level deadline goes, and the planner is to be told of the claim's robot, once per claim (R8). -/
def sampleLevel (r : Nat) (p : Posture) (s : State) : State × Option Nat :=
  let u := (s.row r).sup
  if decide (p = .level) && decide (u.demand = .level) && !u.told then
    match u.levelClaim with
    | some x => (s.updSup r (fun v => { v with told := true, levelDeadline := none }), some x)
    | none => (s, none)
  else (s, none)

/-- The Row Supervisor's own part of a ROW SAMPLE: posture, level reached, tracker fault, resync, pin (R8, R13). The
answer is the robot whose row is now level. -/
def supervisorSample (r : Nat) (p : Posture) (fault : Bool) (s : State) : State × Option Nat :=
  let s := s.updSup r (fun u => { u with reported := some p })
  let s := sampleFault r fault s
  let s := sampleResync r p s
  let s := sampleUnpin r p s
  sampleLevel r p s

end Sys2Proof.Machine
end

