-- ==== Sys2Proof/Machine/Transfer.lean ====
section
/-! DEFINITION. The Transfer Controller's own records: requests and lane queues, the cart arbiter, phase orders, CART
HOLD, cart states (R22, R107 to R115, R119). What a transfer's end hands on stands in TransferEnd.lean. -/

namespace Sys2Proof.Machine

/-! ### Cart states (R22) -/

/-- The state that R22's table gives a cart's record. -/
def Cart.derived (c : Cart) : CartState :=
  if c.fault ≠ 0 then .faulted
  else if c.recover then .recover
  else if c.transfer.isSome then .busy
  else if c.load.isSome || c.moving then .busy
  else if c.garaged then .garaged
  else .idle

/-- A cart whose record changed without a status: its state is derived again, its recover mark kept; a FAULTED cart
stays FAULTED until its next fault-free status (R23, R116, R120; log 21). -/
def Cart.rederive (c : Cart) : Cart := if c.state = .faulted then c else { c with state := c.derived }

/-- A cart's state put to RECOVER unless it is FAULTED, with the recover mark set (R117, R118, R119). -/
def Cart.toRecover (c : Cart) : Cart :=
  { c with recover := true, state := if c.state = .faulted then .faulted else .recover }

/-! ### Lane queues (R107, R108) -/

/-- A lane's queue. -/
def State.lane (s : State) (l : Nat) : List Request := s.laneQ.get l

/-- Change a lane's queue. -/
def State.updLane (s : State) (l : Nat) (f : List Request → List Request) : State :=
  { s with laneQ := s.laneQ.upd l f }

/-- Free the reservation of a row's dock if it is for the robot (R12). -/
def freeReservation (x r : Nat) (s : State) : State :=
  s.updSup r (fun u => if u.reservation.any (fun v => decide (v.robot = x)) then { u with reservation := none } else u)

/-! ### The cart arbiter (R110 to R112) -/

/-- A cart's eligibility for requests of a lane (R110). -/
def Cart.eligible (c : Cart) (lane : Nat) : Bool :=
  c.node.isSome && decide (c.lane = lane) && (decide (c.state = .idle) || decide (c.state = .garaged)) &&
    c.transfer.isNone && !c.recover && c.hold.isNone && c.load.isNone

/-- The eligible carts of a lane in index order. -/
def State.eligibleCarts (s : State) (lane : Nat) : List Nat := s.carts.idsWhere (fun c => c.eligible lane)

/-- Of candidates in index order, the one with the least distance, the lower index winning a tie. -/
def nearest (dist : Nat → Nat) : List Nat → Option Nat
  | [] => none
  | a :: t =>
    match nearest dist t with
    | none => some a
    | some b => if dist a ≤ dist b then some a else some b

/-- The order of the phase a transfer has begun, with its destination (R113). -/
def phaseOrder (c : Nat) (t : Transfer) (s : State) : Nat × Order :=
  match t.phase with
  | .approach => (s.cartAddr c, .cartFetch (s.row t.origin).cfg.slot)
  | .boarding => (s.robotAddr t.robot, .board c)
  | .travel => (s.cartAddr c, .cartCarry (s.row t.dest).cfg.slot)
  | .alighting => (s.robotAddr t.robot, .alight t.dest)

/-- Offer a begun phase's order when it is held; the answer is none when nothing is to be offered (R113). -/
def offerPhase (c : Nat) (s : State) : State × Option Offer :=
  match (s.cart c).transfer with
  | none => (s, none)
  | some t =>
    if t.entered || t.stalled || t.tag.isSome then (s, none)
    else
      let o := phaseOrder c t s
      match offerRoutine .transfer o.1 [o.2] s with
      | (s', .accepted g) =>
        (s'.updCart c (fun k => { k with transfer := k.transfer.map (fun t => { t with tag := some g }) }),
         some (.accepted g))
      | (s', a) => (s', some a)

/-- Grant a cart to the head request of a lane: one event; last-transfer fields that are present are replaced (R112; log
33). -/
def grant (lane c : Nat) (q : Request) (s : State) : State :=
  let s := s.updLane lane (fun l => l.tail)
  let s := s.updCart c (fun k => { k with
    transfer := some ⟨q.robot, q.origin, q.dest, q.purpose, .approach, false, none, false, none⟩, state := .busy
    lastTransfer := k.lastTransfer.map (fun _ => ⟨q.robot, q.dest, none⟩) })
  let s := s.updSup q.dest (fun u => { u with reservation := some ⟨q.robot, some c⟩ })
  let s := s.updRobot q.robot (fun x => { x with link := some (.cart c) })
  (offerPhase c s).1

/-- Grants of one lane until it has no eligible cart or no waiting request, at most as many as requests wait (R111). -/
def grants (lane : Nat) : Nat → State → State
  | 0, s => s
  | n + 1, s =>
    match s.lane lane with
    | [] => s
    | q :: _ =>
      match nearest (fun c => slotDist (s.cart c).slot (s.row q.origin).cfg.slot) (s.eligibleCarts lane) with
      | none => s
      | some c => grants lane n (grant lane c q s)

/-- The cart arbiter of a lane: it grants only while the storm state is CALM (R111). -/
def arbiter (lane : Nat) (s : State) : State :=
  if s.stm.state = .calm then grants lane (s.lane lane).length s else s

/-- The arbiters of all lanes. -/
def arbiters (s : State) : State := forEach (List.range 8) arbiter s

/-- The answers to a transfer request (R107). -/
inductive RequestAnswer where | engaged | dockTaken | queueFull | accepted
deriving DecidableEq, Repr

/-- The answer a transfer request gets on the state as it stands (R107). -/
def State.requestAnswer (s : State) (x origin dest : Nat) : RequestAnswer :=
  let k := s.robot x
  let d := (s.row dest).sup
  if k.asg.isSome || k.link.isSome || decide (k.state ≠ .docked) || decide (k.pos ≠ some (.dock origin)) then .engaged
  else if d.occupant.isSome || d.reservation.isSome then .dockTaken
  else if (s.lane k.lane).length ≥ 16 then .queueFull
  else .accepted

/-- A transfer request of the Round Planner: reservation, queue, link, and the arbiter when it is at the head (R107). -/
def requestTransfer (x origin dest : Nat) (s : State) : State × RequestAnswer :=
  match s.requestAnswer x origin dest with
  | .accepted =>
    let lane := (s.robot x).lane
    let t := s.updSup dest (fun u => { u with reservation := some ⟨x, none⟩ })
    let t := t.updLane lane (fun l => l ++ [⟨x, origin, dest, s.now, .round⟩])
    let t := t.updRobot x (fun k => { k with link := some .queued })
    (if s.lane lane = [] then arbiter lane t else t, .accepted)
  | a => (s, a)

/-! ### CART HOLD (R119) -/

/-- Offer CART HOLD to a cart; refused for room it is held, and pending meanwhile (R119). -/
def offerHold (c : Nat) (s : State) : State :=
  match offerRoutine .transfer (s.cartAddr c) [.cartHold] s with
  | (t, .accepted g) => t.updCart c (fun k => { k with hold := some ⟨some g⟩ })
  | (t, _) => t.updCart c (fun k => { k with hold := some ⟨none⟩ })

/-- Offer again a hold that is held for room (R113, R119). -/
def reofferHold (c : Nat) (s : State) : State :=
  if (s.cart c).hold = some ⟨none⟩ then offerHold c s else s

/-! ### Phases (R113 to R115) -/

/-- The transfer's robot is aboard: its position is CART at the cart, or the cart's load names it (R115). -/
def State.aboard (s : State) (c x : Nat) : Bool :=
  decide ((s.robot x).pos = some (.cart c)) || decide ((s.cart c).load = some x)

/-- Both records agree that the robot is on the cart (R115). -/
def State.aboardBoth (s : State) (c x : Nat) : Bool :=
  decide ((s.robot x).pos = some (.cart c)) && decide ((s.cart c).load = some x)

/-- The deadline of a phase from its entry (R113). -/
def phaseDeadline (c : Nat) (t : Transfer) (s : State) : Nat :=
  match t.phase with
  | .approach => s.now + s.par .approachBase + s.par .slotTime * slotDist (s.cart c).slot (s.row t.origin).cfg.slot
  | .boarding => s.now + s.par .boardTimeout
  | .travel =>
    s.now + s.par .travelBase + s.par .slotTime * slotDist (s.row t.origin).cfg.slot (s.row t.dest).cfg.slot
  | .alighting => s.now + s.par .alightTimeout

/-- The sent event of a TRANSFER order: its phase is entered with its deadline, or a pending hold ends and the cart may
be eligible (R34, R113, R119). A tag that no record holds is ignored. -/
def transferSent (tag : Nat) (s : State) : State :=
  let one (c : Nat) (s : State) : State :=
    let k := s.cart c
    if k.hold = some ⟨some tag⟩ then arbiter k.lane (s.updCart c (fun k => { k with hold := none }))
    else
      match k.transfer with
      | some t =>
        if t.tag = some tag ∧ t.stalled = false then
          s.updCart c (fun k => { k with
            transfer := some { t with entered := true, tag := none, deadline := some (phaseDeadline c t s) } })
        else s
      | none => s
  forEach s.cartIds one s

/-- The next phase begins without an order yet (R113). -/
def Transfer.next (t : Transfer) (p : Phase) : Transfer :=
  { t with phase := p, entered := false, deadline := none, tag := none }

/-- The phase a cart's transfer goes on to, when its end condition holds on the records as they stand (R113 to R115).
stopped: a status of the cart with fault code 0 reports it STOPPED at this slot. -/
def State.phaseEnd (s : State) (c : Nat) (stopped : Option Nat) : Option Phase :=
  match (s.cart c).transfer with
  | none => none
  | some t =>
    if !t.entered || t.stalled then none
    else
      match t.phase with
      | .approach => if stopped = some (s.row t.origin).cfg.slot then some .boarding else none
      | .boarding => if s.aboardBoth c t.robot then some .travel else none
      | .travel => if stopped = some (s.row t.dest).cfg.slot then some .alighting else none
      | .alighting => none

end Sys2Proof.Machine
end

