-- ==== Sys2Proof/Machine/Yield.lean ====
section
/-! DEFINITION. The Yield Engine: site irradiance, sample ratios, the soiling and energy arithmetic of one row of a
walk, the due judgement, cleaning completion, account clearing (R59 to R85). -/

namespace Sys2Proof.Machine

/-! ### Reference irradiance (R59, R60) -/

/-- An irradiance record is fresh while the time is no later than its arrival plus mast_stale_s (R59). -/
def State.fresh (s : State) (i : IrrRec) : Bool := decide (s.now ≤ i.time + s.par .mastStale)

/-- The irradiances of the fresh records of configured masts, in mast order (R59). -/
def State.freshValues (s : State) : List Nat :=
  s.masts.1.filterMap (fun m =>
    match m.2.irr with
    | some i => if m.2.node.isSome && s.fresh i then some i.value else none
    | none => none)

/-- The floor of the mean of a list, none for an empty one. -/
def meanOf (l : List Nat) : Option Nat := if l = [] then none else some (l.sum / l.length)

/-- The site irradiance G, or none when it is stale (R59). -/
def State.siteG (s : State) : Option Nat := meanOf s.freshValues

/-- A reference mast's sample added to a site bank; a full count takes no more (R60). -/
def SiteBank.add (b : SiteBank) (g : Nat) : SiteBank := if b.count < 65535 then ⟨b.sum + g, b.count + 1⟩ else b

/-- A reference mast's sample at the Yield Engine: its record replaced, and the open site bank summed (R59, R60). -/
def takeIrradiance (m g : Nat) (s : State) : State :=
  if (s.mast m).ref then
    (s.updMast m (fun k => { k with irr := some ⟨g, s.now⟩ })).setYld (fun y =>
      { y with openSite := y.openSite.map (fun b => b.add g) })
  else s

/-! ### Samples (R63 to R65) -/

/-- The expected current E (R64). -/
def expectedCurrent (iref g : Nat) : Nat := iref * g / 1000

/-- The sample ratio P (R65). -/
def sampleRatio (i e : Nat) : Nat := min (i * 4096 / e) 8191

/-- A valid sample's ratio banked; a full count takes no more (R65). -/
def Bank.addRatio (b : Bank) (p : Nat) : Bank :=
  if b.valid < 65535 then { b with ratioSum := b.ratioSum + p, valid := b.valid + 1 } else b

/-- A row sample against an open bank: posture, unmetered, stale, validity, in R63's order (R63 to R65). -/
def Bank.take (b : Bank) (iref gmin : Nat) (g : Option Nat) (r : RowReport) : Bank :=
  let b := if r.posture ≠ .tracking ∨ r.fault = true then { b with broken := true } else b
  if iref = 0 then b
  else
    match g with
    | none => { b with stale := satHalf (b.stale + 1) }
    | some g =>
      let e := expectedCurrent iref g
      if r.posture = .tracking ∧ r.fault = false ∧ gmin ≤ g ∧ e ≠ 0 then b.addRatio (sampleRatio r.current e) else b

/-- The Yield Engine's part of a ROW SAMPLE (R63); with no epoch open the row has no open bank. -/
def bankSample (r : Nat) (rep : RowReport) (s : State) : State :=
  s.updBanks r (fun k => { k with
    opened := k.opened.map (fun b => b.take (s.row r).cfg.iref (s.par .gmin) s.siteG rep) })

/-! ### One row of a walk (R69 to R76) -/

/-- A fresh bank (R49). -/
def Bank.fresh (disturbed staged : Bool) : Bank := ⟨0, 0, 0, disturbed, false, staged⟩

/-- What a walk finds a row to be (R70 to R72). -/
inductive RowClass where | void | thin | full
deriving DecidableEq, Repr

/-- A row's class for the epoch of its closing bank (R70 to R72). -/
def classify (iref minSamples : Nat) (b : Bank) : RowClass :=
  if iref = 0 ∨ b.disturbed = true ∨ b.broken = true ∨ b.staged = true then .void
  else if b.valid < minSamples then .thin
  else .full

/-- The epoch's soiling loss L against a baseline (R73). -/
def soilingLoss (b p : Nat) : Nat := if b ≤ p then 0 else (b - p) * 1000 / b

/-- The new soiling figure: the floor-weighted mean of old figure and loss (R73). -/
def smoothed (k s l : Nat) : Nat := (s * (2 ^ k - 1) + l) / 2 ^ k

/-- A full epoch's mean ratio settled into the soiling record: capture, or loss; the answer says whether a capture
found the ratio below 2048 (R72, R73). -/
def Soil.settle (o : Soil) (k p : Nat) : Soil × Bool :=
  if o.capture then
    if 2048 ≤ p then ({ o with b := some p, capture := false }, false) else (o, true)
  else
    match o.b with
    | none => (o, false)
    | some b => ({ o with s := smoothed k o.s (soilingLoss b p) }, false)

/-- Units of W × W/m² × permille × s in one watt-hour (R74). -/
def unitsPerWh : Nat := 3600000000

/-- An energy counter's limit (R68). -/
def energyLimit : Nat := 4294967295

/-- An energy term: new counter, new residue, the amount actually added, and whether the counter saturated (R74, R76). -/
structure Energy where
  counter : Nat
  residue : Nat
  added : Nat
  saturated : Bool
deriving DecidableEq, Repr

/-- Add N to a counter and its residue (R74, R76). -/
def addEnergy (counter residue n : Nat) : Energy :=
  let q := (residue + n) / unitsPerWh
  if counter + q > energyLimit then ⟨energyLimit, 0, energyLimit - counter, true⟩
  else ⟨counter + q, (residue + n) % unitsPerWh, q, false⟩

/-- The gain of a row: S_pre above S, or 0 (R75). -/
def gain (sPre s : Nat) : Nat := sPre - s

/-- Lost and recovered terms of a full or thin row after its S is settled (R74 to R76): record and account, amounts
added, and whether a counter saturated. -/
def energyTerms (prated gbar t : Nat) (o : Soil) (a : Account) : Soil × Account × Nat × Nat × Bool :=
  let l := addEnergy a.lost a.lostRes (prated * gbar * o.s * t)
  let a := { a with lost := l.counter, lostRes := l.residue }
  match o.sPre with
  | none => (o, a, l.added, 0, l.saturated)
  | some p =>
    let r := addEnergy a.recovered a.recoveredRes (prated * gbar * gain p o.s * t)
    ({ o with sPre := if p ≤ o.s then none else some p },
     { a with recovered := r.counter, recoveredRes := r.residue }, l.added, r.added, l.saturated || r.saturated)

/-- A void row of a walk: one void epoch and nothing else (R69, R70). -/
def walkVoid (r : Nat) (w : Walk) (s : State) : State :=
  (s.updAcct r (fun a => { a with voids := satQuad (a.voids + 1) })).setYld (fun y =>
    { y with walk := some { w with voids := w.voids + 1 } })

/-- A full or thin row of a walk: soiling record, energy terms, totals and flags (R71 to R76). -/
def walkMeasured (r : Nat) (w : Walk) (b : Bank) (full : Bool) (s : State) : State :=
  let row := s.row r
  let k := if full then row.soil.settle (s.par .smoothing) (b.ratioSum / b.valid) else (row.soil, false)
  let e := energyTerms row.cfg.prated w.gbar w.t k.1 row.acct
  let acct := if full then e.2.1 else { e.2.1 with thins := satQuad (e.2.1.thins + 1) }
  let s := (s.updSoil r (fun _ => e.1)).updAcct r (fun _ => acct)
  let s := s.setYld (fun y => { y with
    walk := some { w with lost := w.lost + e.2.2.1, recovered := w.recovered + e.2.2.2.1,
                          thins := w.thins + (if full then 0 else 1) } })
  latchIf e.2.2.2.2 .accountSaturated (latchIf k.2 .baselineLow s)

/-- The walk's step for one row; a row without a closing bank is passed by (R69 to R76, R85). The answer says whether
the row's due judgement is handed on (R81). -/
def walkRow (r : Nat) (w : Walk) (s : State) : State × Bool :=
  match (s.row r).banks.closing with
  | none => (s, false)
  | some b =>
    if w.siteVoid then (walkVoid r w s, false)
    else
      match classify (s.row r).cfg.iref (s.par .minSamples) b with
      | .void => (walkVoid r w s, false)
      | .thin => (walkMeasured r w b false s, true)
      | .full => (walkMeasured r w b true s, true)

/-! ### Due judgement (R79, R80) -/

/-- A row's urgency U (R79). -/
def urgency (s prated : Nat) : Nat := s * prated / 1000

/-- A due judgement with the row's U (R80). -/
inductive Judgement where
  | due (u : Nat)
  | hold (u : Nat)
  | clear
deriving DecidableEq, Repr

/-- A row's due threshold: its own, or the default (R80). -/
def State.dueThreshold (s : State) (r : Nat) : Nat := ((s.row r).cfg.sDue).getD (s.par .sDueDefault)

/-- A row's due judgement from its record as it stands (R80). S at most threshold minus hysteresis is written without
subtraction. -/
def State.judge (s : State) (r : Nat) : Judgement :=
  let row := s.row r
  if row.cfg.node.isNone || decide (row.cfg.iref = 0) || row.soil.b.isNone then .clear
  else if s.dueThreshold r ≤ row.soil.s then .due (urgency row.soil.s row.cfg.prated)
  else if row.soil.s + s.par .dueHysteresis ≤ s.dueThreshold r then .clear
  else .hold (urgency row.soil.s row.cfg.prated)

/-! ### Cleaning completion and account clearing (R82 to R85) -/

/-- Whether a walk in flight has not reached a row (R83, R85). -/
def State.unreached (s : State) (r : Nat) : Bool := s.yld.walk.any (fun w => decide (w.cursor ≤ r))

/-- A cleaning completion of a row: soiling record, count, open bank, and the closing bank of a row that a walk in
flight has not reached (R82, R83). -/
def completeCleaning (r : Nat) (s : State) : State :=
  let late := s.unreached r
  let s := s.updSoil r (fun o => ⟨0, none, true, some o.s, some s.clk.clock⟩)
  let s := s.updAcct r (fun a => { a with cleanings := satQuad (a.cleanings + 1) })
  let s := disturb r s
  if late then s.updBanks r (fun k => { k with closing := k.closing.map (fun b => { b with disturbed := true }) }) else s

/-- ACCOUNT CLEAR of one row: the account zeroed, and the closing bank discarded of a row that a walk in flight has not
reached (R84, R85). -/
def clearAccount (r : Nat) (s : State) : State :=
  let late := s.unreached r
  let s := s.updAcct r (fun _ => Account.zero)
  if late then s.updBanks r (fun k => { k with closing := none }) else s

end Sys2Proof.Machine
end

