-- ==== Sys2Proof/Machine/Planner.lean ====
section
/-! DEFINITION. The Round Planner: due list and claims, availability and fitness, planning, dispatch, the phases and the
end of a pass, the round (R86 to R106), with the withdrawal of a queued transfer request (R109). -/

namespace Sys2Proof.Machine

/-! ### The due list (R89 to R92) -/

/-- The order of the due list: U descending, then row ascending (R89). -/
def DueEntry.before (a b : DueEntry) : Bool := decide (b.u < a.u) || (decide (a.u = b.u) && decide (a.row < b.row))

/-- Insert an entry in order. -/
def insertDue (e : DueEntry) : List DueEntry → List DueEntry
  | [] => [e]
  | d :: t => if e.before d then e :: d :: t else d :: insertDue e t

/-- A row's entry. -/
def State.dueEntry (s : State) (r : Nat) : Option DueEntry := s.rnd.due.find? (fun e => decide (e.row = r))

/-- Take a row out of the due list. -/
def removeDue (r : Nat) (s : State) : State :=
  s.setRnd (fun p => { p with due := p.due.filter (fun e => decide (e.row ≠ r)) })

/-- Place an entry, replacing the row's present one (R89). -/
def placeDue (e : DueEntry) (s : State) : State :=
  (removeDue e.row s).setRnd (fun p => { p with due := insertDue e p.due })

/-- Drop a robot's claim, on both records (R92). -/
def dropClaim (x : Nat) (s : State) : State :=
  match (s.robot x).claim with
  | none => s
  | some _ =>
    (s.updRobot x (fun k => { k with claim := none })).setRnd (fun p => { p with
      due := p.due.map (fun e => if e.claimant = some x then { e with claimant := none } else e) })

/-- Place a robot's claim on a due row, on both records (R92). -/
def placeClaim (x r : Nat) (s : State) : State :=
  (s.updRobot x (fun k => { k with claim := some r })).setRnd (fun p => { p with
    due := p.due.map (fun e => if e.row = r then { e with claimant := some x } else e) })

/-- Drop the robot's claim on any row but this one (R95). -/
def dropOtherClaim (x r : Nat) (s : State) : State := if (s.robot x).claim = some r then s else dropClaim x s

/-- Whether a robot holds an assignment for the row (R89). -/
def State.assigned (s : State) (r : Nat) : Bool := s.robots.anyRec (fun k => k.asg.any (fun a => decide (a.row = r)))

/-- A row of a dropped or settled assignment re-enters the list when its judgement is DUE or HOLD (R100, R102). The
answer says whether it did. -/
def reenter (r : Nat) (s : State) : State × Bool :=
  match s.judge r with
  | .due u => (placeDue ⟨r, u, s.clk.clock, none⟩ s, true)
  | .hold u => (placeDue ⟨r, u, s.clk.clock, none⟩ s, true)
  | .clear => (s, false)

/-! ### Robots and rows (R93, R94) -/

/-- A robot's availability (R93). -/
def Robot.available (k : Robot) : Bool :=
  k.node.isSome && decide (k.state = .docked) && decide (k.ctrl = .auto) && k.asg.isNone && k.link.isNone &&
    k.park.isNone

/-- The dock row of a docked robot (R93). -/
def Robot.dockRow (k : Robot) : Option Nat :=
  match k.pos with
  | some (.dock r) => some r
  | _ => none

/-- A row's charge need: the ceiling of length × pass cost / 1000, plus the charge reserve (R94). -/
def State.chargeNeed (s : State) (r : Nat) : Nat :=
  ((s.row r).cfg.length * s.par .passCost + 999) / 1000 + s.par .chargeReserve

/-- Whether a due row fits a robot, its charge apart (R94). -/
def State.fitsApart (s : State) (x : Nat) (e : DueEntry) : Bool :=
  let row := s.row e.row
  decide (row.cfg.lane = (s.robot x).lane) && (e.claimant.isNone || decide (e.claimant = some x)) &&
    !row.sup.levelFault && decide (row.sup.reported = some .tracking) &&
    ((row.sup.occupant.isNone && row.sup.reservation.isNone) || decide (row.sup.occupant = some x))

/-- Whether a due row fits a robot (R94). -/
def State.fits (s : State) (x : Nat) (e : DueEntry) : Bool :=
  s.fitsApart x e && decide (s.chargeNeed e.row ≤ (s.robot x).charge)

/-- The least number of a list. -/
def least : List Nat → Option Nat
  | [] => none
  | a :: t => some (t.foldl min a)

/-- The charge mark of a robot that found no fitting row: the lowest charge need among the rows that failed on charge
alone (R94). -/
def State.markFor (s : State) (x : Nat) : Option Nat :=
  least ((s.rnd.due.filter (fun e => s.fitsApart x e)).map (fun e => s.chargeNeed e.row))

/-! ### The pass group (R99) -/

/-- Change a robot's assignment. -/
def updAsg (x : Nat) (f : Assignment → Assignment) (s : State) : State :=
  s.updRobot x (fun k => { k with asg := k.asg.map f })

/-- Offer [PASS SETUP, PASS RUN] for an assignment: its tag, or the mark that the group is held for room. The answer
says whether the storm state refused it (R99, R29). -/
def offerPass (x : Nat) (a : Assignment) (s : State) : State × Bool :=
  match offerRoutine .round (s.robotAddr x)
      [.passSetup (s.row a.row).cfg.length (if a.heavy then 1 else 0), .passRun] s with
  | (t, .accepted g) => (updAsg x (fun a => { a with phase := .setup, tag := some g, held := false }) t, false)
  | (t, .noRoom) => (updAsg x (fun a => { a with phase := .setup, held := true }) t, false)
  | (t, .stormRefused) => (updAsg x (fun a => { a with phase := .setup }) t, true)

/-- Offer again a pass group held for room (R99). -/
def reofferPass (x : Nat) (s : State) : State × Bool :=
  match (s.robot x).asg with
  | some a => if a.phase = .setup ∧ a.held = true then offerPass x a s else (s, false)
  | none => (s, false)

/-- A planning event also offers the held pass groups again (R99), in robot index order and before the due list is read
(log 53). Planning runs only in CALM, where no offer is refused for the storm. -/
def reofferAtPlanning (s : State) : State := forEach s.robotIds (fun x s => (reofferPass x s).1) s

/-! ### Planning (R95, R97, R98) -/

/-- Take the assignment away, release the level claim, and return the row to the list (R100, R102, R103). The answer is
the row if it re-entered. -/
def endAssignment (x : Nat) (a : Assignment) (s : State) : State × Bool :=
  reenter a.row (releaseLevel x a.row (s.updRobot x (fun k => { k with asg := none })))

/-- Dispatch of a robot to a row: one event (R98). A refused level request drops the assignment, and nothing is
planned further (R98, log 24). -/
def dispatch (x r : Nat) (s : State) : State :=
  let a : Assignment :=
    ⟨r, .leveling, decide (2 * s.dueThreshold r ≤ (s.row r).soil.s), none, false, none, false⟩
  let s := removeDue r s
  let s := s.updRobot x (fun k => { k with claim := none, asg := some a })
  let s := disturb r s
  match levelRequest x r s with
  | (s, .refused) => (reenter r (s.updRobot x (fun k => { k with asg := none }))).1
  | (s, .waiting) => s
  | (s, .reached) => (offerPass x a s).1

/-- Steps 4 and 5 of planning: dispatch at the own dock row, otherwise a claim and a ROUND transfer request; a refused
request drops the claim (R95, R96). -/
def takeRow (x r : Nat) (s : State) : State :=
  let s := dropOtherClaim x r s
  match (s.robot x).dockRow with
  | none => s
  | some d =>
    if d = r then dispatch x r s
    else
      match requestTransfer x d r (placeClaim x r s) with
      | (s, .accepted) => s
      | (s, _) => dropClaim x s

/-- Planning for a robot: only while the round is open and the robot is available (R95). -/
def planRobot (x : Nat) (s : State) : State :=
  if s.rnd.isOpen && (s.robot x).available then
    let s := reofferAtPlanning s
    match s.rnd.due.find? (fun e => s.fits x e) with
    | none => s.updRobot x (fun k => { k with mark := s.markFor x })
    | some e => takeRow x e.row (s.updRobot x (fun k => { k with mark := none }))
  else s

/-- The available robots of a row's lane that an entry fits, in index order (R97). -/
def State.candidates (s : State) (e : DueEntry) : List Nat :=
  s.robotIds.filter (fun x => (s.robot x).available && s.fits x e)

/-- Planning for a row that entered the list while the round is open: offered to the nearest available robot that it
fits (R97). -/
def planRow (r : Nat) (s : State) : State :=
  if s.rnd.isOpen then
    let s := reofferAtPlanning s
    match s.dueEntry r with
    | none => s
    | some e =>
      match nearest (fun x => slotDist (s.row ((s.robot x).dockRow.getD 0)).cfg.slot (s.row r).cfg.slot)
          (s.candidates e) with
      | none => s
      | some x => takeRow x r s
  else s

/-- Offer a row that re-entered the list, unless it has gained a claimant or left again (R100, R102). -/
def offerReturned (r : Nat) (s : State) : State :=
  match s.dueEntry r with
  | some e => if e.claimant.isNone then planRow r s else s
  | none => s

/-- A pass not started, or an abandoned assignment settled: assignment, level claim, row, then the robot and the row
planned (R100, R102). -/
def endPass (x : Nat) (s : State) : State :=
  match (s.robot x).asg with
  | none => s
  | some a =>
    match endAssignment x a s with
    | (s, true) => offerReturned a.row (planRobot x s)
    | (s, false) => planRobot x s

/-- Abandonment of a pass that is running; it is settled at once when the robot is off the row (R102). -/
def abandon (x : Nat) (s : State) : State :=
  match (s.robot x).asg with
  | none => s
  | some a =>
    if a.abandoned then s
    else
      let s := updAsg x (fun a => { a with phase := .running, abandoned := true, deadline := none }) s
      if (s.robot x).pos = some (.row a.row) then s else endPass x s

/-- An assignment in SETUP whose group is withdrawn, or discarded when it is held: not started while entries of the
group were left, and otherwise running (R100, R104). -/
def decideSetup (x : Nat) (onRunning : State → State) (s : State) : State :=
  match (s.robot x).asg with
  | none => s
  | some a =>
    match a.tag with
    | none => endPass x s
    | some g => if s.queued g then endPass x (withdrawTag g s) else onRunning s

/-- A completed pass (R101). -/
def completePass (x r : Nat) (s : State) : State :=
  let s := completeCleaning r s
  let s := releaseLevel x r s
  planRobot x (s.updRobot x (fun k => { k with asg := none }))

/-- The row of a robot's assignment is level: the pass group is offered; refused for the storm the pass is not started
(R99). -/
def rowLevelTold (x : Nat) (s : State) : State :=
  match (s.robot x).asg with
  | none => s
  | some a =>
    match offerPass x a s with
    | (s, true) => endPass x s
    | (s, false) => s

/-- A held pass group offered again at a frame end (R99, R34). -/
def reofferHeldPass (x : Nat) (s : State) : State :=
  match reofferPass x s with
  | (s, true) => endPass x s
  | (s, false) => s

/-- The level timeout of an assignment in LEVELING (R103). -/
def levelTimedOut (x : Nat) (s : State) : State :=
  match (s.robot x).asg with
  | some a => if a.phase = .leveling then endPass x s else s
  | none => s

/-- The robot, if any, whose assignment holds a group tag (R100). -/
def State.robotWithTag (s : State) (tag : Nat) : Option Nat :=
  (s.robots.idsWhere (fun k => k.asg.any (fun a => decide (a.tag = some tag)))).head?

/-- The cut event of a pass group: not started (R33, R100). -/
def passCut (tag : Nat) (s : State) : State :=
  match s.robotWithTag tag with
  | some x => endPass x s
  | none => s

/-- The sent event that completes a pass group: RUNNING with its deadline; an assignment abandoned meanwhile keeps none
(R100, R102). -/
def passSent (tag : Nat) (s : State) : State :=
  match s.robotWithTag tag with
  | none => s
  | some x =>
    updAsg x (fun a => { a with
      phase := .running
      deadline := if a.abandoned then none
        else some (s.now + s.par .passBase + (s.row a.row).cfg.length * s.par .passPerMetre) }) s

/-- A robot that can no longer run its pass: OFFLINE, FAULTED, UNKNOWN or MANUAL (R104). -/
def Robot.unusable (k : Robot) : Bool :=
  decide (k.state = .offline) || decide (k.state = .faulted) || decide (k.state = .unknown) || decide (k.ctrl = .manual)

/-- What a change in a robot does to its assignment, with the pass result its status carried (R101, R102, R104). -/
def passChange (x : Nat) (a : Assignment) (result : Option PassResult) (s : State) : State :=
  let k := s.robot x
  let done := decide (result = some .complete) && decide (k.pos = some (.dock a.row))
  match a.phase with
  | .leveling => if k.unusable then endPass x s else s
  | .setup => if k.unusable then decideSetup x (abandon x) s else s
  | .running =>
    if done then completePass x a.row s
    else if a.abandoned then (if k.pos = some (.row a.row) then s else endPass x s)
    else if result.isSome || k.unusable then abandon x s
    else s

/-- A robot change at the Round Planner: its assignment, else its availability or its charge mark (R93, R94, R101 to
R104). wasFree: the robot was available before the change. -/
def plannerChange (x : Nat) (wasFree : Bool) (result : Option PassResult) (s : State) : State :=
  let k := s.robot x
  match k.asg with
  | some a => passChange x a result s
  | none =>
    if k.available && (!wasFree || k.mark.any (fun m => decide (m ≤ k.charge))) then planRobot x s else s

/-! ### Withdrawal of a queued request (R109) -/

/-- A queued request withdrawn: entry, reservation and link go; the planner drops the claim and may plan the robot; the
lane's next head is seen by the arbiter (R96, R109, R111). -/
def withdrawQueued (x : Nat) (s : State) : State :=
  let lane := (s.robot x).lane
  match (s.lane lane).find? (fun q => decide (q.robot = x)) with
  | none => s
  | some q =>
    let s := s.updLane lane (fun l => l.filter (fun q => decide (q.robot ≠ x)))
    let s := freeReservation x q.dest s
    let s := s.updRobot x (fun k => { k with link := none })
    arbiter lane (planRobot x (dropClaim x s))

/-- A claim lost: a transfer still queued is withdrawn, one with a cart goes on (R92). -/
def loseClaim (x : Nat) (s : State) : State :=
  let s := dropClaim x s
  if (s.robot x).link = some .queued then withdrawQueued x s else s

/-! ### Due judgements (R90, R91) -/

/-- The Round Planner takes a row's due judgement as it stands (R90). -/
def takeJudgement (r : Nat) (s : State) : State :=
  if s.assigned r then s
  else
    match s.dueEntry r, s.judge r with
    | some e, .due u => placeDue { e with u := u } s
    | some e, .hold u => placeDue { e with u := u } s
    | some e, .clear =>
      match e.claimant with
      | some x => loseClaim x (removeDue r s)
      | none => removeDue r s
    | none, .due u => planRow r (placeDue ⟨r, u, s.clk.clock, none⟩ s)
    | none, _ => s

/-- Build the due list: emptied, claims dropped, every configured row judged, the DUE ones entered (R91). -/
def buildDueList (s : State) : State :=
  let s := { s with robots := s.robots.map (fun k => { k with claim := none }) }
  let s := s.setRnd (fun p => { p with due := [] })
  forEach s.rowIds (fun r s =>
    match s.judge r with
    | .due u => placeDue ⟨r, u, s.clk.clock, none⟩ s
    | _ => s) s

/-! ### The round (R86 to R88, R105) -/

/-- Whether the time of day lies inside the round window (R86). -/
def inWindow (start stop tod : Nat) : Bool :=
  if start < stop then decide (start ≤ tod) && decide (tod < stop)
  else if stop < start then decide (start ≤ tod) || decide (tod < stop)
  else false

def State.windowOpen (s : State) : Bool := inWindow (s.par .windowStart) (s.par .windowEnd) s.tod

/-- The site irradiance is stale, or below G_dark (R86). -/
def State.dark (s : State) : Bool :=
  match s.siteG with
  | none => true
  | some g => decide (g < s.par .gDark)

/-- The round-open condition (R86). -/
def State.roundCondition (s : State) : Bool :=
  s.running && decide (s.par .roundsEnabled ≠ 0) && s.clk.set && s.windowOpen && s.dark && decide (s.stm.state = .calm)

/-- The round opens: marks cleared, then each available robot planned in index order (R87). -/
def openRound (s : State) : State :=
  let s := s.setRnd (fun p => { p with isOpen := true, openedAt := some s.clk.clock })
  let s := s.mapSup (fun u => { u with levelFault := false })
  let s := { s with robots := s.robots.map (fun k => { k with mark := none }) }
  forEach s.robotIds planRobot s

/-- The close reason: the first term that fails, in R88's order. -/
def State.closeReason (s : State) (clockStep : Bool) : CloseReason :=
  if s.stm.state ≠ .calm then .storm
  else if s.par .roundsEnabled = 0 then .disabled
  else if !s.windowOpen then (if clockStep then .clock else .window)
  else .light

/-- A pass not started at a round close (R88): a pass whose PASS RUN has left goes on. -/
def closePass (x : Nat) (s : State) : State :=
  match (s.robot x).asg with
  | none => s
  | some a =>
    match a.phase with
    | .leveling => endPass x s
    | .setup => decideSetup x (fun s => s) s
    | .running => s

/-- A claim whose transfer is still queued at a round close (R88). -/
def closeClaim (x : Nat) (s : State) : State :=
  if (s.robot x).claim.isSome && decide ((s.robot x).link = some .queued) then withdrawQueued x s else s

/-- The round closes (R88): the robots' assignments in index order, then their claims (log 54). -/
def closeRound (reason : CloseReason) (s : State) : State :=
  let s := s.setRnd (fun p => { p with isOpen := false, reason := some reason })
  let s := forEach s.robotIds closePass s
  forEach s.robotIds closeClaim s

/-- The round condition evaluated afresh (R87, R88). -/
def evaluateRound (clockStep : Bool) (s : State) : State :=
  if s.roundCondition then (if s.rnd.isOpen then s else openRound s)
  else if s.rnd.isOpen then closeRound (s.closeReason clockStep) s
  else s

/-- A pass at park entry: not started is dropped, running is abandoned (R105, R136; log 23). -/
def parkPass (x : Nat) (s : State) : State :=
  match (s.robot x).asg with
  | none => s
  | some a =>
    match a.phase with
    | .leveling => endPass x s
    | .setup => decideSetup x (abandon x) s
    | .running => abandon x s

/-- The Round Planner at a park entry, robots in index order (log 54); the round has closed with the storm state's change
(R105). -/
def plannerPark (s : State) : State := forEach s.robotIds dropClaim (forEach s.robotIds parkPass s)

end Sys2Proof.Machine
end

