-- ==== Sys2Proof/Machine/Epoch.lean ====
section
/-! DEFINITION. The Clock and Epoch Unit: epoch record, swap, held close, batch in hand, the walk's steps and finish,
account reports (R46 to R58, R60, R61, R69, R77). -/

namespace Sys2Proof.Machine

/-! ### Bytes of a record, some of them unstated -/

/-- A record's bytes: none stands for a byte whose value the layout does not state (logs 12 and 34). -/
abbrev RecBytes := List (Option Byte)

/-- A number in an n-byte field; one that does not fit its field leaves the bytes unstated (log 34). -/
def field (n v : Nat) : RecBytes := if v < 256 ^ n then (be n v).map some else List.replicate n none

/-- An n-byte field without a stated value. -/
def unstated (n : Nat) : RecBytes := List.replicate n none

/-- The bytes as sent: unstated ones are free values of the choice. -/
def render (choice : Nat) (l : RecBytes) : List Byte :=
  l.zipIdx.map (fun p => p.1.getD (Config.unstatedByte choice p.2))

/-- A choice is used up when a byte was unstated. -/
def useChoice (l : RecBytes) (s : State) : State :=
  if l.any (fun b => b.isNone) then { s with choices := s.choices + 1 } else s

/-! ### Opening and swapping (R47, R49, R53) -/

/-- The nominal end: the first multiple of epoch_s strictly after the start, 2^32 standing for the roll-over (R47). -/
def nominalEnd (start epochS : Nat) : Nat := min ((start / epochS + 1) * epochS) 4294967296

/-- A fresh epoch record at the present time (R47). -/
def State.freshEpoch (s : State) : Epoch := ⟨s.clk.clock, s.now, nominalEnd s.clk.clock (s.par .epochS), false⟩

/-- A fresh site bank. -/
def SiteBank.fresh : SiteBank := ⟨0, 0⟩

/-- An epoch opens at COMMIT or at the first TIME SET: fresh open banks, disturbed where a robot stands (R47, R62). -/
def openEpoch (s : State) : State :=
  let s := forEach s.rowIds (fun r s =>
    s.updBanks r (fun k => { k with opened := some (Bank.fresh (s.robotOn r) false) })) s
  (s.setYld (fun y => { y with openSite := some SiteBank.fresh })).setEp (fun e => { e with epoch := some s.freshEpoch })

/-- Whether a row's pending values differ from its active ones (R53). -/
def RowStage.differs (b : RowStage) (c : RowCfg) : Bool :=
  b.iref.any (fun v => decide (v ≠ c.iref)) || b.prated.any (fun v => decide (v ≠ c.prated)) ||
    b.length.any (fun v => decide (v ≠ c.length)) || b.sDue.any (fun v => decide (v ≠ c.sDue))

/-- Whether a store or batch holds nothing. -/
def Staging.isEmpty (g : Staging) : Bool := decide (g.rows.1 = []) && decide (g.params.1 = [])

/-- Taking the staging store as a swap's batch: epoch_s is applied at once, the rest is held in hand; a batch that holds
nothing is none (R53; log 27). -/
def takeStaging (s : State) : State :=
  let s' := match s.ep.staging.params.get Param.epochS.info.index with
    | some v => s.setPar .epochS v
    | none => s
  let rest : Staging := ⟨s.ep.staging.rows, s.ep.staging.params.set Param.epochS.info.index none⟩
  s'.setEp (fun e => { e with batch := if rest.isEmpty then none else some rest, staging := Staging.empty })

/-- The banks of a row at a swap (R49). -/
def swapRow (r : Nat) (s : State) : State :=
  let staged := s.ep.batch.any (fun b => (b.rows.get r).differs (s.row r).cfg)
  let disturbed := s.robotOn r
  s.updBanks r (fun k => ⟨some (Bank.fresh disturbed staged), k.opened⟩)

/-- The walk record at its start; the epoch is site-void when the close says so or the site bank is empty (R60, R69). -/
def startWalk (start stop t : Nat) (void : Bool) (b : SiteBank) : Walk :=
  ⟨start, stop, t, void || decide (b.count = 0), b.sum / b.count, 0, 0, 0, 0, 0⟩

/-- The swap of the open epoch e. voided: closed by TIME SET or RESET RUN; noTake: raised by RESET RUN (R48, R49, R53,
R69). -/
def swap (e : Epoch) (voided noTake : Bool) (s : State) : State :=
  let t := s.now - e.startMono
  let b := s.yld.openSite.getD SiteBank.fresh
  let w := startWalk e.startPlant s.clk.clock t (voided || decide (t < 60) || e.voidMark) b
  let s := if noTake then s.setEp (fun e => { e with batch := none }) else takeStaging s
  let s := forEach s.rowIds swapRow s
  let s := s.setYld (fun y => { y with closingSite := some b, openSite := some SiteBank.fresh, walk := some w })
  let s := s.setEp (fun e => { e with epoch := some s.freshEpoch, held := none })
  latchIf w.siteVoid .epochVoid s

/-- Set the site-void mark of the open epoch (R46, R50). -/
def markVoid (s : State) : State :=
  s.setEp (fun e => { e with epoch := e.epoch.map (fun p => { p with voidMark := true }) })

/-- A boundary of the open epoch: swapped at once, or held behind a walk in flight (R48, R50). -/
def boundary (voided noTake : Bool) (s : State) : State :=
  match s.ep.epoch with
  | none => s
  | some e =>
    if s.yld.walk.isSome then
      let s := s.setEp (fun p => { p with held := some ⟨noTake || p.held.any (fun h => h.noTake)⟩ })
      if voided then markVoid s else s
    else swap e voided noTake s

/-- The open epoch has reached its nominal end; a held close raises nothing more (R48, R50). The plant clock has gone on
with the monotonic seconds since the start, a TIME SET closing or holding the epoch. -/
def State.boundaryDue (s : State) : Bool :=
  s.ep.held.isNone && s.ep.epoch.any (fun e => decide (e.nominalEnd - e.startPlant ≤ s.now - e.startMono))

/-- The aligned boundary (R48). -/
def boundaryExpiry (s : State) : State := if s.boundaryDue then boundary false false s else s

/-! ### Batches (R53, R91) -/

/-- Store a row's pending values in its active fields. -/
def RowStage.apply (b : RowStage) (c : RowCfg) : RowCfg :=
  { c with
    iref := b.iref.getD c.iref
    prated := b.prated.getD c.prated
    length := b.length.getD c.length
    sDue := b.sDue.getD c.sDue }

/-- Store every pending value in the active tables. -/
def applyStaging (g : Staging) (s : State) : State :=
  let s := g.rows.1.foldl (fun t p => t.updCfg p.1 p.2.apply) s
  g.params.1.foldl (fun t p =>
    match p.2, Param.ofIndex p.1 with
    | some v, some q => t.setPar q v
    | _, _ => t) s

/-- Whether a batch changes a parameter's active value. -/
def Staging.changes (g : Staging) (s : State) (p : Param) : Bool :=
  (g.params.get p.info.index).any (fun v => decide (v ≠ s.par p))

/-- The rows a batch changes. -/
def Staging.changedRows (g : Staging) (s : State) : List Nat :=
  (g.rows.1.filter (fun p => p.2.differs (s.row p.1).cfg)).map (fun p => p.1)

/-- The batch in hand is applied as one event, and the planner judges the rows it concerns again (R53, R91); a changed
mast_stale_s changes a term of the round condition (R87; log 27). The rows are judged, and offered, in index order (log 55),
and the round is evaluated after all of them (log 65). -/
def applyBatch (s : State) : State :=
  match s.ep.batch with
  | none => s
  | some g =>
    let all := g.changes s .sDueDefault || g.changes s .dueHysteresis
    let rows := if all then s.rowIds else g.changedRows s
    let stale := g.changes s .mastStale
    let s := (applyStaging g s).setEp (fun e => { e with batch := none })
    let s := forEach rows takeJudgement s
    if stale then evaluateRound false s else s

/-- DECOMMIT applies the batch and then the store at once (R54). -/
def applyDirect (s : State) : State :=
  let s := match s.ep.batch with
    | some g => applyStaging g s
    | none => s
  (applyStaging s.ep.staging s).setEp (fun e => { e with batch := none, staging := Staging.empty })

/-! ### The walk (R56, R57, R69, R77) -/

/-- The accumulators after a walk (R56). -/
def Accum.add (a : Accum) (w : Walk) : Accum :=
  ⟨a.walks + 1, satQuad (a.lost + w.lost), satQuad (a.recovered + w.recovered), satQuad (a.voids + w.voids),
   satQuad (a.thins + w.thins), some (a.firstStart.getD w.start), w.endTime, a.totalT + w.t, a.epochs + 1⟩

/-- An ACCOUNT REPORT's payload (R57, 11.4). -/
def Accum.payload (a : Accum) : RecBytes :=
  field 4 (a.firstStart.getD 0) ++ field 4 a.lastEnd ++ field 4 a.totalT ++ field 2 a.epochs ++ field 4 a.lost ++
    field 4 a.recovered ++ field 4 a.voids ++ field 4 a.thins

/-- The ACCOUNT REPORT is offered when the walk count calls for it; admitted, the count and accumulators return to zero
(R56, R57). The count is compared anew at every walk finished, also after a report refused for a full queue (log 61). -/
def offerReport (s : State) : State :=
  if s.par .reportDivider + 1 ≤ s.ep.acc.walks ∧ s.up.queue.length < 64 then
    let p := s.ep.acc.payload
    (useChoice p (s.pushUp (.report (render s.choices p)))).setEp (fun e => { e with acc := Accum.zero })
  else s

/-- A walk is reported finished: totals and report, the batch, the held close (R77). -/
def finishWalk (w : Walk) (s : State) : State :=
  let s := s.setYld (fun y => { y with walk := none })
  let s := s.setEp (fun e => { e with acc := e.acc.add w })
  let s := offerReport s
  let s := applyBatch s
  match s.ep.held, s.ep.epoch with
  | some h, some e => swap e false h.noTake s
  | _, _ => s

/-- The configured row at or after the cursor. -/
def State.rowFrom (s : State) (c : Nat) : Option Nat := s.rowIds.find? (fun r => decide (c ≤ r))

/-- The step of the row under the walk's cursor, with the finish after the last one (R69, R77, R81; log 44). Between steps
the cursor stands at the index after the row stepped, configured or not (R176; log 57). -/
def walkStep (s : State) : State :=
  match s.yld.walk with
  | none => s
  | some w =>
    match s.rowFrom w.cursor with
    | none => finishWalk w s
    | some r =>
      let w := { w with cursor := r + 1 }
      let a := walkRow r w (s.setYld (fun y => { y with walk := some w }))
      let s := if a.2 then takeJudgement r a.1 else a.1
      match s.yld.walk, s.rowFrom (r + 1) with
      | some w, none => finishWalk w s
      | _, _ => s

end Sys2Proof.Machine
end

