-- ==== Sys2Proof/Machine/Sweep.lean ====
section
/-! DEFINITION. The stow sweep of the Row Supervisor (R142 to R146). -/

namespace Sys2Proof.Machine

/-- The number of sweep entries that are waiting (R142). -/
def State.sweepWaiting (s : State) : Nat := (s.rows.idsWhere (fun r => r.stow.waiting)).length

/-- Offer a row's ROW STOW with a send count; refused for room it is held, and waits all the same (R30, R142). -/
def offerStow (r n : Nat) (s : State) : State :=
  let a := offerUrgent .row (s.rowAddr r) .rowStow s
  a.1.updStow r (fun _ => ⟨.sent, n, none, true, !a.2, none⟩)

/-- The sweep's treatment of the configured row at its cursor (R142). A row already PINNED is sent nothing more (R144;
log 45). -/
def sweepRow (r : Nat) (s : State) : State :=
  let row := s.row r
  if row.stow.progress = .pinned then s
  else if row.sup.reported = some .stowed then
    (setStow r s).updStow r (fun w => { w with progress := .done, deadline := none })
  else if s.swp.mode = .park ∧ s.robotOn r = true then s.updStow r (fun w => { w with progress := .skipped })
  else offerStow r 1 (setStow r s)

/-- The sweep advances: while fewer than 16 entries wait, re-offers in row order, then the row at the cursor. The first
argument bounds the work (R142). -/
def sweepLoop : Nat → State → State
  | 0, s => s
  | n + 1, s =>
    if decide (s.swp.mode = .off) || decide (16 ≤ s.sweepWaiting) then s
    else
      match (s.rows.idsWhere (fun r => r.stow.reoffer.isSome)).head? with
      | some r => sweepLoop n (offerStow r ((s.row r).stow.reoffer.getD 1) (setStow r s))
      | none =>
        match s.rowIds.find? (fun r => decide (s.swp.cursor ≤ r)) with
        | none => s
        | some r =>
          let t := sweepRow r s
          sweepLoop n { t with swp := { t.swp with cursor := r + 1 } }

/-- Advance: every row is taken at most once at the cursor and at most once as a re-offer. -/
def sweepAdvance (s : State) : State := sweepLoop (2 * s.rows.1.length + 1) s

/-- The sweep starts in PARK mode (R142). -/
def sweepStart (s : State) : State :=
  let s := s.mapStow (fun _ => Stow.unreached)
  sweepAdvance { s with swp := ⟨.park, 0⟩ }

/-- Withdraw the sweep entries that still wait (R145, R147). -/
def sweepWithdraw (s : State) : State :=
  (dropEntries (fun e => decide (e.owner = .row) && decide (e.order = .rowStow)) s).mapStow
    (fun w => { w with waiting := false, held := false })

/-- A row's progress at a LOCKOUT restart (R145; log 47). -/
def Stow.restart (w : Stow) (stowed : Bool) : Stow :=
  if stowed then { w with progress := .done, deadline := none, reoffer := none } else Stow.unreached

/-- The sweep restarts in LOCKOUT mode: STOWED rows DONE with the sends they have had, every other row UNREACHED
(R145). -/
def sweepLockout (s : State) : State :=
  let s := sweepWithdraw s
  sweepAdvance { s with
    rows := s.rows.map (fun x => { x with stow := x.stow.restart (x.cfg.node.isSome && decide (x.sup.reported = some .stowed)) })
    swp := ⟨.lockout, 0⟩ }

/-- The sweep goes OFF, every progress UNREACHED; the cursor keeps its place (R142, R147). -/
def sweepOff (s : State) : State :=
  let s := (sweepWithdraw s).mapStow (fun _ => Stow.unreached)
  { s with swp := { s.swp with mode := .off } }

/-- The SKIPPED rows that no robot is on any longer and that are no re-offer yet (R143). -/
def State.freedRows (s : State) : List Nat :=
  (s.rows.idsWhere (fun r => decide (r.stow.progress = .skipped) && r.stow.reoffer.isNone)).filter
    (fun r => !s.robotOn r)

/-- A robot change frees SKIPPED rows: each becomes a re-offer with send count 1 (R143). -/
def sweepFreed (s : State) : State :=
  sweepAdvance (forEach s.freedRows (fun r s => s.updStow r (fun w => { w with reoffer := some 1 })) s)

/-- The sweep's part of a ROW SAMPLE (R142, R144). A row that becomes DONE is no re-offer any more (log 37). -/
def sweepSample (r : Nat) (p : Posture) (s : State) : State :=
  let w := (s.row r).stow
  if s.swp.mode = .off then s
  else
    match p, w.progress with
    | .stowed, .unreached => s
    | .stowed, .pinned =>
      if s.robotOn r then s
      else
        (s.updSup r (fun u => { u with pinned := false })).updStow r (fun w => { w with
          progress := .done, deadline := none, reoffer := none })
    | .stowed, _ => s.updStow r (fun w => { w with progress := .done, deadline := none, reoffer := none })
    | .moving, _ => s
    | _, .done =>
      if 2 ≤ w.sends then pinRow r (s.updStow r (fun w => { w with progress := .pinned, reoffer := none }))
      else sweepAdvance (s.updStow r (fun w => { w with reoffer := some (w.sends + 1) }))
    | _, _ => s

/-- A sweep ROW STOW to a row leaves the field port: the waiting ends, the deadline of a SENT row starts, the sweep
advances (R142). -/
def stowLeft (r : Nat) (s : State) : State :=
  let d := s.now + s.par .stowTimeout
  sweepAdvance (s.updStow r (fun w => { w with
    waiting := false, held := false, deadline := if w.progress = .sent then some d else w.deadline }))

/-- Offer again a ROW STOW that is held for room (R30, R142). -/
def reofferStow (r : Nat) (s : State) : State :=
  if (s.row r).stow.held then
    let a := offerUrgent .row (s.rowAddr r) .rowStow s
    a.1.updStow r (fun w => { w with held := !a.2 })
  else s

/-- A row's stow deadline has come (R144). -/
def State.stowDue (s : State) (r : Nat) : Bool := (s.row r).stow.deadline.any (fun d => decide (d ≤ s.now))

/-- A row's stow deadline passes: a re-offer after the first send, a pin after the second (R144). -/
def stowExpiry (r : Nat) (s : State) : State :=
  if s.stowDue r then
    let s := s.updStow r (fun w => { w with deadline := none })
    if (s.row r).sup.reported = some .stowed then s
    else if 2 ≤ (s.row r).stow.sends then
      pinRow r (s.updStow r (fun w => { w with progress := .pinned, reoffer := none }))
    else sweepAdvance (s.updStow r (fun w => { w with reoffer := some 2 }))
  else s

end Sys2Proof.Machine
end

