-- ==== Sys2Proof/Machine/StormLists.lean ====
section
/-! DEFINITION. The Storm Controller's lists: the park list of robots and the cart garage list, with their orders and
replays (R137 to R141). -/

namespace Sys2Proof.Machine

/-! ### The park list (R137 to R140) -/

/-- The field order of a park order; a via-transfer entry has none (R137). -/
def ParkOrder.wire : ParkOrder → Option Order
  | .hold => some .dockHold
  | .abort => some .passAbort
  | .via => none

/-- Change a robot's park list entry. -/
def updPark (x : Nat) (f : ParkEntry → ParkEntry) (s : State) : State :=
  s.updRobot x (fun k => { k with park := k.park.map f })

/-- Offer the order of a robot's entry: the last offer time is set when it is accepted, and a refused offer is held
(R137, R140). -/
def offerPark (x : Nat) (s : State) : State :=
  match ((s.robot x).park).bind (fun e => e.order.wire) with
  | none => s
  | some o =>
    match offerUrgent .storm (s.robotAddr x) o s with
    | (t, true) => updPark x (fun e => { e with last := some t.now, held := false }) t
    | (t, false) => updPark x (fun e => { e with held := true }) t

/-- Place a robot on the list and offer its order (R137). A robot in the list is not placed again. -/
def placePark (x : Nat) (o : ParkOrder) (s : State) : State :=
  if (s.robot x).park.isSome then s
  else offerPark x (s.updRobot x (fun k => { k with park := some ⟨o, none, false⟩ }))

/-- Whether an entry is a park order of the Storm Controller to an address (R139). -/
def Entry.isPark (e : Entry) (addr : Nat) : Bool :=
  decide (e.owner = .storm) && decide (e.dest = addr) &&
    (decide (e.order.kind = .dockHold) || decide (e.order.kind = .passAbort))

/-- A robot leaves the park list: its waiting order is withdrawn and the planner is told (R139). -/
def leavePark (x : Nat) (s : State) : State :=
  if (s.robot x).park.isSome then
    let s := dropEntries (fun e => e.isPark (s.robotAddr x)) s
    planRobot x (s.updRobot x (fun k => { k with park := none }))
  else s

/-- Pin the row a robot is recorded on, if any (R18, R139). -/
def pinUnder (x : Nat) (s : State) : State :=
  match (s.robot x).pos with
  | some (.row r) => pinRow r s
  | _ => s

/-- A robot leaves the park list unconfirmed, pinning the row it is recorded on (R139). -/
def strikePark (x : Nat) (s : State) : State :=
  if (s.robot x).park.isSome then leavePark x (pinUnder x s) else s

/-- The judgement of R137 on a robot's records; none for a robot that is not placed. A robot ABOARD is placed via transfer
also where R124 ends its transfer or request at the entry (log 66). -/
def Robot.parkOrder (k : Robot) : Option ParkOrder :=
  match k.state with
  | .docked => if k.activity = some .idle ∧ k.asg = none ∧ k.link = none then none else some .hold
  | .onRow => some .abort
  | .unknown => some .abort
  | .aboard => some .via
  | .offline | .stranded | .faulted => none

/-- OFFLINE, STRANDED or FAULTED (R139). -/
def Robot.lost (k : Robot) : Bool :=
  decide (k.state = .offline) || decide (k.state = .stranded) || decide (k.state = .faulted)

/-- An entry's order becomes DOCK HOLD; it is offered at once when the entry has no offer time yet (R138; log 25). -/
def parkToHold (x : Nat) (s : State) : State :=
  let fresh := (s.robot x).park.any (fun e => e.last.isNone && !e.held)
  let s := updPark x (fun e => { e with order := .hold }) s
  if fresh then offerPark x s else s

/-- A robot change at the Storm Controller (R138, R139). status: the change is a ROBOT STATUS. -/
def stormRobot (x : Nat) (status : Bool) (s : State) : State :=
  let k := s.robot x
  match k.park with
  | some e =>
    if k.lost then strikePark x s
    else if k.state = .docked ∧ status = true then
      (if k.activity = some .idle ∧ k.fault = 0 then leavePark x s else parkToHold x s)
    else if k.state = .aboard ∧ e.order = .hold ∧ k.link = none then
      updPark x (fun _ => ⟨.via, none, false⟩) s
    else s
  | none =>
    if s.stm.state.stormy then
      match k.parkOrder with
      | some o => if k.state = .docked ∧ k.activity = some .idle then s else placePark x o s
      | none => s
    else s

/-- An entry's replay time has come (R140). -/
def State.parkReplayDue (s : State) (x : Nat) : Bool :=
  (s.robot x).park.any (fun e =>
    e.order.wire.isSome && !e.held && e.last.any (fun t => decide (t + s.par .parkRepeat ≤ s.now)))

/-- The replay of a robot's park order (R140). -/
def parkReplay (x : Nat) (s : State) : State := if s.parkReplayDue x then offerPark x s else s

/-- Offer again a park order that is held for room (R140). -/
def reofferPark (x : Nat) (s : State) : State :=
  if (s.robot x).park.any (fun e => e.held) then offerPark x s else s

/-! ### The cart garage list (R141) -/

/-- Change a cart's garage list entry. -/
def updGarage (c : Nat) (f : GarageEntry → GarageEntry) (s : State) : State :=
  s.updCart c (fun k => { k with garageEntry := k.garageEntry.map f })

/-- Offer CART GARAGE to a listed cart (R141). -/
def offerGarage (c : Nat) (s : State) : State :=
  match offerUrgent .storm (s.cartAddr c) (.cartGarage (s.cart c).garage) s with
  | (t, true) => updGarage c (fun _ => ⟨some t.now, false⟩) t
  | (t, false) => updGarage c (fun e => { e with held := true }) t

/-- Place a cart on the list with CART GARAGE; a listed cart is not placed again (R141). -/
def placeGarage (c : Nat) (s : State) : State :=
  if (s.cart c).garageEntry.isSome then s
  else offerGarage c (s.updCart c (fun k => { k with garageEntry := some ⟨none, false⟩ }))

/-- A cart leaves the list: its waiting CART GARAGE is withdrawn (R141). -/
def leaveGarage (c : Nat) (s : State) : State :=
  if (s.cart c).garageEntry.isSome then
    (dropEntries (fun e => decide (e.owner = .storm) && e.isFor (s.cartAddr c) .cartGarage) s).updCart c
      (fun k => { k with garageEntry := none })
  else s

/-- A cart change at the Storm Controller: FAULTED, or garaged and empty, it leaves the list (R141). -/
def stormCart (c : Nat) (s : State) : State :=
  let k := s.cart c
  if decide (k.state = .faulted) || (k.garaged && k.load.isNone && decide (k.fault = 0)) then leaveGarage c s else s

/-- A cart whose transfer record is removed in PARK, SECURED or LOCKOUT goes on the list when it is not garaged and not
carrying (R141), also one that is FAULTED (log 56). -/
def garageFreed (c : Nat) (s : State) : State :=
  let k := s.cart c
  if (decide (s.stm.state = .park) || decide (s.stm.state = .secured) || decide (s.stm.state = .lockout)) &&
      !k.garaged && k.load.isNone then placeGarage c s
  else s

/-- An entry's replay time has come (R141). -/
def State.garageReplayDue (s : State) (c : Nat) : Bool :=
  (s.cart c).garageEntry.any (fun e => !e.held && e.last.any (fun t => decide (t + s.par .parkRepeat ≤ s.now)))

/-- The replay of a cart's CART GARAGE (R141). -/
def garageReplay (c : Nat) (s : State) : State := if s.garageReplayDue c then offerGarage c s else s

/-- Offer again a CART GARAGE that is held for room (R140, R141). -/
def reofferGarage (c : Nat) (s : State) : State :=
  if (s.cart c).garageEntry.any (fun e => e.held) then offerGarage c s else s

end Sys2Proof.Machine
end

