-- ==== Sys2Proof/Machine/TransferEnd.lean ====
section
/-! DEFINITION. How transfers go on and end: outcomes and their handing on, phase ends, robot and cart changes at the
Transfer Controller, park entry (R96, R113 to R125). -/

namespace Sys2Proof.Machine

/-! ### Handing an outcome on (R96, R113, R138) -/

/-- An outcome at the Round Planner (R96): DONE plans the robot with its claim standing and drops a claim that planning
did not use, the others drop the claim first. -/
def plannerOutcome (x : Nat) (o : OutcomeKind) (s : State) : State :=
  match o with
  | .done =>
    let s := planRobot x s
    if (s.robot x).link.isNone then dropClaim x s else s
  | .stalled => dropClaim x s
  | .failed | .withdrawn => planRobot x (dropClaim x s)

/-- An outcome at the Storm Controller (R138): DONE confirms, and FAILED turns a via-transfer entry to DOCK HOLD, offered
at once. A robot that is on no park list is free by the transfer's end, and is planned (R93). -/
def stormOutcome (x : Nat) (o : OutcomeKind) (s : State) : State :=
  match o with
  | .done => if (s.robot x).park.isSome then leavePark x s else planRobot x s
  | .failed =>
    if (s.robot x).park.any (fun e => decide (e.order = .via)) then
      offerPark x (updPark x (fun e => { e with order := .hold }) s)
    else planRobot x s
  | .withdrawn => planRobot x s
  | .stalled => s

/-- Hand an outcome to the planner or the Storm Controller by the transfer's purpose (R113). -/
def handOutcome (t : Transfer) (o : OutcomeKind) (s : State) : State :=
  match t.purpose with
  | .round => plannerOutcome t.robot o s
  | .park => stormOutcome t.robot o s

/-! ### The ends (R116 to R120, R122, R124) -/

/-- Remove a transfer record: its orders withdrawn, the robot's link cleared, the last-transfer fields set; f changes
the cart besides (R112, R116, R117, R120, R124). -/
def removeTransfer (c : Nat) (t : Transfer) (o : OutcomeKind) (f : Cart → Cart) (s : State) : State :=
  ((withdrawTag? t.tag s).updCart c (fun k =>
    f { k with transfer := none, lastTransfer := some ⟨t.robot, t.dest, some o⟩ })).updRobot t.robot
      (fun x => { x with link := none })

/-- A cart has become free and a piece of work is handed on: the arbiter's grant of the cart and that work come in
either order (R111; log 2). -/
def freeCart (c : Nat) (w : State → State) (s : State) : State :=
  let lane := (s.cart c).lane
  if s.stm.state = .calm ∧ s.lane lane ≠ [] then inAnyOrder [arbiter lane, w] s else w s

/-- A transfer ends DONE (R116). -/
def transferDone (c : Nat) (t : Transfer) (s : State) : State :=
  let s := removeTransfer c t .done (fun k => ({ k with load := none } : Cart).rederive) s
  freeCart c (handOutcome t .done) (garageFreed c s)

/-- A transfer ends FAILED (R117). -/
def transferFailed (c : Nat) (t : Transfer) (s : State) : State :=
  let s := removeTransfer c t .failed (fun k => k) s
  let s := freeReservation t.robot t.dest s
  let s := (offerHold c s).updCart c Cart.toRecover
  let s := latch .transferFailed s
  handOutcome t .failed (garageFreed c s)

/-- A transfer becomes STALLED (R118). -/
def transferStalled (c : Nat) (t : Transfer) (s : State) : State :=
  let s := (withdrawTag? t.tag s).updCart c (fun k => { k with
    transfer := some { t with stalled := true, deadline := none, tag := none } })
  let s := (offerHold c s).updCart c Cart.toRecover
  handOutcome t .stalled (latch .transferStalled s)

/-- A stall is closed by its robot's docking at row d; the robot may be available now (R120). -/
def closeStall (c : Nat) (t : Transfer) (d : Nat) (s : State) : State :=
  let s := removeTransfer c t .stalled (fun k => ({ k with load := none } : Cart).rederive) s
  let s := if d = t.dest then s else freeReservation t.robot t.dest s
  freeCart c (planRobot t.robot) (garageFreed c s)

/-- An aborted transfer (R124). -/
def transferAbort (c : Nat) (t : Transfer) (s : State) : State :=
  let s := removeTransfer c t .withdrawn Cart.rederive s
  plannerOutcome t.robot .withdrawn (freeReservation t.robot t.dest s)

/-- An APPROACH transfer withdrawn for ROBOT MANUAL: CART HOLD when CART FETCH has left the field port (R122). -/
def transferWithdraw (c : Nat) (t : Transfer) (s : State) : State :=
  let left := t.entered || t.tag.any (fun g => !s.queued g)
  let s := removeTransfer c t .withdrawn Cart.rederive s
  let s := freeReservation t.robot t.dest s
  let s := if left then offerHold c s else s
  freeCart c (handOutcome t .withdrawn) s

/-- A BOARD that the storm cut or refused: the transfer is aborted (R125), but in BOARDING with its robot aboard it is
carried on, its order held (R124; log 50). garage: in PARK, SECURED or LOCKOUT the cart is sent CART GARAGE here (R124; log
56), but not at the purge of a park entry, whose garage list is built besides (R141). -/
def boardCut (garage : Bool) (c : Nat) (t : Transfer) (s : State) : State :=
  if t.phase = .boarding ∧ s.aboard c t.robot = true then
    s.updCart c (fun k => { k with transfer := k.transfer.map (fun t => { t with tag := none }) })
  else if garage then garageFreed c (transferAbort c t s)
  else transferAbort c t s

/-- The cut event of a transfer's order, at a park entry or at a frame start (R36, R125). A tag no record holds is
ignored. -/
def transferCut (garage : Bool) (tag : Nat) (s : State) : State :=
  match (s.carts.idsWhere (fun k => k.transfer.any (fun t => decide (t.tag = some tag)))).head? with
  | none => s
  | some c =>
    match (s.cart c).transfer with
    | some t => boardCut garage c t s
    | none => s

/-! ### Phases (R113 to R115, R125) -/

/-- Offer a held phase order; a BOARD refused for the storm is taken as cut (R113, R125). -/
def reofferPhase (c : Nat) (s : State) : State :=
  match offerPhase c s with
  | (s, some .stormRefused) =>
    (match (s.cart c).transfer with
     | some t => boardCut true c t s
     | none => s)
  | (s, _) => s

/-- The next phase begins, and its order is offered in the same event (R113). -/
def beginPhase (c : Nat) (p : Phase) (s : State) : State :=
  reofferPhase c (s.updCart c (fun k => { k with transfer := k.transfer.map (fun t => t.next p) }))

/-- The held orders of a cart's transfer, offered again: its phase order, or its CART HOLD when it is stalled (R29, R113,
R119). -/
def reofferHeld (c : Nat) (s : State) : State := reofferHold c (reofferPhase c s)

/-- The end condition tested, or a held order offered again (R113, R119). -/
def testPhase (c : Nat) (stopped : Option Nat) (s : State) : State :=
  match s.phaseEnd c stopped with
  | some p => beginPhase c p s
  | none => reofferHeld c s

/-- A phase's deadline has come (R113). -/
def State.phaseDue (s : State) (c : Nat) : Bool :=
  (s.cart c).transfer.any (fun t => !t.stalled && t.deadline.any (fun d => decide (d ≤ s.now)))

/-- A phase deadline passes (R117, R118). -/
def phaseExpiry (c : Nat) (s : State) : State :=
  match (s.cart c).transfer with
  | none => s
  | some t =>
    if s.phaseDue c then
      match t.phase with
      | .approach | .boarding => if s.aboard c t.robot then transferStalled c t s else transferFailed c t s
      | .travel | .alighting => transferStalled c t s
    else s

/-! ### Changes handed on by the Fleet Tracker (R109, R118, R120, R121) -/

/-- A docking of a transfer's robot at row d (R120). -/
def transferDocked (c : Nat) (t : Transfer) (d : Nat) (s : State) : State :=
  if t.stalled then closeStall c t d (reofferHold c s)
  else if d = t.dest then transferDone c t s
  else
    match t.phase with
    | .approach | .boarding => if d = t.origin then reofferPhase c s else transferFailed c t s
    | .travel | .alighting => transferFailed c t s

/-- A robot change at the Transfer Controller. docked: a status has placed the robot at the dock of this row (R109,
R113, R120, R121). -/
def transferRobot (x : Nat) (docked : Option Nat) (s : State) : State :=
  let k := s.robot x
  match k.link with
  | none => s
  | some .queued =>
    match (s.lane k.lane).find? (fun q => decide (q.robot = x)) with
    | none => s
    | some q => if k.unusable || decide (k.pos ≠ some (.dock q.origin)) then withdrawQueued x s else s
  | some (.cart c) =>
    match (s.cart c).transfer with
    | none => s
    | some t =>
      match docked with
      | some d => transferDocked c t d s
      | none => testPhase c none s

/-- A cart change at the Transfer Controller. stopped: a fault-free status reports it STOPPED at this slot; failed: it
became FAULTED (R111, R114, R115, R118). -/
def transferCart (c : Nat) (stopped : Option Nat) (failed : Bool) (s : State) : State :=
  match (s.cart c).transfer with
  | none => arbiter (s.cart c).lane s
  | some t =>
    let late := decide (t.phase = .travel) || decide (t.phase = .alighting)
    if failed && !t.stalled && (late || s.aboard c t.robot) then transferStalled c t s
    else testPhase c stopped s

/-! ### Park entry (R124) -/

/-- A cart's transfer, or its left-over hold, at a park entry; s0 is the state before the entry (R124). One carried on, or
kept stalled, has its held orders offered again (R113, R119). -/
def parkTransfer (s0 : State) (c : Nat) (s : State) : State :=
  let carryOn := reofferHeld c
    (s.updCart c (fun k => { k with transfer := k.transfer.map (fun t => { t with purpose := .park }) }))
  match (s.cart c).transfer with
  | some t =>
    if t.stalled then carryOn
    else
      match t.phase with
      | .approach => transferAbort c t s
      | .boarding => if s0.aboard c t.robot then carryOn else transferAbort c t s
      | .travel | .alighting => carryOn
  | none =>
    match (s.cart c).hold with
    | none => s
    | some h =>
      if h.tag.any (fun g => !s.queued g) then s
      else (withdrawTag? h.tag s).updCart c (fun k => { k with hold := none })

/-- The robots with a request waiting in a lane queue. -/
def State.queuedRobots (s : State) : List Nat := s.robots.idsWhere (fun k => decide (k.link = some .queued))

/-- The Transfer Controller at a park entry: the queued robots, then the carts, each in index order (R124; log 63). -/
def transferPark (s0 : State) (s : State) : State :=
  forEach s.cartIds (parkTransfer s0) (forEach s.queuedRobots withdrawQueued s)

end Sys2Proof.Machine
end

