-- ==== Sys2Proof/Machine/Storm.lean ====
section
/-! DEFINITION. The Storm Controller: the state machine with its debounce timers, evaluation, park entry, LOCKOUT and
RELEASE entry, the release list, advisories (R37, R127 to R136, R145 to R152). -/

namespace Sys2Proof.Machine

/-! ### State changes (R129, R130) -/

/-- Every timer stopped (R129). -/
def StormUnit.stopTimers (m : StormUnit) : StormUnit :=
  { m with watchT := none, parkT := none, calmT := none, releaseT := none, lockoutT := none }

/-- The storm state changes: every timer stops and STORM_STATE latches (R129, R130). -/
def changeState (st : StormState) (s : State) : State :=
  latch .stormState (s.setStm (fun m => { m.stopTimers with state := st }))

/-- The new state handed to the Round Planner and to the Transfer Controller's arbiters (R130). -/
def handState (s : State) : State := arbiters (evaluateRound false s)

/-- Entry of WATCH (R131). -/
def enterWatch (s : State) : State := handState (changeState .watch s)

/-- Entry of CALM from WATCH (R131). -/
def enterCalm (s : State) : State := handState (changeState .calm s)

/-! ### The storm purge (R37) -/

/-- The routine entries a purge removes; the rest of their groups goes with them (R37). -/
def Entry.purged (e : Entry) : Bool :=
  decide (e.owner = .round) || e.order.kind.stormHeld || (decide (e.owner = .supervisor) && e.order.kind.fixedDrop)

/-- The groups a purge removes, with their owners, in queue order (R37). -/
def State.purgeGroups (s : State) : List (Nat × Owner) :=
  ((s.dsp.routine.filter Entry.purged).map (fun e => (e.tag, e.owner))).eraseDups

/-- A cut event handed to a group's owner (R33, R36, R37); garage: a transfer that it aborts sends its cart to the garage. -/
def cutEvent (garage : Bool) (g : Nat × Owner) (s : State) : State :=
  match g.2 with
  | .round => passCut g.1 s
  | .transfer => transferCut garage g.1 s
  | .storm | .row | .supervisor => s

/-- Remove every entry of the groups from the routine queue; a group of theirs in progress ends. -/
def removeGroups (tags : List Nat) (s : State) : State :=
  s.setDsp (fun d => { d with
    routine := d.routine.filter (fun e => !tags.contains e.tag)
    group := if d.group.any (fun g => tags.contains g.tag) then none else d.group })

/-- The storm purge (R37). -/
def purge (s : State) : State :=
  let gs := s.purgeGroups
  gs.foldl (fun t g => cutEvent false g t) (removeGroups (gs.map (fun g => g.1)) s)

/-! ### Entry effects (R136, R137, R141, R145, R147) -/

/-- Every robot's control mode becomes AUTO (R21, R136). -/
def allAuto (s : State) : State := { s with robots := s.robots.map (fun k => { k with ctrl := .auto }) }

/-- A robot judged for the park list by its records before the entry; one OFFLINE, STRANDED or FAULTED is placed and at
once removed, pinning its row (R137, R139). -/
def parkJudge (s0 : State) (x : Nat) (s : State) : State :=
  let k := s0.robot x
  if k.lost then pinUnder x s
  else
    match k.parkOrder with
    | some o => placePark x o s
    | none => s

/-- Whether a cart is carrying at a park entry: a transfer carried on or stalled, or a load (R124, R141). -/
def State.carrying (s0 : State) (c : Nat) : Bool :=
  let k := s0.cart c
  k.load.isSome ||
    k.transfer.any (fun t =>
      t.stalled || decide (t.phase = .travel) || decide (t.phase = .alighting) ||
        (decide (t.phase = .boarding) && s0.aboard c t.robot))

/-- A cart judged for the garage list by its record before the entry (R141). -/
def garageJudge (s0 : State) (c : Nat) (s : State) : State :=
  let k := s0.cart c
  if s0.carrying c || decide (k.state = .garaged) || decide (k.state = .faulted) then s else placeGarage c s

/-- The park list and then the garage list are built, each in index order, and its orders offered in that order (log 64);
at a LOCKOUT entry robots ON_ROW are left to strandAll (R137, R141, R145). -/
def buildLists (s0 : State) (lockout : Bool) (s : State) : State :=
  let xs := s0.robotIds.filter (fun x => !(lockout && decide ((s0.robot x).state = .onRow)))
  forEach s0.cartIds (garageJudge s0) (forEach xs (parkJudge s0) s)

/-- A robot ON_ROW at a LOCKOUT entry: marked, STRANDED, its row pinned, off the park list (R20, R139, R145). -/
def strand (x : Nat) (s : State) : State :=
  if (s.robot x).state = .onRow then
    let s := s.updRobot x (fun k => { k with stranded := true, state := .stranded })
    leavePark x (pinUnder x (latch .stranded s))
  else s

/-- Every robot ON_ROW is stranded (R145). -/
def strandAll (s : State) : State := forEach s.robotIds strand s

/-- Discard the release list and withdraw the second releases that wait (R148). -/
def dropReleases (s : State) : State :=
  dropEntries (fun e => decide (e.owner = .storm) && decide (e.order = .rowRelease))
    { s with rows := s.rows.map (fun x => { x with rel := none }) }

/-- An open round closes with reason STORM as the storm state changes, before any owner acts, so that no owner's work
meets an open round (R105, R136). What R88 does at the close besides is the planner's and the Transfer Controller's part
of the entry. -/
def closeForStorm (s : State) : State :=
  if s.rnd.isOpen then s.setRnd (fun p => { p with isOpen := false, reason := some .storm }) else s

/-- The storm state entered at a park or LOCKOUT entry: an entry from RELEASE discards the release list (R148). -/
def stormEntry (st : StormState) (s : State) : State :=
  changeState st (if s.stm.state = .release then dropReleases s else s)

/-- Entry of PARK from CALM, WATCH or RELEASE: a park entry, its owners acting in any order (R132, R136). -/
def parkEntry (s : State) : State :=
  inAnyOrder [plannerPark, transferPark s, purge, allAuto, sweepStart, buildLists s false]
    (closeForStorm (stormEntry .park s))

/-- Entry of LOCKOUT (R133, R145). -/
def lockoutEntry (s : State) : State :=
  let t := (stormEntry .lockout s).setStm (fun m => { m with lockoutT := some s.now })
  let stowAll := fun u => sweepLockout (forEach u.rowIds setStow u)
  let common := [offerBroadcast, stowAll, strandAll]
  match s.stm.state with
  | .calm | .watch =>
    inAnyOrder (common ++ [plannerPark, transferPark s, purge, allAuto, buildLists s true]) (closeForStorm t)
  | .release => inAnyOrder (common ++ [allAuto, buildLists s true]) t
  | .park | .secured | .lockout => inAnyOrder common t

/-- The robots on the park list, and the carts on the garage list, in index order. -/
def State.parkIds (s : State) : List Nat := s.robots.idsWhere (fun k => k.park.isSome)
def State.garageIds (s : State) : List Nat := s.carts.idsWhere (fun k => k.garageEntry.isSome)

/-- The park list and the garage list are emptied (R149). -/
def emptyLists (s : State) : State := forEach s.garageIds leaveGarage (forEach s.parkIds leavePark s)

/-- Entry of CALM from RELEASE: the lists emptied while the round is still closed, then the state handed on (R149). -/
def calmFromRelease (s : State) : State := handState (changeState .calm (emptyLists s))

/-- RELEASE ends when its release list is empty (R135, R148). -/
def releaseDone (s : State) : State :=
  if s.stm.state = .release ∧ s.rows.anyRec (fun r => r.rel.isSome) = false then calmFromRelease s else s

/-- Clear a row's stow claim at RELEASE entry; a row found level by its claim is reported to the planner (R7, R147). -/
def releaseRow (r : Nat) (s : State) : State :=
  match clearStow r s with
  | (t, true) =>
    (match (t.row r).sup.levelClaim with
     | some x => rowLevelTold x t
     | none => t)
  | (t, false) => t

/-- The release list: every configured row that reports STOWED and is not pinned (R147). -/
def buildReleases (s : State) : State :=
  { s with rows := s.rows.map (fun x =>
      { x with rel :=
          if x.cfg.node.isSome && decide (x.sup.reported = some .stowed) && !x.sup.pinned then some ⟨0, none, false⟩
          else none }) }

/-- Entry of RELEASE (R135, R147). -/
def releaseEntry (s : State) : State :=
  let s := handState (changeState .release s)
  releaseDone (buildReleases (sweepOff (forEach s.rowIds releaseRow s)))

/-! ### SECURED (R134) -/

/-- Whether a row counts as safe: unconfigured, STOWED or pinned (R1, R134). -/
def Row.safe (r : Row) : Bool := r.cfg.node.isNone || decide (r.sup.reported = some .stowed) || r.sup.pinned

/-- Both lists are empty and every configured row reports STOWED or is pinned (R134). -/
def State.allSafe (s : State) : Bool :=
  s.robots.allRec (fun k => k.park.isNone) && s.carts.allRec (fun k => k.garageEntry.isNone) && s.rows.allRec Row.safe

/-- The SECURED test, made after each event that could make it true (R134). -/
def secure (s : State) : State :=
  if s.running && decide (s.stm.state = .park) && s.allSafe then handState (changeState .secured s) else s

/-! ### Timers (R129 to R135, R146) -/

/-- A running timer has reached its start plus its interval. -/
def timerDue (t : Option Nat) (interval now : Nat) : Bool := t.any (fun a => decide (a + interval ≤ now))

def State.watchDue (s : State) : Bool :=
  decide (s.stm.state = .calm) && timerDue s.stm.watchT (s.par .watchDebounce) s.now

def State.parkDue (s : State) : Bool :=
  (decide (s.stm.state = .calm) || decide (s.stm.state = .watch) || decide (s.stm.state = .release)) &&
    timerDue s.stm.parkT (s.par .parkDebounce) s.now

def State.calmDue (s : State) : Bool :=
  decide (s.stm.state = .watch) && timerDue s.stm.calmT (s.par .calmHold) s.now

def State.releaseDue (s : State) : Bool :=
  (decide (s.stm.state = .park) || decide (s.stm.state = .secured)) &&
    timerDue s.stm.releaseT (s.par .releaseHold) s.now

def State.lockoutDue (s : State) : Bool :=
  decide (s.stm.state = .lockout) && timerDue s.stm.lockoutT (s.par .lockoutHold) s.now

/-- The expiries of the five timers; each does nothing when its timer has not come (R131, R132, R135, R146). -/
def watchExpiry (s : State) : State := if s.watchDue then enterWatch s else s
def parkExpiry (s : State) : State := if s.parkDue then parkEntry s else s
def calmExpiry (s : State) : State := if s.calmDue then enterCalm s else s
def releaseExpiry (s : State) : State := if s.releaseDue then releaseEntry s else s

/-- The lockout timer's expiry: PARK, which is no park entry; the sweep goes on in PARK mode (R146). -/
def lockoutExpiry (s : State) : State :=
  if s.lockoutDue then
    let s := handState (changeState .park s)
    secure { s with swp := { s.swp with mode := if s.swp.mode = .off then .off else .park } }
  else s

/-- A timer after an evaluation: started, left running, or stopped (R129). -/
def timerAfter (t : Option Nat) (met : Bool) (now : Nat) : Option Nat := if met then some (t.getD now) else none

/-- The four evaluated timers of the present state after an evaluation with site gust g (R129, R135). -/
def evaluateTimers (g : Nat) (s : State) : State :=
  let watch := timerAfter s.stm.watchT (decide (s.par .watchGust ≤ g)) s.now
  let park := timerAfter s.stm.parkT (decide (s.par .parkGust ≤ g)) s.now
  let calm := timerAfter s.stm.calmT (decide (g < s.par .watchGust)) s.now
  let release := timerAfter s.stm.releaseT (decide (g < s.par .releaseGust)) s.now
  match s.stm.state with
  | .calm => s.setStm (fun m => { m with watchT := watch, parkT := park })
  | .watch => s.setStm (fun m => { m with calmT := calm, parkT := park })
  | .release => s.setStm (fun m => { m with parkT := park })
  | .park | .secured => s.setStm (fun m => { m with releaseT := release })
  | .lockout => s

/-- The timers that come to their end at this evaluation: those with an interval of 0 (R129). -/
def zeroTimers (s : State) : List (State → State) :=
  onlyIf (decide (s.par .watchDebounce = 0) && s.watchDue) watchExpiry ++
    onlyIf (decide (s.par .parkDebounce = 0) && s.parkDue) parkExpiry ++
    onlyIf (decide (s.par .calmHold = 0) && s.calmDue) calmExpiry ++
    onlyIf (decide (s.par .releaseHold = 0) && s.releaseDue) releaseExpiry

/-! ### Wind (R127, R128) -/

/-- A mast is heard while the time is below its last-heard plus the mast silence (R127). -/
def State.heard (s : State) (m : Mast) : Bool := m.node.isSome && m.heard.any (fun h => decide (s.now < h + s.par .mastSilence))

/-- The gusts of the live masts (R127). -/
def State.liveGusts (s : State) : List Nat :=
  s.masts.1.filterMap (fun m => if s.heard m.2 then m.2.gust else none)

/-- The site gust an evaluation finds: the largest among the live masts (R128). -/
def State.siteGust (s : State) : Option Nat :=
  match s.liveGusts with
  | [] => none
  | g :: t => some (t.foldl max g)

/-- An evaluation: the site gust, the lockout threshold first, then the timers (R128, R129, R133). -/
def evaluate (s : State) : State :=
  let s := s.setStm (fun m => { m with gust := s.siteGust })
  match s.stm.gust with
  | none => s
  | some g =>
    if s.par .lockoutGust ≤ g then
      if s.stm.state = .lockout then s.setStm (fun m => { m with lockoutT := some s.now }) else lockoutEntry s
    else
      let s := evaluateTimers g s
      inAnyOrder (zeroTimers s) s

/-- A MAST SAMPLE at the Storm Controller (R127, R128). -/
def stormSample (m gust mean : Nat) (s : State) : State :=
  evaluate ((s.updMast m (fun k => { k with gust := some gust, mean := some mean, heard := some s.now })).setStm
    (fun u => { u with silent := false }))

/-- A mast silence event (R128, R132). -/
def mastSilence (s : State) : State :=
  let s := s.setStm (fun m => { m with gust := none, calmT := none, releaseT := none, silent := true })
  let s := latch .mastSilent s
  match s.stm.state with
  | .calm | .watch | .release => parkEntry s
  | .park | .secured | .lockout => s

/-- No configured mast is heard any longer, and the event has not been raised since one was (R128; log 26). -/
def State.silenceDue (s : State) : Bool :=
  s.running && !s.stm.silent && s.masts.allRec (fun m => !s.heard m)

/-- The mast silence event when it is due. -/
def silenceExpiry (s : State) : State := if s.silenceDue then mastSilence s else s

/-! ### The release list (R147, R148) -/

/-- A ROW RELEASE to a listed row leaves the field port (R147, R148). It serves for a second release still held for room,
which is dropped (log 67). -/
def releaseLeft (r : Nat) (s : State) : State :=
  s.updRel r (fun e => e.map (fun e => ⟨e.count + 1, some (s.now + s.par .stowTimeout), false⟩))

/-- A row leaves the release list (R148). -/
def leaveRelease (r : Nat) (s : State) : State :=
  if (s.row r).rel.isSome then releaseDone (s.updRel r (fun _ => none)) else s

/-- A listed row's sample with any posture other than STOWED takes it off the list (R148). -/
def releaseSample (r : Nat) (p : Posture) (s : State) : State := if p = .stowed then s else leaveRelease r s

/-- Offer a row's second release; refused for room it is held (R148). -/
def offerSecond (r : Nat) (s : State) : State :=
  match offerRoutine .storm (s.rowAddr r) [.rowRelease] s with
  | (t, .accepted _) => t.updRel r (fun e => e.map (fun e => { e with held := false }))
  | (t, _) => t.updRel r (fun e => e.map (fun e => { e with held := true }))

/-- Offer again a second release that is held for room (R148). -/
def reofferSecond (r : Nat) (s : State) : State :=
  if (s.row r).rel.any (fun e => e.held) then offerSecond r s else s

/-- A row's release deadline has come (R148). -/
def State.releaseRowDue (s : State) (r : Nat) : Bool :=
  (s.row r).rel.any (fun e => e.deadline.any (fun d => decide (d ≤ s.now))) &&
    decide ((s.row r).sup.reported = some .stowed)

/-- A row's release deadline passes while it still reports STOWED (R148). -/
def releaseRowExpiry (r : Nat) (s : State) : State :=
  if s.releaseRowDue r then
    if (s.row r).rel.any (fun e => decide (2 ≤ e.count)) then leaveRelease r (pinRow r s)
    else offerSecond r (s.updRel r (fun e => e.map (fun e => { e with deadline := none })))
  else s

/-! ### Advisories (R150, R151) -/

/-- A park cause by request or advisory: a park entry from CALM, WATCH or RELEASE, nothing elsewhere (R132, R151). -/
def parkCause (s : State) : State :=
  match s.stm.state with
  | .calm | .watch | .release => parkEntry s
  | .park | .secured | .lockout => s

/-- The advisory is reached (R151). -/
def State.advisoryDue (s : State) : Bool :=
  s.running && s.clk.set && s.stm.advisory.any (fun a => decide (a.parkEntry ≤ s.clk.clock))

/-- A reached advisory is consumed (R151). -/
def advisoryExpiry (s : State) : State :=
  if s.advisoryDue then parkCause (s.setStm (fun m => { m with advisory := none })) else s

end Sys2Proof.Machine
end

