-- ==== Sys2Proof/Machine/DispatcherUnit.lean ====
section
/-! DEFINITION. The Order Dispatcher and the field transmitter: frame start and frame end, held work offered again, leave
grants, send-permit (R32 to R37, R41, R42). -/

namespace Sys2Proof.Machine

/-! ### Leave (R41, R42) -/

/-- The order policy cell of a storm state and column; true is DROP (R40). -/
def State.policyDrop (s : State) (st : StormState) (col : Nat) : Bool := s.ctl.policy.get (15 * st.idx + col)

/-- The LEAVE column (R40). -/
def leaveColumn : Nat := 14

/-- The conditions under which leave is granted to a robot (R41). -/
def State.leaveGranted (s : State) (x : Nat) : Bool :=
  (decide (s.stm.state = .calm) || decide (s.stm.state = .watch)) && !s.policyDrop s.stm.state leaveColumn &&
    (s.robot x).link.isNone &&
    (match s.dockOf x with
     | none => false
     | some r =>
       decide ((s.row r).sup.reported = some .level) &&
         !(s.robotIds.any (fun y => decide (y ≠ x) && (s.robot y).asg.any (fun a => decide (a.row = r)))))

/-- Whether an entry is the part's own LEAVE ANSWER to an address (R41; log 20). -/
def Entry.isLeave (e : Entry) (addr : Nat) : Bool := decide (e.owner = .row) && e.isFor addr .leaveAnswer

/-- A LEAVE ASK of robot x: one LEAVE ANSWER, a queued one decided afresh, dropped without room (R41). -/
def leaveAsked (x : Nat) (s : State) : State :=
  let a := s.robotAddr x
  let o := Order.leaveAnswer (if s.leaveGranted x then 1 else 0)
  if s.dsp.routine.any (fun e => e.isLeave a) then
    s.setDsp (fun d => { d with routine := d.routine.map (fun e => if e.isLeave a then { e with order := o } else e) })
  else (offerRoutine .row a [o] s).1

/-- A granted LEAVE ANSWER is judged again at its frame start, and leaves as denied when the grant has failed (R42). -/
def recheckLeave (e : Entry) (s : State) : Entry :=
  match e.owner, e.order, s.robotAt e.dest with
  | .row, .leaveAnswer 1, some x => if s.leaveGranted x then e else { e with order := .leaveAnswer 0 }
  | _, _, _ => e

/-! ### The frame start (R32, R33, R36) -/

/-- Cut the group in progress (R33). A transfer's orders are groups of one, so it is none of theirs (R113). -/
def cutGroup (s : State) : State :=
  match s.dsp.group with
  | none => s
  | some g => cutEvent false (g.tag, g.owner) (removeGroups [g.tag] s)

/-- The choice of the entry to send: the urgent head, else the routine head, the storm check removing what may not
leave; the first argument bounds the removals (R32, R36). True stands for the urgent queue. -/
def chooseEntry : Nat → State → State × Option (Entry × Bool)
  | 0, s => (s, none)
  | n + 1, s =>
    match s.dsp.urgent with
    | _ :: _ =>
      let s := cutGroup s
      (s, s.dsp.urgent.head?.map (fun e => (e, true)))
    | [] =>
      match s.dsp.routine with
      | [] => (s, none)
      | e :: _ =>
        if s.stm.state.stormy && e.order.kind.stormHeld then
          chooseEntry n (cutEvent true (e.tag, e.owner) (removeGroups [e.tag] s))
        else (s, some (e, false))

/-- What leaving the field port does at the owners: level deadline, stow deadline and sweep, release count (R9, R142,
R147). -/
def entryLeft (e : Entry) (s : State) : State :=
  match s.rowAt e.dest with
  | none => s
  | some r =>
    match e.order, e.owner with
    | .rowLevel, .row => levelLeft r s
    | .rowStow, .row => stowLeft r s
    | .rowRelease, _ => releaseLeft r s
    | _, _ => s

/-- The bytes of an order's frame: the destination, the part's field address as source (11.1, R156). -/
def State.orderBytes (s : State) (e : Entry) : List Byte :=
  frameBytes e.dest s.ctl.part.field e.order.cls e.order.payload

/-- An entry leaves the field port: out of its queue, onto the air, the group record kept; the field address is used from
here on for the echo check too (R32, R156; log 59). -/
def sendEntry (e : Entry) (urgent : Bool) (s : State) : State :=
  let e' := recheckLeave e s
  entryLeft e' (s.setDsp (fun d => { d with
    urgent := if urgent then d.urgent.tail else d.urgent
    routine := if urgent then d.routine else d.routine.tail
    group := if e.last then none else some ⟨e.tag, e.owner, e'⟩
    air := some ⟨e', s.orderBytes e', true⟩
    echo := s.ctl.part.field }))

/-- The condition of a frame start: transmitter free, an entry queued, no received frame in progress, send-permit (2.4). -/
def State.canStart (s : State) : Bool :=
  s.dsp.air.isNone && !(s.dsp.urgent.isEmpty && s.dsp.routine.isEmpty) && s.dsp.rx.isEmpty && s.dsp.permit

/-- A frame start of the field transmitter (R32, R36). -/
def frameStart (s : State) : State :=
  if s.canStart then
    match chooseEntry (s.dsp.routine.length + 1) s with
    | (s, some (e, urgent)) => sendEntry e urgent s
    | (s, none) => s
  else s

/-! ### The frame end (R34) -/

/-- The sent event at the entry's owner (R34, R100, R113). -/
def sentEvent (e : Entry) (s : State) : State :=
  match e.owner with
  | .round => if e.last then passSent e.tag s else s
  | .transfer => transferSent e.tag s
  | .storm | .row | .supervisor => s

/-- Held work of each owner, offered again (R29, R34): pass groups; each cart's phase order, then its hold; stow orders,
then posture orders; park orders, then garage orders, then second releases; each kind in index order (log 41). -/
def reofferRound (s : State) : State := forEach s.robotIds reofferHeldPass s
def reofferTransfers (s : State) : State := forEach s.cartIds reofferHeld s
def reofferRows (s : State) : State := reofferPostures s.rowIds (forEach s.rowIds reofferStow s)
def reofferStorm (s : State) : State :=
  forEach s.rowIds reofferSecond (forEach s.cartIds reofferGarage (forEach s.robotIds reofferPark s))

/-- Whether an owner holds work. -/
def State.heldRound (s : State) : Bool := s.robots.anyRec (fun k => k.asg.any (fun a => a.held))
def State.heldTransfers (s : State) : Bool :=
  s.carts.anyRec (fun k => decide (k.hold = some ⟨none⟩) ||
    k.transfer.any (fun t => !t.entered && !t.stalled && t.tag.isNone))
def State.heldRows (s : State) : Bool := s.rows.anyRec (fun r => r.sup.orderPending || r.stow.held)
def State.heldStorm (s : State) : Bool :=
  s.rows.anyRec (fun r => r.rel.any (fun e => e.held)) || s.robots.anyRec (fun k => k.park.any (fun e => e.held)) ||
    s.carts.anyRec (fun k => k.garageEntry.any (fun e => e.held))

/-- Every owner that holds work offers it again, the owners in any order (R34). -/
def reofferAll (s : State) : State :=
  inAnyOrder (onlyIf s.heldRound reofferRound ++ onlyIf s.heldTransfers reofferTransfers ++
    onlyIf s.heldRows reofferRows ++ onlyIf s.heldStorm reofferStorm) s

/-- A frame end of the field transmitter: the sent event first, then the held work offered again (R34, R43; log 60). -/
def frameEnd (s : State) : State :=
  match s.dsp.air with
  | none => s
  | some f =>
    let s := s.setDsp (fun d => { d with air := none })
    reofferAll (if f.handOn then sentEvent f.entry s else s)

/-! ### Send-permit (R35) -/

/-- Whether a queue holds an entry. -/
def Dispatcher.holds (d : Dispatcher) : Bool := !(d.urgent.isEmpty && d.routine.isEmpty)

/-- The permit wait as the queues, the transmitter and the line now stand: it begins at the later of the deassertion and
the arrival of the first queued entry, and goes on while its conditions hold (R35; log 8). -/
def Dispatcher.note (d : Dispatcher) (now : Nat) : Dispatcher :=
  let since := if d.holds then some (d.since.getD now) else none
  { d with
    since := since
    wait :=
      match since with
      | none => none
      | some a => if d.air.isNone && !d.permit then some (d.wait.getD ⟨max d.fell a, false⟩) else none }

/-- Bring the permit wait up to date. -/
def noteQueues (s : State) : State := s.setDsp (fun d => d.note s.now)

/-- The line changes: a fall is timed, a level it already has is no change (R35). -/
def permitChange (b : Bool) (s : State) : State :=
  s.setDsp (fun d => { d with permit := b, fell := if d.permit && !b then s.now else d.fell })

/-- A permit wait has lasted longer than the permit stall, and FIELD_STALL has not latched for it (R35). -/
def State.stallDue (s : State) : Bool :=
  s.dsp.wait.any (fun w => !w.stalled && decide (w.start + s.par .permitStall < s.now))

/-- FIELD_STALL latches, once for the wait (R35). -/
def stallExpiry (s : State) : State :=
  if s.stallDue then
    latch .fieldStall (s.setDsp (fun d => { d with wait := d.wait.map (fun w => { w with stalled := true }) }))
  else s

/-- What ends every command that can touch the queues or make the fleet safe: the SECURED test and the permit wait (R35,
R134). -/
def settle (s : State) : State := noteQueues (secure s)

end Sys2Proof.Machine
end

