-- ==== Sys2Proof/Machine/Fleet.lean ====
section
/-! DEFINITION. The Fleet Tracker and the Frame Classifier: robot and cart status, silence, conflicts, marks, row and
mast samples, relaying (R2, R8, R11, R15 to R28, R180). -/

namespace Sys2Proof.Machine

/-! ### Robot changes (R11, R15 to R21) -/

/-- The state R15 derives from a context. -/
def Robot.derived (k : Robot) : RobotState :=
  if k.fault ≠ 0 then .faulted
  else if k.stranded then .stranded
  else
    match k.pos with
    | some (.dock _) => .docked
    | some (.row _) => .onRow
    | some (.cart _) => .aboard
    | none => .unknown

/-- Whether a position lies in the robot's reach: a configured row, or a configured cart, of its lane (R16). -/
def State.reachable (s : State) (x : Nat) : Pos → Bool
  | .dock r | .row r => s.rowOk r && decide ((s.row r).cfg.lane = (s.robot x).lane)
  | .cart c => s.cartOk c && decide ((s.cart c).lane = (s.robot x).lane)

/-- A robot displaced: UNKNOWN with position none, its dock freed (R16, R17). -/
def displace (x : Nat) (s : State) : State :=
  freeDock x (s.updRobot x (fun k => { k with state := .unknown, pos := none }))

/-- The blocks a robot change is handed to, each with work to do, in any order (R15, R143). -/
def robotWork (x : Nat) (wasFree : Bool) (result : Option PassResult) (docked : Option Nat) (status : Bool) (s : State) :
    List (State → State) :=
  onlyIf ((s.robot x).asg.isSome || s.rnd.isOpen) (plannerChange x wasFree result) ++
    onlyIf (s.robot x).link.isSome (transferRobot x docked) ++
    onlyIf s.stm.state.stormy (stormRobot x status) ++
    onlyIf (decide (s.swp.mode ≠ .off) && !s.freedRows.isEmpty) sweepFreed

/-- A robot change handed on (R15). -/
def handRobot (x : Nat) (wasFree : Bool) (result : Option PassResult) (docked : Option Nat) (status : Bool) (s : State) :
    State :=
  inAnyOrder (robotWork x wasFree result docked status s) s

/-- The context as an accepted status leaves it; lockout: a fault-free status on a row strands the robot (R15, R20). -/
def Robot.take (k : Robot) (rep : RobotReport) (now : Nat) (lockout : Bool) : Robot :=
  let mark :=
    match rep.pos with
    | .dock _ => false
    | .row _ => k.stranded || (lockout && decide (rep.fault = 0))
    | .cart _ => k.stranded
  let k := { k with
    heard := some now, charge := rep.charge, metres := rep.metres, activity := some rep.activity, fault := rep.fault
    pos := some rep.pos, stranded := mark }
  { k with state := k.derived }

/-- The dock and row effects of an accepted report (R11, R62). -/
def placeRobot (x : Nat) (p : Pos) (s : State) : State :=
  match p with
  | .dock r => if (s.row r).sup.occupant = some x then s else occupy x r s
  | .row r => disturb r (if (s.row r).sup.occupant = some x then s else freeDock x s)
  | .cart _ => freeDock x s

/-- ROBOT_FAULT latches when a robot's state has become FAULTED from another (R19, 9.1). -/
def latchFaulted (x : Nat) (old : RobotState) (s : State) : State :=
  latchIf (decide ((s.robot x).state = .faulted) && decide (old ≠ .faulted)) .robotFault s

/-- An accepted status: context, STRANDED and ROBOT_FAULT, docks (R11, R15, R19, R20). The Row Supervisor's dock changes
are made here, before the change is handed to the other three blocks (R15; log 49). -/
def acceptRobot (x : Nat) (rep : RobotReport) (s : State) : State :=
  let old := s.robot x
  let new := old.take rep s.now (decide (s.stm.state = .lockout))
  let s := s.updRobot x (fun _ => new)
  let s := latchIf (new.stranded && !old.stranded) .stranded s
  let s := latchFaulted x old.state s
  placeRobot x rep.pos s

/-- A status that is not accepted, or finds its dock reserved for another robot: displaced and heard (R16, R17; log 46). -/
def refuseRobot (x : Nat) (s : State) : State :=
  let free := (s.robot x).available
  let s := (displace x s).updRobot x (fun k => { k with heard := some s.now })
  handRobot x free none none true (latch .positionConflict s)

/-- The dock a report names. -/
def Pos.dockRow : Pos → Option Nat
  | .dock r => some r
  | _ => none

/-- The other robot that occupies the dock a report names (R17). -/
def State.rival (s : State) (x : Nat) (p : Pos) : Option Nat :=
  match p with
  | .dock r => ((s.row r).sup.occupant).filter (fun q => decide (q ≠ x))
  | _ => none

/-- The dock a report names is reserved for another robot's transfer (R17). -/
def State.barred (s : State) (x : Nat) (p : Pos) : Bool :=
  match p with
  | .dock r =>
    decide ((s.row r).sup.occupant ≠ some x) && (s.row r).sup.reservation.any (fun v => decide (v.robot ≠ x))
  | _ => false

/-- A ROBOT STATUS at the Fleet Tracker (R15 to R17). -/
def robotReport (x : Nat) (rep : RobotReport) (s : State) : State :=
  if !s.reachable x rep.pos || s.barred x rep.pos then refuseRobot x s
  else
    let free := (s.robot x).available
    match s.rival x rep.pos with
    | none => handRobot x free rep.result rep.pos.dockRow true (acceptRobot x rep s)
    | some q =>
      let s := latch .positionConflict (acceptRobot x rep (displace q s))
      inAnyOrder (robotWork x free rep.result rep.pos.dockRow true s ++ robotWork q false none none false s) s

/-- A robot's silence timer has run out (R18). One that left OFFLINE without a status counts as not yet OFFLINE, so its
silence is raised again (log 69; after ROBOT CLEAR log 36). -/
def State.robotSilent (s : State) (x : Nat) : Bool :=
  s.running && s.robotOk x && decide ((s.robot x).state ≠ .offline) &&
    (s.robot x).heard.any (fun h => decide (h + s.par .robotSilence ≤ s.now))

/-- Robot silence (R18). -/
def robotSilence (x : Nat) (s : State) : State :=
  if s.robotSilent x then
    let st := (s.robot x).state
    let s := latch .robotOffline (s.updRobot x (fun k => { k with state := .offline }))
    let s := if decide (st = .onRow) || decide (st = .stranded) then pinUnder x s else s
    handRobot x false none none false s
  else s

/-! ### Cart changes (R22, R23) -/

/-- A cart change handed on: to the Transfer Controller and to the Storm Controller, in any order (R22). -/
def handCart (c : Nat) (stopped : Option Nat) (failed : Bool) (s : State) : State :=
  let k := s.cart c
  inAnyOrder (onlyIf (k.transfer.isSome || decide (s.stm.state = .calm)) (transferCart c stopped failed) ++
    onlyIf k.garageEntry.isSome (stormCart c)) s

/-- A cart's record after an accepted status: fields, state from the first case of R22's table, and the recover mark
cleared by a fault-free status. -/
def Cart.take (k : Cart) (rep : CartReport) (load : Option Nat) (now : Nat) : Cart :=
  let k := { k with
    heard := some now, slot := rep.slot, moving := rep.moving, garaged := rep.garaged, load := load, fault := rep.fault }
  { k with state := k.derived, recover := k.recover && decide (rep.fault ≠ 0) }

/-- The robot a reported load names: none for 0x0000, no answer for an address that is no configured robot (R22). -/
def State.loadRobot (s : State) (a : Nat) : Option (Option Nat) :=
  if a = 0 then some none else (s.robotAt a).map some

/-- A CART STATUS at the Fleet Tracker (R22, R23). -/
def cartReport (c : Nat) (rep : CartReport) (s : State) : State :=
  match s.loadRobot rep.load with
  | none => latch .unknownNode s
  | some load =>
    let failed := decide (rep.fault ≠ 0) && decide ((s.cart c).state ≠ .faulted)
    let s := latchIf failed .cartFault (s.updCart c (fun k => k.take rep load s.now))
    handCart c (if !rep.moving && decide (rep.fault = 0) then some rep.slot else none) failed s

/-- A cart's silence timer has run out (R23). -/
def State.cartSilent (s : State) (c : Nat) : Bool :=
  s.running && s.cartOk c && decide ((s.cart c).state ≠ .faulted) &&
    (s.cart c).heard.any (fun h => decide (h + s.par .cartSilence ≤ s.now))

/-- Cart silence (R23). -/
def cartSilence (c : Nat) (s : State) : State :=
  if s.cartSilent c then
    handCart c none true (latch .cartFault (s.updCart c (fun k => { k with state := .faulted })))
  else s

/-! ### Row and mast samples (R8, R26, R63, R128) -/

/-- A ROW SAMPLE: banked, then at the Row Supervisor, the sweep and the release list (R8, R63, R142, R148). -/
def rowReport (r : Nat) (rep : RowReport) (s : State) : State :=
  let a := supervisorSample r rep.posture rep.fault (bankSample r rep s)
  let s := match a.2 with
    | some x => rowLevelTold x a.1
    | none => a.1
  releaseSample r rep.posture (sweepSample r rep.posture s)

/-- A reference mast's sample at the Yield Engine and the Round Planner (R59, R60, R87). -/
def irradianceSample (m g : Nat) (s : State) : State := evaluateRound false (takeIrradiance m g s)

/-- A MAST SAMPLE: to the Storm Controller and, from a reference mast, to the Yield Engine, in any order (R26). -/
def mastReport (m : Nat) (rep : MastReport) (s : State) : State :=
  inAnyOrder (stormSample m rep.gust rep.mean :: onlyIf (s.mast m).ref (irradianceSample m rep.irradiance)) s

/-! ### Classification (R2, R24, R25, R27, R28, R180) -/

/-- The forward setting of a node kind (R27). -/
def FwdPolicy.of (f : FwdPolicy) : NodeKind → Fwd
  | .row => f.row
  | .robot => f.robot
  | .cart => f.cart
  | .mast => f.mast

/-- The relay judgement: by the kind's setting, with the exception the report carries (R27). -/
def Fwd.relays (f : Fwd) (exception : Bool) : Bool :=
  match f with
  | .all => true
  | .none => false
  | .exceptions => exception

/-- A checked field report of a class, after the echo check (R24, R25, R2, R156, R180). check: the report when its fields
pass; exception and deliver: what the sender's index and the report give. -/
def classifyReport {α : Type} (src : Half) (cls : Nat) (payload : List Byte) (kind : NodeKind) (check : Option α)
    (exception : State → Nat → α → Bool) (deliver : Nat → α → State → State) (s : State) : State :=
  if src.toNat = s.dsp.echo then s
  else if !s.running then offerRelay src.toNat cls payload s
  else
    match s.nodeAt src.toNat with
    | none => latch .unknownNode s
    | some n =>
      if n.kind ≠ kind then latch .fieldFraming s
      else
        match check with
        | none => latch .fieldFraming s
        | some rep =>
          let s' := if (s.ctl.fwd.of kind).relays (exception s n.index rep) then offerRelay src.toNat cls payload s else s
          settle (deliver n.index rep s')

end Sys2Proof.Machine
end

