-- ==== Sys2Proof/Machine/Tables.lean ====
section
/-! DEFINITION. TABLE WRITE: the writable fields, the fitting of values, the staging store, what a live value does at once
(R52, R67, R156 to R159). -/

namespace Sys2Proof.Machine

/-! ### The writable fields (R157, 11.4, 11.6) -/

/-- The staged fields of a row. -/
inductive RowField where | iref | prated | length | sDue
deriving DecidableEq, Repr

/-- What a table code and a field code name. -/
inductive Target where
  | partUplink | partField | partSupervisor
  | rowNode | rowLane | rowSlot
  | rowStaged (f : RowField)
  | rowBaseline | rowCapture
  | robotNode | robotLane
  | cartNode | cartLane | cartGarage
  | mastNode | mastRef
  | param
  | forward
  | policy (column : Nat)
deriving DecidableEq, Repr

/-- The field a write names: field codes number each table's fields from 1 in R157's order (11.4). -/
def Target.ofCodes : Nat → Nat → Option Target
  | 1, 1 => some .partUplink
  | 1, 2 => some .partField
  | 1, 3 => some .partSupervisor
  | 2, 1 => some .rowNode
  | 2, 2 => some .rowLane
  | 2, 3 => some .rowSlot
  | 2, 4 => some (.rowStaged .iref)
  | 2, 5 => some (.rowStaged .prated)
  | 2, 6 => some (.rowStaged .length)
  | 2, 7 => some (.rowStaged .sDue)
  | 2, 8 => some .rowBaseline
  | 2, 9 => some .rowCapture
  | 3, 1 => some .robotNode
  | 3, 2 => some .robotLane
  | 4, 1 => some .cartNode
  | 4, 2 => some .cartLane
  | 4, 3 => some .cartGarage
  | 5, 1 => some .mastNode
  | 5, 2 => some .mastRef
  | 6, 1 => some .param
  | 7, 1 => some .forward
  | 8, f => if 1 ≤ f ∧ f ≤ 15 then some (.policy (f - 1)) else none
  | _, _ => none

/-- The number of records of the table a field belongs to (R157). -/
def Target.count : Target → Nat
  | .partUplink | .partField | .partSupervisor => 1
  | .rowNode | .rowLane | .rowSlot | .rowStaged _ | .rowBaseline | .rowCapture => 1024
  | .robotNode | .robotLane => 96
  | .cartNode | .cartLane | .cartGarage => 8
  | .mastNode | .mastRef => 4
  | .param => 38
  | .forward => 4
  | .policy _ => 6

/-- The structural fields, refused in RUNNING (R157). -/
def Target.structural : Target → Bool
  | .partUplink | .partField | .rowNode | .rowLane | .rowSlot | .robotNode | .robotLane | .cartNode | .cartLane
  | .cartGarage | .mastNode | .mastRef => true
  | _ => false

/-! ### Fitting (R52, R158) -/

/-- Clamp into a range. -/
def clamp (lo hi v : Nat) : Nat := max lo (min v hi)

/-- The value that writes an optional field absent, and stands for absent in an answer (11.4; log 48). -/
def absentValue : Nat := 4294967295

/-- A structural value: the low-order bytes of its field (11.4, R158). -/
def lowHalf (v : Nat) : Nat := v % 65536

/-- A written node address: 0x0000 empties the slot (R1). -/
def slotOf (v : Nat) : Option Nat := if lowHalf v = 0 then none else some (lowHalf v)

/-- An optional field's written value. -/
def optClamp (lo hi v : Nat) : Option Nat := if v = absentValue then none else some (clamp lo hi v)

/-- The largest divisor of 86400 at or below a value (R52). -/
def dayDivisor : Nat → Nat
  | 0 => 1
  | n + 1 => if 86400 % (n + 1) = 0 then n + 1 else dayDivisor n

/-- The bounds that the neighbours of a gust threshold leave it in RUNNING: at least the first, below the second (R158). -/
def State.gustRoom (s : State) (p : Param) : Nat × Nat :=
  match p with
  | .releaseGust => (0, s.par .watchGust)
  | .watchGust => (s.par .releaseGust + 1, s.par .parkGust)
  | .parkGust => (s.par .watchGust + 1, s.par .lockoutGust)
  | _ => (s.par .parkGust + 1, p.info.hi + 1)

/-- The four gust thresholds. -/
def Param.isGust : Param → Bool
  | .releaseGust | .watchGust | .parkGust | .lockoutGust => true
  | _ => false

/-- A parameter's fitted value; none when a gust threshold has no room (R52, R158). -/
def State.fitParam (s : State) (p : Param) (v : Nat) : Option Nat :=
  let w := clamp p.info.lo p.info.hi v
  if s.running && p.isGust then
    let b := s.gustRoom p
    if b.2 ≤ b.1 then none else some (clamp b.1 (b.2 - 1) w)
  else if s.running && decide (p = .epochS) then some (dayDivisor w)
  else some w

/-! ### Storing -/

/-- Change the PART table. -/
def State.updPart (s : State) (f : PartTable → PartTable) : State :=
  { s with ctl := { s.ctl with part := f s.ctl.part } }

/-- Put a row value into the staging store (R52). -/
def stageRow (r : Nat) (f : RowStage → RowStage) (s : State) : State :=
  s.setEp (fun e => { e with staging := { e.staging with rows := e.staging.rows.upd r f } })

/-- Put a parameter value into the staging store (R52). -/
def stageParam (p : Param) (v : Nat) (s : State) : State :=
  s.setEp (fun e => { e with staging := { e.staging with params := e.staging.params.set p.info.index (some v) } })

/-- A row's staged field: its pending value and its active value. -/
def RowField.stage (f : RowField) (v : Nat) (b : RowStage) : RowStage :=
  match f with
  | .iref => { b with iref := some (clamp 0 65535 v) }
  | .prated => { b with prated := some (clamp 0 65535 v) }
  | .length => { b with length := some (clamp 1 1023 v) }
  | .sDue => { b with sDue := some (optClamp 1 1000 v) }

def RowField.direct (f : RowField) (v : Nat) (c : RowCfg) : RowCfg := (f.stage v RowStage.none).apply c

/-- The value a row's staged field answers with. -/
def RowField.fitted (f : RowField) (v : Nat) : Nat :=
  match f with
  | .iref | .prated => clamp 0 65535 v
  | .length => clamp 1 1023 v
  | .sDue => (optClamp 1 1000 v).getD absentValue

/-- What a stored live parameter does at once: timers, silences, replays and the permit stall judged against it, the round
condition evaluated (R18, R23, R35, R87, R127, R129, R140). Several expiries of one write come in any order. -/
def paramActs (p : Param) (s : State) : List (State → State) :=
  match p with
  | .watchDebounce => onlyIf s.watchDue watchExpiry
  | .parkDebounce => onlyIf s.parkDue parkExpiry
  | .calmHold => onlyIf s.calmDue calmExpiry
  | .releaseHold => onlyIf s.releaseDue releaseExpiry
  | .lockoutHold => onlyIf s.lockoutDue lockoutExpiry
  | .mastSilence => onlyIf s.silenceDue silenceExpiry
  | .robotSilence => (s.robotIds.filter s.robotSilent).map robotSilence
  | .cartSilence => (s.cartIds.filter s.cartSilent).map cartSilence
  | .parkRepeat =>
    (s.robotIds.filter s.parkReplayDue).map parkReplay ++ (s.cartIds.filter s.garageReplayDue).map garageReplay
  | .permitStall => onlyIf s.stallDue stallExpiry
  | .gDark | .windowStart | .windowEnd | .roundsEnabled => [evaluateRound false]
  | _ => []

/-- After a change of the mast silence some mast may be heard again (R127; log 26). -/
def rehear (s : State) : State :=
  s.setStm (fun m => { m with silent := m.silent && s.masts.allRec (fun k => !s.heard k) })

/-- Store a live parameter, with what it does at once (R157). -/
def storeLive (p : Param) (v : Nat) (s : State) : State :=
  let s := s.setPar p v
  let s := if p = .mastSilence then rehear s else s
  settle (inAnyOrder (paramActs p s) s)

/-- A write to B or to capture pending hands on the judgement of a metered row in RUNNING (R67). -/
def judgeWritten (r : Nat) (s : State) : State :=
  if s.running && decide ((s.row r).cfg.iref ≠ 0) then settle (takeJudgement r s) else s

/-- A write of a baseline value, or of none (R67). -/
def writeBaseline (r : Nat) (b : Option Nat) (s : State) : State :=
  judgeWritten r (s.updSoil r (fun o => { o with b := b, capture := false }))

/-- A baseline reset: capture pending set (R67). -/
def resetBaseline (r : Nat) (s : State) : State :=
  judgeWritten r (s.updSoil r (fun o => { o with b := none, capture := true, s := 0 }))

/-- Capture pending written clear (R67). -/
def clearCapture (r : Nat) (s : State) : State :=
  judgeWritten r (s.updSoil r (fun o => { o with capture := false }))

/-- A forward setting of a written value, above 2 as 2 (11.6). -/
def Fwd.ofValue : Nat → Fwd
  | 0 => .all
  | 1 => .none
  | _ => .exceptions

/-- Change the forward policy's setting of a record index. -/
def FwdPolicy.setAt (f : FwdPolicy) (i : Nat) (w : Fwd) : FwdPolicy :=
  match i with
  | 0 => { f with row := w }
  | 1 => { f with robot := w }
  | 2 => { f with cart := w }
  | _ => { f with mast := w }

/-- A stored write: the state after it and the value answered, or the refusal (R156 to R158). -/
def storeWrite (t : Target) (i v : Nat) (s : State) : State × (Nat ⊕ Code) :=
  match t with
  | .partUplink =>
    if lowHalf v = 0 ∨ lowHalf v = 0xFFFF then (s, .inr .badIndex)
    else (s.updPart (fun p => { p with uplink := lowHalf v }), .inl (lowHalf v))
  | .partField =>
    if lowHalf v = 0 ∨ lowHalf v = 0xFFFF then (s, .inr .badIndex)
    else (s.updPart (fun p => { p with field := lowHalf v }), .inl (lowHalf v))
  | .partSupervisor =>
    if v = 0 ∨ 0xFFFF ≤ v then (s, .inr .badIndex)
    else (s.updPart (fun p => { p with supervisor := v }), .inl v)
  | .rowNode => (s.updCfg i (fun c => { c with node := slotOf v }), .inl (lowHalf v))
  | .rowLane => (s.updCfg i (fun c => { c with lane := lowHalf v }), .inl (lowHalf v))
  | .rowSlot => (s.updCfg i (fun c => { c with slot := lowHalf v }), .inl (lowHalf v))
  | .rowStaged f =>
    (if s.running then stageRow i (f.stage v) s else s.updCfg i (f.direct v), .inl (f.fitted v))
  | .rowBaseline => (writeBaseline i (optClamp 2048 8191 v) s, .inl ((optClamp 2048 8191 v).getD absentValue))
  | .rowCapture => if v = 0 then (clearCapture i s, .inl 0) else (resetBaseline i s, .inl 1)
  | .robotNode => (s.updRobot i (fun k => { k with node := slotOf v }), .inl (lowHalf v))
  | .robotLane => (s.updRobot i (fun k => { k with lane := lowHalf v }), .inl (lowHalf v))
  | .cartNode => (s.updCart i (fun k => { k with node := slotOf v }), .inl (lowHalf v))
  | .cartLane => (s.updCart i (fun k => { k with lane := lowHalf v }), .inl (lowHalf v))
  | .cartGarage => (s.updCart i (fun k => { k with garage := lowHalf v }), .inl (lowHalf v))
  | .mastNode => (s.updMast i (fun k => { k with node := slotOf v }), .inl (lowHalf v))
  | .mastRef => (s.updMast i (fun k => { k with ref := decide (v ≠ 0) }), .inl (if v = 0 then 0 else 1))
  | .param =>
    match Param.ofIndex i with
    | none => (s, .inr .badIndex)
    | some p =>
      match s.fitParam p v with
      | none => (s, .inr .refusedState)
      | some w =>
        if p.info.staged then (if s.running then stageParam p w s else s.setPar p w, .inl w) else (storeLive p w s, .inl w)
  | .forward =>
    ({ s with ctl := { s.ctl with fwd := s.ctl.fwd.setAt i (Fwd.ofValue v) } }, .inl (min v 2))
  | .policy j => ({ s with ctl := { s.ctl with policy := s.ctl.policy.set (15 * i + j) (decide (v ≠ 0)) } }, .inl (min v 1))

/-- A TABLE WRITE taken: refusals in the order table and field, index, mode, value (R157; log 14). -/
def writeTable (q : Req) (table index fld value : Nat) (s : State) : State :=
  match Target.ofCodes table fld with
  | none => reply q clsTableWrite 0 .badTable [] s
  | some t =>
    if t.count ≤ index then reply q clsTableWrite 0 .badIndex [] s
    else if t.structural && s.running then reply q clsTableWrite 0 .refusedState [] s
    else
      match storeWrite t index value s with
      | (s, .inl v) => reply q clsTableWrite 0 .accepted (be 4 v) s
      | (s, .inr c) => reply q clsTableWrite 0 c [] s

end Sys2Proof.Machine
end

