-- ==== Sys2Proof/Machine/Control.lean ====
section
/-! DEFINITION. The CONTROL and ORDER requests: mode changes and their checks, clock, storm, robots, transfers, rounds,
accounts, reset, notices, passed-through orders (R38, R39, R46, R55, R58, R84, R123, R150, R152, R161 to R168, R170,
R174). Each function takes the request's tag and addresses, makes its effects and offers the answer. -/

namespace Sys2Proof.Machine

/-! ### COMMIT (R162, R163) -/

/-- A fault that a COMMIT check reports: kind code and index (11.4). -/
structure CheckFault where
  kind : Nat
  index : Nat
deriving DecidableEq, Repr

/-- Fault kinds (11.4); check 6 and 7 report none, index "none" (log 32). -/
def CheckFault.row (r : Nat) : CheckFault := ⟨1, r⟩
def CheckFault.robot (x : Nat) : CheckFault := ⟨2, x⟩
def CheckFault.cart (c : Nat) : CheckFault := ⟨3, c⟩
def CheckFault.mast (m : Nat) : CheckFault := ⟨4, m⟩
def CheckFault.lane (l : Nat) : CheckFault := ⟨5, l⟩
def CheckFault.none : CheckFault := ⟨0, 0xFFFF⟩

/-- Check 1: lanes below 8; rows, then robots, then carts. -/
def State.check1 (s : State) : Option CheckFault :=
  ((s.rowIds.filter (fun r => decide (8 ≤ (s.row r).cfg.lane))).map CheckFault.row ++
    (s.robotIds.filter (fun x => decide (8 ≤ (s.robot x).lane))).map CheckFault.robot ++
    (s.cartIds.filter (fun c => decide (8 ≤ (s.cart c).lane))).map CheckFault.cart).head?

/-- The first element of a list that fails by itself or equals an earlier one by the key, in list order. -/
def firstClash {α κ : Type} [DecidableEq κ] (bad : α → Bool) (key : α → κ) : List κ → List α → Option α
  | _, [] => Option.none
  | seen, a :: t => if bad a || seen.contains (key a) then some a else firstClash bad key (key a :: seen) t

/-- Check 2: row slots to 255, and no slot shared in a lane (log 32). -/
def State.check2 (s : State) : Option CheckFault :=
  (firstClash (fun r => decide (255 < (s.row r).cfg.slot)) (fun r => ((s.row r).cfg.lane, (s.row r).cfg.slot)) []
    s.rowIds).map CheckFault.row

/-- Every node slot with an address, taken as rows, robots, carts, then masts. -/
def State.nodeSlots (s : State) : List (Nat × NodeId) :=
  s.rowIds.map (fun r => (s.rowAddr r, ⟨.row, r⟩)) ++ s.robotIds.map (fun x => (s.robotAddr x, ⟨.robot, x⟩)) ++
    s.cartIds.map (fun c => (s.cartAddr c, ⟨.cart, c⟩)) ++
    s.mastIds.map (fun m => ((s.mast m).node.getD 0, ⟨.mast, m⟩))

/-- The fault report of a node. -/
def NodeId.fault (n : NodeId) : CheckFault :=
  match n.kind with
  | .row => .row n.index
  | .robot => .robot n.index
  | .cart => .cart n.index
  | .mast => .mast n.index

/-- Check 3: no slot holds 0xFFFF or the field address, no two hold one address (log 32). -/
def State.check3 (s : State) : Option CheckFault :=
  (firstClash (fun (p : Nat × NodeId) => decide (p.1 = 0xFFFF) || decide (p.1 = s.ctl.part.field)) (fun p => p.1) []
    s.nodeSlots).map (fun p => p.2.fault)

/-- Check 4: every lane with a robot has a cart. -/
def State.check4 (s : State) : Option CheckFault :=
  (((List.range 8).filter (fun l =>
    s.robots.anyRec (fun k => k.node.isSome && decide (k.lane = l)) &&
      !s.carts.anyRec (fun k => k.node.isSome && decide (k.lane = l)))).map CheckFault.lane).head?

/-- Check 5: garage slots to 255. -/
def State.check5 (s : State) : Option CheckFault :=
  ((s.cartIds.filter (fun c => decide (255 < (s.cart c).garage))).map CheckFault.cart).head?

/-- Check 6: the order of the gust thresholds. -/
def State.check6 (s : State) : Option CheckFault :=
  if s.par .releaseGust < s.par .watchGust ∧ s.par .watchGust < s.par .parkGust ∧ s.par .parkGust < s.par .lockoutGust then
    Option.none
  else some CheckFault.none

/-- Check 7: epoch_s divides 86400. -/
def State.check7 (s : State) : Option CheckFault :=
  if 86400 % s.par .epochS = 0 then Option.none else some CheckFault.none

/-- The first check that fails, with its number (R162). -/
def State.commitFault (s : State) : Option (Nat × CheckFault) :=
  (s.check1.map (fun f => (1, f))).or <| (s.check2.map (fun f => (2, f))).or <| (s.check3.map (fun f => (3, f))).or <|
    (s.check4.map (fun f => (4, f))).or <| (s.check5.map (fun f => (5, f))).or <| (s.check6.map (fun f => (6, f))).or
      (s.check7.map (fun f => (7, f)))

/-- A configured row at COMMIT or RESET RUN: the Row Supervisor's fields with the reported posture kept and the resync
mark set, the sweep and the release list without it (R5, R130, R142). -/
def Row.restart (x : Row) : Row :=
  if x.cfg.node.isSome then
    { x with sup := { RowSup.powerOn with reported := x.sup.reported, resync := true }, stow := Stow.unreached, rel := none }
  else x

/-- A configured robot at COMMIT or RESET RUN (R14). -/
def Robot.restart (now : Nat) (k : Robot) : Robot :=
  if k.node.isSome then { Robot.fresh k.node k.lane with heard := some now } else k

/-- A configured cart at COMMIT or RESET RUN (R22, R126). -/
def Cart.restart (now : Nat) (k : Cart) : Cart :=
  if k.node.isSome then
    { k with
      state := .unknown, load := none, recover := false, heard := some now, transfer := none, hold := none
      garageEntry := none }
  else k

/-- A configured mast's wind record at COMMIT or RESET RUN (R127). -/
def Mast.restart (now : Nat) (m : Mast) : Mast :=
  if m.node.isSome then { m with gust := none, mean := none, heard := some now } else m

/-- The Fleet Tracker, the Row Supervisor, the Transfer Controller and the mast records at COMMIT or RESET RUN. -/
def restartFleet (s : State) : State :=
  { s with
    rows := s.rows.map Row.restart
    robots := s.robots.map (Robot.restart s.now)
    carts := s.carts.map (Cart.restart s.now)
    masts := s.masts.map (Mast.restart s.now)
    laneQ := Tab.empty _ }

/-- The Storm Controller and the sweep at COMMIT or RESET RUN: WATCH, no timer, no gust, no advisory (R130, R142). -/
def restartStorm (s : State) : State :=
  { s with stm := ⟨.watch, none, none, none, none, none, none, none, false⟩, swp := ⟨.off, 0⟩ }

/-- The Round Planner at COMMIT or RESET RUN: CLOSED, open time and close reason kept, the due list built (R91, R106). -/
def restartPlanner (s : State) : State := buildDueList (s.setRnd (fun p => { p with isOpen := false }))

/-- The mast silence event of an entry with no mast configured (R128). -/
def entrySilence (s : State) : State := if s.mastIds.isEmpty then mastSilence s else s

/-- Entering RUNNING (R163): lookup, records, irradiance records of unmarked masts dropped (one whose node slot is empty
keeps its record in storage, log 52), accumulators zero, an epoch when the clock is set, due list. -/
def enterRunning (s : State) : State :=
  let s := { s with ctl := { s.ctl with mode := .running }, lookup := s.nodeSlots }
  let s := s.setDsp (fun d => { d with group := none })
  let s := restartStorm (restartFleet s)
  let s := { s with masts := s.masts.map (fun m => { m with irr := if m.ref then m.irr else none }) }
  let s := s.setEp (fun e => { e with epoch := none, held := none, batch := none, staging := Staging.empty, acc := Accum.zero })
  let s := if s.clk.set then openEpoch s else s
  settle (entrySilence (restartPlanner s))

/-- COMMIT (R162, R163). -/
def requestCommit (q : Req) (s : State) : State :=
  if s.running then replyCtl q 1 .refusedState [] s
  else
    match s.commitFault with
    | some (n, f) => replyCtl q 1 .checkFailed (be 1 n ++ be 1 f.kind ++ be 2 f.index) s
    | none => replyCtl q 1 .accepted [] (enterRunning s)

/-! ### DECOMMIT (R51, R54, R164) -/

/-- What refuses DECOMMIT BUSY (R164). -/
def State.decommitBusy (s : State) : Bool :=
  s.stm.state.stormy || s.robots.anyRec (fun k => k.asg.isSome || k.link.isSome)

/-- A row, and a cart, at DECOMMIT: the reported posture and the last-transfer fields are kept (R5, R51, R126, R164). -/
def Row.halt (x : Row) : Row :=
  { x with
    sup := { RowSup.powerOn with reported := x.sup.reported }, stow := Stow.unreached, rel := none, banks := ⟨none, none⟩ }

def Cart.halt (k : Cart) : Cart := { Cart.fresh k.node k.lane k.garage with lastTransfer := k.lastTransfer }

/-- Leaving RUNNING (R164). -/
def leaveRunning (s : State) : State :=
  let s := applyDirect s
  let s := s.setEp (fun e => { e with epoch := none, held := none, acc := Accum.zero })
  let s := s.setYld (fun _ => ⟨none, none, none⟩)
  let s := s.setRnd (fun p => { p with isOpen := false, due := [] })
  let s := s.setDsp (fun d => { d with
    urgent := d.urgent.filter (fun e => decide (e.owner = .supervisor))
    routine := d.routine.filter (fun e => decide (e.owner = .supervisor))
    group := none
    air := d.air.map (fun f => { f with handOn := false }) })
  noteQueues { s with
    ctl := { s.ctl with mode := .unconfigured }
    lookup := []
    rows := s.rows.map Row.halt
    robots := s.robots.map (fun k => Robot.fresh k.node k.lane)
    carts := s.carts.map Cart.halt
    laneQ := Tab.empty _
    stm := ⟨.calm, none, none, none, none, none, none, none, false⟩
    swp := ⟨.off, 0⟩ }

/-- DECOMMIT in RUNNING (R164). -/
def requestDecommit (q : Req) (s : State) : State :=
  if s.decommitBusy then replyCtl q 2 .busy [] s else replyCtl q 2 .accepted [] (leaveRunning s)

/-! ### TIME SET and CLOSE NOW (R46, R55) -/

/-- The clock-step event: the round condition and an advisory judged again, the two in any order (R46). -/
def clockStep (s : State) : State :=
  settle (inAnyOrder (evaluateRound true :: onlyIf s.advisoryDue advisoryExpiry) s)

/-- TIME SET (R46; log 10). The epoch is closed or opened before the planner and the Storm Controller take the clock-step
event (log 62). -/
def requestTime (q : Req) (t : Nat) (s : State) : State :=
  let s := latch .clockStep { s with clk := { s.clk with clock := t, set := true } }
  let s :=
    if s.running then
      clockStep (match s.ep.epoch with
        | none => openEpoch s
        | some _ => boundary true false s)
    else s
  replyCtl q 3 .accepted [] s

/-- CLOSE NOW in RUNNING (R55). -/
def requestClose (q : Req) (s : State) : State :=
  match s.ep.epoch with
  | none => replyCtl q 11 .refusedState [] s
  | some e =>
    if s.ep.held.isSome then replyCtl q 11 .busy [] s
    else if s.now - e.startMono < 60 then replyCtl q 11 .tooEarly [] s
    else
      replyCtl q 11 .accepted (be 4 s.clk.clock ++ be 4 (s.now - e.startMono)) (settle (boundary false false s))

/-! ### The storm requests (R150 to R152) -/

/-- The flag that STORM FORCE acts on: LOCKOUT over PARK over RELEASE, as its code in the answer (R152, 11.4). -/
def forcedFlag (flags : Byte) : Nat :=
  if flags.getLsbD 2 then 3 else if flags.getLsbD 1 then 2 else if flags.getLsbD 0 then 1 else 0

/-- A forced RELEASE is windy (R152). -/
def State.windy (s : State) : Bool := s.stm.gust.any (fun g => decide (s.par .releaseGust ≤ g))

/-- What a forced flag does in a storm state: the code answered and the effect (R152). -/
def forceEffect (flag : Nat) (s : State) : Code × (State → State) :=
  match flag, s.stm.state with
  | 3, .lockout => (.accepted, fun s => s.setStm (fun m => { m with lockoutT := some s.now }))
  | 3, _ => (.accepted, lockoutEntry)
  | 2, .lockout => (.refusedState, id)
  | 2, .park => (.accepted, id)
  | 2, .secured => (.accepted, id)
  | 2, _ => (.accepted, parkEntry)
  | 1, .park => if s.windy then (.windy, id) else (.accepted, releaseEntry)
  | 1, .secured => if s.windy then (.windy, id) else (.accepted, releaseEntry)
  | 1, .release => (.accepted, id)
  | 1, _ => (.refusedState, id)
  | _, _ => (.accepted, id)

/-- STORM FORCE in RUNNING (R152; log 43). -/
def requestForce (q : Req) (flags : Byte) (s : State) : State :=
  let f := forcedFlag flags
  let e := forceEffect f s
  replyCtl q 4 e.1 (be 1 f) (settle (e.2 s))

/-- STORM ADVISORY in RUNNING (R150, R151). -/
def requestAdvisory (q : Req) (t : Nat) (s : State) : State :=
  if s.clk.set then
    replyCtl q 5 .accepted []
      (settle (advisoryExpiry (s.setStm (fun m => { m with advisory := some ⟨t, t - s.par .parkLead⟩ }))))
  else replyCtl q 5 .refusedState [] s

/-- ADVISORY CANCEL in RUNNING (R150). -/
def requestCancel (q : Req) (s : State) : State :=
  replyCtl q 6 .accepted [] (s.setStm (fun m => { m with advisory := none }))

/-! ### ROBOT MANUAL and ROBOT CLEAR (R20, R21, R122, R165) -/

/-- A robot that a request may name (R165). -/
def State.robotNamed (s : State) (x : Nat) : Bool := decide (x ≤ 95) && s.robotOk x

/-- The robot's transfer, with its cart, once a cart is granted. -/
def State.transferOf (s : State) (x : Nat) : Option (Nat × Transfer) :=
  match (s.robot x).link with
  | some (.cart c) => ((s.cart c).transfer).map (fun t => (c, t))
  | _ => none

/-- What refuses MANUAL BUSY: the park list, a transfer past APPROACH, or one stalled in it (R21, R165). -/
def State.manualBusy (s : State) (x : Nat) : Bool :=
  (s.robot x).park.isSome || (s.transferOf x).any (fun p => decide (p.2.phase ≠ .approach) || p.2.stalled)

/-- The Transfer Controller takes a robot's change to MANUAL (R109, R122). -/
def manualTransfer (x : Nat) (s : State) : State :=
  match s.transferOf x with
  | some (c, t) => transferWithdraw c t s
  | none => transferRobot x none s

/-- A change of the control mode handed on (R21). -/
def setMode (x : Nat) (m : CtrlMode) (s : State) : State :=
  let s := s.updRobot x (fun k => { k with ctrl := m })
  inAnyOrder (onlyIf ((s.robot x).asg.isSome || s.rnd.isOpen) (plannerChange x false none) ++
    onlyIf (decide (m = .manual) && (s.robot x).link.isSome) (manualTransfer x) ++
    onlyIf s.stm.state.stormy (stormRobot x false)) s

/-- The mode a ROBOT MANUAL names; other codes than 0 and 1 name a free one (11.4; log 13). -/
def modeOfCode : Nat → CtrlMode
  | 0 => .auto
  | 1 => .manual
  | n => if Config.manualCode n then .manual else .auto

/-- ROBOT MANUAL in RUNNING (R21, R165; log 35). -/
def requestManual (q : Req) (x mode : Nat) (s : State) : State :=
  let m := modeOfCode mode
  if !s.robotNamed x then replyCtl q 7 .badIndex [] s
  else if decide (m = .manual) && s.manualBusy x then replyCtl q 7 .busy [] s
  else if (s.robot x).ctrl = m then replyCtl q 7 .accepted [] s
  else replyCtl q 7 .accepted [] (settle (setMode x m s))

/-- The stranded mark cleared, and the state derived from the last reported fields; a robot whose position was lost is
UNKNOWN (R20, R165; log 36). -/
def Robot.clearMark (k : Robot) : Robot :=
  let k := { k with stranded := false }
  { k with state := if k.pos.isNone then .unknown else k.derived }

/-- ROBOT CLEAR in RUNNING (R20, R165). BAD_INDEX is tested before REFUSED_STATE (log 68). -/
def requestClear (q : Req) (x : Nat) (s : State) : State :=
  if !s.robotNamed x then replyCtl q 8 .badIndex [] s
  else if s.stm.state = .lockout then replyCtl q 8 .refusedState [] s
  else if (s.robot x).stranded then
    let k := s.robot x
    let s := latchFaulted x k.state (s.updRobot x Robot.clearMark)
    replyCtl q 8 .accepted [] (settle (handRobot x k.available none none false s))
  else replyCtl q 8 .accepted [] s

/-! ### TRANSFER RESOLVE (R123) -/

/-- The row 0xFFFF names NONE or ALL. -/
def rowNone : Nat := 0xFFFF

/-- The refusal of a resolve, in R123's order; row is 0xFFFF for NONE. -/
def State.resolveRefusal (s : State) (x row : Nat) : Option Code :=
  let k := s.robot x
  let badRow := decide (row ≠ rowNone) && (decide (1023 < row) || !s.rowOk row || decide ((s.row row).cfg.lane ≠ k.lane))
  let stalled := (s.transferOf x).any (fun p => p.2.stalled)
  let onCart := match k.pos with
    | some (.cart _) => true
    | _ => false
  let u := (s.row row).sup
  if !s.robotNamed x || badRow then some .badIndex
  else if k.link.isSome && !stalled then some .busy
  else if !stalled && !(k.link.isNone && onCart) then some .refusedState
  else if decide (row ≠ rowNone) &&
      (u.occupant.any (fun y => decide (y ≠ x)) || u.reservation.any (fun v => decide (v.robot ≠ x))) then
    some .refusedState
  else none

/-- The robot's context as asserted (R123). -/
def Robot.resolved (k : Robot) (row : Nat) : Robot :=
  if row = rowNone then { k with state := .unknown, pos := none }
  else
    let k := { k with stranded := false, pos := some (.dock row) }
    { k with state := k.derived }

/-- A cart that held the robot by its load: load none, state derived again (R123). -/
def unload (x c : Nat) (s : State) : State :=
  if (s.cart c).load = some x then s.updCart c (fun k => ({ k with load := none } : Cart).rederive) else s

/-- The stalled transfer, if any, removed with its reservation (R123). -/
def dropStalled (x : Nat) (s : State) : State :=
  match s.transferOf x with
  | none => s
  | some (c, t) =>
    garageFreed c (freeReservation x t.dest
      (removeTransfer c t .stalled (fun k => ({ k with load := none } : Cart).rederive) s))

/-- The arbiters of the lanes whose queue holds a request, each a piece of work of its own (R111). -/
def State.waitingArbiters (s : State) : List (State → State) :=
  ((List.range 8).filter (fun l => !(s.lane l).isEmpty)).map arbiter

/-- The effects of an accepted resolve, and what it hands on (R93, R111, R123, R138, R139, R143). A cart of any lane may
have held the robot by its load, so every lane's arbiter may have work. A state that becomes FAULTED latches ROBOT_FAULT
(R19, 9.1). -/
def resolve (x row : Nat) (s : State) : State :=
  let old := (s.robot x).state
  let s := forEach s.cartIds (unload x) s
  let s := dropStalled x s
  let s := if row = rowNone then freeDock x s else occupy x row s
  let s := latchFaulted x old (s.updRobot x (fun k => k.resolved row))
  let storm := fun u : State => if (u.robot x).park.isSome then leavePark x u else stormRobot x false u
  inAnyOrder (onlyIf ((s.robot x).asg.isSome || s.rnd.isOpen) (plannerChange x false none) ++
    (if s.stm.state = .calm then s.waitingArbiters else []) ++
    onlyIf s.stm.state.stormy storm ++ onlyIf (decide (s.swp.mode ≠ .off) && !s.freedRows.isEmpty) sweepFreed) s

/-- TRANSFER RESOLVE in RUNNING (R123). -/
def requestResolve (q : Req) (x row : Nat) (s : State) : State :=
  match s.resolveRefusal x row with
  | some c => replyCtl q 9 c [] s
  | none => replyCtl q 9 .accepted [] (settle (resolve x row s))

/-! ### Rounds, accounts, notices (R84, R85, R166, R167, R170, R174) -/

/-- ROUNDS ENABLE in RUNNING (R166). -/
def requestRounds (q : Req) (v : Nat) (s : State) : State := replyCtl q 10 .accepted [] (storeLive .roundsEnabled v s)

/-- ACCOUNT CLEAR in RUNNING (R84, R85, R167). -/
def requestAccounts (q : Req) (row : Nat) (s : State) : State :=
  if row = rowNone then replyCtl q 12 .accepted [] (forEach s.rowIds clearAccount s)
  else if 1023 < row ∨ s.rowOk row = false then replyCtl q 12 .badIndex [] s
  else replyCtl q 12 .accepted [] (clearAccount row s)

/-- NOTICE CLEAR (R174): answered with the notice set as it stands after it (log 16). -/
def requestNoticeClear (q : Req) (marks : BitVec 24) (s : State) : State :=
  let n := s.ntc.clear (flagMarks marks)
  replyCtl q 14 .accepted (be 3 n.latched.toNat) { s with ntc := n }

/-- NOTICE MASK (R170): answered with the mask as stored. -/
def requestNoticeMask (q : Req) (marks : BitVec 24) (s : State) : State :=
  let m := flagMarks marks
  let rise := s.ntc.unmasks m
  let s := { s with ntc := { s.ntc with mask := m } }
  replyCtl q 15 .accepted (be 3 m.toNat) (if rise then causeNotice s else s)

/-! ### RESET RUN (R43, R58, R168) -/

/-- The Order Dispatcher at RESET RUN: queues emptied, no group, a frame on the air no longer handed on (R34, R43). -/
def clearQueues (s : State) : State :=
  noteQueues (s.setDsp (fun d => { d with
    urgent := [], routine := [], group := none, air := d.air.map (fun f => { f with handOn := false }), rx := [] }))

/-- The open epoch's close at RESET RUN (R58). -/
def resetEpoch (s : State) : State := if s.clk.set then boundary true true s else s

/-- RESET RUN in RUNNING (R168). The epoch's close and the fleet's reset come in either order where a robot stands on a
row (R49; log 2). -/
def resetRunning (s : State) : State :=
  let s := clearQueues s
  let s :=
    if s.rowIds.any s.robotOn then inAnyOrder [resetEpoch, restartFleet] s else restartFleet (resetEpoch s)
  settle (entrySilence (restartPlanner (restartStorm s)))

/-- RESET RUN (R168). -/
def requestReset (q : Req) (s : State) : State :=
  replyCtl q 13 .accepted [] (if s.running then resetRunning s else clearQueues s)

/-! ### ORDER (R38, R39) -/

/-- Work in hand on an order's node (R39). -/
def State.orderBusy (s : State) (n : NodeId) (k : Kind) : Bool :=
  match n.kind with
  | .robot =>
    decide ((s.robot n.index).ctrl = .auto) && ((s.robot n.index).asg.isSome || (s.robot n.index).link.isSome)
  | .cart =>
    (s.cart n.index).transfer.isSome &&
      (decide (k = .cartFetch) || decide (k = .cartCarry) || decide (k = .cartGarage))
  | .row => (s.row n.index).sup.levelClaim.isSome && (decide (k = .rowLevel) || decide (k = .rowRelease))
  | .mast => false

/-- The checks of an ORDER in RUNNING before room, in R39's order. -/
def State.orderRefusal (s : State) (dest : Nat) (o : Order) : Option Code :=
  match s.nodeAt dest with
  | none => some .badIndex
  | some n =>
    if decide (n.kind ≠ o.kind.target) || !o.encodable then some .badIndex
    else if s.stm.state.stormy && o.kind.fixedDrop then some .refusedState
    else if s.policyDrop s.stm.state o.kind.idx then some .refusedState
    else if s.orderBusy n o.kind then some .busy
    else none

/-- Queue a passed-through order and answer; without room QUEUE_FULL (R38, R39). -/
def passOrder (q : Req) (dest : Nat) (o : Order) (s : State) : State :=
  if s.dsp.routine.length + 1 > 256 then reply q clsOrder 0 .queueFull [] s
  else
    reply q clsOrder 0 .accepted [] (noteQueues (s.setDsp (fun d => { d with
      routine := d.routine ++ groupEntries .supervisor dest d.nextTag [o], nextTag := d.nextTag + 1 })))

/-- An ORDER taken; one whose class is no field order, or whose payload has another length, is dropped with
UPLINK_FRAMING (R38, R39, R181). -/
def requestOrder (q : Req) (dest cls : Nat) (payload : List Byte) (s : State) : State :=
  match Order.ofWire cls payload with
  | none => latch .uplinkFraming s
  | some o =>
    if s.running then
      match s.orderRefusal dest o with
      | some c => reply q clsOrder 0 c [] s
      | none => passOrder q dest o s
    else passOrder q dest o s

end Sys2Proof.Machine
end

