-- ==== Sys2Proof/Machine/Links.lean ====
section
/-! DEFINITION. The meanings of the reset input, the transmitters' frame starts and ends, send-permit and its stall
(R32, R34, R35, R155, R161, R171 to R173). -/

namespace Sys2Proof.Machine

/-- The uplink frame of the head entry, with addresses and a NOTICE's contents as they stand (R155, R156, R172, 11.1). -/
def State.uplinkBytes (s : State) : UpEntry → List Byte
  | .answer dst cls p => frameBytes dst s.ctl.part.uplink cls p
  | .notice =>
    frameBytes s.ctl.part.supervisor s.ctl.part.uplink clsNotice
      (be 3 s.ntc.latched.toNat ++ be 3 s.ntc.risen.toNat ++ be 3 s.ntc.mask.toNat)
  | .report p => frameBytes s.ctl.part.supervisor s.ctl.part.uplink clsReport p
  | .relayed src p => frameBytes s.ctl.part.supervisor src clsRelayed p

/-- A frame start on the uplink: the head entry goes on the air and keeps its place; a NOTICE clears the risen marks
(R155, R172). -/
def uplinkStart (s : State) : State :=
  match s.up.air, s.up.queue with
  | none, e :: _ =>
    let t := { s with up := { s.up with air := some (s.uplinkBytes e) } }
    if e = .notice then { t with ntc := { t.ntc with risen := 0 } } else t
  | _, _ => s

/-- A frame end on the uplink: the entry leaves, and an owed NOTICE is offered (R155, R173). -/
def uplinkEnd (s : State) : State :=
  match s.up.air with
  | none => s
  | some _ =>
    let s := { s with up := { s.up with queue := s.up.queue.tail, air := none } }
    if s.ntc.owed then offerNotice s else s

/-- Power-on or the reset input: every record at its reset value. What is not the part's own is kept: the waiting
commands, the level of send-permit and the selector of free values; a frame on the field link is finished without a
sent event (R32, R43, R161; logs 6 and 9). -/
def powerOn (s : State) : State :=
  { State.reset with
    pending := s.pending
    choices := s.choices
    dsp := { State.reset.dsp with
      permit := s.dsp.permit
      air := s.dsp.air.map (fun f => { f with handOn := false }) } }

/-- POWER_ON_RESET (R161). -/
def execPowerOnReset (s : State) : Host.Outcome State Fault Refusal := .next (powerOn s)

/-- FRAME_START (R32, R33, R36, R42). -/
def execFrameStart (s : State) : Host.Outcome State Fault Refusal := .next (settle (frameStart s))

/-- FRAME_END (R34). -/
def execFrameEnd (s : State) : Host.Outcome State Fault Refusal := .next (settle (frameEnd s))

/-- SEND_PERMIT_CHANGE (R35). -/
def execSendPermitChange (asserted : Bool) (s : State) : Host.Outcome State Fault Refusal :=
  .next (noteQueues (permitChange asserted s))

/-- PERMIT_STALL_EXPIRY (R35). -/
def execPermitStallExpiry (s : State) : Host.Outcome State Fault Refusal := .next (stallExpiry s)

/-- UPLINK_FRAME_START (R155, R172). -/
def execUplinkFrameStart (s : State) : Host.Outcome State Fault Refusal := .next (uplinkStart s)

/-- UPLINK_FRAME_END (R155, R173). -/
def execUplinkFrameEnd (s : State) : Host.Outcome State Fault Refusal := .next (uplinkEnd s)

end Sys2Proof.Machine
end

