-- ==== Sys2Proof/Machine/Reports.lean ====
section
/-! DEFINITION. The meanings of the field frames: rejected frames and the five field reports (R24 to R28, 11.3). -/

namespace Sys2Proof.Machine

/-- The bytes of a half, and of two halves, as a report carries them. -/
def halfBytes (h : Half) : List Byte := be 2 h.toNat

/-- A checked ROW SAMPLE. exceptions: the tracker fault, or a posture other than the one on record (R27). -/
def fieldRow (src current : Half) (posture fault : Byte) (s : State) : State :=
  classifyReport src clsRowSample (halfBytes current ++ [posture, fault]) .row
    (RowReport.ofFields current.toNat posture.toNat fault.toNat)
    (fun s r rep => rep.fault || decide ((s.row r).sup.reported ≠ some rep.posture)) rowReport s

/-- A checked MAST SAMPLE. exception: a gust at or above the watch gust (R27). -/
def fieldMast (src irradiance mean gust : Half) (s : State) : State :=
  classifyReport src clsMastSample (halfBytes irradiance ++ halfBytes mean ++ halfBytes gust) .mast
    (MastReport.ofFields irradiance.toNat mean.toNat gust.toNat)
    (fun s _ rep => decide (s.par .watchGust ≤ rep.gust)) mastReport s

/-- A checked ROBOT STATUS. exceptions: a fault code, or a pass result (R27). -/
def fieldRobot (src : Half) (kind : Byte) (index : Half) (activity result : Byte) (metres charge : Half) (fault : Byte)
    (s : State) : State :=
  classifyReport src clsRobotStatus
    (kind :: halfBytes index ++ [activity, result] ++ halfBytes metres ++ halfBytes charge ++ [fault]) .robot
    (RobotReport.ofFields kind.toNat index.toNat activity.toNat result.toNat metres.toNat charge.toNat fault.toNat)
    (fun _ _ rep => decide (rep.fault ≠ 0) || rep.result.isSome) robotReport s

/-- A checked CART STATUS. exception: a fault code (R27). -/
def fieldCart (src : Half) (slot motion garaged : Byte) (load : Half) (fault : Byte) (s : State) : State :=
  classifyReport src clsCartStatus ([slot, motion, garaged] ++ halfBytes load ++ [fault]) .cart
    (CartReport.ofFields slot.toNat motion.toNat garaged.toNat load.toNat fault.toNat)
    (fun _ _ rep => decide (rep.fault ≠ 0)) cartReport s

/-- A checked LEAVE ASK; under EXCEPTIONS it is always relayed (R27). -/
def fieldLeave (src : Half) (s : State) : State :=
  classifyReport src clsLeaveAsk [] .robot (some ()) (fun _ _ _ => true) (fun x _ => leaveAsked x) s

/-- A half from two bytes. -/
def halfOf (a b : Byte) : Half := a ++ b

/-- A field frame whose bytes pass R24's first two checks: an echo is discarded, a class or length that is no field
report's is dropped with FIELD_FRAMING, and a report is taken as its own command is (R24; log 44). -/
def takeField (f : RxFrame) (s : State) : State :=
  let src : Half := BitVec.ofNat 16 f.src
  if f.src = s.dsp.echo then s
  else
    match f.cls, f.payload with
    | 0x10, [k, i, j, a, r, m, n, c, d, e] => fieldRobot src k (halfOf i j) a r (halfOf m n) (halfOf c d) e s
    | 0x11, [sl, m, g, a, b, e] => fieldCart src sl m g (halfOf a b) e s
    | 0x12, [a, b, p, e] => fieldRow src (halfOf a b) p e s
    | 0x13, [a, b, c, d, e, g] => fieldMast src (halfOf a b) (halfOf c d) (halfOf e g) s
    | 0x14, [] => fieldLeave src s
    | _, _ => latch .fieldFraming s

/-- FIELD_FRAME_REJECTED: check sequence and length failures latch FIELD_FRAMING, as does a class that is no field
report's (R24, R179). -/
def execFieldFrameRejected (bytes : List Byte) (s : State) : Host.Outcome State Fault Refusal :=
  .next (match judgeFrame bytes with
    | .noFrame => s
    | .bad => latch .fieldFraming s
    | .good f => takeField f s)

/-- ROW_SAMPLE (R8, R63). -/
def execRowSample (src current : Half) (posture fault : Byte) (s : State) : Host.Outcome State Fault Refusal :=
  .next (fieldRow src current posture fault s)

/-- MAST_SAMPLE (R59, R127, R128). -/
def execMastSample (src irradiance mean gust : Half) (s : State) : Host.Outcome State Fault Refusal :=
  .next (fieldMast src irradiance mean gust s)

/-- ROBOT_STATUS (R15 to R20). -/
def execRobotStatus (src : Half) (kind : Byte) (index : Half) (activity result : Byte) (metres charge : Half)
    (fault : Byte) (s : State) : Host.Outcome State Fault Refusal :=
  .next (fieldRobot src kind index activity result metres charge fault s)

/-- CART_STATUS (R22, R23). -/
def execCartStatus (src : Half) (slot motion garaged : Byte) (load : Half) (fault : Byte) (s : State) :
    Host.Outcome State Fault Refusal :=
  .next (fieldCart src slot motion garaged load fault s)

/-- LEAVE_ASK (R41). -/
def execLeaveAsk (src : Half) (s : State) : Host.Outcome State Fault Refusal := .next (fieldLeave src s)

end Sys2Proof.Machine
end

