-- ==== Sys2Proof/Machine/Views.lean ====
section
/-! DEFINITION. TABLE READ: the records of the tables and read-only views, byte by byte (R160, R176, 11.5, 11.6). -/

namespace Sys2Proof.Machine

/-! ### Pieces of a record -/

/-- A number or its stated absent value. -/
def optField (n : Nat) (v : Option Nat) (absent : Nat) : RecBytes := field n (v.getD absent)

/-- A number, or bytes without a stated value (log 12). -/
def optUnstated (n : Nat) (v : Option Nat) : RecBytes :=
  match v with
  | some v => field n v
  | none => unstated n

/-- One-byte and two-byte index fields with "none" (R178). -/
def index1 (v : Option Nat) : RecBytes := optField 1 v 0xFF
def index2 (v : Option Nat) : RecBytes := optField 2 v 0xFFFF

/-- A duration, 0xFFFFFFFF for none (11.6). -/
def seconds (v : Option Nat) : RecBytes := optField 4 v 0xFFFFFFFF

/-- Marks as bits from bit 0 on; bits that the layout does not list are 0. -/
def marks : List Bool → Nat
  | [] => 0
  | b :: t => (if b then 1 else 0) + 2 * marks t

/-- Seconds since, and seconds to, a monotonic time. -/
def State.since (s : State) (t : Option Nat) : Option Nat := t.map (fun a => s.now - a)
def State.until (s : State) (t : Option Nat) : Option Nat := t.map (fun a => a - s.now)

/-! ### Codes (11.5, 11.6) -/

def Demand.code : Demand → Nat
  | .track => 0
  | .level => 1
  | .stow => 2

def RobotState.code : RobotState → Nat
  | .unknown => 0
  | .docked => 1
  | .onRow => 2
  | .aboard => 3
  | .offline => 4
  | .stranded => 5
  | .faulted => 6

def CartState.code : CartState → Nat
  | .unknown => 0
  | .garaged => 1
  | .idle => 2
  | .busy => 3
  | .recover => 4
  | .faulted => 5

def PassPhase.code : PassPhase → Nat
  | .leveling => 0
  | .setup => 1
  | .running => 2

def Purpose.code : Purpose → Nat
  | .round => 0
  | .park => 1

def Phase.code : Phase → Nat
  | .approach => 0
  | .boarding => 1
  | .travel => 2
  | .alighting => 3

def OutcomeKind.code : OutcomeKind → Nat
  | .done => 1
  | .failed => 2
  | .stalled => 3
  | .withdrawn => 4

def CloseReason.code : CloseReason → Nat
  | .window => 0
  | .light => 1
  | .storm => 2
  | .disabled => 3
  | .clock => 4

def Owner.code : Owner → Nat
  | .round => 0
  | .transfer => 1
  | .storm => 2
  | .row => 3
  | .supervisor => 4

def ParkOrder.code : ParkOrder → Nat
  | .hold => 0
  | .abort => 1
  | .via => 2

def SweepMode.code : SweepMode → Nat
  | .off => 0
  | .park => 1
  | .lockout => 2

def Fwd.code : Fwd → Nat
  | .all => 0
  | .none => 1
  | .exceptions => 2

/-- Position kind and index (11.3). -/
def Pos.kindCode : Pos → Nat
  | .dock _ => 0
  | .row _ => 1
  | .cart _ => 2

def Pos.place : Pos → Nat
  | .dock r => r
  | .row r => r
  | .cart c => c

/-! ### The records -/

/-- Whether a pending value for a row field waits in the staging store or in the batch in hand (R52, R160). -/
def State.rowPending (s : State) (r : Nat) (p : RowStage → Bool) : Bool :=
  p (s.ep.staging.rows.get r) || s.ep.batch.any (fun b => p (b.rows.get r))

/-- The same for a parameter. -/
def State.parPending (s : State) (p : Param) : Bool :=
  (s.ep.staging.params.get p.info.index).isSome || s.ep.batch.any (fun b => (b.params.get p.info.index).isSome)

/-- A row as its records read it: an unconfigured row shows its configuration and reset values (11.5; log 31). -/
def State.shownRow (s : State) (r : Nat) : Row :=
  if s.rowOk r then s.row r else { Row.powerOn with cfg := (s.row r).cfg }

def recPart (s : State) : RecBytes :=
  field 2 s.ctl.part.uplink ++ field 2 s.ctl.part.field ++ field 2 s.ctl.part.supervisor

/-- The ROW record (11.5). -/
def recRow (s : State) (r : Nat) : RecBytes :=
  let x := s.shownRow r
  let c := x.cfg
  let u := x.sup
  field 2 (c.node.getD 0) ++ field 2 c.lane ++ field 2 c.slot ++ field 2 c.iref ++ field 2 c.prated ++
    field 2 c.length ++ optField 2 c.sDue 0xFFFF ++
    field 1 (marks [s.rowPending r (fun b => b.iref.isSome), s.rowPending r (fun b => b.prated.isSome),
      s.rowPending r (fun b => b.length.isSome), s.rowPending r (fun b => b.sDue.isSome)]) ++
    field 1 u.demand.code ++ optField 1 (u.reported.map Posture.code) 0xFF ++
    field 1 (marks [u.stowClaim, u.orderPending, u.resync, u.pinned, u.levelFault, x.soil.capture]) ++
    index1 u.levelClaim ++ index1 u.occupant ++ index1 (u.reservation.map (fun v => v.robot)) ++
    index1 (u.reservation.bind (fun v => v.cart)) ++
    field 2 x.soil.s ++ optField 2 x.soil.b 0 ++ optField 2 x.soil.sPre 0xFFFF ++ optUnstated 4 x.soil.cleaned ++
    field 1 (marks [x.soil.cleaned.isSome])

/-- The YIELD ACCOUNT record (11.5). -/
def recAccount (s : State) (r : Nat) : RecBytes :=
  let a := (s.shownRow r).acct
  field 4 a.lost ++ field 4 a.lostRes ++ field 4 a.recovered ++ field 4 a.recoveredRes ++ field 4 a.cleanings ++
    field 4 a.voids ++ field 4 a.thins

/-- The ROBOT record (11.6). -/
def recRobot (s : State) (x : Nat) : RecBytes :=
  let k := if s.robotOk x then s.robot x else Robot.fresh none (s.robot x).lane
  field 2 (k.node.getD 0) ++ field 2 k.lane ++ field 1 k.state.code ++ optField 1 (k.pos.map Pos.kindCode) 0xFF ++
    index2 (k.pos.map Pos.place) ++ optField 1 (k.activity.map Activity.code) 0xFF ++ field 2 k.charge ++
    field 2 k.metres ++ field 1 k.fault ++ seconds (s.since k.heard) ++
    field 1 (marks [decide (k.ctrl = .manual), k.stranded, k.park.isSome]) ++
    index2 (k.asg.map (fun a => a.row)) ++ optUnstated 1 (k.asg.map (fun a => a.phase.code)) ++
    field 1 (marks [k.asg.any (fun a => a.heavy), k.asg.any (fun a => a.abandoned), k.asg.any (fun a => a.held)]) ++
    seconds (s.until (k.asg.bind (fun a => a.deadline))) ++
    field 1 (match k.link with
      | none => 0xFF
      | some .queued => 0xFE
      | some (.cart c) => c)

/-- Bytes 17 to 28 of a CART record: transfer record, last transfer, or none (11.6). -/
def recTransfer (s : State) (k : Cart) : RecBytes :=
  match k.transfer, k.lastTransfer with
  | some t, _ =>
    field 1 t.robot ++ field 2 t.origin ++ field 2 t.dest ++ field 1 t.purpose.code ++
      field 1 (t.phase.code + (if t.entered then 0x80 else 0)) ++ field 1 (if t.stalled then OutcomeKind.stalled.code else 0) ++
      seconds (s.until t.deadline)
  | none, some l =>
    field 1 l.robot ++ index2 none ++ field 2 l.dest ++ field 1 0xFF ++ field 1 0xFF ++
      field 1 ((l.outcome.map OutcomeKind.code).getD 0) ++ seconds none
  | none, none => index1 none ++ index2 none ++ index2 none ++ field 1 0xFF ++ field 1 0xFF ++ field 1 0 ++ seconds none

/-- The CART record (11.6). -/
def recCart (s : State) (c : Nat) : RecBytes :=
  let k := if s.cartOk c then s.cart c else Cart.fresh none (s.cart c).lane (s.cart c).garage
  field 2 (k.node.getD 0) ++ field 2 k.lane ++ field 2 k.garage ++ field 1 k.state.code ++ field 1 k.slot ++
    field 1 (marks [k.moving]) ++ field 1 (marks [k.garaged]) ++ index1 k.load ++ field 1 k.fault ++
    seconds (s.since k.heard) ++
    field 1 (marks [k.recover, k.hold.isSome, k.transfer.isSome, k.lastTransfer.isSome]) ++ recTransfer s k

/-- The MAST record (11.6). -/
def recMast (s : State) (m : Nat) : RecBytes :=
  let k := if (s.mast m).node.isSome then s.mast m else { Mast.powerOn with ref := (s.mast m).ref }
  let heard := s.heard k
  field 2 (k.node.getD 0) ++ field 1 (marks [k.ref]) ++ optField 2 (k.irr.map (fun i => i.value)) 0xFFFF ++
    seconds (s.since (k.irr.map (fun i => i.time))) ++ optField 2 k.gust 0xFFFF ++ optField 2 k.mean 0xFFFF ++
    seconds (s.since k.heard) ++ field 1 (marks [k.irr.any s.fresh, heard, heard && k.gust.isSome])

/-- A PARAMETERS record (11.6). -/
def recParam (s : State) (i : Nat) : RecBytes :=
  match Param.ofIndex i with
  | some p => field 4 (s.par p) ++ field 1 (marks [s.parPending p])
  | none => unstated 5

def recForward (s : State) (i : Nat) : RecBytes :=
  let f := s.ctl.fwd
  field 1 ((match i with
    | 0 => f.row
    | 1 => f.robot
    | 2 => f.cart
    | _ => f.mast).code)

def recPolicy (s : State) (i : Nat) : RecBytes :=
  (List.range 15).flatMap (fun j => field 1 (if s.ctl.policy.get (15 * i + j) then 1 else 0))

/-- The number of values that wait in the staging store. -/
def Staging.entries (g : Staging) : Nat :=
  (g.rows.1.map (fun p => (if p.2.iref.isSome then 1 else 0) + (if p.2.prated.isSome then 1 else 0) +
    (if p.2.length.isSome then 1 else 0) + (if p.2.sDue.isSome then 1 else 0))).sum + g.params.1.length

/-- The STATUS record (R176, 11.6); the walk cursor as it is kept (log 57). -/
def recStatus (s : State) : RecBytes :=
  let e := s.ep.epoch
  field 1 (if s.running then 1 else 0) ++ field 3 s.ntc.latched.toNat ++ field 3 s.ntc.risen.toNat ++
    field 3 s.ntc.mask.toNat ++
    field 1 (marks [s.ntc.owed, s.stm.advisory.isSome, s.clk.set, e.isSome, s.ep.held.isSome, s.yld.walk.isSome,
      s.ep.batch.isSome, s.dsp.wait.isSome]) ++
    field 1 s.stm.state.idx ++
    field 1 ((if s.rnd.isOpen then 0x80 else 0) + (match s.rnd.reason with
      | some r => r.code
      | none => 7)) ++
    optUnstated 4 (s.stm.advisory.map (fun a => a.parkEntry)) ++ field 4 s.clk.clock ++ field 3 s.tod ++
    (be 4 s.now).map some ++ optUnstated 4 (e.map (fun e => e.startPlant)) ++
    optUnstated 4 (e.map (fun e => e.nominalEnd % 4294967296)) ++
    optField 2 (s.yld.walk.map (fun w => w.cursor)) 0xFFFF ++ field 2 s.ep.staging.entries ++ field 4 s.ep.acc.walks ++
    field 1 s.dsp.urgent.length ++ field 2 s.dsp.routine.length ++
    optField 1 (s.dsp.group.map (fun g => g.owner.code)) 0xFF ++
    optUnstated 2 (s.dsp.wait.map (fun w => satHalf (s.now - w.start))) ++ field 1 s.up.queue.length

/-- Seconds left on a debounce timer. -/
def State.timerLeft (s : State) (t : Option Nat) (p : Param) : RecBytes :=
  seconds (t.map (fun a => a + s.par p - s.now))

/-- A site bank's sum and count. -/
def recSiteBank (b : Option SiteBank) : RecBytes :=
  optUnstated 4 (b.map (fun b => b.sum)) ++ optUnstated 2 (b.map (fun b => b.count))

/-- The SITE record (11.6). While the sweep is OFF its cursor reads as it was left (log 58). -/
def recSite (s : State) : RecBytes :=
  let m := s.stm
  let through := decide (s.swp.mode ≠ .off) && (s.rowFrom s.swp.cursor).isNone
  field 1 (marks [s.rnd.openedAt.isSome, m.gust.isSome, s.siteG.isSome]) ++ optUnstated 4 s.rnd.openedAt ++
    optUnstated 2 m.gust ++ optUnstated 2 s.siteG ++
    s.timerLeft m.watchT .watchDebounce ++ s.timerLeft m.parkT .parkDebounce ++ s.timerLeft m.calmT .calmHold ++
    s.timerLeft m.releaseT .releaseHold ++ s.timerLeft m.lockoutT .lockoutHold ++
    field 1 s.swp.mode.code ++ field 2 (if through then 0xFFFF else s.swp.cursor) ++ field 1 s.sweepWaiting ++
    recSiteBank s.yld.openSite ++ recSiteBank s.yld.closingSite

/-- A DUE LIST record (11.6). -/
def recDue (s : State) (i : Nat) : RecBytes :=
  let e := s.rnd.due[i]?
  index2 (e.map (fun e => e.row)) ++ optUnstated 2 (e.map (fun e => e.u)) ++ optUnstated 4 (e.map (fun e => e.since)) ++
    index1 (e.bind (fun e => e.claimant))

/-- A LANE QUEUE record: lane × 16 + place (11.6). -/
def recLane (s : State) (i : Nat) : RecBytes :=
  let q := (s.lane (i / 16))[i % 16]?
  index1 (q.map (fun q => q.robot)) ++ index2 (q.map (fun q => q.origin)) ++ index2 (q.map (fun q => q.dest)) ++
    seconds (s.since (q.map (fun q => q.time))) ++ optUnstated 1 (q.map (fun q => q.purpose.code))

def recPark (s : State) (x : Nat) : RecBytes :=
  let e := (s.robot x).park
  field 1 (marks [e.isSome]) ++ optUnstated 1 (e.map (fun e => e.order.code)) ++
    seconds (s.since (e.bind (fun e => e.last)))

def recGarage (s : State) (c : Nat) : RecBytes :=
  let e := (s.cart c).garageEntry
  field 1 (marks [e.isSome]) ++ seconds (s.since (e.bind (fun e => e.last)))

def recRelease (s : State) (r : Nat) : RecBytes :=
  let e := (s.shownRow r).rel
  field 1 (marks [e.isSome]) ++ optUnstated 1 (e.map (fun e => e.count)) ++
    seconds (s.until (e.bind (fun e => e.deadline)))

/-- One bank of an EPOCH BANK record (11.6). -/
def recBank (b : Option Bank) : RecBytes :=
  match b with
  | some b =>
    field 4 b.ratioSum ++ field 2 b.valid ++ field 2 b.stale ++
      field 1 (marks [b.disturbed, b.broken, b.staged, false, false, false, false, true])
  | none => unstated 8 ++ field 1 0

def recBanks (s : State) (r : Nat) : RecBytes :=
  let k := (s.shownRow r).banks
  recBank k.opened ++ recBank k.closing

/-! ### TABLE READ (R160) -/

/-- A table or view: its number of records, the size of one, and the record at an index. -/
structure Readable where
  count : Nat
  size : Nat
  record : State → Nat → RecBytes

/-- The tables and views by code (11.4). -/
def readable : Nat → Option Readable
  | 1 => some ⟨1, 6, fun s _ => recPart s⟩
  | 2 => some ⟨1024, 33, recRow⟩
  | 3 => some ⟨96, 28, recRobot⟩
  | 4 => some ⟨8, 29, recCart⟩
  | 5 => some ⟨4, 18, recMast⟩
  | 6 => some ⟨38, 5, recParam⟩
  | 7 => some ⟨4, 1, recForward⟩
  | 8 => some ⟨6, 15, recPolicy⟩
  | 16 => some ⟨1, 51, fun s _ => recStatus s⟩
  | 17 => some ⟨1024, 28, recAccount⟩
  | 18 => some ⟨1024, 9, recDue⟩
  | 19 => some ⟨128, 10, recLane⟩
  | 20 => some ⟨96, 6, recPark⟩
  | 21 => some ⟨8, 5, recGarage⟩
  | 22 => some ⟨1024, 6, recRelease⟩
  | 23 => some ⟨1024, 18, recBanks⟩
  | 24 => some ⟨1, 45, fun s _ => recSite s⟩
  | _ => none

/-- The number of records a read returns: as many as asked for, to the table's end, and as fit the 51 bytes (R160,
R181). -/
def Readable.returned (t : Readable) (first count : Nat) : Nat := min (min count (t.count - first)) (51 / t.size)

/-- The record bytes of a read. -/
def Readable.bytes (t : Readable) (first n : Nat) (s : State) : RecBytes :=
  (List.range n).flatMap (fun i => t.record s (first + i))

/-- A TABLE READ taken: TABLE DATA, or a refusal (R160, 11.4). -/
def readTable (q : Req) (table first count : Nat) (s : State) : State :=
  match readable table with
  | none => reply q clsTableRead 0 .badTable [] s
  | some t =>
    if t.count ≤ first ∨ count = 0 then reply q clsTableRead 0 .badIndex [] s
    else
      let n := t.returned first count
      let l := t.bytes first n s
      useChoice l (offerAnswer q.src.toNat clsTableData
        (q.tag :: (be 1 table ++ be 2 first ++ be 1 n) ++ render s.choices l) s)

end Sys2Proof.Machine
end

