-- ==== Sys2Proof/Machine/Requests.lean ====
section
/-! DEFINITION. The meanings of the uplink frames: rejected frames, TABLE WRITE and TABLE READ, ORDER, the CONTROL kinds
(R153, R154, R157, R160, R161, R181). -/

namespace Sys2Proof.Machine

/-! ### Requests by their fields -/

def takeTableWrite (q : Req) (table : Byte) (index : Half) (fld : Byte) (value : Quad) (s : State) : State :=
  taken q s (writeTable q table.toNat index.toNat fld.toNat value.toNat)

def takeTableRead (q : Req) (table : Byte) (first : Half) (count : Byte) (s : State) : State :=
  taken q s (readTable q table.toNat first.toNat count.toNat)

def takeOrder (q : Req) (dest : Half) (cls : Byte) (payload : List Byte) (s : State) : State :=
  taken q s (requestOrder q dest.toNat cls.toNat payload)

def takeCommit (q : Req) (s : State) : State := taken q s (requestCommit q)

def takeDecommit (q : Req) (s : State) : State := takenRunning q 2 s (requestDecommit q)

def takeTime (q : Req) (t : Quad) (s : State) : State := taken q s (requestTime q t.toNat)

def takeForce (q : Req) (flags : Byte) (s : State) : State := takenRunning q 4 s (requestForce q flags)

def takeAdvisory (q : Req) (t : Quad) (s : State) : State := takenRunning q 5 s (requestAdvisory q t.toNat)

def takeCancel (q : Req) (s : State) : State := takenRunning q 6 s (requestCancel q)

def takeManual (q : Req) (x mode : Byte) (s : State) : State := takenRunning q 7 s (requestManual q x.toNat mode.toNat)

def takeClear (q : Req) (x : Byte) (s : State) : State := takenRunning q 8 s (requestClear q x.toNat)

def takeResolve (q : Req) (x : Byte) (row : Half) (s : State) : State :=
  takenRunning q 9 s (requestResolve q x.toNat row.toNat)

def takeRounds (q : Req) (v : Byte) (s : State) : State := takenRunning q 10 s (requestRounds q v.toNat)

def takeClose (q : Req) (s : State) : State := takenRunning q 11 s (requestClose q)

def takeAccounts (q : Req) (row : Half) (s : State) : State := takenRunning q 12 s (requestAccounts q row.toNat)

def takeReset (q : Req) (s : State) : State := taken q s (requestReset q)

def takeNoticeClear (q : Req) (marks : BitVec 24) (s : State) : State := taken q s (requestNoticeClear q marks)

def takeNoticeMask (q : Req) (marks : BitVec 24) (s : State) : State := taken q s (requestNoticeMask q marks)

/-- A CONTROL kind that 11.4 does not list is refused BAD_TABLE (R181; log 18). -/
def takeUnknown (q : Req) (kind : Byte) (s : State) : State := taken q s (replyCtl q kind.toNat .badTable [])

/-! ### A frame by its bytes -/

/-- A CONTROL frame's request. -/
def takeControl (q : Req) (kind : Byte) (arg : List Byte) (s : State) : State :=
  match kind.toNat, arg with
  | 1, [] => takeCommit q s
  | 2, [] => takeDecommit q s
  | 3, [a, b, c, d] => takeTime q (a ++ b ++ c ++ d) s
  | 4, [f] => takeForce q f s
  | 5, [a, b, c, d] => takeAdvisory q (a ++ b ++ c ++ d) s
  | 6, [] => takeCancel q s
  | 7, [x, m] => takeManual q x m s
  | 8, [x] => takeClear q x s
  | 9, [x, a, b] => takeResolve q x (a ++ b) s
  | 10, [v] => takeRounds q v s
  | 11, [] => takeClose q s
  | 12, [a, b] => takeAccounts q (a ++ b) s
  | 13, [] => takeReset q s
  | 14, [a, b, c] => takeNoticeClear q (a ++ b ++ c) s
  | 15, [a, b, c] => takeNoticeMask q (a ++ b ++ c) s
  | _, _ => takeUnknown q kind s

/-- An uplink frame whose bytes pass R154's first check: one addressed elsewhere is discarded, a class or length that is
not allowed latches UPLINK_FRAMING, and a request is taken as its own command is (R154, R181; log 44). -/
def takeUplink (f : RxFrame) (s : State) : State :=
  let q (tag : Byte) : Req := ⟨BitVec.ofNat 16 f.dst, BitVec.ofNat 16 f.src, tag⟩
  if f.dst ≠ s.ctl.part.uplink then s
  else if !requestLengthOk f.cls f.payload then latch .uplinkFraming s
  else
    match f.cls, f.payload with
    | 0x40, [tag, t, i, j, k, a, b, c, d] => takeTableWrite (q tag) t (i ++ j) k (a ++ b ++ c ++ d) s
    | 0x41, [tag, t, i, j, n] => takeTableRead (q tag) t (i ++ j) n s
    | 0x42, tag :: k :: arg => takeControl (q tag) k arg s
    | 0x43, tag :: a :: b :: c :: p => takeOrder (q tag) (a ++ b) c p s
    | _, _ => latch .uplinkFraming s

/-! ### The meanings -/

/-- UPLINK_FRAME_REJECTED (R154, R179, R181). -/
def execUplinkFrameRejected (bytes : List Byte) (s : State) : Host.Outcome State Fault Refusal :=
  .next (match judgeFrame bytes with
    | .noFrame => s
    | .bad => latch .uplinkFraming s
    | .good f => takeUplink f s)

/-- TABLE_WRITE (R157, R158). -/
def execTableWrite (q : Req) (table : Byte) (index : Half) (fld : Byte) (value : Quad) (s : State) :
    Host.Outcome State Fault Refusal :=
  .next (takeTableWrite q table index fld value s)

/-- BASELINE_VALUE_WRITE: a write of field 8, the baseline, of a ROW record (R67). -/
def execBaselineValueWrite (q : Req) (index : Half) (value : Quad) (s : State) : Host.Outcome State Fault Refusal :=
  .next (takeTableWrite q 2 index 8 value s)

/-- BASELINE_RESET: field 9, capture pending, of a ROW record written set (R67). -/
def execBaselineReset (q : Req) (index : Half) (s : State) : Host.Outcome State Fault Refusal :=
  .next (takeTableWrite q 2 index 9 1 s)

/-- TABLE_READ (R160). -/
def execTableRead (q : Req) (table : Byte) (first : Half) (count : Byte) (s : State) :
    Host.Outcome State Fault Refusal :=
  .next (takeTableRead q table first count s)

/-- ORDER (R38, R39). -/
def execOrder (q : Req) (dest : Half) (cls : Byte) (payload : List Byte) (s : State) :
    Host.Outcome State Fault Refusal :=
  .next (takeOrder q dest cls payload s)

/-- COMMIT (R162, R163). -/
def execCommit (q : Req) (s : State) : Host.Outcome State Fault Refusal := .next (takeCommit q s)

/-- DECOMMIT (R164). -/
def execDecommit (q : Req) (s : State) : Host.Outcome State Fault Refusal := .next (takeDecommit q s)

/-- TIME_SET (R46). -/
def execTimeSet (q : Req) (time : Quad) (s : State) : Host.Outcome State Fault Refusal := .next (takeTime q time s)

/-- STORM_FORCE (R152). -/
def execStormForce (q : Req) (flags : Byte) (s : State) : Host.Outcome State Fault Refusal := .next (takeForce q flags s)

/-- STORM_ADVISORY (R150, R151). -/
def execStormAdvisory (q : Req) (arrival : Quad) (s : State) : Host.Outcome State Fault Refusal :=
  .next (takeAdvisory q arrival s)

/-- ADVISORY_CANCEL (R150). -/
def execAdvisoryCancel (q : Req) (s : State) : Host.Outcome State Fault Refusal := .next (takeCancel q s)

/-- ROBOT_MANUAL (R21, R165). -/
def execRobotManual (q : Req) (robot mode : Byte) (s : State) : Host.Outcome State Fault Refusal :=
  .next (takeManual q robot mode s)

/-- ROBOT_CLEAR (R20, R165). -/
def execRobotClear (q : Req) (robot : Byte) (s : State) : Host.Outcome State Fault Refusal := .next (takeClear q robot s)

/-- TRANSFER_RESOLVE (R123). -/
def execTransferResolve (q : Req) (robot : Byte) (row : Half) (s : State) : Host.Outcome State Fault Refusal :=
  .next (takeResolve q robot row s)

/-- ROUNDS_ENABLE (R166). -/
def execRoundsEnable (q : Req) (value : Byte) (s : State) : Host.Outcome State Fault Refusal :=
  .next (takeRounds q value s)

/-- CLOSE_NOW (R55). -/
def execCloseNow (q : Req) (s : State) : Host.Outcome State Fault Refusal := .next (takeClose q s)

/-- ACCOUNT_CLEAR (R84, R85, R167). -/
def execAccountClear (q : Req) (row : Half) (s : State) : Host.Outcome State Fault Refusal := .next (takeAccounts q row s)

/-- RESET_RUN (R168). -/
def execResetRun (q : Req) (s : State) : Host.Outcome State Fault Refusal := .next (takeReset q s)

/-- NOTICE_CLEAR (R174). -/
def execNoticeClear (q : Req) (marks : BitVec 24) (s : State) : Host.Outcome State Fault Refusal :=
  .next (takeNoticeClear q marks s)

/-- NOTICE_MASK (R170). -/
def execNoticeMask (q : Req) (marks : BitVec 24) (s : State) : Host.Outcome State Fault Refusal :=
  .next (takeNoticeMask q marks s)

/-- CONTROL_UNKNOWN_KIND (R181). -/
def execControlUnknownKind (q : Req) (kind : Byte) (s : State) : Host.Outcome State Fault Refusal :=
  .next (takeUnknown q kind s)

end Sys2Proof.Machine
end

