-- ==== Sys2Proof/Machine/Timers.lean ====
section
/-! DEFINITION. The meanings of the timed events and of the walk's step. An event whose condition does not hold changes
nothing (log 3). -/

namespace Sys2Proof.Machine

/-- A row's level deadline has come (R9). -/
def State.levelDue (s : State) (r : Nat) : Bool :=
  (s.row r).sup.levelClaim.isSome && (s.row r).sup.levelDeadline.any (fun d => decide (d ≤ s.now))

/-- A level deadline passes: mark, LEVEL_FAULT, claim dropped, planner told (R9, R103). -/
def levelExpiry (r : Nat) (s : State) : State :=
  match (s.row r).sup.levelClaim with
  | none => s
  | some x =>
    if s.levelDue r then
      let s := latch .levelFault (s.updSup r (fun u => { u with levelFault := true }))
      levelTimedOut x (releaseLevel x r s)
    else s

/-- A robot's pass deadline has come (R102). -/
def State.passDue (s : State) (x : Nat) : Bool :=
  (s.robot x).asg.any (fun a => a.deadline.any (fun d => decide (d ≤ s.now)))

/-- A pass deadline passes (R102). -/
def passExpiry (x : Nat) (s : State) : State := if s.passDue x then abandon x s else s

/-- A mast's irradiance record is past its freshness limit (R59). -/
def State.recordStale (s : State) (m : Nat) : Bool := (s.mast m).irr.any (fun i => !s.fresh i)

/-- A mast irradiance record passes its freshness limit (R87). -/
def recordStale (m : Nat) (s : State) : State := if s.recordStale m then evaluateRound false s else s

/-- The time of day stands at an edge of the round window, or has just rolled over (R45, R87; log 28). -/
def State.edgeDue (s : State) : Bool :=
  s.running && s.clk.set &&
    (decide (s.tod = s.par .windowStart) || decide (s.tod = s.par .windowEnd) || decide (s.clk.clock = 0))

/-- The time of day reaches an edge of the round window (R87). -/
def windowEdge (s : State) : State := if s.edgeDue then evaluateRound false s else s

/-- LEVEL_DEADLINE_EXPIRY (R9). -/
def execLevelDeadlineExpiry (row : Nat) (s : State) : Host.Outcome State Fault Refusal := .next (settle (levelExpiry row s))

/-- ROBOT_SILENCE_EXPIRY (R18). -/
def execRobotSilenceExpiry (robot : Nat) (s : State) : Host.Outcome State Fault Refusal :=
  .next (settle (robotSilence robot s))

/-- CART_SILENCE_EXPIRY (R23). -/
def execCartSilenceExpiry (cart : Nat) (s : State) : Host.Outcome State Fault Refusal := .next (settle (cartSilence cart s))

/-- MAST_SILENCE_EVENT (R128). -/
def execMastSilenceEvent (s : State) : Host.Outcome State Fault Refusal := .next (settle (silenceExpiry s))

/-- MAST_RECORD_STALE (R59, R87). -/
def execMastRecordStale (mast : Nat) (s : State) : Host.Outcome State Fault Refusal := .next (settle (recordStale mast s))

/-- PASS_DEADLINE_EXPIRY (R102). -/
def execPassDeadlineExpiry (robot : Nat) (s : State) : Host.Outcome State Fault Refusal :=
  .next (settle (passExpiry robot s))

/-- PHASE_DEADLINE_EXPIRY (R117, R118). -/
def execPhaseDeadlineExpiry (cart : Nat) (s : State) : Host.Outcome State Fault Refusal :=
  .next (settle (phaseExpiry cart s))

/-- WATCH_TIMER_EXPIRY (R131). -/
def execWatchTimerExpiry (s : State) : Host.Outcome State Fault Refusal := .next (settle (watchExpiry s))

/-- PARK_TIMER_EXPIRY (R132). -/
def execParkTimerExpiry (s : State) : Host.Outcome State Fault Refusal := .next (settle (parkExpiry s))

/-- CALM_TIMER_EXPIRY (R131). -/
def execCalmTimerExpiry (s : State) : Host.Outcome State Fault Refusal := .next (settle (calmExpiry s))

/-- RELEASE_TIMER_EXPIRY (R135, R147). -/
def execReleaseTimerExpiry (s : State) : Host.Outcome State Fault Refusal := .next (settle (releaseExpiry s))

/-- LOCKOUT_TIMER_EXPIRY (R133, R146). -/
def execLockoutTimerExpiry (s : State) : Host.Outcome State Fault Refusal := .next (settle (lockoutExpiry s))

/-- STOW_DEADLINE_EXPIRY (R144). -/
def execStowDeadlineExpiry (row : Nat) (s : State) : Host.Outcome State Fault Refusal := .next (settle (stowExpiry row s))

/-- RELEASE_DEADLINE_EXPIRY (R148). -/
def execReleaseDeadlineExpiry (row : Nat) (s : State) : Host.Outcome State Fault Refusal :=
  .next (settle (releaseRowExpiry row s))

/-- PARK_REPEAT_REPLAY (R140). -/
def execParkRepeatReplay (robot : Nat) (s : State) : Host.Outcome State Fault Refusal := .next (settle (parkReplay robot s))

/-- GARAGE_REPLAY (R141). -/
def execGarageReplay (cart : Nat) (s : State) : Host.Outcome State Fault Refusal := .next (settle (garageReplay cart s))

/-- EPOCH_BOUNDARY (R48). -/
def execEpochBoundary (s : State) : Host.Outcome State Fault Refusal := .next (boundaryExpiry s)

/-- ROUND_WINDOW_EDGE (R87). -/
def execRoundWindowEdge (s : State) : Host.Outcome State Fault Refusal := .next (settle (windowEdge s))

/-- ADVISORY_REACHED (R151). -/
def execAdvisoryReached (s : State) : Host.Outcome State Fault Refusal := .next (settle (advisoryExpiry s))

/-- WALK_STEP (R69 to R77). -/
def execWalkStep (s : State) : Host.Outcome State Fault Refusal := .next (settle (walkStep s))

end Sys2Proof.Machine
end

