-- ==== Sys2Proof/Machine/Dispatch.lean ====
section
/-! DEFINITION. exec: the one place where a command meets its meaning. -/

namespace Sys2Proof.Machine

/-- The effect of a command on everything but the queue of waiting commands. -/
def exec (i : Instr) (s : State) : Host.Outcome State Fault Refusal :=
  match i with
  | .powerOnReset => Sys2Proof.Machine.execPowerOnReset s
  | .fieldFrameRejected bytes => Sys2Proof.Machine.execFieldFrameRejected bytes s
  | .rowSample src current posture fault => Sys2Proof.Machine.execRowSample src current posture fault s
  | .mastSample src irradiance mean gust => Sys2Proof.Machine.execMastSample src irradiance mean gust s
  | .robotStatus src kind index activity result metres charge fault => Sys2Proof.Machine.execRobotStatus src kind index activity result metres charge fault s
  | .cartStatus src slot motion garaged load fault => Sys2Proof.Machine.execCartStatus src slot motion garaged load fault s
  | .leaveAsk src => Sys2Proof.Machine.execLeaveAsk src s
  | .uplinkFrameRejected bytes => Sys2Proof.Machine.execUplinkFrameRejected bytes s
  | .tableWrite q table index field value => Sys2Proof.Machine.execTableWrite q table index field value s
  | .baselineValueWrite q index value => Sys2Proof.Machine.execBaselineValueWrite q index value s
  | .baselineReset q index => Sys2Proof.Machine.execBaselineReset q index s
  | .tableRead q table first count => Sys2Proof.Machine.execTableRead q table first count s
  | .order q dest cls payload => Sys2Proof.Machine.execOrder q dest cls payload s
  | .commit q => Sys2Proof.Machine.execCommit q s
  | .decommit q => Sys2Proof.Machine.execDecommit q s
  | .timeSet q time => Sys2Proof.Machine.execTimeSet q time s
  | .stormForce q flags => Sys2Proof.Machine.execStormForce q flags s
  | .stormAdvisory q arrival => Sys2Proof.Machine.execStormAdvisory q arrival s
  | .advisoryCancel q => Sys2Proof.Machine.execAdvisoryCancel q s
  | .robotManual q robot mode => Sys2Proof.Machine.execRobotManual q robot mode s
  | .robotClear q robot => Sys2Proof.Machine.execRobotClear q robot s
  | .transferResolve q robot row => Sys2Proof.Machine.execTransferResolve q robot row s
  | .roundsEnable q value => Sys2Proof.Machine.execRoundsEnable q value s
  | .closeNow q => Sys2Proof.Machine.execCloseNow q s
  | .accountClear q row => Sys2Proof.Machine.execAccountClear q row s
  | .resetRun q => Sys2Proof.Machine.execResetRun q s
  | .noticeClear q marks => Sys2Proof.Machine.execNoticeClear q marks s
  | .noticeMask q marks => Sys2Proof.Machine.execNoticeMask q marks s
  | .controlUnknownKind q kind => Sys2Proof.Machine.execControlUnknownKind q kind s
  | .frameStart => Sys2Proof.Machine.execFrameStart s
  | .frameEnd => Sys2Proof.Machine.execFrameEnd s
  | .sendPermitChange asserted => Sys2Proof.Machine.execSendPermitChange asserted s
  | .permitStallExpiry => Sys2Proof.Machine.execPermitStallExpiry s
  | .uplinkFrameStart => Sys2Proof.Machine.execUplinkFrameStart s
  | .uplinkFrameEnd => Sys2Proof.Machine.execUplinkFrameEnd s
  | .levelDeadlineExpiry row => Sys2Proof.Machine.execLevelDeadlineExpiry row s
  | .robotSilenceExpiry robot => Sys2Proof.Machine.execRobotSilenceExpiry robot s
  | .cartSilenceExpiry cart => Sys2Proof.Machine.execCartSilenceExpiry cart s
  | .mastSilenceEvent => Sys2Proof.Machine.execMastSilenceEvent s
  | .mastRecordStale mast => Sys2Proof.Machine.execMastRecordStale mast s
  | .passDeadlineExpiry robot => Sys2Proof.Machine.execPassDeadlineExpiry robot s
  | .phaseDeadlineExpiry cart => Sys2Proof.Machine.execPhaseDeadlineExpiry cart s
  | .watchTimerExpiry => Sys2Proof.Machine.execWatchTimerExpiry s
  | .parkTimerExpiry => Sys2Proof.Machine.execParkTimerExpiry s
  | .calmTimerExpiry => Sys2Proof.Machine.execCalmTimerExpiry s
  | .releaseTimerExpiry => Sys2Proof.Machine.execReleaseTimerExpiry s
  | .lockoutTimerExpiry => Sys2Proof.Machine.execLockoutTimerExpiry s
  | .stowDeadlineExpiry row => Sys2Proof.Machine.execStowDeadlineExpiry row s
  | .releaseDeadlineExpiry row => Sys2Proof.Machine.execReleaseDeadlineExpiry row s
  | .parkRepeatReplay robot => Sys2Proof.Machine.execParkRepeatReplay robot s
  | .garageReplay cart => Sys2Proof.Machine.execGarageReplay cart s
  | .epochBoundary => Sys2Proof.Machine.execEpochBoundary s
  | .roundWindowEdge => Sys2Proof.Machine.execRoundWindowEdge s
  | .advisoryReached => Sys2Proof.Machine.execAdvisoryReached s
  | .walkStep => Sys2Proof.Machine.execWalkStep s

end Sys2Proof.Machine
end

