-- ==== Sys2Proof/Machine/Ticks.lean ====
section
/-! DEFINITION. One second: the monotonic count and the plant clock advance, and the timed events that have come due are
put into the queue of waiting commands in an order left open (R44, R45; logs 1 and 2). -/

namespace Sys2Proof.Machine

/-- The clocks one second on (R44, R45). -/
def advanceClocks (s : State) : State :=
  { s with clk := { s.clk with
      mono := s.clk.mono + 1
      clock := if s.clk.set then (s.clk.clock + 1) % 4294967296 else s.clk.clock } }

/-- A command that is there only when its condition holds. -/
def dueIf (b : Bool) (c : Instr) : List Instr := if b then [c] else []

/-- The timed events that are due on the state as it stands. -/
def State.dueEvents (s : State) : List Instr :=
  (s.rowIds.filter s.levelDue).map Instr.levelDeadlineExpiry ++
    (s.robotIds.filter s.robotSilent).map Instr.robotSilenceExpiry ++
    (s.cartIds.filter s.cartSilent).map Instr.cartSilenceExpiry ++
    dueIf s.silenceDue .mastSilenceEvent ++
    (s.mastIds.filter (fun m => (s.mast m).irr.any (fun i => decide (s.now = i.time + s.par .mastStale + 1)))).map
      Instr.mastRecordStale ++
    (s.robotIds.filter s.passDue).map Instr.passDeadlineExpiry ++
    (s.cartIds.filter s.phaseDue).map Instr.phaseDeadlineExpiry ++
    dueIf s.watchDue .watchTimerExpiry ++ dueIf s.parkDue .parkTimerExpiry ++ dueIf s.calmDue .calmTimerExpiry ++
    dueIf s.releaseDue .releaseTimerExpiry ++ dueIf s.lockoutDue .lockoutTimerExpiry ++
    (s.rowIds.filter s.stowDue).map Instr.stowDeadlineExpiry ++
    (s.rowIds.filter s.releaseRowDue).map Instr.releaseDeadlineExpiry ++
    (s.robotIds.filter s.parkReplayDue).map Instr.parkRepeatReplay ++
    (s.cartIds.filter s.garageReplayDue).map Instr.garageReplay ++
    dueIf s.boundaryDue .epochBoundary ++ dueIf s.edgeDue .roundWindowEdge ++
    dueIf s.advisoryDue .advisoryReached ++ dueIf s.stallDue .permitStallExpiry

/-- Put events behind the waiting commands; the order of several uses up a choice (log 2). -/
def enqueueDue (l : List Instr) (s : State) : State :=
  { s with
    pending := s.pending ++ freeOrder s.choices l
    choices := if 2 ≤ l.length then s.choices + 1 else s.choices }

/-- One second of the part. -/
def tick (s : State) : State :=
  let s := advanceClocks s
  enqueueDue s.dueEvents s

end Sys2Proof.Machine
end

