-- ==== Sys2Proof/WellFormed.lean ====
section
/-! DEFINITION. Which commands can come from outside as their row of the table means them: indices in their tables, an
order's payload of its class's length, a rejected frame one that a port's checks reject. -/

namespace Sys2Proof

open Machine

/-- Whether a port's checks reject a frame's bytes by themselves: check sequence or length, or a class and length that
the field link or the uplink does not take (R24, R154, R179, R181). -/
def fieldRejects (bytes : List Byte) : Bool :=
  match judgeFrame bytes with
  | .noFrame => false
  | .bad => true
  | .good f => decide (reportLength f.cls ≠ some f.payload.length)

def uplinkRejects (bytes : List Byte) : Bool :=
  match judgeFrame bytes with
  | .noFrame => false
  | .bad => true
  | .good f => !requestLengthOk f.cls f.payload

/-- A well-formed command. -/
def Instr.wf : Instr → Bool
  | .powerOnReset => true
  | .fieldFrameRejected bytes => fieldRejects bytes
  | .rowSample _ _ _ _ => true
  | .mastSample _ _ _ _ => true
  | .robotStatus _ _ _ _ _ _ _ _ => true
  | .cartStatus _ _ _ _ _ _ => true
  | .leaveAsk _ => true
  | .uplinkFrameRejected bytes => uplinkRejects bytes
  | .tableWrite _ _ _ _ _ => true
  | .baselineValueWrite _ _ _ => true
  | .baselineReset _ _ => true
  | .tableRead _ _ _ _ => true
  | .order _ _ cls payload => (Order.ofWire cls.toNat payload).isSome
  | .commit _ => true
  | .decommit _ => true
  | .timeSet _ _ => true
  | .stormForce _ _ => true
  | .stormAdvisory _ _ => true
  | .advisoryCancel _ => true
  | .robotManual _ _ _ => true
  | .robotClear _ _ => true
  | .transferResolve _ _ _ => true
  | .roundsEnable _ _ => true
  | .closeNow _ => true
  | .accountClear _ _ => true
  | .resetRun _ => true
  | .noticeClear _ _ => true
  | .noticeMask _ _ => true
  | .controlUnknownKind _ kind => (controlArgLength kind.toNat).isNone
  | .frameStart => true
  | .frameEnd => true
  | .sendPermitChange _ => true
  | .permitStallExpiry => true
  | .uplinkFrameStart => true
  | .uplinkFrameEnd => true
  | .levelDeadlineExpiry row => decide (row < 1024)
  | .robotSilenceExpiry robot => decide (robot < 96)
  | .cartSilenceExpiry cart => decide (cart < 8)
  | .mastSilenceEvent => true
  | .mastRecordStale mast => decide (mast < 4)
  | .passDeadlineExpiry robot => decide (robot < 96)
  | .phaseDeadlineExpiry cart => decide (cart < 8)
  | .watchTimerExpiry => true
  | .parkTimerExpiry => true
  | .calmTimerExpiry => true
  | .releaseTimerExpiry => true
  | .lockoutTimerExpiry => true
  | .stowDeadlineExpiry row => decide (row < 1024)
  | .releaseDeadlineExpiry row => decide (row < 1024)
  | .parkRepeatReplay robot => decide (robot < 96)
  | .garageReplay cart => decide (cart < 8)
  | .epochBoundary => true
  | .roundWindowEdge => true
  | .advisoryReached => true
  | .walkStep => true

end Sys2Proof
end

