-- ==== Sys2Proof/Safety.lean ====
section
/-! DEFINITION. The terms of the statements: what an event leaves unchanged, record by record, and the laws of the part
that every step keeps. -/

namespace Sys2Proof.Machine

/-! ### What an event leaves unchanged -/

/-- The clocks, the epoch unit, the Control Unit's mode and tables, the address lookup, the mast records, the Yield
Engine's site-wide records and the queue of waiting commands stand. -/
structure SiteKept (s t : State) : Prop where
  pending : t.pending = s.pending
  clk : t.clk = s.clk
  ep : t.ep = s.ep
  ctl : t.ctl = s.ctl
  lookup : t.lookup = s.lookup
  masts : t.masts = s.masts
  yld : t.yld = s.yld

/-- The two links stand: the frames on the air, the receive buffers, the send-permit line, the address of the echo check;
the uplink queue gains nothing but NOTICEs at its tail. -/
structure LinksKept (s t : State) : Prop where
  air : t.up.air = s.up.air
  rx : t.up.rx = s.up.rx
  queue : ∃ n, t.up.queue = s.up.queue ++ List.replicate n .notice
  fieldAir : t.dsp.air = s.dsp.air
  permit : t.dsp.permit = s.dsp.permit
  fell : t.dsp.fell = s.dsp.fell
  fieldRx : t.dsp.rx = s.dsp.rx
  echo : t.dsp.echo = s.dsp.echo

/-- The mask stands, and no flag or risen mark is cleared (R169, R174). -/
structure FlagsKept (s t : State) : Prop where
  mask : t.ntc.mask = s.ntc.mask
  latched : ∀ f, hasFlag s.ntc.latched f = true → hasFlag t.ntc.latched f = true
  risen : ∀ f, hasFlag s.ntc.risen f = true → hasFlag t.ntc.risen f = true

/-- The site gust and the advisory stand (R128, R150). -/
structure WindKept (s t : State) : Prop where
  gust : t.stm.gust = s.stm.gust
  advisory : t.stm.advisory = s.stm.advisory
  silent : t.stm.silent = s.stm.silent

/-- A bank but for its disturbed flag. -/
def Bank.core (b : Bank) : Bank := { b with disturbed := true }

/-- A row's configuration, soiling record, account, closing bank, dock occupant and reported posture stand, and its open
bank but for the disturbed flag. -/
structure RowKept (x y : Row) : Prop where
  cfg : y.cfg = x.cfg
  soil : y.soil = x.soil
  acct : y.acct = x.acct
  opened : y.banks.opened.map Bank.core = x.banks.opened.map Bank.core
  closing : y.banks.closing = x.banks.closing
  occupant : y.sup.occupant = x.sup.occupant
  reported : y.sup.reported = x.sup.reported

/-- A robot's configuration and the fields its reports give stand. -/
structure RobotKept (x y : Robot) : Prop where
  node : y.node = x.node
  lane : y.lane = x.lane
  pos : y.pos = x.pos
  activity : y.activity = x.activity
  charge : y.charge = x.charge
  metres : y.metres = x.metres
  fault : y.fault = x.fault
  heard : y.heard = x.heard

/-- A robot's state, control mode and stranded mark stand as well. -/
structure RobotStill (x y : Robot) : Prop extends RobotKept x y where
  state : y.state = x.state
  ctrl : y.ctrl = x.ctrl
  stranded : y.stranded = x.stranded

/-- A cart's configuration and the fields its reports give stand, its load apart. -/
structure CartKept (x y : Cart) : Prop where
  node : y.node = x.node
  lane : y.lane = x.lane
  garage : y.garage = x.garage
  slot : y.slot = x.slot
  moving : y.moving = x.moving
  garaged : y.garaged = x.garaged
  fault : y.fault = x.fault
  heard : y.heard = x.heard

/-- The round record stands (R86). -/
structure RoundKept (s t : State) : Prop where
  isOpen : t.rnd.isOpen = s.rnd.isOpen
  openedAt : t.rnd.openedAt = s.rnd.openedAt
  reason : t.rnd.reason = s.rnd.reason

/-- The frame of an event inside the blocks: what it may change is posture claims and orders, assignments, transfers,
list entries, the order queues, the round, the sweep and the storm state, by the rules of those records. -/
structure Frame (s t : State) : Prop where
  site : SiteKept s t
  links : LinksKept s t
  flags : FlagsKept s t
  wind : WindKept s t
  rows : ∀ r, RowKept (s.row r) (t.row r)
  robots : ∀ x, RobotStill (s.robot x) (t.robot x)
  carts : ∀ c, CartKept (s.cart c) (t.cart c)
  loads : ∀ c, (t.cart c).load = (s.cart c).load

/-- The frame of an event that may be a storm entry: control modes and stranded marks may change too (R136, R145). -/
structure StormFrame (s t : State) : Prop where
  site : SiteKept s t
  links : LinksKept s t
  flags : FlagsKept s t
  wind : WindKept s t
  rows : ∀ r, RowKept (s.row r) (t.row r)
  robots : ∀ x, RobotKept (s.robot x) (t.robot x)
  carts : ∀ c, CartKept (s.cart c) (t.cart c)
  loads : ∀ c, (t.cart c).load = (s.cart c).load

/-! ### What has come due -/

/-- A configured mast is heard: the time is below its last-heard plus the mast silence (R127). -/
def State.hears (s : State) (m : Nat) : Prop :=
  (s.mast m).node.isSome = true ∧ ∃ h, (s.mast m).heard = some h ∧ s.clk.mono < h + s.par .mastSilence

/-- The events of time, each with the condition under which it comes on the state as it stands. The second in which an
event comes is the model's choice (log 1), and so is the silence of a robot that left OFFLINE without a status (log 69); MAST_RECORD_STALE comes in the first second past the record's limit. -/
def State.comesDue (s : State) : Instr → Prop
  | .levelDeadlineExpiry r => s.rowOk r = true ∧ (s.row r).sup.levelClaim.isSome = true ∧
      ∃ d, (s.row r).sup.levelDeadline = some d ∧ d ≤ s.clk.mono
  | .robotSilenceExpiry x => s.ctl.mode = .running ∧ s.robotOk x = true ∧ (s.robot x).state ≠ .offline ∧
      ∃ h, (s.robot x).heard = some h ∧ h + s.par .robotSilence ≤ s.clk.mono
  | .cartSilenceExpiry c => s.ctl.mode = .running ∧ s.cartOk c = true ∧ (s.cart c).state ≠ .faulted ∧
      ∃ h, (s.cart c).heard = some h ∧ h + s.par .cartSilence ≤ s.clk.mono
  | .mastSilenceEvent => s.ctl.mode = .running ∧ s.stm.silent = false ∧ ∀ m, ¬s.hears m
  | .mastRecordStale m => (s.mast m).node.isSome = true ∧
      ∃ i, (s.mast m).irr = some i ∧ s.clk.mono = i.time + s.par .mastStale + 1
  | .passDeadlineExpiry x => s.robotOk x = true ∧
      ∃ a d, (s.robot x).asg = some a ∧ a.deadline = some d ∧ d ≤ s.clk.mono
  | .phaseDeadlineExpiry c => s.cartOk c = true ∧
      ∃ t d, (s.cart c).transfer = some t ∧ t.stalled = false ∧ t.deadline = some d ∧ d ≤ s.clk.mono
  | .watchTimerExpiry => s.stm.state = .calm ∧ ∃ b, s.stm.watchT = some b ∧ b + s.par .watchDebounce ≤ s.clk.mono
  | .parkTimerExpiry => (s.stm.state = .calm ∨ s.stm.state = .watch ∨ s.stm.state = .release) ∧
      ∃ b, s.stm.parkT = some b ∧ b + s.par .parkDebounce ≤ s.clk.mono
  | .calmTimerExpiry => s.stm.state = .watch ∧ ∃ b, s.stm.calmT = some b ∧ b + s.par .calmHold ≤ s.clk.mono
  | .releaseTimerExpiry => (s.stm.state = .park ∨ s.stm.state = .secured) ∧
      ∃ b, s.stm.releaseT = some b ∧ b + s.par .releaseHold ≤ s.clk.mono
  | .lockoutTimerExpiry => s.stm.state = .lockout ∧ ∃ b, s.stm.lockoutT = some b ∧ b + s.par .lockoutHold ≤ s.clk.mono
  | .stowDeadlineExpiry r => s.rowOk r = true ∧ ∃ d, (s.row r).stow.deadline = some d ∧ d ≤ s.clk.mono
  | .releaseDeadlineExpiry r => s.rowOk r = true ∧ (s.row r).sup.reported = some .stowed ∧
      ∃ e d, (s.row r).rel = some e ∧ e.deadline = some d ∧ d ≤ s.clk.mono
  | .parkRepeatReplay x => s.robotOk x = true ∧
      ∃ e l, (s.robot x).park = some e ∧ e.order ≠ .via ∧ e.held = false ∧ e.last = some l ∧
        l + s.par .parkRepeat ≤ s.clk.mono
  | .garageReplay c => s.cartOk c = true ∧
      ∃ e l, (s.cart c).garageEntry = some e ∧ e.held = false ∧ e.last = some l ∧ l + s.par .parkRepeat ≤ s.clk.mono
  | .epochBoundary => s.ep.held = none ∧
      ∃ e, s.ep.epoch = some e ∧ e.nominalEnd - e.startPlant ≤ s.clk.mono - e.startMono
  | .roundWindowEdge => s.ctl.mode = .running ∧ s.clk.set = true ∧
      (s.clk.clock % 86400 = s.par .windowStart ∨ s.clk.clock % 86400 = s.par .windowEnd ∨ s.clk.clock = 0)
  | .advisoryReached => s.ctl.mode = .running ∧ s.clk.set = true ∧
      ∃ a, s.stm.advisory = some a ∧ a.parkEntry ≤ s.clk.clock
  | .permitStallExpiry => ∃ w, s.dsp.wait = some w ∧ w.stalled = false ∧ w.start + s.par .permitStall < s.clk.mono
  | _ => False

/-- The state as a passed or refused relay leaves it (R27, R28). -/
def State.relayed (s : State) (pass : Bool) (src cls : Nat) (payload : List Byte) : State :=
  if pass then offerRelay src cls payload s else s

/-- The open epoch e was swapped in state s, giving t: its banks are the closing banks, the walk over them is in flight
with the times, the T and the site-void mark of the close, and a fresh epoch with fresh banks is open (R47, R49, R53,
R69). void: the epoch is site-void by its cause or its mark. -/
structure Swapped (s t : State) (e : Epoch) (void : Bool) : Prop where
  epoch : ∃ p, t.ep.epoch = some p ∧ p.startPlant = s.clk.clock ∧ p.startMono = s.clk.mono ∧ p.voidMark = false ∧
    p.nominalEnd = nominalEnd s.clk.clock (t.par .epochS)
  held : t.ep.held = none
  walk : ∃ w, t.yld.walk = some w ∧ w.start = e.startPlant ∧ w.endTime = s.clk.clock ∧ w.t = s.clk.mono - e.startMono ∧
    (w.siteVoid = true ↔ void = true ∨ w.t < 60 ∨ (s.yld.openSite.getD ⟨0, 0⟩).count = 0) ∧ w.cursor = 0 ∧
    w.gbar = (s.yld.openSite.getD ⟨0, 0⟩).sum / (s.yld.openSite.getD ⟨0, 0⟩).count
  site : t.yld.openSite = some ⟨0, 0⟩ ∧ t.yld.closingSite = some (s.yld.openSite.getD ⟨0, 0⟩)
  closing : ∀ r ∈ s.rowIds, (t.row r).banks.closing = (s.row r).banks.opened
  opened : ∀ r ∈ s.rowIds, ∃ b, (t.row r).banks.opened = some b ∧ b.ratioSum = 0 ∧ b.valid = 0 ∧ b.stale = 0 ∧
    b.broken = false

/-- What a swap takes from the staging store, and what it marks in the fresh banks (R49, R53, R62): a pending epoch_s is
applied, the rest is the batch in hand, and a fresh bank is disturbed where a robot is on the row and staged where a
pending value differs from the active one. -/
structure SwapTakes (s t : State) : Prop where
  epochS : t.par .epochS = (s.ep.staging.params.get 0).getD (s.par .epochS)
  staging : t.ep.staging = Staging.empty
  empty : s.ep.staging.rows = Tab.empty _ → (∀ k, k ≠ 0 → s.ep.staging.params.get k = none) → t.ep.batch = none
  batch : s.ep.staging.rows ≠ Tab.empty _ ∨ (∃ k, k ≠ 0 ∧ s.ep.staging.params.get k ≠ none) →
    t.ep.batch = some ⟨s.ep.staging.rows, s.ep.staging.params.set 0 none⟩
  banks : ∀ r ∈ s.rowIds, ∀ b, (t.row r).banks.opened = some b →
    let g := s.ep.staging.rows.get r
    let c := (s.row r).cfg
    (b.disturbed = true ↔ s.robotOn r = true) ∧
    (b.staged = true ↔ (∃ v, g.iref = some v ∧ v ≠ c.iref) ∨ (∃ v, g.prated = some v ∧ v ≠ c.prated) ∨
      (∃ v, g.length = some v ∧ v ≠ c.length) ∨ ∃ v, g.sDue = some v ∧ v ≠ c.sDue)

/-! ### What a storm entry does -/

/-- A cart that a park entry out of state s finds carrying: loaded, or with a transfer that is carried on or stalled (R124,
R141). -/
def State.carries (s : State) (c : Nat) : Prop :=
  (s.cart c).load.isSome = true ∨ ∃ t, (s.cart c).transfer = some t ∧
    (t.stalled = true ∨ t.phase = .travel ∨ t.phase = .alighting ∨
      t.phase = .boarding ∧ (s.robot t.robot).pos = some (.cart c))

/-- The park order of a robot judged by its records before the entry (R137); one ABOARD waits via transfer whatever its
transfer (the model's choice where R124 ends that transfer: log 66). -/
def Robot.placed (k : Robot) : Option ParkOrder :=
  match k.state with
  | .docked => if k.activity = some .idle ∧ k.asg = none ∧ k.link = none then none else some .hold
  | .onRow => some .abort
  | .unknown => some .abort
  | .aboard => some .via
  | .offline => none
  | .stranded => none
  | .faulted => none

/-- What every owner has done after a park entry out of state s that gave u, also at an entry of LOCKOUT from CALM or
WATCH, every record judged as it stood before (R21, R37, R88, R105, R124, R137, R139, R141): the round is closed and
every mode AUTO; no entry that the purge removes is queued; queued requests and transfers not yet aboard are gone, those
entered and aboard or stalled go on with purpose PARK; the carts that are not carrying are on the garage list; lost robots
pin their rows. -/
structure FleetHalted (s u : State) : Prop where
  closed : u.rnd.isOpen = false
  auto : ∀ x, (u.robot x).ctrl = .auto
  purged : ∀ e ∈ u.dsp.routine, e.owner ≠ .round ∧ e.order.kind.stormHeld = false ∧
    ¬(e.owner = .supervisor ∧ e.order.kind.fixedDrop = true)
  queued : ∀ x, (s.robot x).link = some .queued → (∃ q ∈ s.lane (s.robot x).lane, q.robot = x) →
    (u.robot x).link = none
  aborted : ∀ c t, s.cartOk c = true → (s.cart c).transfer = some t → t.stalled = false →
    t.phase = .approach ∨ t.phase = .boarding ∧ ¬s.carries c → (u.cart c).transfer = none
  carried : ∀ c t, s.cartOk c = true → (s.cart c).transfer = some t → t.tag = none → t.entered = true →
    t.stalled = true ∨ t.phase = .travel ∨ t.phase = .alighting ∨
      t.phase = .boarding ∧ ((s.robot t.robot).pos = some (.cart c) ∨ (s.cart c).load = some t.robot) →
    (u.cart c).transfer = some { t with purpose := .park }
  garage : ∀ c, s.cartOk c = true → (s.cart c).garageEntry = none →
    ((u.cart c).garageEntry.isSome = true ↔
      ¬s.carries c ∧ (s.cart c).state ≠ .garaged ∧ (s.cart c).state ≠ .faulted)
  pins : ∀ x r, s.robotOk x = true → (s.robot x).pos = some (.row r) →
    (s.robot x).state = .offline ∨ (s.robot x).state = .stranded ∨ (s.robot x).state = .faulted →
    (u.row r).sup.pinned = true

/-- A park entry out of state s that gave u: the owners' work, the park list, and the stow sweep started from row 0 in PARK
mode, which goes on until 16 of its orders wait (R136, R137, R142). -/
structure ParkEntered (s u : State) : Prop extends FleetHalted s u where
  listed : ∀ x, s.robotOk x = true → (s.robot x).park = none →
    (u.robot x).park.map (fun e => e.order) = (s.robot x).placed
  mode : u.swp.mode = .park
  done : ∀ r, (u.row r).stow.progress = .done → (s.row r).sup.reported = some .stowed
  claimed : ∀ r, (u.row r).stow.progress = .done ∨ (u.row r).stow.progress = .sent → (u.row r).sup.stowClaim = true
  skipped : ∀ r, (u.row r).stow.progress = .skipped → s.robotOn r = true
  reached : (∀ r, s.rowOk r = true → (u.row r).stow.progress ≠ .unreached) ∨ u.sweepWaiting = 16

/-- Entry of LOCKOUT from state s that gave u (R145): every configured row claimed for stow and the sweep restarted in
LOCKOUT mode, every robot ON_ROW stranded, its row pinned; the broadcast at the head of the urgent queue, one already there
moved (stated where no tag of a record is withdrawn, and where no other order to that address is queued); from CALM, WATCH and RELEASE the park list, from
CALM and WATCH every other work of a park entry too. -/
structure LockoutEntered (s u : State) : Prop where
  state : u.stm.state = .lockout
  timer : u.stm.lockoutT = some s.now
  claimed : ∀ r, s.rowOk r = true → (u.row r).sup.stowClaim = true
  mode : u.swp.mode = .lockout
  done : ∀ r, s.rowOk r = true → (s.row r).sup.reported = some .stowed → (u.row r).stow.progress = .done
  stranded : ∀ x, s.robotOk x = true → (s.robot x).state = .onRow →
    (u.robot x).stranded = true ∧ (u.robot x).state = .stranded ∧ (u.robot x).park = none ∧
      hasFlag u.ntc.latched .stranded = true ∧ ∀ r, (s.robot x).pos = some (.row r) → (u.row r).sup.pinned = true
  others : ∀ x, (s.robot x).state ≠ .onRow →
    (u.robot x).stranded = (s.robot x).stranded ∧ (u.robot x).state = (s.robot x).state
  broadcast : (s.stm.state ≠ .calm ∧ s.stm.state ≠ .watch) ∨
      ((∀ x a, (s.robot x).asg = some a → a.tag = none) ∧
        ∀ c, (s.cart c).hold = none ∧ ∀ t, (s.cart c).transfer = some t → t.tag = none) →
    ((∀ e ∈ s.dsp.urgent, e.dest ≠ 0xFFFF) →
      ∃ e l, u.dsp.urgent = e :: l ∧ e.dest = 0xFFFF ∧ e.order = .rowStow) ∧
    (∀ l e l', s.dsp.urgent = l ++ e :: l' → e.dest = 0xFFFF → e.order = .rowStow → e.owner = .storm →
      (∀ y ∈ l, y.dest ≠ 0xFFFF) → ∃ k, u.dsp.urgent = e :: k ∧ ∀ y ∈ k, ¬(y.dest = 0xFFFF ∧ y.order = .rowStow))
  listed : s.stm.state = .calm ∨ s.stm.state = .watch ∨ s.stm.state = .release →
    ∀ x, s.robotOk x = true → (s.robot x).park = none → (s.robot x).state ≠ .onRow →
      (u.robot x).park.map (fun e => e.order) = (s.robot x).placed
  halted : s.stm.state = .calm ∨ s.stm.state = .watch → FleetHalted s u

/-- Whether RELEASE entry puts a row on the release list (R147). -/
def Row.listed (r : Row) : Prop :=
  r.cfg.node.isSome = true ∧ r.sup.reported = some .stowed ∧ r.sup.pinned = false

/-- Entry of RELEASE from state s that gave u (R135, R147): no stow claim is left, the sweep is OFF with every progress
UNREACHED, and the release list holds the rows that report STOWED and are not pinned; with none of them the part goes on to
CALM. -/
structure ReleaseEntered (s u : State) : Prop where
  claims : ∀ r, s.rowOk r = true → (u.row r).sup.stowClaim = false
  mode : u.swp.mode = .off
  progress : ∀ r, (u.row r).stow = Stow.unreached
  listed : ∀ r, (s.row r).listed → (u.row r).rel = some ⟨0, none, false⟩
  unlisted : ∀ r, ¬(s.row r).listed → (u.row r).rel = none
  state : u.stm.state = .release ∧ (∃ r, (s.row r).listed) ∨ u.stm.state = .calm ∧ ∀ r, ¬(s.row r).listed

end Sys2Proof.Machine

namespace Sys2Proof

open Machine

/-! ### Groups of commands -/

/-- A field report as the field link carries it: source, class, payload, the kind of node that sends it, and whether its
fields hold values of their encodings (11.3, R180). -/
structure ReportFrame where
  src : Half
  cls : Nat
  payload : List Byte
  kind : NodeKind
  valid : Bool

/-- The five field reports. -/
def Instr.report : Instr → Option ReportFrame
  | .rowSample src current posture fault =>
    some ⟨src, 0x12, be 2 current.toNat ++ [posture, fault], .row, decide (posture.toNat ≤ 3 ∧ fault.toNat ≤ 1)⟩
  | .mastSample src irradiance mean gust =>
    some ⟨src, 0x13, be 2 irradiance.toNat ++ be 2 mean.toNat ++ be 2 gust.toNat, .mast,
      decide (irradiance.toNat ≤ 1600 ∧ mean.toNat ≤ 800 ∧ gust.toNat ≤ 800)⟩
  | .robotStatus src kind index activity result metres charge fault =>
    some ⟨src, 0x10, kind :: be 2 index.toNat ++ [activity, result] ++ be 2 metres.toNat ++ be 2 charge.toNat ++ [fault],
      .robot,
      decide ((kind.toNat ≤ 1 ∧ index.toNat ≤ 1023 ∨ kind.toNat = 2 ∧ index.toNat ≤ 7) ∧ activity.toNat ≤ 5 ∧
        result.toNat ≤ 2 ∧ charge.toNat ≤ 4095)⟩
  | .cartStatus src slot motion garaged load fault =>
    some ⟨src, 0x11, [slot, motion, garaged] ++ be 2 load.toNat ++ [fault], .cart,
      decide (motion.toNat ≤ 1 ∧ garaged.toNat ≤ 1)⟩
  | .leaveAsk src => some ⟨src, 0x14, [], .robot, true⟩
  | _ => none

/-- The addresses and tag of an uplink request. -/
def Instr.request : Instr → Option Req
  | .tableWrite q _ _ _ _ => some q
  | .baselineValueWrite q _ _ => some q
  | .baselineReset q _ => some q
  | .tableRead q _ _ _ => some q
  | .order q _ _ _ => some q
  | .commit q => some q
  | .decommit q => some q
  | .timeSet q _ => some q
  | .stormForce q _ => some q
  | .stormAdvisory q _ => some q
  | .advisoryCancel q => some q
  | .robotManual q _ _ => some q
  | .robotClear q _ => some q
  | .transferResolve q _ _ => some q
  | .roundsEnable q _ => some q
  | .closeNow q => some q
  | .accountClear q _ => some q
  | .resetRun q => some q
  | .noticeClear q _ => some q
  | .noticeMask q _ => some q
  | .controlUnknownKind q _ => some q
  | _ => none

/-- The CONTROL kind of a request that is taken in RUNNING only (R161, 11.4). -/
def Instr.runningKind : Instr → Option Nat
  | .decommit _ => some 2
  | .stormForce _ _ => some 4
  | .stormAdvisory _ _ => some 5
  | .advisoryCancel _ => some 6
  | .robotManual _ _ _ => some 7
  | .robotClear _ _ => some 8
  | .transferResolve _ _ _ => some 9
  | .roundsEnable _ _ => some 10
  | .closeNow _ => some 11
  | .accountClear _ _ => some 12
  | _ => none

end Sys2Proof

namespace Sys2Proof.Machine

/-- An order whose parameters fit their fields (11.3). -/
def Order.Fits : Order → Prop
  | .passSetup l b => l < 65536 ∧ b < 256
  | .board c => c < 256
  | .alight r => r < 65536
  | .leaveAnswer g => g < 256
  | .cartFetch c => c < 256
  | .cartCarry c => c < 256
  | .cartGarage c => c < 256
  | _ => True

/-! ### Laws of the part -/

/-- A soiling record in its ranges (R66). -/
structure SoilLaw (o : Soil) : Prop where
  s : o.s ≤ 1000
  b : ∀ b, o.b = some b → 2048 ≤ b ∧ b ≤ 8191
  sPre : ∀ p, o.sPre = some p → p ≤ 1000

/-- A bank in its ranges (R61, R65). -/
structure BankLaw (b : Bank) : Prop where
  sum : b.ratioSum ≤ 8191 * b.valid
  valid : b.valid ≤ 65535
  stale : b.stale ≤ 65535

/-- An account in its ranges (R68). -/
structure AccountLaw (a : Account) : Prop where
  lost : a.lost ≤ 4294967295
  lostRes : a.lostRes ≤ 3599999999
  recovered : a.recovered ≤ 4294967295
  recoveredRes : a.recoveredRes ≤ 3599999999
  cleanings : a.cleanings ≤ 4294967295
  voids : a.voids ≤ 4294967295
  thins : a.thins ≤ 4294967295

/-- Every row's soiling record, banks and account are in their ranges (R61, R66, R68). -/
def YieldLaw (s : State) : Prop :=
  ∀ r, SoilLaw (s.row r).soil ∧ AccountLaw (s.row r).acct ∧ (∀ b, (s.row r).banks.opened = some b → BankLaw b) ∧
    (∀ b, (s.row r).banks.closing = some b → BankLaw b)

/-- The queues are within their sizes: 64 uplink frames (R155), 256 routine entries (R29), 128 urgent entries besides the
broadcast (R30). -/
structure QueueLaw (s : State) : Prop where
  uplink : s.up.queue.length ≤ 64
  routine : s.dsp.routine.length ≤ 256
  urgent : urgentWork s.dsp.urgent ≤ 128

/-- A robot is the occupant of at most one dock, and one whose position is a cart, as every robot ABOARD is, of none
(R11). -/
structure DockLaw (s : State) : Prop where
  one : ∀ r q x, (s.row r).sup.occupant = some x → (s.row q).sup.occupant = some x → r = q
  aboard : ∀ x, (s.robot x).state = .aboard → ∃ c, (s.robot x).pos = some (.cart c)
  cart : ∀ r x c, (s.row r).sup.occupant = some x → (s.robot x).pos ≠ some (.cart c)

/-- The plant clock is a 32-bit count, and reads 0 while it is not set (R45). -/
structure ClockLaw (s : State) : Prop where
  range : s.clk.clock < 4294967296
  unset : s.clk.set = false → s.clk.clock = 0

/-- Every row's demand is the one its two claims give: STOW before LEVEL before TRACK (R6). -/
def DemandLaw (s : State) : Prop :=
  ∀ r, (s.row r).sup.demand =
    if (s.row r).sup.stowClaim = true then .stow else if (s.row r).sup.levelClaim.isSome = true then .level else .track

/-- In RUNNING the state PARK lasts only while the fleet is not safe: otherwise it is SECURED (R134). -/
def SecuredLaw (s : State) : Prop := s.running = true → s.stm.state = .park → s.allSafe = false

/-- At most one entry a row in the due list, and the entries in the list's order: U descending, then row ascending
(R89). -/
def DueOrder (l : List DueEntry) : Prop :=
  l.Pairwise (fun a b => a.row ≠ b.row ∧ (b.u < a.u ∨ a.u = b.u ∧ a.row < b.row))

/-- The due list of a state is in order (R89). -/
def DueLaw (s : State) : Prop := DueOrder s.rnd.due

/-- A row is assigned to at most one robot and claimed by at most one, and is not in the due list while a robot is assigned
to it (R89); a claim stands on both records, the row's entry and the robot's (R92). A part that is not RUNNING, and a robot
that is not configured, hold none of these (R1, R106). -/
structure ClaimLaw (s : State) : Prop where
  due : DueLaw s
  assigned : ∀ x y a b, (s.robot x).asg = some a → (s.robot y).asg = some b → a.row = b.row → x = y
  away : ∀ x a, (s.robot x).asg = some a → ∀ e ∈ s.rnd.due, e.row ≠ a.row
  claim : ∀ x r, (s.robot x).claim = some r ↔ ∃ e ∈ s.rnd.due, e.row = r ∧ e.claimant = some x
  absent : ∀ x, s.robotOk x = false → (s.robot x).asg = none ∧ (s.robot x).claim = none
  idle : s.running = false → s.rnd.isOpen = false ∧ s.rnd.due = [] ∧ s.ep.epoch = none ∧ s.yld.walk = none ∧
    ∀ x, (s.robot x).asg = none

/-- The frames of the uplink queue whose frame has not started. -/
def State.unsentUp (s : State) : List UpEntry := if s.up.air.isSome then s.up.queue.tail else s.up.queue

/-- At most one NOTICE is waiting or owed (R171, R173). -/
def NoticeLaw (s : State) : Prop := s.unsentUp.count .notice + (if s.ntc.owed then 1 else 0) ≤ 1

end Sys2Proof.Machine
end

