-- ==== Sys2Proof/Certificates/Slice0/Obligations.lean ====
section
/-! DEFINITION. The statements about the part. In a statement about a request, "taken" is a destination equal to the part's
uplink address; the answer is what `reply` and `replyCtl` offer, which AnswerOffered says. -/

open Sys2Proof Sys2Proof.Machine

/-! ### The machine -/

/-- A step with a command waiting is that command's execution on the state with the rest of the queue. -/
def Obligations.StepRunsFrontCommand : Prop :=
  ∀ (c : Instr) (rest : List Instr) (s : State),
    step { s with pending := c :: rest } = exec c { s with pending := rest }

/-- R44, R45: a step with no command waiting is one second (the model's choice of when a second passes, log 1): the count
and a clock that is set advance by one, the timed events due then wait in some order, each once, and nothing else changes.
An event waits exactly when its condition holds on the state with the new clocks: a level, pass, phase, stow or release
deadline or a replay time has come (R9, R102, R113, R140, R141, R144, R148); a robot, a cart or every mast has been silent
for its limit (R18, R23, R128; one that left OFFLINE without a status too, logs 36 and 69); a mast record is one second past its limit (R59); a storm timer of the present state is
through (R129); the epoch is at its nominal end (R48); the time of day is at an edge of the round window, or the clock at 0
(R87; log 28); the advisory is reached (R151); a permit wait is past the permit stall (R35). -/
def Obligations.EmptyQueueStepIsOneSecond : Prop :=
  ∀ s : State, s.pending = [] → ∃ t, step s = .next t ∧
    t.clk.mono = s.clk.mono + 1 ∧ t.clk.set = s.clk.set ∧
    t.clk.clock = (if s.clk.set then (s.clk.clock + 1) % 4294967296 else s.clk.clock) ∧
    t.pending.Perm (State.dueEvents { s with clk := t.clk }) ∧
    t.pending.Nodup ∧ (∀ c, c ∈ t.pending ↔ State.comesDue { s with clk := t.clk } c) ∧
    { t with pending := s.pending, clk := s.clk, choices := s.choices } = s

/-- R44: no command but power-on changes the monotonic seconds, and R45, R46: none but TIME SET and power-on changes the
plant clock or its set flag. -/
def Obligations.CommandsKeepTheClocks : Prop :=
  ∀ (c : Instr) (s t : State), c.wf = true → c ≠ .powerOnReset → exec c s = .next t →
    t.clk.mono = s.clk.mono ∧
      ((∀ q v, c ≠ .timeSet q v) → t.clk.clock = s.clk.clock ∧ t.clk.set = s.clk.set)

/-- The values after power-on or the reset input that the manual gives: addresses, mode, parameters and policies (R27, R40,
R43, R156, R159, R161); clocks, epoch, staging store and accumulators (R44, R45, R47, R54, R56); notices and the uplink queue
(R155, R169); the order queues (R43); each row's configuration, posture record, sweep record, soiling record, account and
banks (R1, R3, R5, R61, R66, R68, R142); each robot, cart and mast (R4, R14, R22, R59, R127); the site banks and the walk
(R60, R69); the round, its list, claims and charge marks (R106); lane queues, transfers, holds and last transfers (R126);
the storm state, its timers, lists and advisory, and the sweep (R130, R137, R141, R142, R150). -/
def Obligations.ResetValues : Prop :=
  State.reset.ctl.part = ⟨0x00F0, 0x00F1, 0x0001⟩ ∧ State.reset.ctl.mode = .unconfigured ∧
    State.reset.clk = ⟨0, 0, false⟩ ∧ State.reset.stm.state = .calm ∧ State.reset.ctl.fwd = ⟨.all, .all, .all, .all⟩ ∧
    State.reset.ntc = ⟨0, 0, 0, false⟩ ∧ (∀ p, State.reset.par p = p.info.dflt) ∧
    (∀ r, (State.reset.row r).soil = ⟨0, none, false, none, none⟩ ∧ (State.reset.row r).acct = ⟨0, 0, 0, 0, 0, 0, 0⟩ ∧
      (State.reset.row r).cfg = ⟨none, 0, 0, 0, 0, 1, none⟩) ∧
    (∀ i, State.reset.ctl.policy.get i = false) ∧ State.reset.lookup = [] ∧
    State.reset.ep.epoch = none ∧ State.reset.ep.held = none ∧ State.reset.ep.batch = none ∧
    (∀ r, State.reset.ep.staging.rows.get r = ⟨none, none, none, none⟩) ∧
    (∀ i, State.reset.ep.staging.params.get i = none) ∧ State.reset.ep.acc = ⟨0, 0, 0, 0, 0, none, 0, 0, 0⟩ ∧
    State.reset.up.queue = [] ∧ State.reset.up.air = none ∧ State.reset.dsp.urgent = [] ∧ State.reset.dsp.routine = [] ∧
    State.reset.dsp.group = none ∧ State.reset.dsp.wait = none ∧
    State.reset.yld = ⟨none, none, none⟩ ∧ State.reset.rnd = ⟨false, none, none, []⟩ ∧
    (∀ l, State.reset.lane l = []) ∧
    (∀ r, let k := State.reset.row r;
      k.banks = ⟨none, none⟩ ∧ k.sup.demand = .track ∧ k.sup.reported = none ∧ k.sup.stowClaim = false ∧
      k.sup.levelClaim = none ∧ k.sup.orderPending = false ∧ k.sup.levelDeadline = none ∧ k.sup.resync = false ∧
      k.sup.occupant = none ∧ k.sup.reservation = none ∧ k.sup.pinned = false ∧ k.sup.levelFault = false ∧
      k.stow.progress = .unreached ∧ k.stow.deadline = none ∧ k.stow.waiting = false ∧ k.rel = none) ∧
    (∀ x, let k := State.reset.robot x;
      k.node = none ∧ k.lane = 0 ∧ k.state = .unknown ∧ k.pos = none ∧ k.activity = none ∧ k.charge = 0 ∧ k.metres = 0 ∧
      k.fault = 0 ∧ k.heard = none ∧ k.ctrl = .auto ∧ k.stranded = false ∧ k.asg = none ∧ k.link = none ∧
      k.claim = none ∧ k.mark = none ∧ k.park = none) ∧
    (∀ c, let k := State.reset.cart c;
      k.node = none ∧ k.lane = 0 ∧ k.garage = 0 ∧ k.state = .unknown ∧ k.slot = 0 ∧ k.moving = false ∧ k.garaged = false ∧
      k.load = none ∧ k.fault = 0 ∧ k.heard = none ∧ k.recover = false ∧ k.transfer = none ∧ k.lastTransfer = none ∧
      k.hold = none ∧ k.garageEntry = none) ∧
    (∀ m, let k := State.reset.mast m;
      k.node = none ∧ k.ref = false ∧ k.gust = none ∧ k.mean = none ∧ k.heard = none ∧ k.irr = none) ∧
    (let m := State.reset.stm;
      m.watchT = none ∧ m.parkT = none ∧ m.calmT = none ∧ m.releaseT = none ∧ m.lockoutT = none ∧ m.gust = none ∧
      m.advisory = none) ∧ State.reset.swp.mode = .off

/-- The laws of Safety.lean hold after reset. -/
def Obligations.ResetMeetsTheLaws : Prop :=
  YieldLaw State.reset ∧ QueueLaw State.reset ∧ DockLaw State.reset ∧ ClockLaw State.reset ∧ SecuredLaw State.reset ∧
    NoticeLaw State.reset ∧ DueLaw State.reset ∧ ClaimLaw State.reset

/-- R66, R68, R61: every step keeps the soiling records, the accounts and the banks in their ranges. -/
def Obligations.StepsKeepTheYieldLaw : Prop := ∀ s t : State, YieldLaw s → step s = .next t → YieldLaw t

/-- R11: every step keeps the law of dock occupancy. -/
def Obligations.StepsKeepTheDockLaw : Prop := ∀ s t : State, DockLaw s → step s = .next t → DockLaw t

/-- R134: after every step a part in PARK is a part whose fleet is not safe. -/
def Obligations.StepsKeepTheSecuredLaw : Prop := ∀ s t : State, SecuredLaw s → step s = .next t → SecuredLaw t

/-- R29, R30, R45, R155, R171, R173: every step keeps the queues within their sizes, at most one NOTICE waiting or owed,
and the plant clock a 32-bit count that reads 0 until it is set. -/
def Obligations.StepsKeepTheQueueLaws : Prop :=
  ∀ s t : State, step s = .next t →
    (QueueLaw s → QueueLaw t) ∧ (NoticeLaw s → NoticeLaw t) ∧ (ClockLaw s → ClockLaw t)

/-- R89: every step keeps at most one entry per row in the due list, and the list in order of urgency, then row; and with
it the law of claims: a row is assigned to at most one robot, claimed by at most one, and out of the list while a robot is
assigned to it, and a claim stands on the row's entry and in the robot's record alike (R92). -/
def Obligations.StepsKeepTheDueLaw : Prop :=
  ∀ s t : State, step s = .next t → (DueLaw s → DueLaw t) ∧ (ClaimLaw s → ClaimLaw t)

/-! ### Notices, answers, frames -/

/-- R169, R170, R171, R173: what a latch does. -/
def Obligations.LatchRule : Prop :=
  ∀ (f : Flag) (s : State),
    (∀ g, hasFlag (latch f s).ntc.latched g = (hasFlag s.ntc.latched g || decide (g = f))) ∧
    (∀ g, hasFlag (latch f s).ntc.risen g = (hasFlag s.ntc.risen g || (decide (g = f) && !hasFlag s.ntc.latched f))) ∧
    (latch f s).ntc.mask = s.ntc.mask ∧
    { latch f s with ntc := s.ntc, up := { (latch f s).up with queue := s.up.queue } } = s ∧
    (if hasFlag s.ntc.latched f = true ∨ hasFlag s.ntc.mask f = true ∨ UpEntry.notice ∈ s.unsentUp ∨ s.ntc.owed = true then
      (latch f s).up.queue = s.up.queue ∧ (latch f s).ntc.owed = s.ntc.owed
    else if s.up.queue.length < 64 then
      (latch f s).up.queue = s.up.queue ++ [.notice] ∧ (latch f s).ntc.owed = false
    else (latch f s).up.queue = s.up.queue ∧ (latch f s).ntc.owed = true)

/-- R153, R155: an answer carries the request's tag, class, kind and the code, joins the uplink queue while fewer than 64
entries are present, and changes nothing else. -/
def Obligations.AnswerOffered : Prop :=
  ∀ (q : Req) (cls kind : Nat) (code : Code) (detail : List Byte) (s : State),
    reply q cls kind code detail s =
      (if s.up.queue.length < 64 then
        { s with up := { s.up with queue := s.up.queue ++
          [.answer q.src.toNat 0x51
            ([q.tag, BitVec.ofNat 8 cls, BitVec.ofNat 8 kind, BitVec.ofNat 8 code.num] ++ detail)] } }
      else s) ∧
    replyCtl q kind code detail s = reply q 0x42 kind code detail s

/-- 11.1, R178, R179: a frame that the part builds passes a port's checks and reads back as what was sent, and cut off by
one byte it fails them. -/
def Obligations.FrameReadsBack : Prop :=
  ∀ (dst src cls : Nat) (payload : List Byte), dst < 65536 → src < 65536 → cls < 256 → payload.length ≤ 56 →
    judgeFrame (frameBytes dst src cls payload) = .good ⟨dst, src, cls, payload⟩ ∧
      judgeFrame (frameBytes dst src cls payload).dropLast = .bad

/-- 11.2, 11.3: every order whose parameters fit their fields reads back from its class and payload. -/
def Obligations.OrderReadsBack : Prop := ∀ o : Order, o.Fits → Order.ofWire o.cls o.payload = some o

/-! ### Power, rejected frames -/

/-- R161, R32, R43: power-on or the reset input sets every record to its reset value. Kept are what is not the part's own
(logs 6 and 9): the waiting commands, the line of send-permit, the selector of free values, and a frame on the field link,
whose sent event is not handed on. -/
def Obligations.PowerOnResets : Prop :=
  ∀ s : State, exec .powerOnReset s = .next { State.reset with
    pending := s.pending
    choices := s.choices
    dsp := { State.reset.dsp with
      permit := s.dsp.permit
      air := s.dsp.air.map (fun f => { f with handOn := false }) } }

/-- R24, R154, R179: a frame that a port rejects changes nothing but its framing flag. A rejected class or length is not
seen in the part's own echo (the source is the field address of the last frame start, R156), nor in an uplink frame to
another address. -/
def Obligations.RejectedFramesLatch : Prop :=
  ∀ (bytes : List Byte) (s : State),
    (Instr.wf (.fieldFrameRejected bytes) = true →
      (judgeFrame bytes = .bad → exec (.fieldFrameRejected bytes) s = .next (latch .fieldFraming s)) ∧
      (∀ f, judgeFrame bytes = .good f →
        exec (.fieldFrameRejected bytes) s = .next (if f.src = s.dsp.echo then s else latch .fieldFraming s))) ∧
    (Instr.wf (.uplinkFrameRejected bytes) = true →
      (judgeFrame bytes = .bad → exec (.uplinkFrameRejected bytes) s = .next (latch .uplinkFraming s)) ∧
      (∀ f, judgeFrame bytes = .good f →
        exec (.uplinkFrameRejected bytes) s = .next (if f.dst ≠ s.ctl.part.uplink then s else latch .uplinkFraming s)))

/-! ### Field reports -/

/-- R2, R24, R25, R28, R156, R180: the part's own echo changes nothing. In UNCONFIGURED a field report is relayed while fewer than
48 uplink entries are present. In RUNNING one from an address that the lookup does not hold latches UNKNOWN_NODE, and one
from a node of another kind, or with a field outside its encoding, latches FIELD_FRAMING. Nothing else changes. -/
def Obligations.ReportsNotDelivered : Prop :=
  ∀ (c : Instr) (f : ReportFrame) (s : State), c.report = some f →
    (f.src.toNat = s.dsp.echo → exec c s = .next s) ∧
    (f.src.toNat ≠ s.dsp.echo → s.running = false → exec c s = .next (
      if s.up.queue.length < 48 then
        { s with up := { s.up with queue := s.up.queue ++ [.relayed f.src.toNat (BitVec.ofNat 8 f.cls :: f.payload)] } }
      else s)) ∧
    (f.src.toNat ≠ s.dsp.echo → s.running = true →
      (s.nodeAt f.src.toNat = none → exec c s = .next (latch .unknownNode s)) ∧
      (∀ n, s.nodeAt f.src.toNat = some n → n.kind ≠ f.kind ∨ f.valid = false →
        exec c s = .next (latch .fieldFraming s)))

/-- R8, R13, R26 to R28, R63, R99, R142, R144, R148: a usable ROW SAMPLE of row r sets the reported posture, is banked as
SampleBanked says, is relayed by the forward policy, and changes no other row's, no robot's and no cart's reported fields,
no account, soiling record or configuration. Besides: a tracker fault sets the level-fault mark and latches LEVEL_FAULT; a
first sample that finds a row to be tracking level or stowed queues ROW RELEASE; a posture that meets the demand clears the
pin of a row with no robot on it; level reached is told once and offers the pass group of the claim's robot; in the sweep a
stowed row becomes DONE and a DONE row that moves off is stowed again or pinned; a row that is not stowed leaves the release
list, and the last one ends RELEASE. -/
def Obligations.RowSampleTaken : Prop :=
  ∀ (src current : Half) (posture fault : Byte) (r : Nat) (rep : RowReport) (s : State),
    s.running = true → src.toNat ≠ s.dsp.echo → s.nodeAt src.toNat = some ⟨.row, r⟩ →
    RowReport.ofFields current.toNat posture.toNat fault.toNat = some rep →
    let sup := (s.row r).sup
    let stow := (s.row r).stow
    let meets := rep.posture = .tracking ∧ sup.demand = .track ∨ rep.posture = .level ∧ sup.demand = .level ∨
      rep.posture = .stowed ∧ sup.demand = .stow
    ∃ t, exec (.rowSample src current posture fault) s = .next t ∧
      (t.row r).sup.reported = some rep.posture ∧ (t.row r).sup.resync = false ∧
      (t.row r).banks.opened.map Bank.core =
        (s.row r).banks.opened.map (fun b => (b.take (s.row r).cfg.iref (s.par .gmin) s.siteG rep).core) ∧
      (s.stm.state ≠ .release → (t.row r).sup.levelFault = (sup.levelFault || rep.fault)) ∧
      (rep.fault = true → sup.levelFault = false → hasFlag t.ntc.latched .levelFault = true) ∧
      (sup.resync = true → sup.demand = .track → rep.posture = .level ∨ rep.posture = .stowed → s.swp.mode = .off →
        s.stm.state ≠ .release → s.stm.state ≠ .park → s.dsp.routine.length < 256 →
        (∀ e ∈ s.dsp.routine, ¬(e.owner = .row ∧ e.dest = s.rowAddr r ∧ (e.order = .rowLevel ∨ e.order = .rowRelease))) →
        t.dsp.routine = s.dsp.routine ++ [⟨s.rowAddr r, .rowRelease, s.dsp.nextTag, true, .row⟩]) ∧
      (sup.pinned = true → meets → s.robotOn r = false → s.swp.mode = .off ∨ rep.posture = .stowed →
        (t.row r).sup.pinned = false) ∧
      (s.swp.mode = .off → ¬meets ∨ s.robotOn r = true → (t.row r).sup.pinned = sup.pinned) ∧
      (∀ x, rep.posture = .level → sup.demand = .level → sup.told = false → sup.levelClaim = some x → s.swp.mode = .off →
        s.stm.state.stormy = false → (t.row r).sup.told = true ∧ (t.row r).sup.levelDeadline = none ∧
        ∀ a, (s.robot x).asg = some a →
          (s.dsp.routine.length ≤ 254 →
            (t.robot x).asg = some { a with phase := .setup, tag := some s.dsp.nextTag, held := false } ∧
            t.dsp.routine = s.dsp.routine ++
              [⟨s.robotAddr x, .passSetup (s.row a.row).cfg.length (if a.heavy then 1 else 0), s.dsp.nextTag, false, .round⟩,
               ⟨s.robotAddr x, .passRun, s.dsp.nextTag, true, .round⟩]) ∧
          (254 < s.dsp.routine.length → (t.robot x).asg = some { a with phase := .setup, held := true } ∧
            t.dsp.routine = s.dsp.routine)) ∧
      (s.swp.mode ≠ .off → rep.posture = .stowed → stow.progress ≠ .unreached →
        stow.progress = .pinned ∧ s.robotOn r = true ∨
          ((t.row r).stow.progress = .done ∧ (t.row r).stow.deadline = none)) ∧
      (s.swp.mode ≠ .off → rep.posture = .tracking ∨ rep.posture = .level → stow.progress = .done →
        (2 ≤ stow.sends → (t.row r).stow.progress = .pinned ∧ (t.row r).sup.pinned = true) ∧
        (stow.sends < 2 → s.sweepWaiting < 16 → r < s.swp.cursor → (∀ j, (s.row j).stow.reoffer = none) →
          (t.row r).stow.progress = .sent ∧ (t.row r).stow.sends = stow.sends + 1 ∧ (t.row r).stow.waiting = true ∧
            (t.row r).sup.stowClaim = true)) ∧
      (rep.posture ≠ .stowed → (t.row r).rel = none ∧ (s.stm.state = .release → (s.row r).rel.isSome = true →
        (∀ j, j ≠ r → (s.row j).rel = none) → t.stm.state = .calm)) ∧
      (rep.posture = .stowed → (t.row r).rel = (s.row r).rel) ∧
      (t.row r).cfg = (s.row r).cfg ∧ (t.row r).soil = (s.row r).soil ∧ (t.row r).acct = (s.row r).acct ∧
      (t.row r).banks.closing = (s.row r).banks.closing ∧ (t.row r).sup.occupant = sup.occupant ∧
      (∀ j, j ≠ r → RowKept (s.row j) (t.row j)) ∧ (∀ x, RobotStill (s.robot x) (t.robot x)) ∧
      (∀ c, CartKept (s.cart c) (t.cart c) ∧ (t.cart c).load = (s.cart c).load) ∧
      SiteKept s t ∧ FlagsKept s t ∧ WindKept s t ∧
      LinksKept (s.relayed (s.ctl.fwd.row.relays (rep.fault || decide (sup.reported ≠ some rep.posture)))
        src.toNat 0x12 (be 2 current.toNat ++ [posture, fault])) t

/-- R63, R64, R65: what a row sample does to the row's open bank. -/
def Obligations.SampleBanked : Prop :=
  ∀ (b : Bank) (iref gmin : Nat) (g : Option Nat) (rep : RowReport),
    let out := b.take iref gmin g rep
    out.disturbed = b.disturbed ∧ out.staged = b.staged ∧
    out.broken = (b.broken || decide (rep.posture ≠ .tracking) || rep.fault) ∧
    (iref = 0 → out.ratioSum = b.ratioSum ∧ out.valid = b.valid ∧ out.stale = b.stale) ∧
    (iref ≠ 0 → g = none → out.ratioSum = b.ratioSum ∧ out.valid = b.valid ∧ out.stale = min (b.stale + 1) 65535) ∧
    (∀ G, iref ≠ 0 → g = some G → out.stale = b.stale ∧
      (rep.posture = .tracking ∧ rep.fault = false ∧ gmin ≤ G ∧ iref * G / 1000 ≠ 0 ∧ b.valid < 65535 →
        out.ratioSum = b.ratioSum + min (rep.current * 4096 / (iref * G / 1000)) 8191 ∧ out.valid = b.valid + 1) ∧
      (¬(rep.posture = .tracking ∧ rep.fault = false ∧ gmin ≤ G ∧ iref * G / 1000 ≠ 0 ∧ b.valid < 65535) →
        out.ratioSum = b.ratioSum ∧ out.valid = b.valid))

/-- R59, R60, R127 to R129, R131 to R133, R135: a usable MAST SAMPLE of mast m sets the mast's wind record and, for a reference mast, its
irradiance record and the open site bank; the site gust becomes the largest among the masts that are heard and have reported
one, and one at the lockout gust leaves the part in LOCKOUT with the lockout timer started afresh. Below it, with no interval 0, the state stands and its
timers start, run on or stop by their thresholds (R129); a watch or park timer of interval 0 ends at once. -/
def Obligations.MastSampleTaken : Prop :=
  ∀ (src irradiance mean gust : Half) (m : Nat) (rep : MastReport) (s : State),
    s.running = true → src.toNat ≠ s.dsp.echo → s.nodeAt src.toNat = some ⟨.mast, m⟩ →
    MastReport.ofFields irradiance.toNat mean.toNat gust.toNat = some rep →
    ∃ t, exec (.mastSample src irradiance mean gust) s = .next t ∧
      t.mast m = { s.mast m with
        gust := some rep.gust, mean := some rep.mean, heard := some s.now
        irr := if (s.mast m).ref then some ⟨rep.irradiance, s.now⟩ else (s.mast m).irr } ∧
      (∀ j, j ≠ m → t.mast j = s.mast j) ∧
      t.yld = { s.yld with openSite :=
        if (s.mast m).ref then s.yld.openSite.map (fun b =>
          if b.count < 65535 then ⟨b.sum + rep.irradiance, b.count + 1⟩ else b)
        else s.yld.openSite } ∧
      t.stm.gust = State.siteGust { s with masts := t.masts } ∧ t.stm.advisory = s.stm.advisory ∧ t.stm.silent = false ∧
      (∀ g, t.stm.gust = some g ↔ (∃ j, t.hears j ∧ (t.mast j).gust = some g) ∧
        ∀ j h, t.hears j → (t.mast j).gust = some h → h ≤ g) ∧
      (∀ g, t.stm.gust = some g → s.par .lockoutGust ≤ g → t.stm.state = .lockout ∧ t.stm.lockoutT = some s.now) ∧
      (∀ g, t.stm.gust = some g → g < s.par .lockoutGust → SecuredLaw s →
        let after (old : Option Nat) (met : Bool) : Option Nat := if met then some (old.getD s.now) else none
        (0 < s.par .watchDebounce → 0 < s.par .parkDebounce → 0 < s.par .calmHold → 0 < s.par .releaseHold →
          t.stm.state = s.stm.state ∧ t.stm.lockoutT = s.stm.lockoutT ∧
          t.stm.watchT = (if s.stm.state = .calm then after s.stm.watchT (decide (s.par .watchGust ≤ g)) else s.stm.watchT) ∧
          t.stm.parkT = (if s.stm.state = .calm ∨ s.stm.state = .watch ∨ s.stm.state = .release then
            after s.stm.parkT (decide (s.par .parkGust ≤ g)) else s.stm.parkT) ∧
          t.stm.calmT = (if s.stm.state = .watch then after s.stm.calmT (decide (g < s.par .watchGust)) else s.stm.calmT) ∧
          t.stm.releaseT = (if s.stm.state = .park ∨ s.stm.state = .secured then
            after s.stm.releaseT (decide (g < s.par .releaseGust)) else s.stm.releaseT)) ∧
        (s.par .watchDebounce = 0 → s.stm.state = .calm → s.stm.watchT = none → s.par .watchGust ≤ g → g < s.par .parkGust →
          t.stm.state = .watch) ∧
        (s.par .parkDebounce = 0 → 0 < s.par .watchDebounce → 0 < s.par .calmHold →
          s.stm.state = .calm ∨ s.stm.state = .watch ∨ s.stm.state = .release → s.stm.parkT = none → s.par .parkGust ≤ g →
          t.stm.state = .park ∨ t.stm.state = .secured)) ∧
      (t.pending = s.pending ∧ t.clk = s.clk ∧ t.ep = s.ep ∧ t.ctl = s.ctl ∧ t.lookup = s.lookup) ∧ FlagsKept s t ∧
      (∀ r, RowKept (s.row r) (t.row r)) ∧ (∀ x, RobotKept (s.robot x) (t.robot x)) ∧
      (∀ c, CartKept (s.cart c) (t.cart c) ∧ (t.cart c).load = (s.cart c).load) ∧
      LinksKept (s.relayed (s.ctl.fwd.mast.relays (decide (s.par .watchGust ≤ rep.gust))) src.toNat 0x13
        (be 2 irradiance.toNat ++ be 2 mean.toNat ++ be 2 gust.toNat)) t

/-- R11, R15, R19, R20, R62, R82, R116, R138, R139: an accepted ROBOT STATUS of robot x, that meets no rival at the dock it
names, gives the context the fields and the state of R15 and the docks the occupancy of R11; no other robot's reported
fields change; only the result COMPLETE may touch a soiling record, an account or a closing bank; an open bank changes by its
disturbed flag only, which a report on a row sets. In a storm state a listed robot docked, IDLE and fault-free is confirmed
and leaves the park list, and a faulty one leaves it with its row pinned. Docked at the destination of its transfer, the
transfer is DONE (with no round open and no request waiting in the lane, so that nothing follows). Docked at its origin in
PARK, SECURED or LOCKOUT with BOARDING begun and BOARD held, the transfer is aborted, for BOARD is refused, and its cart is
sent to its garage (R124, R125). -/
def Obligations.RobotStatusAccepted : Prop :=
  ∀ (src : Half) (kind : Byte) (index : Half) (activity result : Byte) (metres charge : Half) (fault : Byte) (x : Nat)
    (rep : RobotReport) (s : State),
    s.running = true → src.toNat ≠ s.dsp.echo → s.nodeAt src.toNat = some ⟨.robot, x⟩ →
    RobotReport.ofFields kind.toNat index.toNat activity.toNat result.toNat metres.toNat charge.toNat fault.toNat =
      some rep →
    s.reachable x rep.pos = true → s.barred x rep.pos = false → s.rival x rep.pos = none →
    ∃ t, exec (.robotStatus src kind index activity result metres charge fault) s = .next t ∧
      (t.robot x).pos = some rep.pos ∧ (t.robot x).activity = some rep.activity ∧ (t.robot x).charge = rep.charge ∧
      (t.robot x).metres = rep.metres ∧ (t.robot x).fault = rep.fault ∧ (t.robot x).heard = some s.now ∧
      (t.robot x).ctrl = (s.robot x).ctrl ∧
      (t.robot x).stranded = (match rep.pos with
        | .dock _ => false
        | .row _ => (s.robot x).stranded || (decide (s.stm.state = .lockout) && decide (rep.fault = 0))
        | .cart _ => (s.robot x).stranded) ∧
      (t.robot x).state = (if rep.fault ≠ 0 then .faulted else if (t.robot x).stranded then .stranded else
        match rep.pos with
        | .dock _ => .docked
        | .row _ => .onRow
        | .cart _ => .aboard) ∧
      ((t.robot x).state = .faulted → (s.robot x).state ≠ .faulted → hasFlag t.ntc.latched .robotFault = true) ∧
      ((t.robot x).stranded = true → (s.robot x).stranded = false → hasFlag t.ntc.latched .stranded = true) ∧
      (∀ y, y ≠ x → RobotStill (s.robot y) (t.robot y)) ∧
      (∀ r, (t.row r).cfg = (s.row r).cfg ∧ (t.row r).sup.reported = (s.row r).sup.reported ∧
        (rep.result ≠ some .complete → (t.row r).soil = (s.row r).soil ∧ (t.row r).acct = (s.row r).acct ∧
          (t.row r).banks.closing = (s.row r).banks.closing) ∧
        (t.row r).banks.opened.map Bank.core = (s.row r).banks.opened.map Bank.core ∧
        (rep.pos = .row r → ∀ b, (t.row r).banks.opened = some b → b.disturbed = true)) ∧
      (s.stm.state.stormy = true →
        (∀ d, rep.pos = .dock d → rep.activity = .idle → rep.fault = 0 → (t.robot x).park = none) ∧
        (∀ e, (s.robot x).park = some e → rep.fault ≠ 0 →
          (t.robot x).park = none ∧ ∀ r, rep.pos = .row r → (t.row r).sup.pinned = true)) ∧
      (∀ c f, (s.robot x).link = some (.cart c) → (s.cart c).transfer = some f → f.robot = x → f.stalled = false →
        rep.pos = .dock f.dest → s.rnd.isOpen = false → s.lane (s.cart c).lane = [] →
        (t.robot x).link = none ∧ (t.cart c).transfer = none ∧ (t.cart c).load = none ∧
          (t.cart c).lastTransfer = some ⟨x, f.dest, some .done⟩) ∧
      (∀ c f, (s.robot x).link = some (.cart c) → (s.cart c).transfer = some f → f.robot = x → f.stalled = false →
        f.phase = .boarding → f.entered = false → f.tag = none → rep.pos = .dock f.origin → f.origin ≠ f.dest →
        (s.cart c).load = none → (s.cart c).garaged = false → s.rnd.isOpen = false →
        s.stm.state = .park ∨ s.stm.state = .secured ∨ s.stm.state = .lockout →
        (t.robot x).link = none ∧ (t.cart c).transfer = none ∧ (t.cart c).garageEntry.isSome = true ∧
          (t.cart c).lastTransfer = some ⟨x, f.dest, some .withdrawn⟩ ∧
          ∀ v, (t.row f.dest).sup.reservation = some v → v.robot ≠ x) ∧
      (∀ r, (t.row r).sup.occupant = (match rep.pos with
        | .dock d =>
          if (s.row d).sup.occupant = some x then (s.row r).sup.occupant
          else if r = d then some x
          else if (s.row r).sup.occupant = some x then none else (s.row r).sup.occupant
        | .row q =>
          if (s.row q).sup.occupant = some x then (s.row r).sup.occupant
          else if (s.row r).sup.occupant = some x then none else (s.row r).sup.occupant
        | .cart _ => if (s.row r).sup.occupant = some x then none else (s.row r).sup.occupant)) ∧
      (∀ c, CartKept (s.cart c) (t.cart c) ∧ ((t.cart c).load = (s.cart c).load ∨ (t.cart c).load = none)) ∧
      SiteKept s t ∧ FlagsKept s t ∧ WindKept s t ∧
      LinksKept (s.relayed (s.ctl.fwd.robot.relays (decide (rep.fault ≠ 0) || rep.result.isSome)) src.toNat 0x10
        (kind :: be 2 index.toNat ++ [activity, result] ++ be 2 metres.toNat ++ be 2 charge.toNat ++ [fault])) t

/-- R16, R17 (what a refused status leaves of the other fields: log 46): a ROBOT STATUS from robot x that names a row or cart out of its reach, or a dock reserved for another robot,
leaves x UNKNOWN with no position, no dock, and heard; one that names a dock another robot q occupies is accepted and
leaves q so. POSITION_CONFLICT latches, and no third robot's reported fields change. -/
def Obligations.RobotStatusConflicts : Prop :=
  ∀ (src : Half) (kind : Byte) (index : Half) (activity result : Byte) (metres charge : Half) (fault : Byte) (x : Nat)
    (rep : RobotReport) (s : State),
    s.running = true → src.toNat ≠ s.dsp.echo → s.nodeAt src.toNat = some ⟨.robot, x⟩ →
    RobotReport.ofFields kind.toNat index.toNat activity.toNat result.toNat metres.toNat charge.toNat fault.toNat =
      some rep →
    (s.reachable x rep.pos = false ∨ s.barred x rep.pos = true →
      ∃ t, exec (.robotStatus src kind index activity result metres charge fault) s = .next t ∧
        RobotStill { s.robot x with state := .unknown, pos := none, heard := some s.now } (t.robot x) ∧
        (∀ y, y ≠ x → RobotStill (s.robot y) (t.robot y)) ∧
        (∀ r, (t.row r).sup.occupant = if (s.row r).sup.occupant = some x then none else (s.row r).sup.occupant) ∧
        (∀ r, (t.row r).soil = (s.row r).soil ∧ (t.row r).acct = (s.row r).acct ∧ (t.row r).cfg = (s.row r).cfg) ∧
        hasFlag t.ntc.latched .positionConflict = true ∧ FlagsKept s t ∧ SiteKept s t ∧ WindKept s t ∧
        (∀ c, CartKept (s.cart c) (t.cart c) ∧ (t.cart c).load = (s.cart c).load)) ∧
    (∀ q, s.reachable x rep.pos = true → s.barred x rep.pos = false → s.rival x rep.pos = some q →
      ∃ t, exec (.robotStatus src kind index activity result metres charge fault) s = .next t ∧
        RobotStill { s.robot q with state := .unknown, pos := none } (t.robot q) ∧
        (t.robot x).pos = some rep.pos ∧ (t.robot x).heard = some s.now ∧
        (∀ y, y ≠ x → y ≠ q → RobotStill (s.robot y) (t.robot y)) ∧
        (∀ r, (t.row r).sup.occupant = if rep.pos = .dock r then some x else
          if (s.row r).sup.occupant = some x ∨ (s.row r).sup.occupant = some q then none else (s.row r).sup.occupant) ∧
        hasFlag t.ntc.latched .positionConflict = true ∧ FlagsKept s t ∧ SiteKept s t ∧ WindKept s t ∧
        (∀ c, CartKept (s.cart c) (t.cart c) ∧ ((t.cart c).load = (s.cart c).load ∨ (t.cart c).load = none)))

/-- R82, R83, R101, R62: the pass result COMPLETE of a robot docked at the row of its RUNNING assignment completes the
cleaning, in every storm state: soiling record, cleanings and open bank of that row. A closing bank that a walk in flight has
not reached is disturbed too; one it has reached stands, as does every other row's (the cursor is past a row that the walk
has reached, log 57). -/
def Obligations.PassCompletes : Prop :=
  ∀ (src : Half) (kind : Byte) (index : Half) (activity result : Byte) (metres charge : Half) (fault : Byte) (x : Nat)
    (rep : RobotReport) (a : Assignment) (s : State),
    s.running = true → src.toNat ≠ s.dsp.echo → s.nodeAt src.toNat = some ⟨.robot, x⟩ →
    RobotReport.ofFields kind.toNat index.toNat activity.toNat result.toNat metres.toNat charge.toNat fault.toNat =
      some rep →
    s.reachable x rep.pos = true → s.barred x rep.pos = false → s.rival x rep.pos = none →
    (s.robot x).asg = some a → a.phase = .running → rep.result = some .complete → rep.pos = .dock a.row →
    ∃ t, exec (.robotStatus src kind index activity result metres charge fault) s = .next t ∧
      (t.row a.row).soil = ⟨0, none, true, some (s.row a.row).soil.s, some s.clk.clock⟩ ∧
      (t.row a.row).acct = { (s.row a.row).acct with cleanings := min ((s.row a.row).acct.cleanings + 1) 4294967295 } ∧
      (∀ b, (t.row a.row).banks.opened = some b → b.disturbed = true) ∧
      (∀ w, s.yld.walk = some w → w.cursor ≤ a.row →
        (t.row a.row).banks.closing = (s.row a.row).banks.closing.map (fun b => { b with disturbed := true })) ∧
      ((∀ w, s.yld.walk = some w → a.row < w.cursor) →
        (t.row a.row).banks.closing = (s.row a.row).banks.closing) ∧
      (∀ r, r ≠ a.row → (t.row r).soil = (s.row r).soil ∧ (t.row r).acct = (s.row r).acct ∧
        (t.row r).banks.closing = (s.row r).banks.closing) ∧
      SiteKept s t ∧ FlagsKept s t

/-- R22, R23, R110 to R115: a usable CART STATUS of cart c whose load is 0x0000 or a robot's address sets the reported fields, makes a
cart with a fault FAULTED, and leaves the record of a cart without transfer, waiting request or garage order exactly as R22
gives it; a load at any other address latches UNKNOWN_NODE and records nothing. A fault-free report ends an entered phase
where R114 and R115 say, the next phase begins and its order is queued (R113); an idle empty cart, the only one its lane can
use, is granted in CALM to the head request (R110 to R112). -/
def Obligations.CartStatusTaken : Prop :=
  ∀ (src : Half) (slot motion garaged : Byte) (load : Half) (fault : Byte) (c : Nat) (rep : CartReport) (s : State),
    s.running = true → src.toNat ≠ s.dsp.echo → s.nodeAt src.toNat = some ⟨.cart, c⟩ →
    CartReport.ofFields slot.toNat motion.toNat garaged.toNat load.toNat fault.toNat = some rep →
    let u := s.relayed (s.ctl.fwd.cart.relays (decide (rep.fault ≠ 0))) src.toNat 0x11
      ([slot, motion, garaged] ++ be 2 load.toNat ++ [fault])
    (s.loadRobot load.toNat = none → SecuredLaw s →
      exec (.cartStatus src slot motion garaged load fault) s = .next (noteQueues (latch .unknownNode u))) ∧
    (∀ x, s.loadRobot load.toNat = some x →
      ∃ t, exec (.cartStatus src slot motion garaged load fault) s = .next t ∧
        (t.cart c).slot = slot.toNat ∧ (t.cart c).moving = rep.moving ∧ (t.cart c).garaged = rep.garaged ∧
        (t.cart c).load = x ∧ (t.cart c).fault = fault.toNat ∧ (t.cart c).heard = some s.now ∧
        (fault.toNat ≠ 0 → (t.cart c).state = .faulted) ∧
        (fault.toNat ≠ 0 → (s.cart c).state ≠ .faulted → hasFlag t.ntc.latched .cartFault = true) ∧
        ((s.cart c).transfer = none → (s.cart c).garageEntry = none → s.stm.state ≠ .park →
          s.stm.state ≠ .calm ∨ s.lane (s.cart c).lane = [] →
          t.cart c = { s.cart c with
            heard := some s.now, slot := slot.toNat, moving := rep.moving, garaged := rep.garaged, load := x
            fault := fault.toNat
            recover := (s.cart c).recover && decide (fault.toNat ≠ 0)
            state := if fault.toNat ≠ 0 then .faulted else if (s.cart c).recover then .recover
              else if x.isSome || rep.moving then .busy else if rep.garaged then .garaged else .idle }) ∧
        (∀ f, fault.toNat = 0 → (s.cart c).garageEntry = none → (s.cart c).transfer = some f → f.entered = true →
          f.stalled = false → s.dsp.routine.length < 256 →
          let begun (p : Phase) (dest : Nat) (o : Order) : Prop :=
            (t.cart c).transfer =
              some { f with phase := p, entered := false, deadline := none, tag := some s.dsp.nextTag } ∧
            t.dsp.routine = s.dsp.routine ++ [⟨dest, o, s.dsp.nextTag, true, .transfer⟩]
          (f.phase = .approach → rep.moving = false → slot.toNat = (s.row f.origin).cfg.slot →
            s.stm.state = .calm ∨ s.stm.state = .watch → begun .boarding (s.robotAddr f.robot) (.board c)) ∧
          (f.phase = .boarding → (s.robot f.robot).pos = some (.cart c) → x = some f.robot → s.stm.state ≠ .park →
            begun .travel (s.cartAddr c) (.cartCarry (s.row f.dest).cfg.slot)) ∧
          (f.phase = .travel → rep.moving = false → slot.toNat = (s.row f.dest).cfg.slot → s.stm.state ≠ .park →
            begun .alighting (s.robotAddr f.robot) (.alight f.dest))) ∧
        (∀ q l, s.stm.state = .calm → s.lane (s.cart c).lane = q :: l → (∀ j, j ≠ c → (s.cart j).eligible (s.cart c).lane = false) →
          (s.cart c).garageEntry = none → (s.cart c).transfer = none → (s.cart c).hold = none →
          (s.cart c).recover = false → s.cartOk c = true → x = none → rep.moving = false → fault.toNat = 0 →
          s.dsp.routine.length < 256 →
          t.lane (s.cart c).lane = l ∧
          (t.cart c).transfer = some ⟨q.robot, q.origin, q.dest, q.purpose, .approach, false, none, false,
            some s.dsp.nextTag⟩ ∧
          (t.cart c).state = .busy ∧ (t.robot q.robot).link = some (.cart c) ∧
          (t.row q.dest).sup.reservation = some ⟨q.robot, some c⟩ ∧
          t.dsp.routine = s.dsp.routine ++
            [⟨s.cartAddr c, .cartFetch (s.row q.origin).cfg.slot, s.dsp.nextTag, true, .transfer⟩]) ∧
        (∀ j, j ≠ c → CartKept (s.cart j) (t.cart j) ∧ (t.cart j).load = (s.cart j).load) ∧
        (∀ r, RowKept (s.row r) (t.row r)) ∧ (∀ y, RobotStill (s.robot y) (t.robot y)) ∧ SiteKept s t ∧ FlagsKept s t ∧
        WindKept s t ∧ LinksKept u t)

/-- R41 (only the part's own LEAVE ANSWER counts as the queued one, log 20; its tag, log 7): a LEAVE ASK of robot x is
answered by one LEAVE ANSWER in the routine queue, granted or denied as the conditions
stand: a queued one is decided afresh, a new one is appended, and without room it is dropped. -/
def Obligations.LeaveAskAnswered : Prop :=
  ∀ (src : Half) (x : Nat) (s : State), s.running = true → src.toNat ≠ s.dsp.echo →
    s.nodeAt src.toNat = some ⟨.robot, x⟩ → SecuredLaw s →
    let u := s.relayed (s.ctl.fwd.robot.relays true) src.toNat 0x14 []
    let o : Order := .leaveAnswer (if s.leaveGranted x then 1 else 0)
    let d : Dispatcher :=
      if s.dsp.routine.any (fun e => e.isLeave (s.robotAddr x)) then
        { s.dsp with routine := s.dsp.routine.map (fun e => if e.isLeave (s.robotAddr x) then { e with order := o } else e) }
      else if s.dsp.routine.length < 256 then
        { s.dsp with
          routine := s.dsp.routine ++ [⟨s.robotAddr x, o, s.dsp.nextTag, true, .row⟩]
          nextTag := s.dsp.nextTag + 1 }
      else s.dsp
    exec (.leaveAsk src) s = .next (noteQueues { u with dsp := d }) ∧
    (s.leaveGranted x = true ↔
      (s.stm.state = .calm ∨ s.stm.state = .watch) ∧ s.policyDrop s.stm.state 14 = false ∧ (s.robot x).link = none ∧
      ∃ r, s.dockOf x = some r ∧ (s.row r).sup.reported = some .level ∧
        ∀ y, (s.robotOk y = true ∧ y ≠ x) → ∀ a, (s.robot y).asg = some a → a.row ≠ r)

/-! ### Tables -/

/-- R154, R161: a request to another address changes nothing. In UNCONFIGURED a CONTROL kind that is taken in RUNNING only
is answered NOT_CONFIGURED and changes nothing else. -/
def Obligations.RequestsNotTaken : Prop :=
  ∀ (c : Instr) (q : Req) (s : State), c.request = some q →
    (q.dst.toNat ≠ s.ctl.part.uplink → exec c s = .next s) ∧
    (∀ k, q.dst.toNat = s.ctl.part.uplink → c.runningKind = some k → s.running = false →
      exec c s = .next (replyCtl q k .notConfigured [] s))

/-- R157: a TABLE WRITE is refused BAD_TABLE for a table or field that is not there, BAD_INDEX for an index past the
table's end, and REFUSED_STATE for a structural field in RUNNING, in this precedence (the model's choice, log 14). A refused
write changes nothing. -/
def Obligations.TableWritesRefused : Prop :=
  ∀ (q : Req) (table : Byte) (index : Half) (field : Byte) (value : Quad) (s : State),
    q.dst.toNat = s.ctl.part.uplink →
    let fields := match table.toNat with
      | 1 => 3
      | 2 => 9
      | 3 => 2
      | 4 => 3
      | 5 => 2
      | 6 => 1
      | 7 => 1
      | 8 => 15
      | _ => 0
    let records := match table.toNat with
      | 1 => 1
      | 2 => 1024
      | 3 => 96
      | 4 => 8
      | 5 => 4
      | 6 => 38
      | 7 => 4
      | _ => 6
    let structural := match table.toNat with
      | 1 => 2
      | 2 => 3
      | 3 => 2
      | 4 => 3
      | 5 => 2
      | _ => 0
    (field.toNat = 0 ∨ fields < field.toNat →
      exec (.tableWrite q table index field value) s = .next (reply q 0x40 0 .badTable [] s)) ∧
    (0 < field.toNat ∧ field.toNat ≤ fields → records ≤ index.toNat →
      exec (.tableWrite q table index field value) s = .next (reply q 0x40 0 .badIndex [] s)) ∧
    (0 < field.toNat ∧ field.toNat ≤ structural → index.toNat < records → s.running = true →
      exec (.tableWrite q table index field value) s = .next (reply q 0x40 0 .refusedState [] s))

/-- R1, R157, R158: in UNCONFIGURED a write to the node table, a lane, a slot or an accounting field, and in either mode a
write to the supervisor address, the forward policy or the order policy, is stored at once, answered with the value
stored (0xFFFFFFFF for an S_due stored absent, log 48), and changes nothing else; so is a staged parameter in UNCONFIGURED,
clamped to its range. A PART address of 0x0000 or 0xFFFF is refused BAD_INDEX (R156; tested on the low-order bytes, log 15).
Gust thresholds are LiveWrites'. -/
def Obligations.ActiveWritesStored : Prop :=
  ∀ (q : Req) (index : Half) (value : Quad) (s : State), q.dst.toNat = s.ctl.part.uplink →
    let i := index.toNat
    let v := value.toNat
    let low := v % 65536
    let slot := if low = 0 then none else some low
    let stored (table field : Byte) (w : Nat) (t : State) : Prop :=
      exec (.tableWrite q table index field value) s = .next (reply q 0x40 0 .accepted (be 4 w) t)
    (s.running = false →
      (i < 1024 →
        stored 2 1 low (s.updCfg i (fun c => { c with node := slot })) ∧
        stored 2 2 low (s.updCfg i (fun c => { c with lane := low })) ∧
        stored 2 3 low (s.updCfg i (fun c => { c with slot := low })) ∧
        stored 2 4 (min v 65535) (s.updCfg i (fun c => { c with iref := min v 65535 })) ∧
        stored 2 5 (min v 65535) (s.updCfg i (fun c => { c with prated := min v 65535 })) ∧
        stored 2 6 (max 1 (min v 1023)) (s.updCfg i (fun c => { c with length := max 1 (min v 1023) })) ∧
        (v ≠ 0xFFFFFFFF → stored 2 7 (max 1 (min v 1000))
          (s.updCfg i (fun c => { c with sDue := some (max 1 (min v 1000)) }))) ∧
        (v = 0xFFFFFFFF → stored 2 7 v (s.updCfg i (fun c => { c with sDue := none })))) ∧
      (i < 96 →
        stored 3 1 low (s.updRobot i (fun k => { k with node := slot })) ∧
        stored 3 2 low (s.updRobot i (fun k => { k with lane := low }))) ∧
      (i < 8 →
        stored 4 1 low (s.updCart i (fun k => { k with node := slot })) ∧
        stored 4 2 low (s.updCart i (fun k => { k with lane := low })) ∧
        stored 4 3 low (s.updCart i (fun k => { k with garage := low }))) ∧
      (i < 4 →
        stored 5 1 low (s.updMast i (fun k => { k with node := slot })) ∧
        stored 5 2 (if v = 0 then 0 else 1) (s.updMast i (fun k => { k with ref := decide (v ≠ 0) }))) ∧
      (∀ p : Param, p.info.index = i → p.info.staged = true →
        stored 6 1 (max p.info.lo (min v p.info.hi)) (s.setPar p (max p.info.lo (min v p.info.hi)))) ∧
      (i = 0 → low = 0 ∨ low = 0xFFFF → ∀ f : Byte, f.toNat = 1 ∨ f.toNat = 2 →
        exec (.tableWrite q 1 index f value) s = .next (reply q 0x40 0 .badIndex [] s)) ∧
      (i = 0 → low ≠ 0 → low ≠ 0xFFFF →
        stored 1 1 low { s with ctl := { s.ctl with part := { s.ctl.part with uplink := low } } } ∧
        stored 1 2 low { s with ctl := { s.ctl with part := { s.ctl.part with field := low } } })) ∧
    (i = 0 → v = 0 ∨ 0xFFFF ≤ v → exec (.tableWrite q 1 index 3 value) s = .next (reply q 0x40 0 .badIndex [] s)) ∧
    (i = 0 → 0 < v → v < 0xFFFF →
      stored 1 3 v { s with ctl := { s.ctl with part := { s.ctl.part with supervisor := v } } }) ∧
    (let w : Fwd := if v = 0 then .all else if v = 1 then .none else .exceptions
     let f := s.ctl.fwd
     let put (g : FwdPolicy) : State := { s with ctl := { s.ctl with fwd := g } }
     (i = 0 → stored 7 1 (min v 2) (put { f with row := w })) ∧ (i = 1 → stored 7 1 (min v 2) (put { f with robot := w })) ∧
     (i = 2 → stored 7 1 (min v 2) (put { f with cart := w })) ∧ (i = 3 → stored 7 1 (min v 2) (put { f with mast := w }))) ∧
    (∀ field : Byte, i < 6 → 1 ≤ field.toNat → field.toNat ≤ 15 →
      stored 8 field (min v 1)
        { s with ctl := { s.ctl with policy := s.ctl.policy.set (15 * i + (field.toNat - 1)) (decide (v ≠ 0)) } })

/-- R52, R158: in RUNNING a write to a staged field goes into the staging store, is answered with the value stored, and
leaves the active value and everything else as it is (0xFFFFFFFF for an S_due staged absent, log 48); epoch_s is fitted to
the largest divisor of a day at or below the value. -/
def Obligations.StagedWrites : Prop :=
  ∀ (q : Req) (index : Half) (value : Quad) (s : State), q.dst.toNat = s.ctl.part.uplink → s.running = true →
    let i := index.toNat
    let v := value.toNat
    let row (f : RowStage → RowStage) : State :=
      { s with ep := { s.ep with staging := { s.ep.staging with rows := s.ep.staging.rows.upd i f } } }
    let param (w : Nat) : State :=
      { s with ep := { s.ep with staging := { s.ep.staging with params := s.ep.staging.params.set i (some w) } } }
    let stored (table field : Byte) (w : Nat) (t : State) : Prop :=
      exec (.tableWrite q table index field value) s = .next (reply q 0x40 0 .accepted (be 4 w) t)
    (i < 1024 →
      stored 2 4 (min v 65535) (row (fun b => { b with iref := some (min v 65535) })) ∧
      stored 2 5 (min v 65535) (row (fun b => { b with prated := some (min v 65535) })) ∧
      stored 2 6 (max 1 (min v 1023)) (row (fun b => { b with length := some (max 1 (min v 1023)) })) ∧
      (v ≠ 0xFFFFFFFF → stored 2 7 (max 1 (min v 1000)) (row (fun b => { b with sDue := some (some (max 1 (min v 1000))) }))) ∧
      (v = 0xFFFFFFFF → stored 2 7 v (row (fun b => { b with sDue := some none })))) ∧
    (∀ p : Param, p.info.index = i → p.info.staged = true → p ≠ .epochS →
      stored 6 1 (max p.info.lo (min v p.info.hi)) (param (max p.info.lo (min v p.info.hi)))) ∧
    (i = 0 → ∃ w, stored 6 1 w (param w) ∧ 86400 % w = 0 ∧ 60 ≤ w ∧ w ≤ max 60 (min v 3600) ∧
      ∀ d, 86400 % d = 0 → d ≤ max 60 (min v 3600) → d ≤ w)

/-- R157, R158, R86 to R88, R166: a write of a live parameter stores the value fitted to its range. What the value does at
once is inside StormFrame, but for the silence parameters; a write of a term of the round condition, and ROUNDS ENABLE, leave
the round open exactly when the condition holds ("rounds enabled" is held as written, log 17). A gust threshold written in
RUNNING is stored as written where it stands strictly between its neighbours and at most at 800, else as the nearest value
that does, and is refused REFUSED_STATE where there is none; in UNCONFIGURED it is clamped to 0 to 800. -/
def Obligations.LiveWrites : Prop :=
  ∀ (q : Req) (s : State), q.dst.toNat = s.ctl.part.uplink →
    (∀ (p : Param) (index : Half) (value : Quad), p.info.index = index.toNat → p.info.staged = false → p.isGust = false →
      let w := max p.info.lo (min value.toNat p.info.hi)
      ∃ u, exec (.tableWrite q 6 index 1 value) s = .next (reply q 0x40 0 .accepted (be 4 w) u) ∧
        u.ctl = (s.setPar p w).ctl ∧
        (p ≠ .mastSilence → p ≠ .robotSilence → p ≠ .cartSilence → StormFrame (s.setPar p w) u) ∧
        (p = .gDark ∨ p = .windowStart ∨ p = .windowEnd ∨ p = .roundsEnabled → u.rnd.isOpen = u.roundCondition)) ∧
    (∀ (p : Param) (index : Half) (value : Quad),
      p = .releaseGust ∨ p = .watchGust ∨ p = .parkGust ∨ p = .lockoutGust → p.info.index = index.toNat →
      let v := value.toNat
      let stored (w : Nat) : Prop := exec (.tableWrite q 6 index 1 value) s =
        .next (reply q 0x40 0 .accepted (be 4 w) (noteQueues (s.setPar p w)))
      -- the least value, and the first value too large, that the neighbours leave
      let least := match p with
        | .releaseGust => 0
        | .watchGust => s.par .releaseGust + 1
        | .parkGust => s.par .watchGust + 1
        | _ => s.par .parkGust + 1
      let excess := match p with
        | .releaseGust => s.par .watchGust
        | .watchGust => s.par .parkGust
        | .parkGust => s.par .lockoutGust
        | _ => 801
      (s.running = false → stored (min v 800)) ∧
      (s.running = true → SecuredLaw s → least < excess →
        (least ≤ v → v < excess → v ≤ 800 → stored v) ∧
        (v < least → stored least) ∧
        (excess ≤ v ∨ 800 < v → least ≤ 800 → stored (min (excess - 1) 800))) ∧
      (s.running = true → excess ≤ least →
        exec (.tableWrite q 6 index 1 value) s = .next (reply q 0x40 0 .refusedState [] s))) ∧
    (∀ value : Byte, s.running = true →
      ∃ u, exec (.roundsEnable q value) s = .next (replyCtl q 10 .accepted [] u) ∧
        Frame (s.setPar .roundsEnabled value.toNat) u ∧ u.rnd.isOpen = u.roundCondition ∧
        (s.rnd.isOpen = true → s.stm.state = .calm → value.toNat = 0 → u.rnd.reason = some .disabled) ∧
        (s.rnd.isOpen = false → u.rnd.isOpen = true → u.rnd.openedAt = some s.clk.clock))

/-- R67: a write of a row's baseline sets it, clamped to 2048 to 8191 or absent, and clears capture pending; a baseline
reset makes the baseline absent, sets capture pending and S to 0; the flag written clear is cleared and nothing else (the
numbers answered for absent and for the flag: log 48; a TABLE WRITE of the two fields has these same effects: log 38).
A write that leaves the baseline of a metered row absent in RUNNING takes the row out of the due list, while no robot holds an
assignment for it. Nothing else of any record that Frame lists changes. In UNCONFIGURED, and for an unmetered row, nothing else changes at all.
An index above 1023 is refused BAD_INDEX (R157). -/
def Obligations.BaselineWrites : Prop :=
  ∀ (q : Req) (index : Half) (s : State), q.dst.toNat = s.ctl.part.uplink →
    (1024 ≤ index.toNat →
      (∀ value, exec (.baselineValueWrite q index value) s = .next (reply q 0x40 0 .badIndex [] s)) ∧
      exec (.baselineReset q index) s = .next (reply q 0x40 0 .badIndex [] s)) ∧
    (index.toNat < 1024 →
      (∀ value : Quad,
        let b := if value.toNat = 0xFFFFFFFF then none else some (max 2048 (min value.toNat 8191))
        let t := s.updSoil index.toNat (fun o => { o with b := b, capture := false })
        ∃ u, exec (.baselineValueWrite q index value) s = .next (reply q 0x40 0 .accepted (be 4 (b.getD 0xFFFFFFFF)) u) ∧
          Frame t u ∧ (s.running = false ∨ (s.row index.toNat).cfg.iref = 0 → u = t) ∧
          (b = none → s.running = true → (s.row index.toNat).cfg.iref ≠ 0 →
            (∀ x a, (s.robot x).asg = some a → a.row ≠ index.toNat) → ∀ e ∈ u.rnd.due, e.row ≠ index.toNat)) ∧
      (let t := s.updSoil index.toNat (fun o => { o with b := none, capture := true, s := 0 })
       ∃ u, exec (.baselineReset q index) s = .next (reply q 0x40 0 .accepted (be 4 1) u) ∧
         Frame t u ∧ (s.running = false ∨ (s.row index.toNat).cfg.iref = 0 → u = t) ∧
         (s.running = true → (s.row index.toNat).cfg.iref ≠ 0 → (∀ x a, (s.robot x).asg = some a → a.row ≠ index.toNat) →
           ∀ e ∈ u.rnd.due, e.row ≠ index.toNat)) ∧
      (let t := s.updSoil index.toNat (fun o => { o with capture := false })
       ∃ u, exec (.tableWrite q 2 index 9 0) s = .next (reply q 0x40 0 .accepted (be 4 0) u) ∧
         Frame t u ∧ (s.running = false ∨ (s.row index.toNat).cfg.iref = 0 → u = t))) ∧
    (∀ value : Quad, exec (.tableWrite q 2 index 8 value) s = exec (.baselineValueWrite q index value) s ∧
      (value.toNat ≠ 0 → exec (.tableWrite q 2 index 9 value) s = exec (.baselineReset q index) s))

/-- R153, R160: a TABLE READ is answered by TABLE DATA with as many records as were asked for, as the table has and as fit
in 51 bytes, each of its view's size, and changes nothing but the uplink queue (and the selector of free bytes, log 12). A
code of no table is refused BAD_TABLE, before an index or a count that returns nothing is refused BAD_INDEX (log 14). Each
field of every record (11.5, 11.6) stands at its byte place with its value, where the value fits the field (log 34) and the
manual gives one; for the records of a node, where the node is configured. The sweep cursor is stated while the sweep is on. -/
def Obligations.TableReadAnswers : Prop :=
  ∀ (q : Req) (table : Byte) (first : Half) (count : Byte) (s : State), q.dst.toNat = s.ctl.part.uplink →
    let shape : Nat × Nat := match table.toNat with
      | 1 => (1, 6)
      | 2 => (1024, 33)
      | 3 => (96, 28)
      | 4 => (8, 29)
      | 5 => (4, 18)
      | 6 => (38, 5)
      | 7 => (4, 1)
      | 8 => (6, 15)
      | 16 => (1, 51)
      | 17 => (1024, 28)
      | 18 => (1024, 9)
      | 19 => (128, 10)
      | 20 => (96, 6)
      | 21 => (8, 5)
      | 22 => (1024, 6)
      | 23 => (1024, 18)
      | 24 => (1, 45)
      | _ => (0, 0)
    let n := min (min count.toNat (shape.1 - first.toNat)) (51 / shape.2)
    (shape.1 = 0 → exec (.tableRead q table first count) s = .next (reply q 0x41 0 .badTable [] s)) ∧
    (0 < shape.1 → shape.1 ≤ first.toNat ∨ count.toNat = 0 →
      exec (.tableRead q table first count) s = .next (reply q 0x41 0 .badIndex [] s)) ∧
    (first.toNat < shape.1 → count.toNat ≠ 0 → ∃ (bytes : List Byte) (k : Nat),
      exec (.tableRead q table first count) s = .next { s with
        choices := k
        up := { s.up with queue :=
          if s.up.queue.length < 64 then
            s.up.queue ++ [.answer q.src.toNat 0x50 ([q.tag, table] ++ be 2 first.toNat ++ be 1 n ++ bytes)]
          else s.up.queue } } ∧
      bytes.length = n * shape.2 ∧
      (table.toNat = 1 → s.ctl.part.uplink < 65536 → s.ctl.part.field < 65536 → s.ctl.part.supervisor < 65536 →
        bytes = be 2 s.ctl.part.uplink ++ be 2 s.ctl.part.field ++ be 2 s.ctl.part.supervisor) ∧
      (table.toNat = 17 → s.rowOk first.toNat = true → AccountLaw (s.row first.toNat).acct →
        bytes = be 4 (s.row first.toNat).acct.lost ++ be 4 (s.row first.toNat).acct.lostRes ++
          be 4 (s.row first.toNat).acct.recovered ++ be 4 (s.row first.toNat).acct.recoveredRes ++
          be 4 (s.row first.toNat).acct.cleanings ++ be 4 (s.row first.toNat).acct.voids ++
          be 4 (s.row first.toNat).acct.thins) ∧
      ∀ j, j < n →
        let i := first.toNat + j
        -- the w bytes from byte place k of record i are the number v
        let has (k w v : Nat) : Prop := v < 256 ^ w → (bytes.drop (j * shape.2 + k)).take w = be w v
        let bits (l : List Bool) : Nat := l.foldr (fun b a => (if b then 1 else 0) + 2 * a) 0
        let ago (t : Option Nat) : Nat := (t.map (fun a => s.now - a)).getD 0xFFFFFFFF
        let left (t : Option Nat) : Nat := (t.map (fun a => a - s.now)).getD 0xFFFFFFFF
        let batch := s.ep.batch.getD Staging.empty
        let reserved := (s.row i).sup.reservation
        (table.toNat = 2 → s.rowOk i = true →
          let x := s.row i
          let edits (p : RowStage → Bool) : Bool := p (s.ep.staging.rows.get i) || p (batch.rows.get i)
          has 0 2 (x.cfg.node.getD 0) ∧ has 2 2 x.cfg.lane ∧ has 4 2 x.cfg.slot ∧ has 6 2 x.cfg.iref ∧
          has 8 2 x.cfg.prated ∧ has 10 2 x.cfg.length ∧ has 12 2 (x.cfg.sDue.getD 0xFFFF) ∧
          has 14 1 (bits [edits (fun g => g.iref.isSome), edits (fun g => g.prated.isSome), edits (fun g => g.length.isSome),
            edits (fun g => g.sDue.isSome)]) ∧
          has 15 1 (match x.sup.demand with | .track => 0 | .level => 1 | .stow => 2) ∧
          has 16 1 (match x.sup.reported with
            | some .tracking => 0 | some .level => 1 | some .stowed => 2 | some .moving => 3 | none => 0xFF) ∧
          has 17 1 (bits [x.sup.stowClaim, x.sup.orderPending, x.sup.resync, x.sup.pinned, x.sup.levelFault,
            x.soil.capture]) ∧
          has 18 1 (x.sup.levelClaim.getD 0xFF) ∧ has 19 1 (x.sup.occupant.getD 0xFF) ∧
          has 20 1 ((reserved.map (fun v => v.robot)).getD 0xFF) ∧ has 21 1 ((reserved.bind (fun v => v.cart)).getD 0xFF) ∧
          has 22 2 x.soil.s ∧ has 24 2 (x.soil.b.getD 0) ∧ has 26 2 (x.soil.sPre.getD 0xFFFF) ∧
          (∀ a, x.soil.cleaned = some a → has 28 4 a) ∧ has 32 1 (bits [x.soil.cleaned.isSome])) ∧
        (table.toNat = 3 → s.robotOk i = true →
          let k := s.robot i
          let a := k.asg
          has 0 2 (k.node.getD 0) ∧ has 2 2 k.lane ∧
          has 4 1 (match k.state with
            | .unknown => 0 | .docked => 1 | .onRow => 2 | .aboard => 3 | .offline => 4 | .stranded => 5 | .faulted => 6) ∧
          has 5 1 (match k.pos with | some (.dock _) => 0 | some (.row _) => 1 | some (.cart _) => 2 | none => 0xFF) ∧
          has 6 2 (match k.pos with | some (.dock r) => r | some (.row r) => r | some (.cart c) => c | none => 0xFFFF) ∧
          has 8 1 (match k.activity with
            | some .idle => 0 | some .cleaning => 1 | some .returning => 2 | some .boarding => 3 | some .aboard => 4
            | some .alighting => 5 | none => 0xFF) ∧
          has 9 2 k.charge ∧ has 11 2 k.metres ∧ has 13 1 k.fault ∧ has 14 4 (ago k.heard) ∧
          has 18 1 (bits [decide (k.ctrl = .manual), k.stranded, k.park.isSome]) ∧
          has 19 2 ((a.map (fun a => a.row)).getD 0xFFFF) ∧
          (∀ b, a = some b → has 21 1 (match b.phase with | .leveling => 0 | .setup => 1 | .running => 2)) ∧
          has 22 1 (bits [a.any (fun a => a.heavy), a.any (fun a => a.abandoned), a.any (fun a => a.held)]) ∧
          has 23 4 (left (a.bind (fun a => a.deadline))) ∧
          has 27 1 (match k.link with | some (.cart c) => c | some .queued => 0xFE | none => 0xFF)) ∧
        (table.toNat = 4 → s.cartOk i = true →
          let k := s.cart i
          has 0 2 (k.node.getD 0) ∧ has 2 2 k.lane ∧ has 4 2 k.garage ∧
          has 6 1 (match k.state with
            | .unknown => 0 | .garaged => 1 | .idle => 2 | .busy => 3 | .recover => 4 | .faulted => 5) ∧
          has 7 1 k.slot ∧ has 8 1 (if k.moving then 1 else 0) ∧ has 9 1 (if k.garaged then 1 else 0) ∧
          has 10 1 (k.load.getD 0xFF) ∧ has 11 1 k.fault ∧ has 12 4 (ago k.heard) ∧
          has 16 1 (bits [k.recover, k.hold.isSome, k.transfer.isSome, k.lastTransfer.isSome]) ∧
          (∀ f, k.transfer = some f →
            has 17 1 f.robot ∧ has 18 2 f.origin ∧ has 20 2 f.dest ∧
            has 22 1 (match f.purpose with | .round => 0 | .park => 1) ∧
            has 23 1 ((match f.phase with | .approach => 0 | .boarding => 1 | .travel => 2 | .alighting => 3) +
              (if f.entered then 0x80 else 0)) ∧
            has 24 1 (if f.stalled then 3 else 0) ∧ has 25 4 (left f.deadline)) ∧
          (k.transfer = none →
            has 17 1 ((k.lastTransfer.map (fun l => l.robot)).getD 0xFF) ∧ has 18 2 0xFFFF ∧
            has 20 2 ((k.lastTransfer.map (fun l => l.dest)).getD 0xFFFF) ∧ has 22 1 0xFF ∧ has 23 1 0xFF ∧
            has 24 1 (match k.lastTransfer.bind (fun l => l.outcome) with
              | none => 0 | some .done => 1 | some .failed => 2 | some .stalled => 3 | some .withdrawn => 4) ∧
            has 25 4 0xFFFFFFFF)) ∧
        (table.toNat = 5 → (s.mast i).node.isSome = true →
          let k := s.mast i
          let heard := k.heard.any (fun h => decide (s.now < h + s.par .mastSilence))
          has 0 2 (k.node.getD 0) ∧ has 2 1 (if k.ref then 1 else 0) ∧
          has 3 2 ((k.irr.map (fun g => g.value)).getD 0xFFFF) ∧ has 5 4 (ago (k.irr.map (fun g => g.time))) ∧
          has 9 2 (k.gust.getD 0xFFFF) ∧ has 11 2 (k.mean.getD 0xFFFF) ∧ has 13 4 (ago k.heard) ∧
          has 17 1 (bits [k.irr.any (fun g => decide (s.now ≤ g.time + s.par .mastStale)), heard,
            heard && k.gust.isSome])) ∧
        (table.toNat = 6 → ∀ p : Param, p.info.index = i →
          has 0 4 (s.par p) ∧
          has 4 1 (bits [(s.ep.staging.params.get i).isSome || (batch.params.get i).isSome])) ∧
        (table.toNat = 7 →
          let f := s.ctl.fwd
          has 0 1 (match (match i with | 0 => f.row | 1 => f.robot | 2 => f.cart | _ => f.mast) with
            | .all => 0 | .none => 1 | .exceptions => 2)) ∧
        (table.toNat = 8 → ∀ m, m < 15 → has m 1 (if s.ctl.policy.get (15 * i + m) then 1 else 0)) ∧
        (table.toNat = 16 →
          let e := s.ep.epoch
          has 0 1 (if s.running then 1 else 0) ∧ has 1 3 s.ntc.latched.toNat ∧ has 4 3 s.ntc.risen.toNat ∧
          has 7 3 s.ntc.mask.toNat ∧
          has 10 1 (bits [s.ntc.owed, s.stm.advisory.isSome, s.clk.set, e.isSome, s.ep.held.isSome, s.yld.walk.isSome,
            s.ep.batch.isSome, s.dsp.wait.isSome]) ∧
          has 11 1 (match s.stm.state with
            | .calm => 0 | .watch => 1 | .park => 2 | .secured => 3 | .lockout => 4 | .release => 5) ∧
          has 12 1 ((if s.rnd.isOpen then 0x80 else 0) + (match s.rnd.reason with
            | some .window => 0 | some .light => 1 | some .storm => 2 | some .disabled => 3 | some .clock => 4
            | none => 7)) ∧
          (∀ a, s.stm.advisory = some a → has 13 4 a.parkEntry) ∧ has 17 4 s.clk.clock ∧ has 21 3 (s.clk.clock % 86400) ∧
          has 24 4 s.clk.mono ∧ (∀ p, e = some p → has 28 4 p.startPlant ∧ has 32 4 (p.nominalEnd % 4294967296)) ∧
          has 36 2 ((s.yld.walk.map (fun w => w.cursor)).getD 0xFFFF) ∧ has 38 2 s.ep.staging.entries ∧
          has 40 4 s.ep.acc.walks ∧ has 44 1 s.dsp.urgent.length ∧ has 45 2 s.dsp.routine.length ∧
          has 47 1 (match s.dsp.group with
            | some ⟨_, .round, _⟩ => 0 | some ⟨_, .transfer, _⟩ => 1 | some ⟨_, .storm, _⟩ => 2 | some ⟨_, .row, _⟩ => 3
            | some ⟨_, .supervisor, _⟩ => 4 | none => 0xFF) ∧
          (∀ w, s.dsp.wait = some w → has 48 2 (min (s.now - w.start) 65535)) ∧ has 50 1 s.up.queue.length) ∧
        (table.toNat = 18 →
          let e := s.rnd.due[i]?
          has 0 2 ((e.map (fun e => e.row)).getD 0xFFFF) ∧ (∀ d, e = some d → has 2 2 d.u ∧ has 4 4 d.since) ∧
          has 8 1 ((e.bind (fun e => e.claimant)).getD 0xFF)) ∧
        (table.toNat = 19 →
          let e := (s.lane (i / 16))[i % 16]?
          has 0 1 ((e.map (fun e => e.robot)).getD 0xFF) ∧ has 1 2 ((e.map (fun e => e.origin)).getD 0xFFFF) ∧
          has 3 2 ((e.map (fun e => e.dest)).getD 0xFFFF) ∧ has 5 4 (ago (e.map (fun e => e.time))) ∧
          (∀ d, e = some d → has 9 1 (match d.purpose with | .round => 0 | .park => 1))) ∧
        (table.toNat = 20 →
          let e := (s.robot i).park
          has 0 1 (if e.isSome then 1 else 0) ∧
          (∀ d, e = some d → has 1 1 (match d.order with | .hold => 0 | .abort => 1 | .via => 2)) ∧
          has 2 4 (ago (e.bind (fun e => e.last)))) ∧
        (table.toNat = 21 →
          let e := (s.cart i).garageEntry
          has 0 1 (if e.isSome then 1 else 0) ∧ has 1 4 (ago (e.bind (fun e => e.last)))) ∧
        (table.toNat = 22 → s.rowOk i = true →
          let e := (s.row i).rel
          has 0 1 (if e.isSome then 1 else 0) ∧ (∀ d, e = some d → has 1 1 d.count) ∧
          has 2 4 (left (e.bind (fun e => e.deadline)))) ∧
        (table.toNat = 23 → s.rowOk i = true →
          let bank (k : Nat) (b : Option Bank) : Prop :=
            (∀ a, b = some a → has k 4 a.ratioSum ∧ has (k + 4) 2 a.valid ∧ has (k + 6) 2 a.stale ∧
              has (k + 8) 1 (bits [a.disturbed, a.broken, a.staged] + 0x80)) ∧
            (b = none → has (k + 8) 1 0)
          bank 0 (s.row i).banks.opened ∧ bank 9 (s.row i).banks.closing) ∧
        (table.toNat = 24 →
          let m := s.stm
          let run (a : Option Nat) (p : Param) : Nat := (a.map (fun a => a + s.par p - s.now)).getD 0xFFFFFFFF
          has 0 1 (bits [s.rnd.openedAt.isSome, m.gust.isSome, s.siteG.isSome]) ∧
          (∀ a, s.rnd.openedAt = some a → has 1 4 a) ∧ (∀ a, m.gust = some a → has 5 2 a) ∧
          (∀ a, s.siteG = some a → has 7 2 a) ∧ has 9 4 (run m.watchT .watchDebounce) ∧
          has 13 4 (run m.parkT .parkDebounce) ∧ has 17 4 (run m.calmT .calmHold) ∧
          has 21 4 (run m.releaseT .releaseHold) ∧ has 25 4 (run m.lockoutT .lockoutHold) ∧
          has 29 1 (match s.swp.mode with | .off => 0 | .park => 1 | .lockout => 2) ∧
          (s.swp.mode ≠ .off → (∀ r, s.rowOk r = true → r < s.swp.cursor) → has 30 2 0xFFFF) ∧
          (s.swp.mode ≠ .off → (∃ r, s.rowOk r = true ∧ s.swp.cursor ≤ r) → has 30 2 s.swp.cursor) ∧
          has 32 1 s.sweepWaiting ∧ (∀ b, s.yld.openSite = some b → has 33 4 b.sum ∧ has 37 2 b.count) ∧
          (∀ b, s.yld.closingSite = some b → has 39 4 b.sum ∧ has 43 2 b.count)))

/-- R38, R39: a well-formed ORDER joins the routine queue as a group of one of the supervisor, and is answered ACCEPTED, or
QUEUE_FULL without room. In RUNNING it is refused first, in this order, for its destination or parameters, by the storm's
fixed drops, by the order policy, and for work in hand. Nothing else changes. -/
def Obligations.OrderRequests : Prop :=
  ∀ (q : Req) (dest : Half) (cls : Byte) (payload : List Byte) (o : Order) (s : State),
    q.dst.toNat = s.ctl.part.uplink → Order.ofWire cls.toNat payload = some o →
    let refuse (c : Code) : State := reply q 0x43 0 c [] s
    let pass : State :=
      if s.dsp.routine.length < 256 then
        reply q 0x43 0 .accepted [] (noteQueues { s with dsp := { s.dsp with
          routine := s.dsp.routine ++ [⟨dest.toNat, o, s.dsp.nextTag, true, .supervisor⟩]
          nextTag := s.dsp.nextTag + 1 } })
      else refuse .queueFull
    let busy (n : NodeId) : Prop := match n.kind with
      | .robot =>
        (s.robot n.index).ctrl = .auto ∧ ((s.robot n.index).asg.isSome = true ∨ (s.robot n.index).link.isSome = true)
      | .cart =>
        (s.cart n.index).transfer.isSome = true ∧ (o.kind = .cartFetch ∨ o.kind = .cartCarry ∨ o.kind = .cartGarage)
      | .row => (s.row n.index).sup.levelClaim.isSome = true ∧ (o.kind = .rowLevel ∨ o.kind = .rowRelease)
      | .mast => False
    (s.running = false → exec (.order q dest cls payload) s = .next pass) ∧
    (s.running = true →
      (s.nodeAt dest.toNat = none → exec (.order q dest cls payload) s = .next (refuse .badIndex)) ∧
      ∀ n, s.nodeAt dest.toNat = some n →
        let bad := n.kind ≠ o.kind.target ∨ o.encodable = false
        let dropped := s.stm.state.stormy = true ∧ o.kind.fixedDrop = true ∨
          s.ctl.policy.get (15 * s.stm.state.idx + o.kind.idx) = true
        (bad → exec (.order q dest cls payload) s = .next (refuse .badIndex)) ∧
        (¬bad → dropped → exec (.order q dest cls payload) s = .next (refuse .refusedState)) ∧
        (¬bad → ¬dropped → busy n → exec (.order q dest cls payload) s = .next (refuse .busy)) ∧
        (¬bad → ¬dropped → ¬busy n → exec (.order q dest cls payload) s = .next pass))

/-! ### Modes, clock, reset -/

/-- R161, R162: COMMIT is refused REFUSED_STATE in RUNNING. In UNCONFIGURED the seven checks are made in R162's order: where
check n fails and the checks before it pass, the answer is CHECK_FAILED with the number n and the first record that fails it,
taken as rows, robots, carts, then masts, each by index, or the lowest lane (that checks 2 and 3 name the later of two at its
first occurrence, and what checks 6 and 7 name, is log 32), and nothing changes. No check fails exactly where commitFault is
none, which CommitEnters starts from. -/
def Obligations.CommitChecks : Prop :=
  ∀ (q : Req) (s : State), q.dst.toNat = s.ctl.part.uplink →
    let addr (n : NodeId) : Option Nat := match n.kind with
      | .row => (s.row n.index).cfg.node
      | .robot => (s.robot n.index).node
      | .cart => (s.cart n.index).node
      | .mast => (s.mast n.index).node
    let cell (r : Nat) : Nat × Nat := ((s.row r).cfg.lane, (s.row r).cfg.slot)
    let barren (l : Nat) : Prop := (∃ x, s.robotOk x = true ∧ (s.robot x).lane = l) ∧
      ∀ c, s.cartOk c = true → (s.cart c).lane ≠ l
    let kindOf (k : NodeKind) : Nat := match k with | .row => 1 | .robot => 2 | .cart => 3 | .mast => 4
    let passes (n : Nat) : Prop := match n with
      | 1 => (∀ r, s.rowOk r = true → (s.row r).cfg.lane < 8) ∧ (∀ x, s.robotOk x = true → (s.robot x).lane < 8) ∧
        ∀ c, s.cartOk c = true → (s.cart c).lane < 8
      | 2 => (∀ r, s.rowOk r = true → (s.row r).cfg.slot ≤ 255) ∧
        ∀ r p, s.rowOk r = true → s.rowOk p = true → cell r = cell p → r = p
      | 3 => (∀ n a, addr n = some a → a ≠ 0xFFFF ∧ a ≠ s.ctl.part.field) ∧
        ∀ n m a, addr n = some a → addr m = some a → n = m
      | 4 => ∀ l, l < 8 → ¬barren l
      | 5 => ∀ c, s.cartOk c = true → (s.cart c).garage ≤ 255
      | 6 => s.par .releaseGust < s.par .watchGust ∧ s.par .watchGust < s.par .parkGust ∧
        s.par .parkGust < s.par .lockoutGust
      | _ => 86400 % s.par .epochS = 0
    -- a record of kind k and index i that fails check n
    let fails (n k i : Nat) : Prop := match n with
      | 1 => k = 1 ∧ s.rowOk i = true ∧ 8 ≤ (s.row i).cfg.lane ∨ k = 2 ∧ s.robotOk i = true ∧ 8 ≤ (s.robot i).lane ∨
        k = 3 ∧ s.cartOk i = true ∧ 8 ≤ (s.cart i).lane
      | 2 => k = 1 ∧ s.rowOk i = true ∧ (255 < (s.row i).cfg.slot ∨ ∃ r, r < i ∧ s.rowOk r = true ∧ cell r = cell i)
      | 3 => ∃ n a, k = kindOf n.kind ∧ i = n.index ∧ addr n = some a ∧
        (a = 0xFFFF ∨ a = s.ctl.part.field ∨ ∃ m, addr m = some a ∧
          (kindOf m.kind < kindOf n.kind ∨ m.kind = n.kind ∧ m.index < n.index))
      | 4 => k = 5 ∧ i < 8 ∧ barren i
      | 5 => k = 3 ∧ s.cartOk i = true ∧ 255 < (s.cart i).garage
      | _ => k = 0 ∧ i = 0xFFFF
    (s.running = true → exec (.commit q) s = .next (replyCtl q 1 .refusedState [] s)) ∧
    (∀ n, s.running = false → 1 ≤ n → n ≤ 7 → ¬passes n → (∀ m, 1 ≤ m → m < n → passes m) →
      ∃ k i, fails n k i ∧ (∀ j p, fails n j p → k < j ∨ k = j ∧ i ≤ p) ∧
        exec (.commit q) s = .next (replyCtl q 1 .checkFailed (be 1 n ++ be 1 k ++ be 2 i) s)) ∧
    ((∀ n, 1 ≤ n → n ≤ 7 → passes n) ↔ s.commitFault = none)

/-- R2, R5, R14, R22, R47, R54, R56, R91, R126, R127, R130, R163: entering RUNNING with a mast configured. With none, the
mast silence event follows at once (R128). -/
def Obligations.CommitEnters : Prop :=
  ∀ (q : Req) (s : State), q.dst.toNat = s.ctl.part.uplink → s.running = false → s.commitFault = none →
    let addr (n : NodeId) : Option Nat := match n.kind with
      | .row => (s.row n.index).cfg.node
      | .robot => (s.robot n.index).node
      | .cart => (s.cart n.index).node
      | .mast => (s.mast n.index).node
    ∃ u, exec (.commit q) s = .next (replyCtl q 1 .accepted [] u) ∧
      u.ctl = { s.ctl with mode := .running } ∧ u.clk = s.clk ∧ u.pending = s.pending ∧ u.up.air = s.up.air ∧
      u.ep = ⟨if s.clk.set then some ⟨s.clk.clock, s.clk.mono, nominalEnd s.clk.clock (s.par .epochS), false⟩ else none,
        none, Staging.empty, none, Accum.zero⟩ ∧
      (∀ a n, u.nodeAt a = some n ↔ addr n = some a) ∧
      (∀ r, (u.row r).cfg = (s.row r).cfg ∧ (u.row r).soil = (s.row r).soil ∧ (u.row r).acct = (s.row r).acct) ∧
      u.rnd.isOpen = false ∧ u.rnd.openedAt = s.rnd.openedAt ∧ u.stm.gust = none ∧ u.stm.advisory = none ∧
      ((∃ m, (s.mast m).node.isSome = true) →
        u.stm = ⟨.watch, none, none, none, none, none, none, none, false⟩ ∧ u.swp = ⟨.off, 0⟩ ∧ u.ntc = s.ntc ∧
        u.up = s.up ∧ u.dsp.urgent = s.dsp.urgent ∧ u.dsp.routine = s.dsp.routine ∧ u.dsp.group = none ∧
        u.rnd.reason = s.rnd.reason ∧ (∀ l, u.lane l = []) ∧
        (∀ r, s.rowOk r = true →
          (u.row r).sup = { RowSup.powerOn with reported := (s.row r).sup.reported, resync := true } ∧
          (u.row r).stow = Stow.unreached ∧ (u.row r).rel = none ∧
          (s.clk.set = true → (u.row r).banks.opened = some (Bank.fresh false false))) ∧
        (∀ x, s.robotOk x = true →
          u.robot x = { Robot.fresh (s.robot x).node (s.robot x).lane with heard := some s.now }) ∧
        (∀ c, s.cartOk c = true → u.cart c = { s.cart c with
          state := .unknown, load := none, recover := false, heard := some s.now, transfer := none, hold := none
          garageEntry := none }) ∧
        (∀ m, (s.mast m).node.isSome = true → u.mast m = { s.mast m with
          gust := none, mean := none, heard := some s.now
          irr := if (s.mast m).ref then (s.mast m).irr else none }) ∧
        (∀ e ∈ u.rnd.due, s.judge e.row = .due e.u ∧ e.since = s.clk.clock ∧ e.claimant = none) ∧
        (∀ r w, s.judge r = .due w → ∃ e ∈ u.rnd.due, e.row = r)) ∧
      ((∀ m, (s.mast m).node = none) →
        (u.stm.state = .park ∨ u.stm.state = .secured) ∧ hasFlag u.ntc.latched .mastSilent = true ∧
        hasFlag u.ntc.latched .stormState = true)

/-- R164: DECOMMIT in RUNNING is refused BUSY in a storm state or while a robot holds an assignment or transfer link;
otherwise the part leaves RUNNING with the staged values applied (R54) and the records of R5, R14, R22, R61, R106, R126,
R130 as stated. -/
def Obligations.DecommitLeaves : Prop :=
  ∀ (q : Req) (s : State), q.dst.toNat = s.ctl.part.uplink → s.running = true →
    let busy := s.stm.state.stormy = true ∨ ∃ x, (s.robot x).asg.isSome = true ∨ (s.robot x).link.isSome = true
    let batch := s.ep.batch.getD Staging.empty
    (busy → exec (.decommit q) s = .next (replyCtl q 2 .busy [] s)) ∧
    (¬busy → ∃ u, exec (.decommit q) s = .next (replyCtl q 2 .accepted [] u) ∧
      u.ctl.mode = .unconfigured ∧ u.ctl.part = s.ctl.part ∧ u.ctl.fwd = s.ctl.fwd ∧ u.ctl.policy = s.ctl.policy ∧
      u.clk = s.clk ∧ u.ntc = s.ntc ∧ u.up = s.up ∧ u.masts = s.masts ∧ u.pending = s.pending ∧
      (∀ p : Param, u.par p =
        (s.ep.staging.params.get p.info.index).getD ((batch.params.get p.info.index).getD (s.par p))) ∧
      u.lookup = [] ∧ u.ep = ⟨none, none, Staging.empty, none, Accum.zero⟩ ∧ u.yld = ⟨none, none, none⟩ ∧
      u.rnd = ⟨false, s.rnd.openedAt, s.rnd.reason, []⟩ ∧ (∀ l, u.lane l = []) ∧
      u.stm = ⟨.calm, none, none, none, none, none, none, none, false⟩ ∧ u.swp = ⟨.off, 0⟩ ∧
      u.dsp.urgent = s.dsp.urgent.filter (fun e => decide (e.owner = .supervisor)) ∧
      u.dsp.routine = s.dsp.routine.filter (fun e => decide (e.owner = .supervisor)) ∧ u.dsp.group = none ∧
      u.dsp.air = s.dsp.air.map (fun f => { f with handOn := false }) ∧
      (∀ r, (u.row r).cfg = (s.ep.staging.rows.get r).apply ((batch.rows.get r).apply (s.row r).cfg) ∧
        (u.row r).soil = (s.row r).soil ∧ (u.row r).acct = (s.row r).acct ∧
        (u.row r).sup = { RowSup.powerOn with reported := (s.row r).sup.reported } ∧
        (u.row r).stow = Stow.unreached ∧ (u.row r).rel = none ∧ (u.row r).banks = ⟨none, none⟩) ∧
      (∀ x, u.robot x = Robot.fresh (s.robot x).node (s.robot x).lane) ∧
      (∀ c, u.cart c = { Cart.fresh (s.cart c).node (s.cart c).lane (s.cart c).garage with
        lastTransfer := (s.cart c).lastTransfer }))

/-- R46 (the end time of an epoch that TIME SET closes is the new plant time, log 10; its banks are handed over before the
clock-step event, so that a dispatch of a round opened by it disturbs none of them: the model's choice, log 62; R48): TIME
SET loads the clock, latches CLOCK_STEP and is answered ACCEPTED. In UNCONFIGURED nothing more follows. In RUNNING it opens the first epoch, or closes the open one site-void, or marks it site-void behind a walk in flight; the
round and a due advisory are judged again (R87, R151). -/
def Obligations.TimeSetTaken : Prop :=
  ∀ (q : Req) (time : Quad) (s : State), q.dst.toNat = s.ctl.part.uplink →
    let t : State := { s with clk := ⟨s.clk.mono, time.toNat, true⟩ }
    (s.running = false → exec (.timeSet q time) s = .next (replyCtl q 3 .accepted [] (latch .clockStep t))) ∧
    (s.running = true → ∃ u, exec (.timeSet q time) s = .next (replyCtl q 3 .accepted [] u) ∧
      u.clk = ⟨s.clk.mono, time.toNat, true⟩ ∧ hasFlag u.ntc.latched .clockStep = true ∧ FlagsKept s u ∧ LinksKept s u ∧
      (s.ep.epoch = none →
        u.ep = { s.ep with epoch := some ⟨time.toNat, s.clk.mono, nominalEnd time.toNat (s.par .epochS), false⟩ } ∧
        u.yld.openSite = some ⟨0, 0⟩ ∧ u.yld.walk = s.yld.walk ∧
        ∀ r, s.rowOk r = true → ∃ b, (u.row r).banks.opened = some b ∧ b.core = (Bank.fresh true false).core) ∧
      (∀ e, s.ep.epoch = some e → s.yld.walk = none →
        Swapped t u e true ∧ hasFlag u.ntc.latched .epochVoid = true ∧ u.ep.staging = Staging.empty) ∧
      (∀ e w, s.ep.epoch = some e → s.yld.walk = some w →
        u.ep.epoch = some { e with voidMark := true } ∧ u.ep.held.isSome = true ∧ u.yld = s.yld) ∧
      (∀ r, (u.row r).cfg = (s.row r).cfg ∧ (u.row r).soil = (s.row r).soil ∧ (u.row r).acct = (s.row r).acct) ∧
      (∀ x, RobotKept (s.robot x) (u.robot x)) ∧ (∀ c, CartKept (s.cart c) (u.cart c)) ∧ u.masts = s.masts ∧
      (s.stm.advisory = none → u.rnd.isOpen = u.roundCondition ∧ ∀ x, RobotStill (s.robot x) (u.robot x)) ∧
      (∀ a, s.stm.advisory = some a → a.parkEntry ≤ time.toNat →
        u.stm.advisory = none ∧ (u.stm.state = .park ∨ u.stm.state = .secured ∨ u.stm.state = .lockout)) ∧
      (∀ a, s.stm.advisory = some a → time.toNat < a.parkEntry → u.stm.advisory = some a))

/-- R55: CLOSE NOW is refused without an open epoch, behind a held close, and in an epoch's first 60 s; otherwise it raises
a boundary, answered with the end time and the length, and swaps at once, taking the staging store (R53), or is held behind a
walk in flight (R48 to R50). -/
def Obligations.CloseNowTaken : Prop :=
  ∀ (q : Req) (s : State), q.dst.toNat = s.ctl.part.uplink → s.running = true →
    (s.ep.epoch = none → exec (.closeNow q) s = .next (replyCtl q 11 .refusedState [] s)) ∧
    ∀ e, s.ep.epoch = some e →
      (s.ep.held.isSome = true → exec (.closeNow q) s = .next (replyCtl q 11 .busy [] s)) ∧
      (s.ep.held = none → s.clk.mono - e.startMono < 60 →
        exec (.closeNow q) s = .next (replyCtl q 11 .tooEarly [] s)) ∧
      (s.ep.held = none → 60 ≤ s.clk.mono - e.startMono → ∃ u,
        exec (.closeNow q) s =
          .next (replyCtl q 11 .accepted (be 4 s.clk.clock ++ be 4 (s.clk.mono - e.startMono)) u) ∧
        (s.yld.walk = none → Swapped s u e e.voidMark ∧ SwapTakes s u) ∧
        (s.yld.walk.isSome = true → u.ep = { s.ep with held := some ⟨false⟩ } ∧ u.yld = s.yld ∧
          ∀ r, RowKept (s.row r) (u.row r)) ∧
        (∀ r, (u.row r).cfg = (s.row r).cfg ∧ (u.row r).soil = (s.row r).soil ∧ (u.row r).acct = (s.row r).acct ∧
          (u.row r).sup.occupant = (s.row r).sup.occupant ∧ (u.row r).sup.reported = (s.row r).sup.reported) ∧
        (∀ x, RobotStill (s.robot x) (u.robot x)) ∧
        (∀ c, CartKept (s.cart c) (u.cart c) ∧ (u.cart c).load = (s.cart c).load) ∧
        u.clk = s.clk ∧ u.lookup = s.lookup ∧ u.masts = s.masts ∧ u.pending = s.pending ∧ LinksKept s u ∧ FlagsKept s u ∧
        WindKept s u)

/-- R168: RESET RUN is answered ACCEPTED. In UNCONFIGURED it empties the order queues and does nothing else. In RUNNING it
restarts every owner, keeps configuration, accounts, soiling records, staging store and accumulators, and closes the epoch
of a set clock site-void (R58): a close already held is taken as this one (log 11). A frame on the field link is finished
and not handed on (log 9). Stated with a mast configured: with none the mast silence event follows at once (R128). -/
def Obligations.ResetRunTaken : Prop :=
  ∀ (q : Req) (s : State), q.dst.toNat = s.ctl.part.uplink →
    let cleared : Dispatcher := { s.dsp with
      urgent := [], routine := [], group := none, air := s.dsp.air.map (fun f => { f with handOn := false }), rx := [] }
    (s.running = false →
      exec (.resetRun q) s = .next (replyCtl q 13 .accepted [] (noteQueues { s with dsp := cleared }))) ∧
    (s.running = true → (∃ m, (s.mast m).node.isSome = true) →
      ∃ u, exec (.resetRun q) s = .next (replyCtl q 13 .accepted [] u) ∧
        u.ctl = s.ctl ∧ u.clk = s.clk ∧ u.lookup = s.lookup ∧ u.pending = s.pending ∧ u.up.air = s.up.air ∧
        u.dsp.urgent = [] ∧ u.dsp.routine = [] ∧ u.dsp.group = none ∧ u.dsp.air = cleared.air ∧
        u.ep.staging = s.ep.staging ∧ u.ep.acc = s.ep.acc ∧ FlagsKept s u ∧
        u.stm = ⟨.watch, none, none, none, none, none, none, none, false⟩ ∧ u.swp = ⟨.off, 0⟩ ∧
        u.rnd.isOpen = false ∧ u.rnd.openedAt = s.rnd.openedAt ∧ u.rnd.reason = s.rnd.reason ∧ (∀ l, u.lane l = []) ∧
        (∀ r, (u.row r).cfg = (s.row r).cfg ∧ (u.row r).soil = (s.row r).soil ∧ (u.row r).acct = (s.row r).acct) ∧
        (∀ r, s.rowOk r = true →
          (u.row r).sup = { RowSup.powerOn with reported := (s.row r).sup.reported, resync := true } ∧
          (u.row r).stow = Stow.unreached ∧ (u.row r).rel = none) ∧
        (∀ x, s.robotOk x = true →
          u.robot x = { Robot.fresh (s.robot x).node (s.robot x).lane with heard := some s.now }) ∧
        (∀ c, s.cartOk c = true → u.cart c = { s.cart c with
          state := .unknown, load := none, recover := false, heard := some s.now, transfer := none, hold := none
          garageEntry := none }) ∧
        (∀ m, (s.mast m).node.isSome = true → u.mast m = { s.mast m with
          gust := none, mean := none, heard := some s.now }) ∧
        (∀ e ∈ u.rnd.due, s.judge e.row = .due e.u ∧ e.since = s.clk.clock ∧ e.claimant = none) ∧
        (∀ r w, s.judge r = .due w → ∃ e ∈ u.rnd.due, e.row = r) ∧
        (s.clk.set = false → u.ep = s.ep ∧ u.yld = s.yld) ∧
        (∀ e, s.clk.set = true → s.ep.epoch = some e → s.yld.walk = none →
          Swapped s u e true ∧ hasFlag u.ntc.latched .epochVoid = true) ∧
        (∀ e w, s.clk.set = true → s.ep.epoch = some e → s.yld.walk = some w →
          u.ep = { s.ep with held := some ⟨true⟩, epoch := some { e with voidMark := true } } ∧ u.yld = s.yld))

/-! ### Requests of storm, robots, transfers, accounts, notices -/

/-- R135 to R147, R152 (bits 3 to 7 taken as clear, and the flag on refused answers: log 43): STORM FORCE acts on the highest
flag set, and its answer names it: LOCKOUT enters LOCKOUT or restarts its timer;
PARK enters PARK from CALM, WATCH and RELEASE, is refused in LOCKOUT, and changes nothing in PARK and SECURED; RELEASE
leaves PARK or SECURED unless the site gust is windy, changes nothing in RELEASE, and is refused elsewhere. What the entries
do is in ParkEntered, LockoutEntered and ReleaseEntered.
In a park entry a robot ABOARD is listed via transfer whatever its transfer (the model's choice, log 66). -/
def Obligations.StormForceTaken : Prop :=
  ∀ (q : Req) (flags : Byte) (s : State), q.dst.toNat = s.ctl.part.uplink → s.running = true → SecuredLaw s →
    let answered (f : Nat) (c : Code) (u : State) : Prop :=
      exec (.stormForce q flags) s = .next (replyCtl q 4 c (be 1 f) u)
    let windy := ∃ g, s.stm.gust = some g ∧ s.par .releaseGust ≤ g
    (flags.getLsbD 2 = true → ∃ u, answered 3 .accepted u ∧ StormFrame s u ∧ u.stm.state = .lockout ∧
      u.stm.lockoutT = some s.now ∧
      (s.stm.state ≠ .lockout → hasFlag u.ntc.latched .stormState = true ∧ LockoutEntered s u) ∧
      (s.stm.state = .lockout → u = noteQueues (s.setStm (fun m => { m with lockoutT := some s.now })))) ∧
    (flags.getLsbD 2 = false → flags.getLsbD 1 = true →
      (s.stm.state = .lockout → answered 2 .refusedState (noteQueues s)) ∧
      (s.stm.state = .park ∨ s.stm.state = .secured → answered 2 .accepted (noteQueues s)) ∧
      (s.stm.state = .calm ∨ s.stm.state = .watch ∨ s.stm.state = .release → ∃ u, answered 2 .accepted u ∧
        StormFrame s u ∧ (u.stm.state = .park ∨ u.stm.state = .secured) ∧ ParkEntered s u ∧
        hasFlag u.ntc.latched .stormState = true)) ∧
    (flags.getLsbD 2 = false → flags.getLsbD 1 = false → flags.getLsbD 0 = true →
      (s.stm.state = .park ∨ s.stm.state = .secured → windy → answered 1 .windy (noteQueues s)) ∧
      (s.stm.state = .park ∨ s.stm.state = .secured → ¬windy → ∃ u, answered 1 .accepted u ∧ Frame s u ∧
        ReleaseEntered s u ∧ hasFlag u.ntc.latched .stormState = true) ∧
      (s.stm.state = .release → answered 1 .accepted (noteQueues s)) ∧
      (s.stm.state = .calm ∨ s.stm.state = .watch ∨ s.stm.state = .lockout →
        answered 1 .refusedState (noteQueues s))) ∧
    (flags.getLsbD 2 = false → flags.getLsbD 1 = false → flags.getLsbD 0 = false → answered 0 .accepted (noteQueues s))

/-- R150, R151: STORM ADVISORY is refused while the clock is unset; otherwise it replaces the advisory with its park entry
time, and one already reached is consumed as a park cause. ADVISORY CANCEL removes the advisory.
In a park entry a robot ABOARD is listed via transfer whatever its transfer (the model's choice, log 66). -/
def Obligations.AdvisoryRequests : Prop :=
  ∀ (q : Req) (s : State), q.dst.toNat = s.ctl.part.uplink → s.running = true →
    (∀ arrival : Quad,
      let p := arrival.toNat - s.par .parkLead
      let t := s.setStm (fun m => { m with advisory := some ⟨arrival.toNat, p⟩ })
      (s.clk.set = false → exec (.stormAdvisory q arrival) s = .next (replyCtl q 5 .refusedState [] s)) ∧
      (s.clk.set = true → s.clk.clock < p → SecuredLaw s →
        exec (.stormAdvisory q arrival) s = .next (replyCtl q 5 .accepted [] (noteQueues t))) ∧
      (s.clk.set = true → p ≤ s.clk.clock → ∃ u,
        exec (.stormAdvisory q arrival) s = .next (replyCtl q 5 .accepted [] u) ∧
        StormFrame (s.setStm (fun m => { m with advisory := none })) u ∧
        (s.stm.state = .lockout → u.stm.state = .lockout) ∧
        (s.stm.state ≠ .lockout → u.stm.state = .park ∨ u.stm.state = .secured) ∧
        (s.stm.state = .calm ∨ s.stm.state = .watch ∨ s.stm.state = .release →
          ParkEntered s u ∧ hasFlag u.ntc.latched .stormState = true))) ∧
    exec (.advisoryCancel q) s = .next (replyCtl q 6 .accepted [] (s.setStm (fun m => { m with advisory := none })))

/-- R20 to R23, R100, R104, R109, R119, R122, R165 (the model's readings and choices: BUSY before a mode it already has, log
35; BAD_INDEX before REFUSED_STATE for CLEAR, log 68; CLEAR of a robot without a position, and of one OFFLINE, log 36; a SETUP
pass whose group has left is a running one, log 23; a FAULTED cart stays FAULTED when its transfer is withdrawn, log 21; mode
bytes of 2 and above name a free mode, log 13, and are left out): ROBOT MANUAL and
ROBOT CLEAR are refused BAD_INDEX for a robot that is not configured. MANUAL is refused BUSY for a robot on the park list, or
with a transfer past APPROACH or stalled; else the mode becomes the one named (a mode it already has changes nothing). With
no round open, a robot made MANUAL loses a LEVELING assignment and a queued request; outside the storm states, a SETUP
assignment is not started while its group waits or is held, and is abandoned once the group has left, as a RUNNING one is,
settled at once when the robot is off the row. Its APPROACH transfer is withdrawn: record, link and reservation go, CART FETCH
is withdrawn, CART HOLD is offered when it had left, and the cart's state is derived anew. CLEAR is refused in LOCKOUT; else it clears a stranded mark and derives the state again. -/
def Obligations.RobotRequests : Prop :=
  ∀ (q : Req) (robot : Byte) (s : State), q.dst.toNat = s.ctl.part.uplink → s.running = true →
    let x := robot.toNat
    let bad := 95 < x ∨ s.robotOk x = false
    let busy := (s.robot x).park.isSome = true ∨
      ∃ c t, (s.robot x).link = some (.cart c) ∧ (s.cart c).transfer = some t ∧ (t.phase ≠ .approach ∨ t.stalled = true)
    (∀ mode : Byte, bad → exec (.robotManual q robot mode) s = .next (replyCtl q 7 .badIndex [] s)) ∧
    (∀ (mode : Byte) (m : CtrlMode), mode.toNat = 0 ∧ m = .auto ∨ mode.toNat = 1 ∧ m = .manual → ¬bad →
      (m = .manual → busy → exec (.robotManual q robot mode) s = .next (replyCtl q 7 .busy [] s)) ∧
      (¬(m = .manual ∧ busy) → (s.robot x).ctrl = m →
        exec (.robotManual q robot mode) s = .next (replyCtl q 7 .accepted [] s)) ∧
      (¬(m = .manual ∧ busy) → (s.robot x).ctrl ≠ m → ∃ u,
        exec (.robotManual q robot mode) s = .next (replyCtl q 7 .accepted [] u) ∧
        Frame (s.updRobot x (fun k => { k with ctrl := m })) u ∧
        (m = .manual → s.rnd.isOpen = false →
          (∀ a, (s.robot x).asg = some a → a.phase = .leveling →
            (u.robot x).asg = none ∧ (u.row a.row).sup.levelClaim ≠ some x) ∧
          ((s.robot x).link = some .queued → (∃ w ∈ s.lane (s.robot x).lane, w.robot = x) →
            (u.robot x).link = none ∧ ∀ w ∈ u.lane (s.robot x).lane, w.robot ≠ x) ∧
          (∀ a, (s.robot x).asg = some a → (s.robot x).link = none → s.stm.state.stormy = false → a.abandoned = false →
            let dropped := (u.robot x).asg = none ∧ (u.row a.row).sup.levelClaim ≠ some x
            let abandoned := if (s.robot x).pos = some (.row a.row) then
                (u.robot x).asg = some { a with phase := .running, abandoned := true, deadline := none } ∧
                  (u.row a.row).sup.levelClaim = (s.row a.row).sup.levelClaim
              else dropped
            (a.phase = .setup → a.tag = none → dropped) ∧
            (∀ g, a.phase = .setup → a.tag = some g → s.queued g = true → dropped ∧ (g < s.dsp.nextTag → u.queued g = false)) ∧
            (∀ g, a.phase = .setup → a.tag = some g → s.queued g = false → abandoned) ∧
            (a.phase = .running → abandoned)) ∧
          (∀ c t, (s.robot x).link = some (.cart c) → (s.cart c).transfer = some t → t.robot = x →
            (s.robot x).asg = none → s.lane (s.cart c).lane = [] →
            let left := t.entered = true ∨ ∃ g, t.tag = some g ∧ s.queued g = false
            let kept := s.dsp.routine.filter (fun e => t.tag ≠ some e.tag)
            (u.robot x).link = none ∧ (u.cart c).transfer = none ∧
            (u.cart c).lastTransfer = some ⟨x, t.dest, some .withdrawn⟩ ∧
            (∀ v, (u.row t.dest).sup.reservation = some v → v.robot ≠ x) ∧
            (¬left → u.dsp.routine = kept ∧ (u.cart c).hold = (s.cart c).hold) ∧
            (left → kept.length < 256 → (u.cart c).hold.isSome = true ∧
              ∃ g, u.dsp.routine = kept ++ [⟨s.cartAddr c, .cartHold, g, true, .transfer⟩]) ∧
            (left → 256 ≤ kept.length → u.dsp.routine = kept ∧ (u.cart c).hold = some ⟨none⟩) ∧
            (u.cart c).state = (if (s.cart c).fault ≠ 0 ∨ (s.cart c).state = .faulted then .faulted
              else if (s.cart c).recover then .recover
              else if (s.cart c).load.isSome ∨ (s.cart c).moving then .busy
              else if (s.cart c).garaged then .garaged else .idle))))) ∧
    (bad → exec (.robotClear q robot) s = .next (replyCtl q 8 .badIndex [] s)) ∧
    (¬bad → s.stm.state = .lockout → exec (.robotClear q robot) s = .next (replyCtl q 8 .refusedState [] s)) ∧
    (¬bad → s.stm.state ≠ .lockout → (s.robot x).stranded = false →
      exec (.robotClear q robot) s = .next (replyCtl q 8 .accepted [] s)) ∧
    (¬bad → s.stm.state ≠ .lockout → (s.robot x).stranded = true → ∃ u,
      exec (.robotClear q robot) s = .next (replyCtl q 8 .accepted [] u) ∧
      Frame (s.updRobot x (fun k => { k with
        stranded := false
        state := match k.pos with
          | none => .unknown
          | some p => if k.fault ≠ 0 then .faulted else
            match p with
            | .dock _ => .docked
            | .row _ => .onRow
            | .cart _ => .aboard })) u ∧
      ((s.robot x).pos.isSome = true → (s.robot x).fault ≠ 0 → (s.robot x).state ≠ .faulted →
        hasFlag u.ntc.latched .robotFault = true))

/-- R11, R19, R123: TRANSFER RESOLVE is refused in R123's order; accepted, the robot's position is the one asserted, the dock
law holds for it, no configured cart carries it, and no other robot's reported fields change. A stalled transfer's record,
link and reservation are gone, its outcome kept as the cart's last transfer (stated with no round open and no request that
the cart could be granted to). -/
def Obligations.TransferResolveTaken : Prop :=
  ∀ (q : Req) (robot : Byte) (row : Half) (s : State), q.dst.toNat = s.ctl.part.uplink → s.running = true →
    let x := robot.toNat
    let r := row.toNat
    let off := r = 0xFFFF
    let stalled := ∃ c t, (s.robot x).link = some (.cart c) ∧ (s.cart c).transfer = some t ∧ t.stalled = true
    let bad := 95 < x ∨ s.robotOk x = false ∨
      (¬off ∧ (1023 < r ∨ s.rowOk r = false ∨ (s.row r).cfg.lane ≠ (s.robot x).lane))
    let busy := (s.robot x).link.isSome = true ∧ ¬stalled
    let wrong := (¬stalled ∧ ∀ c, (s.robot x).pos ≠ some (.cart c)) ∨
      (¬off ∧ ((∃ y, (s.row r).sup.occupant = some y ∧ y ≠ x) ∨
        ∃ v, (s.row r).sup.reservation = some v ∧ v.robot ≠ x))
    (bad → exec (.transferResolve q robot row) s = .next (replyCtl q 9 .badIndex [] s)) ∧
    (¬bad → busy → exec (.transferResolve q robot row) s = .next (replyCtl q 9 .busy [] s)) ∧
    (¬bad → ¬busy → wrong → exec (.transferResolve q robot row) s = .next (replyCtl q 9 .refusedState [] s)) ∧
    (¬bad → ¬busy → ¬wrong → ∃ u, exec (.transferResolve q robot row) s = .next (replyCtl q 9 .accepted [] u) ∧
      (off → RobotStill { s.robot x with state := .unknown, pos := none } (u.robot x)) ∧
      (¬off → RobotStill { s.robot x with
        pos := some (.dock r), stranded := false
        state := if (s.robot x).fault ≠ 0 then .faulted else .docked } (u.robot x)) ∧
      (¬off → (s.robot x).fault ≠ 0 → (s.robot x).state ≠ .faulted → hasFlag u.ntc.latched .robotFault = true) ∧
      (∀ c t, (s.robot x).link = some (.cart c) → (s.cart c).transfer = some t → t.robot = x → s.rnd.isOpen = false →
        (∀ l, ∀ w ∈ s.lane l, w.robot ≠ x) → s.stm.state ≠ .calm ∨ s.lane (s.cart c).lane = [] →
        (u.cart c).transfer = none ∧ (u.cart c).lastTransfer = some ⟨x, t.dest, some .stalled⟩ ∧
          (u.cart c).load = none ∧ (u.robot x).link = none ∧
          ∀ v, (u.row t.dest).sup.reservation = some v → v.robot ≠ x) ∧
      (∀ y, y ≠ x → RobotStill (s.robot y) (u.robot y)) ∧
      (∀ j, (u.row j).sup.occupant =
        if ¬off ∧ j = r then some x else if (s.row j).sup.occupant = some x then none else (s.row j).sup.occupant) ∧
      (∀ j, (u.row j).cfg = (s.row j).cfg ∧ (u.row j).soil = (s.row j).soil ∧ (u.row j).acct = (s.row j).acct ∧
        (u.row j).banks.closing = (s.row j).banks.closing ∧ (u.row j).sup.reported = (s.row j).sup.reported) ∧
      (∀ c, CartKept (s.cart c) (u.cart c) ∧ ((u.cart c).load = (s.cart c).load ∨ (u.cart c).load = none)) ∧
      (∀ c, s.cartOk c = true → (u.cart c).load ≠ some x) ∧
      SiteKept s u ∧ LinksKept s u ∧ FlagsKept s u ∧ WindKept s u)

/-- R84, R85, R167: ACCOUNT CLEAR is refused for a row that is not configured; else it zeroes the accounts it names, and
discards the closing bank of each such row that a walk in flight has not reached, and changes nothing else. -/
def Obligations.AccountClearTaken : Prop :=
  ∀ (q : Req) (row : Half) (s : State), q.dst.toNat = s.ctl.part.uplink → s.running = true →
    let all := row.toNat = 0xFFFF
    (¬all → 1023 < row.toNat ∨ s.rowOk row.toNat = false →
      exec (.accountClear q row) s = .next (replyCtl q 12 .badIndex [] s)) ∧
    (all ∨ (row.toNat ≤ 1023 ∧ s.rowOk row.toNat = true) → ∃ u,
      exec (.accountClear q row) s = .next (replyCtl q 12 .accepted [] u) ∧ { u with rows := s.rows } = s ∧
      ∀ r, u.row r =
        if (all ∧ s.rowOk r = true) ∨ (¬all ∧ r = row.toNat) then
          { s.row r with
            acct := ⟨0, 0, 0, 0, 0, 0, 0⟩
            banks := { (s.row r).banks with closing :=
              match s.yld.walk with
              | some w => if w.cursor ≤ r then none else (s.row r).banks.closing
              | none => (s.row r).banks.closing } }
        else s.row r)

/-- R170, R171, R173, R174, R181: NOTICE CLEAR clears the marked flags with their risen marks; NOTICE MASK replaces the mask,
and unmasking a set flag causes one NOTICE; each is answered with the set as it then stands (log 16). A CONTROL kind that is
not listed is refused BAD_TABLE (log 18). Taken in both modes; nothing else changes. -/
def Obligations.NoticeRequests : Prop :=
  ∀ (q : Req) (s : State), q.dst.toNat = s.ctl.part.uplink →
    (∀ marks : BitVec 24, ∃ n : Notices,
      exec (.noticeClear q marks) s = .next (replyCtl q 14 .accepted (be 3 n.latched.toNat) { s with ntc := n }) ∧
      n.mask = s.ntc.mask ∧ n.owed = s.ntc.owed ∧
      ∀ f : Flag, hasFlag n.latched f = (hasFlag s.ntc.latched f && !marks.getLsbD f.idx) ∧
        hasFlag n.risen f = (hasFlag s.ntc.risen f && !marks.getLsbD f.idx)) ∧
    (∀ marks : BitVec 24, ∃ u,
      exec (.noticeMask q marks) s = .next (replyCtl q 15 .accepted (be 3 u.ntc.mask.toNat) u) ∧
      (∀ f : Flag, hasFlag u.ntc.mask f = marks.getLsbD f.idx) ∧
      u.ntc.latched = s.ntc.latched ∧ u.ntc.risen = s.ntc.risen ∧
      { u with ntc := s.ntc, up := { u.up with queue := s.up.queue } } = s ∧
      (let caused := (∃ f : Flag, hasFlag s.ntc.latched f = true ∧ hasFlag s.ntc.mask f = true ∧
          marks.getLsbD f.idx = false) ∧ UpEntry.notice ∉ s.unsentUp ∧ s.ntc.owed = false
       (caused → s.up.queue.length < 64 → u.up.queue = s.up.queue ++ [.notice] ∧ u.ntc.owed = false) ∧
       (caused → 64 ≤ s.up.queue.length → u.up.queue = s.up.queue ∧ u.ntc.owed = true) ∧
       (¬caused → u.up.queue = s.up.queue ∧ u.ntc.owed = s.ntc.owed))) ∧
    (∀ kind : Byte, exec (.controlUnknownKind q kind) s = .next (replyCtl q kind.toNat .badTable [] s))

/-! ### The field transmitter and the uplink transmitter -/

/-- R9, R32, R33, R36, R42, R125, R142, R147, R156 (only the part's own LEAVE ANSWER is decided again, log 20): a frame start
with an entry queued, send-permit asserted, the transmitter free and no frame coming in sends the head of the urgent queue,
else of the routine queue: it leaves its queue, its bytes go on the air, and the group record is kept for a group with entries
left. A granted LEAVE ANSWER whose grant has failed leaves as denied. The Row Supervisor's ROW LEVEL to a row starts the level
deadline of a claim not reported reached that has none; its ROW STOW ends the sweep entry's waiting, sets the stow deadline of
a SENT row, and the sweep goes on until 16 entries wait or it is through; a ROW RELEASE to a listed row raises its release
count, sets its release deadline, and serves for a second release held for room (log 67). Nothing more changes. An urgent entry cuts a group in progress: its entries are removed, and a cut
pass is not started. In a storm state a PASS RUN, PASS SETUP or BOARD at the head of the routine queue is removed with its
group instead of sent, and its owner takes the cut: the pass is not started, the transfer aborted, and its cart sent to its
garage in PARK, SECURED and LOCKOUT (R124; log 56). Without the condition
nothing is sent. -/
def Obligations.FrameStartSends : Prop :=
  (∀ s : State, s.dsp.air = none → s.dsp.rx = [] → s.dsp.permit = true →
    let sent (e : Entry) (d : Dispatcher) : Dispatcher := { d with
      group := if e.last then none else some ⟨e.tag, e.owner, e⟩
      air := some ⟨e, frameBytes e.dest s.ctl.part.field e.order.cls e.order.payload, true⟩
      echo := s.ctl.part.field }
    -- u: entry e has left, with the dispatcher otherwise as in d
    let left (e : Entry) (d : Dispatcher) (u : State) : Prop :=
      let v := { s with dsp := sent e d }
      (s.rowAt e.dest = none → u = noteQueues v) ∧
      (∀ r, s.rowAt e.dest = some r →
        (e.order = .rowLevel → e.owner = .row → u = noteQueues (v.updSup r (fun k => { k with
          levelDeadline :=
            if k.levelClaim.isSome = true ∧ k.told = false ∧ k.levelDeadline = none then some (s.now + s.par .levelTimeout)
            else k.levelDeadline }))) ∧
        (e.order = .rowRelease → u = noteQueues (v.updRel r (fun k =>
          k.map (fun k => ⟨k.count + 1, some (s.now + s.par .stowTimeout), false⟩)))) ∧
        (e.order = .rowStow → e.owner = .row →
          let w := (s.row r).stow
          let ended := { w with
            waiting := false, held := false
            deadline := if w.progress = .sent then some (s.now + s.par .stowTimeout) else w.deadline }
          (s.swp.mode = .off → u = noteQueues (v.updStow r (fun _ => ended))) ∧
          (s.swp.mode ≠ .off →
            (w.reoffer = none → r < s.swp.cursor → (u.row r).stow = ended) ∧
            (16 ≤ u.sweepWaiting ∨
              (∀ j, s.rowOk j = true → j < u.swp.cursor) ∧ ∀ j, (u.row j).stow.reoffer = none))) ∧
        (e.order ≠ .rowRelease → e.owner ≠ .row ∨ e.order ≠ .rowLevel ∧ e.order ≠ .rowStow → u = noteQueues v))
    (∀ e l, s.dsp.urgent = e :: l → s.dsp.group = none → e.order.kind ≠ .leaveAnswer →
      ∃ u, exec .frameStart s = .next u ∧ Frame { s with dsp := sent e { s.dsp with urgent := l } } u ∧
        (SecuredLaw s → left e { s.dsp with urgent := l } u)) ∧
    (∀ e l g, s.dsp.urgent = e :: l → s.dsp.group = some g → e.order.kind ≠ .leaveAnswer → e.tag ≠ g.tag →
      g.tag < s.dsp.nextTag →
      ∃ u, exec .frameStart s = .next u ∧ Frame { s with dsp := sent e { s.dsp with urgent := l } } u ∧
        (∀ y ∈ u.dsp.routine, y.tag ≠ g.tag) ∧
        (∀ x, g.owner = .round → s.robotWithTag g.tag = some x → s.rnd.isOpen = false → (u.robot x).asg = none) ∧
        (g.owner = .row ∨ g.owner = .storm ∨ g.owner = .supervisor → SecuredLaw s →
          left e { s.dsp with urgent := l, routine := s.dsp.routine.filter (fun y => decide (y.tag ≠ g.tag)) } u)) ∧
    (∀ e l, s.dsp.urgent = [] → s.dsp.routine = e :: l → s.stm.state.stormy = true → e.order.kind.stormHeld = true →
      e.tag < s.dsp.nextTag →
      ∃ u, exec .frameStart s = .next u ∧ (∀ y ∈ u.dsp.routine, y.tag ≠ e.tag) ∧
        (∀ f, u.dsp.air = some f → f.entry.order.kind.stormHeld = false) ∧
        (∀ x, e.owner = .round → s.robotWithTag e.tag = some x → s.rnd.isOpen = false → (u.robot x).asg = none) ∧
        (∀ c f, e.owner = .transfer → (s.cart c).transfer = some f → f.tag = some e.tag → s.aboard c f.robot = false →
          (∀ j g, (s.cart j).transfer = some g → g.tag = some e.tag → j = c) → (u.cart c).transfer = none ∧
            (s.stm.state ≠ .release → (s.cart c).garaged = false → (s.cart c).load = none →
              (u.cart c).garageEntry.isSome = true))) ∧
    (∀ e l, s.dsp.urgent = [] → s.dsp.routine = e :: l →
      ¬(s.stm.state.stormy = true ∧ e.order.kind.stormHeld = true) →
      let denied := e.owner = .row ∧ e.order = .leaveAnswer 1 ∧ ∃ x, s.robotAt e.dest = some x ∧ s.leaveGranted x = false
      ∃ f, (denied → f = { e with order := .leaveAnswer 0 }) ∧ (¬denied → f = e) ∧
        ∃ u, exec .frameStart s = .next u ∧ Frame { s with dsp := sent f { s.dsp with routine := l } } u ∧
          (SecuredLaw s → left f { s.dsp with routine := l } u))) ∧
  (∀ s : State, SecuredLaw s →
    s.dsp.air.isSome = true ∨ s.dsp.rx ≠ [] ∨ s.dsp.permit = false ∨ s.dsp.urgent = [] ∧ s.dsp.routine = [] →
    exec .frameStart s = .next (noteQueues s)) ∧
  (∀ n s e, (chooseEntry n s).2 = some (e, false) → s.stm.state.stormy = true → e.order.kind.stormHeld = false)

/-- R34, R100, R113, R119: a frame end frees the transmitter. The sent event of a pass group's last entry starts the pass
with its deadline; that of a transfer's phase order enters the phase with the deadline R113's table gives; that of a CART
HOLD ends the pending hold, and the cart may be granted. With no work held for room nothing more changes. -/
def Obligations.FrameEndHandsOn : Prop :=
  ∀ (s : State), SecuredLaw s →
    (s.dsp.air = none → exec .frameEnd s = .next (noteQueues s)) ∧
    (∀ f, s.dsp.air = some f →
      let t : State := { s with dsp := { s.dsp with air := none } }
      let alone (c : Nat) : Prop := ∀ j, j ≠ c →
        (s.cart j).hold ≠ some ⟨some f.entry.tag⟩ ∧ ∀ g, (s.cart j).transfer = some g → g.tag ≠ some f.entry.tag
      let apart (a b : Nat) : Nat := (a - b) + (b - a)
      let slot (r : Nat) : Nat := (s.row r).cfg.slot
      (∃ u, exec .frameEnd s = .next u ∧ u.dsp.air = none ∧ Frame t u) ∧
      (s.heldRound = false → s.heldTransfers = false → s.heldRows = false → s.heldStorm = false →
        (f.handOn = false ∨ f.entry.owner = .storm ∨ f.entry.owner = .row ∨ f.entry.owner = .supervisor ∨
            f.entry.owner = .round ∧ f.entry.last = false →
          exec .frameEnd s = .next (noteQueues t)) ∧
        (∀ x a, f.handOn = true → f.entry.owner = .round → f.entry.last = true →
          s.robotWithTag f.entry.tag = some x → (s.robot x).asg = some a → a.abandoned = false →
          exec .frameEnd s = .next (noteQueues (t.updRobot x (fun k => { k with asg := some { a with
            phase := .running
            deadline := some (s.now + s.par .passBase + (s.row a.row).cfg.length * s.par .passPerMetre) } })))) ∧
        (∀ c g, f.handOn = true → f.entry.owner = .transfer → s.cartOk c = true → alone c →
          (s.cart c).hold ≠ some ⟨some f.entry.tag⟩ → (s.cart c).transfer = some g → g.tag = some f.entry.tag →
          g.stalled = false →
          let limit := match g.phase with
            | .approach => s.par .approachBase + s.par .slotTime * apart (s.cart c).slot (slot g.origin)
            | .boarding => s.par .boardTimeout
            | .travel => s.par .travelBase + s.par .slotTime * apart (slot g.origin) (slot g.dest)
            | .alighting => s.par .alightTimeout
          exec .frameEnd s = .next (noteQueues (t.updCart c (fun k => { k with transfer := some { g with
            entered := true, tag := none, deadline := some (s.now + limit) } })))) ∧
        (∀ c, f.handOn = true → f.entry.owner = .transfer → s.cartOk c = true → alone c →
          (s.cart c).hold = some ⟨some f.entry.tag⟩ →
          (∃ u, exec .frameEnd s = .next u ∧ (u.cart c).hold = none ∧ Frame t u) ∧
          (s.stm.state ≠ .calm ∨ s.lane (s.cart c).lane = [] →
            exec .frameEnd s = .next (noteQueues (t.updCart c (fun k => { k with hold := none })))))))

/-- R35: a change of send-permit sets the line. A permit wait runs while an entry is queued, no order is on the air and the
line is deasserted, from the later of the deassertion and the first entry's arrival (log 8). Longer than the permit stall,
it latches FIELD_STALL once. Nothing else changes. -/
def Obligations.SendPermitWait : Prop :=
  (∀ (asserted : Bool) (s : State), ∃ u, exec (.sendPermitChange asserted) s = .next u ∧
    u.dsp.permit = asserted ∧
    { u with dsp := { u.dsp with
      permit := s.dsp.permit, fell := s.dsp.fell, since := s.dsp.since, wait := s.dsp.wait } } = s ∧
    (asserted = true ∨ s.dsp.air.isSome = true ∨ (s.dsp.urgent = [] ∧ s.dsp.routine = []) → u.dsp.wait = none) ∧
    (asserted = false → s.dsp.air = none → (s.dsp.urgent ≠ [] ∨ s.dsp.routine ≠ []) →
      u.dsp.wait = some (s.dsp.wait.getD
        ⟨max (if s.dsp.permit then s.now else s.dsp.fell) (s.dsp.since.getD s.now), false⟩))) ∧
  (∀ (s : State) (w : PermitWait), s.dsp.wait = some w →
    (w.stalled = false → w.start + s.par .permitStall < s.now →
      exec .permitStallExpiry s =
        .next (latch .fieldStall { s with dsp := { s.dsp with wait := some { w with stalled := true } } })) ∧
    (w.stalled = true ∨ s.now ≤ w.start + s.par .permitStall → exec .permitStallExpiry s = .next s)) ∧
  (∀ s : State, s.dsp.wait = none → exec .permitStallExpiry s = .next s)

/-- R155, R156, R172, R173: an uplink frame start puts the head of the uplink queue on the air, where it keeps its place;
a NOTICE takes its three lists then and clears every risen mark. A frame end takes the entry out, and an owed NOTICE takes
the place. -/
def Obligations.UplinkTransmits : Prop :=
  ∀ s : State,
    (∀ e l, s.up.air = none → s.up.queue = e :: l →
      let t (bytes : List Byte) : State := { s with up := { s.up with air := some bytes } }
      let p := s.ctl.part
      exec .uplinkFrameStart s = .next (match e with
        | .answer dst cls payload => t (frameBytes dst p.uplink cls payload)
        | .report payload => t (frameBytes p.supervisor p.uplink 0x53 payload)
        | .relayed src payload => t (frameBytes p.supervisor src 0x54 payload)
        | .notice => { t (frameBytes p.supervisor p.uplink 0x52
            (be 3 s.ntc.latched.toNat ++ be 3 s.ntc.risen.toNat ++ be 3 s.ntc.mask.toNat)) with
            ntc := { s.ntc with risen := 0 } })) ∧
    (s.up.air.isSome = true ∨ s.up.queue = [] → exec .uplinkFrameStart s = .next s) ∧
    (s.up.air = none → exec .uplinkFrameEnd s = .next s) ∧
    (s.up.air.isSome = true →
      let t : State := { s with up := { s.up with queue := s.up.queue.tail, air := none } }
      (s.ntc.owed = false → exec .uplinkFrameEnd s = .next t) ∧
      (s.ntc.owed = true → s.up.queue.length ≤ 64 →
        exec .uplinkFrameEnd s = .next { t with
          up := { t.up with queue := t.up.queue ++ [.notice] }, ntc := { s.ntc with owed := false } }))

/-! ### Timed events -/

/-- R9, R18, R23, R48, R50, R59, R69, R87, R102, R113, R118, R128, R130 to R135, R140, R141, R144, R146, R148, R151: a
deadline, silence, replay or timer event that comes while its deadline is absent or later than now, while the record or the
storm state it belongs to is not there, or while it has been taken already, changes nothing but the permit wait that every
command brings up to date (that it may come at all is the model's choice, log 3). -/
def Obligations.EventsNotDueChangeNothing : Prop :=
  ∀ (s : State), SecuredLaw s →
    let nothing (c : Instr) : Prop := exec c s = .next (noteQueues s)
    let later (d : Option Nat) : Prop := ∀ a, d = some a → s.now < a
    let running (start : Option Nat) (p : Param) : Prop := ∀ a, start = some a → s.now < a + s.par p
    (∀ r, (s.row r).sup.levelClaim = none ∨ later (s.row r).sup.levelDeadline → nothing (.levelDeadlineExpiry r)) ∧
    (∀ x, s.running = false ∨ s.robotOk x = false ∨ (s.robot x).state = .offline ∨
        running (s.robot x).heard .robotSilence → nothing (.robotSilenceExpiry x)) ∧
    (∀ c, s.running = false ∨ s.cartOk c = false ∨ (s.cart c).state = .faulted ∨ running (s.cart c).heard .cartSilence →
      nothing (.cartSilenceExpiry c)) ∧
    (s.running = false ∨ s.stm.silent = true ∨
        (∃ m h, (s.mast m).node.isSome = true ∧ (s.mast m).heard = some h ∧ s.now < h + s.par .mastSilence) →
      nothing .mastSilenceEvent) ∧
    (∀ m, (∀ i, (s.mast m).irr = some i → s.now ≤ i.time + s.par .mastStale) → nothing (.mastRecordStale m)) ∧
    (∀ x, (∀ a, (s.robot x).asg = some a → later a.deadline) → nothing (.passDeadlineExpiry x)) ∧
    (∀ c, (∀ f, (s.cart c).transfer = some f → f.stalled = true ∨ later f.deadline) → nothing (.phaseDeadlineExpiry c)) ∧
    (s.stm.state ≠ .calm ∨ running s.stm.watchT .watchDebounce → nothing .watchTimerExpiry) ∧
    (s.stm.state = .park ∨ s.stm.state = .secured ∨ s.stm.state = .lockout ∨ running s.stm.parkT .parkDebounce →
      nothing .parkTimerExpiry) ∧
    (s.stm.state ≠ .watch ∨ running s.stm.calmT .calmHold → nothing .calmTimerExpiry) ∧
    (s.stm.state ≠ .park ∧ s.stm.state ≠ .secured ∨ running s.stm.releaseT .releaseHold → nothing .releaseTimerExpiry) ∧
    (s.stm.state ≠ .lockout ∨ running s.stm.lockoutT .lockoutHold → nothing .lockoutTimerExpiry) ∧
    (∀ r, later (s.row r).stow.deadline → nothing (.stowDeadlineExpiry r)) ∧
    (∀ r, (s.row r).sup.reported ≠ some .stowed ∨ (∀ e, (s.row r).rel = some e → later e.deadline) →
      nothing (.releaseDeadlineExpiry r)) ∧
    (∀ x, (∀ e, (s.robot x).park = some e → e.order = .via ∨ e.held = true ∨ running e.last .parkRepeat) →
      nothing (.parkRepeatReplay x)) ∧
    (∀ c, (∀ e, (s.cart c).garageEntry = some e → e.held = true ∨ running e.last .parkRepeat) →
      nothing (.garageReplay c)) ∧
    (s.running = false ∨ s.clk.set = false ∨
        (s.clk.clock % 86400 ≠ s.par .windowStart ∧ s.clk.clock % 86400 ≠ s.par .windowEnd ∧ s.clk.clock ≠ 0) →
      nothing .roundWindowEdge) ∧
    (s.running = false ∨ s.clk.set = false ∨ (∀ a, s.stm.advisory = some a → s.clk.clock < a.parkEntry) →
      nothing .advisoryReached) ∧
    (s.yld.walk = none → nothing .walkStep) ∧
    (s.ep.held.isSome = true ∨
        (∀ e, s.ep.epoch = some e → s.clk.mono - e.startMono < e.nominalEnd - e.startPlant) →
      exec .epochBoundary s = .next s)

/-- R18, R23, R128: a silent robot becomes OFFLINE, ROBOT_OFFLINE latches, and the row a robot ON_ROW or STRANDED is on
becomes pinned (also one that left OFFLINE without a status: the model's choice, logs 36 and 69); a silent cart becomes FAULTED and CART_FAULT latches; when no configured mast is heard the site gust becomes
absent, MAST_SILENT latches, the calm and release timers stop, and CALM, WATCH and RELEASE go to PARK by a park entry
(ParkEntered; R136).
In a park entry a robot ABOARD is listed via transfer whatever its transfer (the model's choice, log 66). -/
def Obligations.SilenceTaken : Prop :=
  ∀ s : State, s.running = true →
    (∀ x h, s.robotOk x = true → (s.robot x).state ≠ .offline → (s.robot x).heard = some h →
      h + s.par .robotSilence ≤ s.now →
      ∃ u, exec (.robotSilenceExpiry x) s = .next u ∧ Frame (s.updRobot x (fun k => { k with state := .offline })) u ∧
        hasFlag u.ntc.latched .robotOffline = true ∧
        (∀ r, (s.robot x).state = .onRow ∨ (s.robot x).state = .stranded → (s.robot x).pos = some (.row r) →
          (u.row r).sup.pinned = true)) ∧
    (∀ c h, s.cartOk c = true → (s.cart c).state ≠ .faulted → (s.cart c).heard = some h →
      h + s.par .cartSilence ≤ s.now →
      ∃ u, exec (.cartSilenceExpiry c) s = .next u ∧ Frame s u ∧ (u.cart c).state = .faulted ∧
        hasFlag u.ntc.latched .cartFault = true) ∧
    (s.stm.silent = false →
      (∀ m, (s.mast m).node.isSome = true → ∀ h, (s.mast m).heard = some h → h + s.par .mastSilence ≤ s.now) →
      ∃ u, exec .mastSilenceEvent s = .next u ∧
        StormFrame (s.setStm (fun m => { m with gust := none, silent := true })) u ∧
        hasFlag u.ntc.latched .mastSilent = true ∧ u.stm.calmT = none ∧ u.stm.releaseT = none ∧
        (s.stm.state = .lockout → u.stm.state = .lockout) ∧ (s.stm.state = .secured → u.stm.state = .secured) ∧
        (s.stm.state = .calm ∨ s.stm.state = .watch ∨ s.stm.state = .release →
          (u.stm.state = .park ∨ u.stm.state = .secured) ∧ ParkEntered s u))

/-- R9, R23, R100, R102, R103, R117, R118, R119 (a cart that is FAULTED stays so, log 21): a level deadline sets the mark, latches LEVEL_FAULT and drops the claim, and the
LEVELING assignment it stood for is dropped as not started, its row back in the due list while its judgement is DUE or HOLD;
a pass deadline abandons the pass, settled at once with the robot off the row and later with it on the row; a phase deadline
makes the transfer STALLED, or FAILED when the robot is not aboard in APPROACH or BOARDING. With a round open the robot set
free may be planned in the same event, so what it is left with is stated with the round closed. -/
def Obligations.WorkDeadlinesPass : Prop :=
  ∀ s : State, SecuredLaw s →
    (∀ r x d, (s.row r).sup.levelClaim = some x → (s.row r).sup.levelDeadline = some d → d ≤ s.now →
      ∃ u, exec (.levelDeadlineExpiry r) s = .next u ∧ Frame s u ∧ (u.row r).sup.levelFault = true ∧
        hasFlag u.ntc.latched .levelFault = true ∧ (u.row r).sup.levelClaim = none ∧ (u.row r).sup.levelDeadline = none ∧
        (∀ a, (s.robot x).asg = some a → a.phase = .leveling → a.row = r →
          (∀ b, (u.robot x).asg = some b → b.row ≠ r) ∧
          (s.rnd.isOpen = false → (u.robot x).asg = none ∧
            ∀ w, s.judge r = .due w ∨ s.judge r = .hold w → ⟨r, w, s.clk.clock, none⟩ ∈ u.rnd.due)) ∧
        (∀ a, (s.robot x).asg = some a → a.phase ≠ .leveling → (u.robot x).asg = some a)) ∧
    (∀ x a d, (s.robot x).asg = some a → a.deadline = some d → d ≤ s.now → a.abandoned = false →
      (∃ u, exec (.passDeadlineExpiry x) s = .next u ∧ Frame s u ∧
        (s.rnd.isOpen = false → (s.robot x).pos ≠ some (.row a.row) →
          (u.robot x).asg = none ∧ (u.row a.row).sup.levelClaim ≠ some x ∧
          ∀ w, s.judge a.row = .due w ∨ s.judge a.row = .hold w → ⟨a.row, w, s.clk.clock, none⟩ ∈ u.rnd.due)) ∧
      ((s.robot x).pos = some (.row a.row) →
        exec (.passDeadlineExpiry x) s = .next (noteQueues (s.updRobot x (fun k => { k with asg := some { a with
          phase := .running, abandoned := true, deadline := none } }))))) ∧
    (∀ c t d, (s.cart c).transfer = some t → t.stalled = false → t.deadline = some d → d ≤ s.now →
      let aboard := (s.robot t.robot).pos = some (.cart c) ∨ (s.cart c).load = some t.robot
      (t.phase = .travel ∨ t.phase = .alighting ∨ aboard →
        ∃ u, exec (.phaseDeadlineExpiry c) s = .next u ∧ Frame s u ∧
          (u.cart c).transfer = some { t with stalled := true, deadline := none, tag := none } ∧
          (u.cart c).recover = true ∧ (u.cart c).hold.isSome = true ∧
          (u.cart c).state = (if (s.cart c).state = .faulted then .faulted else .recover) ∧
          hasFlag u.ntc.latched .transferStalled = true ∧ (u.robot t.robot).link = (s.robot t.robot).link) ∧
      (t.phase ≠ .travel → t.phase ≠ .alighting → ¬aboard →
        ∃ u, exec (.phaseDeadlineExpiry c) s = .next u ∧ Frame s u ∧
          (u.cart c).transfer = none ∧ (u.cart c).lastTransfer = some ⟨t.robot, t.dest, some .failed⟩ ∧
          (u.cart c).recover = true ∧ (u.cart c).hold.isSome = true ∧
          (u.cart c).state = (if (s.cart c).state = .faulted then .faulted else .recover) ∧
          (s.rnd.isOpen = false → (u.robot t.robot).link = none ∧
            ∀ v, (u.row t.dest).sup.reservation = some v → v.robot ≠ t.robot) ∧
          hasFlag u.ntc.latched .transferFailed = true))

/-- R130 to R135, R146: the expiries of the debounce timers. Each stops every timer and latches STORM_STATE: watch takes CALM
to WATCH, park takes CALM, WATCH and RELEASE to PARK with a park entry, calm takes WATCH to CALM, release takes PARK and
SECURED to RELEASE, or on to CALM where no row is to be released, and lockout takes LOCKOUT to PARK (and SECURED where the
fleet is safe), which is no park entry: a sweep in progress goes on in PARK mode.
In a park entry a robot ABOARD is listed via transfer whatever its transfer (the model's choice, log 66). -/
def Obligations.StormTimersExpire : Prop :=
  ∀ s : State,
    let stopped (st : StormState) : StormUnit :=
      ⟨st, none, none, none, none, none, s.stm.gust, s.stm.advisory, s.stm.silent⟩
    (∀ a, s.stm.state = .calm → s.stm.watchT = some a → a + s.par .watchDebounce ≤ s.now →
      ∃ u, exec .watchTimerExpiry s = .next u ∧ Frame s u ∧ u.stm = stopped .watch ∧ u.rnd.isOpen = false ∧
        hasFlag u.ntc.latched .stormState = true) ∧
    (∀ a, s.stm.state = .watch → s.stm.calmT = some a → a + s.par .calmHold ≤ s.now →
      ∃ u, exec .calmTimerExpiry s = .next u ∧ Frame s u ∧ u.stm = stopped .calm ∧ u.rnd.isOpen = u.roundCondition ∧
        hasFlag u.ntc.latched .stormState = true) ∧
    (∀ a, s.stm.state = .calm ∨ s.stm.state = .watch ∨ s.stm.state = .release → s.stm.parkT = some a →
      a + s.par .parkDebounce ≤ s.now →
      ∃ u, exec .parkTimerExpiry s = .next u ∧ StormFrame s u ∧ (u.stm = stopped .park ∨ u.stm = stopped .secured) ∧
        ParkEntered s u ∧ hasFlag u.ntc.latched .stormState = true) ∧
    (∀ a, s.stm.state = .park ∨ s.stm.state = .secured → s.stm.releaseT = some a →
      a + s.par .releaseHold ≤ s.now →
      ∃ u, exec .releaseTimerExpiry s = .next u ∧ Frame s u ∧ (u.stm = stopped .release ∨ u.stm = stopped .calm) ∧
        ReleaseEntered s u ∧ hasFlag u.ntc.latched .stormState = true) ∧
    (∀ a, s.stm.state = .lockout → s.stm.lockoutT = some a → a + s.par .lockoutHold ≤ s.now →
      ∃ u, exec .lockoutTimerExpiry s = .next u ∧ Frame s u ∧ (u.stm = stopped .park ∨ u.stm = stopped .secured) ∧
        u.swp = ⟨if s.swp.mode = .off then .off else .park, s.swp.cursor⟩ ∧
        hasFlag u.ntc.latched .stormState = true)

/-- R140, R141, R144, R148: the stow deadline of a row pins it after its second send, and sends its ROW STOW again after
the first, in PARK as in every state in which the sweep runs; the release deadline pins it after its second release, and releases it again after the first; a park order and
a CART GARAGE are offered again at their replay time, absorbed into a copy still queued. -/
def Obligations.RowDeadlinesAndReplays : Prop :=
  ∀ s : State,
    (∀ r d, (s.row r).stow.deadline = some d → d ≤ s.now →
      (∃ u, exec (.stowDeadlineExpiry r) s = .next u ∧ Frame s u ∧
        ((s.row r).sup.reported ≠ some .stowed → 2 ≤ (s.row r).stow.sends →
          (u.row r).sup.pinned = true ∧
          ((s.row r).sup.pinned = false → hasFlag u.ntc.latched .rowPinned = true) ∧
          (u.row r).stow.progress = .pinned)) ∧
      ((s.row r).sup.reported ≠ some .stowed → (s.row r).stow.sends < 2 → s.swp.mode = .off → SecuredLaw s →
        exec (.stowDeadlineExpiry r) s =
          .next (noteQueues (s.updStow r (fun w => { w with deadline := none, reoffer := some 2 })))) ∧
      ((s.row r).sup.reported ≠ some .stowed → (s.row r).stow.sends < 2 → s.swp.mode ≠ .off →
        s.sweepWaiting < 16 → r < s.swp.cursor → (∀ j, (s.row j).stow.reoffer = none) →
        ∃ u, exec (.stowDeadlineExpiry r) s = .next u ∧ Frame s u ∧ (u.row r).sup.stowClaim = true ∧
          (u.row r).stow.progress = .sent ∧ (u.row r).stow.sends = 2 ∧ (u.row r).stow.waiting = true)) ∧
    (∀ r e d, (s.row r).rel = some e → e.deadline = some d → d ≤ s.now → (s.row r).sup.reported = some .stowed →
      s.stm.state = .release →
      (2 ≤ e.count → ∃ u, exec (.releaseDeadlineExpiry r) s = .next u ∧ Frame s u ∧ (u.row r).sup.pinned = true ∧
        ((s.row r).sup.pinned = false → hasFlag u.ntc.latched .rowPinned = true) ∧
        ((∃ j, j ≠ r ∧ (s.row j).rel.isSome = true) → (u.row r).rel = none ∧ u.stm = s.stm)) ∧
      (e.count < 2 → s.dsp.routine.length < 256 →
        exec (.releaseDeadlineExpiry r) s = .next (noteQueues { s with
          rows := s.rows.upd r (fun x => { x with rel := some ⟨e.count, none, false⟩ })
          dsp := { s.dsp with
            routine := s.dsp.routine ++ [⟨s.rowAddr r, .rowRelease, s.dsp.nextTag, true, .storm⟩]
            nextTag := s.dsp.nextTag + 1 } }))) ∧
    (let offered (dest : Nat) (o : Order) (d : Dispatcher) : Dispatcher :=
      if s.dsp.urgent.any (fun e => decide (e.dest = dest) && decide (e.order.kind = o.kind)) then
        { d with urgent := d.urgent.map (fun e =>
          if e.dest = dest ∧ e.order.kind = o.kind then { e with order := o } else e) }
      else { d with
        urgent := d.urgent ++ [⟨dest, o, d.nextTag, true, .storm⟩], nextTag := d.nextTag + 1 }
     (∀ x e o t, (s.robot x).park = some e → e.held = false → e.last = some t → t + s.par .parkRepeat ≤ s.now →
        e.order = .hold ∧ o = .dockHold ∨ e.order = .abort ∧ o = .passAbort → urgentWork s.dsp.urgent < 128 →
        exec (.parkRepeatReplay x) s = .next (noteQueues { s with
          robots := s.robots.upd x (fun k => { k with park := some { e with last := some s.now } })
          dsp := offered (s.robotAddr x) o s.dsp })) ∧
     (∀ c e t, (s.cart c).garageEntry = some e → e.held = false → e.last = some t → t + s.par .parkRepeat ≤ s.now →
        urgentWork s.dsp.urgent < 128 →
        exec (.garageReplay c) s = .next (noteQueues { s with
          carts := s.carts.upd c (fun k => { k with garageEntry := some ⟨some s.now, false⟩ })
          dsp := offered (s.cartAddr c) (.cartGarage (s.cart c).garage) s.dsp })))

/-- R59, R86 to R88, R93 to R98, R107, R108, R151: the condition of R86 is that the part is RUNNING with rounds enabled, the
clock set, the time of day in the window (which may span midnight, and is empty when its ends are equal), G, the mean of the
fresh records, stale or below G_dark, and the storm state CALM. An irradiance record past its freshness limit, and an edge of
the round window (the clock reading 0 among them, log 28), leave the round open exactly when that condition holds; an
advisory that is reached is consumed, and takes CALM, WATCH and RELEASE to PARK by a park entry. Planning for an available
robot while the round is open takes the first entry of the due list that fits it: at its own dock's row the robot is
dispatched, its level request made; for another row it claims the row and requests the transfer; with none that fits it waits
with its charge mark. Planning for a row that has entered the list gives it in the same way to the available robot it fits
whose dock slot is nearest, the lower index among equals, and leaves it unclaimed when it fits none (R97). (Stated with no
pass group held for room, which a planning event offers again first, log 53.)
In a park entry a robot ABOARD is listed via transfer whatever its transfer (the model's choice, log 66). -/
def Obligations.RoundAndAdvisoryEvents : Prop :=
  ∀ s : State,
    let fresh := s.mastIds.filterMap (fun m =>
      (s.mast m).irr.bind (fun i => if s.clk.mono ≤ i.time + s.par .mastStale then some i.value else none))
    let tod := s.clk.clock % 86400
    let need (r : Nat) : Nat := ((s.row r).cfg.length * s.par .passCost + 999) / 1000 + s.par .chargeReserve
    let nearly (x : Nat) (e : DueEntry) : Prop := (s.row e.row).cfg.lane = (s.robot x).lane ∧
      (e.claimant = none ∨ e.claimant = some x) ∧ (s.row e.row).sup.levelFault = false ∧
      (s.row e.row).sup.reported = some .tracking ∧
      ((s.row e.row).sup.occupant = none ∧ (s.row e.row).sup.reservation = none ∨ (s.row e.row).sup.occupant = some x)
    let fits (x : Nat) (e : DueEntry) : Prop := nearly x e ∧ need e.row ≤ (s.robot x).charge
    let free (x : Nat) : Prop := s.robotOk x = true ∧ (s.robot x).state = .docked ∧ (s.robot x).ctrl = .auto ∧
      (s.robot x).asg = none ∧ (s.robot x).link = none ∧ (s.robot x).park = none
    -- u: robot x, docked at row d, has been given row r
    let given (x d r : Nat) (u : State) : Prop := Frame s u ∧
      (r = d → (s.row d).sup.levelClaim = none →
        (u.robot x).asg = some ⟨d, .leveling,
          decide (2 * (s.row d).cfg.sDue.getD (s.par .sDueDefault) ≤ (s.row d).soil.s), none, false, none, false⟩ ∧
        (u.robot x).claim = none ∧ (∀ b ∈ u.rnd.due, b.row ≠ d) ∧ (u.row d).sup.levelClaim = some x ∧
        (∀ b, (u.row d).banks.opened = some b → b.disturbed = true) ∧
        ((s.row d).sup.demand = .track → (s.row d).sup.stowClaim = false → s.dsp.routine.length < 256 →
          (∀ y ∈ s.dsp.routine, ¬(y.owner = .row ∧ y.dest = s.rowAddr d ∧ (y.order = .rowLevel ∨ y.order = .rowRelease))) →
          u.dsp.routine = s.dsp.routine ++ [⟨s.rowAddr d, .rowLevel, s.dsp.nextTag, true, .row⟩])) ∧
      (r ≠ d → (s.row r).sup.occupant = none → (s.lane (s.robot x).lane).length < 16 →
        s.lane (s.robot x).lane ≠ [] ∨ s.stm.state ≠ .calm ∨ s.eligibleCarts (s.robot x).lane = [] →
        (u.robot x).claim = some r ∧ (∃ b ∈ u.rnd.due, b.row = r ∧ b.claimant = some x) ∧
        (u.robot x).link = some .queued ∧ (u.row r).sup.reservation = some ⟨x, none⟩ ∧
        u.lane (s.robot x).lane = s.lane (s.robot x).lane ++ [⟨x, d, r, s.now, .round⟩]) ∧
      (r ≠ d → (s.row r).sup.occupant = none → 16 ≤ (s.lane (s.robot x).lane).length →
        (u.robot x).claim = none ∧ (u.robot x).link = none ∧ (u.row r).sup = (s.row r).sup)
    s.siteG = (if fresh = [] then none else some (fresh.sum / fresh.length)) ∧
    (s.roundCondition = true ↔ s.ctl.mode = .running ∧ s.par .roundsEnabled ≠ 0 ∧ s.clk.set = true ∧
      (s.par .windowStart < s.par .windowEnd ∧ s.par .windowStart ≤ tod ∧ tod < s.par .windowEnd ∨
        s.par .windowEnd < s.par .windowStart ∧ (s.par .windowStart ≤ tod ∨ tod < s.par .windowEnd)) ∧
      (s.siteG = none ∨ ∃ g, s.siteG = some g ∧ g < s.par .gDark) ∧ s.stm.state = .calm) ∧
    (∀ m i, (s.mast m).irr = some i → i.time + s.par .mastStale < s.now →
      ∃ u, exec (.mastRecordStale m) s = .next u ∧ Frame s u ∧ u.rnd.isOpen = u.roundCondition) ∧
    (s.running = true → s.clk.set = true →
      s.tod = s.par .windowStart ∨ s.tod = s.par .windowEnd ∨ s.clk.clock = 0 →
      ∃ u, exec .roundWindowEdge s = .next u ∧ Frame s u ∧ u.rnd.isOpen = u.roundCondition ∧
        (s.rnd.isOpen = true → s.stm.state = .calm → s.par .roundsEnabled ≠ 0 → s.windowOpen = false →
          u.rnd.reason = some .window) ∧
        (∀ x, s.rnd.isOpen = false → s.roundCondition = true → s.robotIds = [x] →
          exec .roundWindowEdge s = .next (noteQueues (planRobot x { s with
            rnd := { s.rnd with isOpen := true, openedAt := some s.clk.clock }
            rows := s.rows.map (fun r => { r with sup := { r.sup with levelFault := false } })
            robots := s.robots.map (fun k => { k with mark := none }) })))) ∧
    (∀ a, s.running = true → s.clk.set = true → s.stm.advisory = some a → a.parkEntry ≤ s.clk.clock →
      ∃ u, exec .advisoryReached s = .next u ∧ StormFrame (s.setStm (fun m => { m with advisory := none })) u ∧
        (s.stm.state = .lockout → u.stm.state = .lockout) ∧
        (s.stm.state ≠ .lockout → u.stm.state = .park ∨ u.stm.state = .secured) ∧
        (s.stm.state = .calm ∨ s.stm.state = .watch ∨ s.stm.state = .release → ParkEntered s u)) ∧
    (∀ x d, s.rnd.isOpen = true → s.heldRound = false → free x → (s.robot x).pos = some (.dock d) →
      let u := planRobot x s
      ((∀ e ∈ s.rnd.due, ¬fits x e) → ∃ m, u = s.updRobot x (fun k => { k with mark := m }) ∧
        (m = none ↔ ∀ e ∈ s.rnd.due, ¬nearly x e) ∧
        ∀ n, m = some n → (∃ e ∈ s.rnd.due, nearly x e ∧ need e.row = n) ∧
          ∀ e ∈ s.rnd.due, nearly x e → n ≤ need e.row) ∧
      (∀ l e l', s.rnd.due = l ++ e :: l' → (∀ b ∈ l, ¬fits x b) → fits x e →
        (u.robot x).mark = none ∧ given x d e.row u)) ∧
    (∀ r e, s.rnd.isOpen = true → s.heldRound = false → s.dueEntry r = some e →
      ((∀ x, free x → ¬fits x e) → planRow r s = s) ∧
      (∀ x d, free x → fits x e → (s.robot x).pos = some (.dock d) →
        (∀ y, free y → fits y e → ∃ c, (s.robot y).pos = some (.dock c) ∧
          (slotDist (s.row d).cfg.slot (s.row r).cfg.slot < slotDist (s.row c).cfg.slot (s.row r).cfg.slot ∨
            slotDist (s.row d).cfg.slot (s.row r).cfg.slot = slotDist (s.row c).cfg.slot (s.row r).cfg.slot ∧ x ≤ y)) →
        given x d r (planRow r s)))

/-- R48 to R50, R53, R62, R69: the aligned boundary of the open epoch swaps it, handing its banks and its close to a walk and
taking the staging store, or is held behind a walk in flight; nothing but epochs, banks, staging store and EPOCH_VOID changes. -/
def Obligations.EpochBoundaryTaken : Prop :=
  ∀ (s : State) (e : Epoch), s.ep.epoch = some e → s.ep.held = none →
    e.nominalEnd - e.startPlant ≤ s.clk.mono - e.startMono →
    (s.yld.walk.isSome = true → exec .epochBoundary s = .next { s with ep := { s.ep with held := some ⟨false⟩ } }) ∧
    (s.yld.walk = none → ∃ u, exec .epochBoundary s = .next u ∧ Swapped s u e e.voidMark ∧ SwapTakes s u ∧
      u.ep.acc = s.ep.acc ∧
      (∀ p : Param, p ≠ .epochS → u.par p = s.par p) ∧
      (∀ r, { u.row r with banks := (s.row r).banks } = s.row r) ∧
      { u with
        rows := s.rows, ep := s.ep, yld := s.yld, ntc := s.ntc, up := { u.up with queue := s.up.queue }
        ctl := { u.ctl with params := s.ctl.params } } = s ∧ FlagsKept s u ∧ LinksKept s u)

/-- R50, R53, R56, R57, R69 to R77, R81, R85, R90: one step of the close walk takes the row under the cursor: a row without a
closing bank is passed by; a void row gains one void epoch; a thin or full row is settled and priced as YieldArithmetic says,
and its due judgement is handed on. No other row's record changes. With a row to follow the walk goes on, its cursor at the
index after the row (the model's choice: log 57). The last row's step ends it: the totals are added to the accumulators, the
energy sums and the two counts saturating, which are sent as one ACCOUNT REPORT when the walk count then stands at
report_divider + 1 or more (compared anew after a refused report: log 61) and a place is free; the batch in hand is applied; a
held close is swapped. What the planner does with a judgement is stated with the round closed. -/
def Obligations.WalkStepTaken : Prop :=
  ∀ (s : State) (w : Walk) (r : Nat), s.yld.walk = some w → s.rowFrom w.cursor = some r →
    let row := s.row r
    let void (b : Bank) : Prop :=
      w.siteVoid = true ∨ row.cfg.iref = 0 ∨ b.disturbed = true ∨ b.broken = true ∨ b.staged = true
    let thin (b : Bank) : Prop := b.valid < s.par .minSamples
    let k (b : Bank) : Soil × Bool :=
      if b.valid < s.par .minSamples then (row.soil, false) else row.soil.settle (s.par .smoothing) (b.ratioSum / b.valid)
    let e (b : Bank) := energyTerms row.cfg.prated w.gbar w.t (k b).1 row.acct
    -- the walk with the row's totals
    let onward (v : Walk) : Prop :=
      (row.banks.closing = none → v = { w with cursor := r + 1 }) ∧
      (∀ b, row.banks.closing = some b → void b → v = { w with cursor := r + 1, voids := w.voids + 1 }) ∧
      (∀ b, row.banks.closing = some b → ¬void b → v = { w with
        cursor := r + 1, lost := w.lost + (e b).2.2.1, recovered := w.recovered + (e b).2.2.2.1
        thins := w.thins + (if b.valid < s.par .minSamples then 1 else 0) })
    ∃ u v, exec .walkStep s = .next u ∧ onward v ∧
      (∀ j, (u.row j).sup.reported = (s.row j).sup.reported ∧ (u.row j).sup.occupant = (s.row j).sup.occupant ∧
        (j ≠ r → (u.row j).acct = (s.row j).acct ∧ (u.row j).soil = (s.row j).soil)) ∧
      (∀ x, RobotStill (s.robot x) (u.robot x)) ∧
      (∀ c, CartKept (s.cart c) (u.cart c) ∧ (u.cart c).load = (s.cart c).load) ∧ FlagsKept s u ∧ WindKept s u ∧
      u.clk = s.clk ∧
      (row.banks.closing = none → (u.row r).soil = row.soil ∧ (u.row r).acct = row.acct) ∧
      (∀ b, row.banks.closing = some b → void b → (u.row r).soil = row.soil ∧
        (u.row r).acct = { row.acct with voids := min (row.acct.voids + 1) 4294967295 }) ∧
      (∀ b, row.banks.closing = some b → ¬void b → (u.row r).soil = (e b).1 ∧
        (thin b → (u.row r).acct = { (e b).2.1 with thins := min ((e b).2.1.thins + 1) 4294967295 }) ∧
        (¬thin b → (u.row r).acct = (e b).2.1) ∧
        ((k b).2 = true → hasFlag u.ntc.latched .baselineLow = true) ∧
        ((e b).2.2.2.2 = true → hasFlag u.ntc.latched .accountSaturated = true)) ∧
      ((s.rowFrom (r + 1)).isSome = true →
        u.yld = { s.yld with walk := some v } ∧ u.ep = s.ep ∧ u.ctl = s.ctl ∧ LinksKept s u ∧
        (∀ j, j ≠ r → RowKept (s.row j) (u.row j)) ∧ (u.row r).cfg = row.cfg ∧
        (u.row r).banks.closing = row.banks.closing ∧
        (row.banks.closing = none ∨ (∃ b, row.banks.closing = some b ∧ void b) →
          s.rnd.isOpen = false ∨ s.stm.state ≠ .park → u.rnd = s.rnd) ∧
        (∀ b, row.banks.closing = some b → ¬void b → s.rnd.isOpen = false →
          (∀ x a, (s.robot x).asg = some a → a.row ≠ r) →
          (∀ n, u.judge r = .due n → ∃ d ∈ u.rnd.due, d.row = r ∧ d.u = n) ∧
          (∀ n, u.judge r = .hold n → ∀ d ∈ u.rnd.due, d.row = r → d.u = n) ∧
          (u.judge r = .clear → ∀ d ∈ u.rnd.due, d.row ≠ r))) ∧
      (s.rowFrom (r + 1) = none →
        let old := s.ep.acc
        let a : Accum :=
          { walks := old.walks + 1
            lost := min (old.lost + v.lost) 4294967295, recovered := min (old.recovered + v.recovered) 4294967295
            voids := min (old.voids + v.voids) 4294967295, thins := min (old.thins + v.thins) 4294967295
            firstStart := match old.firstStart with
              | some b => some b
              | none => some v.start
            lastEnd := v.endTime, totalT := old.totalT + v.t, epochs := old.epochs + 1 }
        (s.ep.acc.walks < s.par .reportDivider ∨ 64 ≤ s.up.queue.length → u.ep.acc = a) ∧
        (s.par .reportDivider ≤ s.ep.acc.walks → s.up.queue.length < (if row.banks.closing = none then 64 else 63) →
          u.ep.acc = Accum.zero ∧ ∃ p, p.length = 30 ∧ UpEntry.report p ∈ u.up.queue ∧
            (a.firstStart.getD 0 < 4294967296 → a.lastEnd < 4294967296 → a.totalT < 4294967296 → a.epochs < 65536 →
              p = be 4 (a.firstStart.getD 0) ++ be 4 a.lastEnd ++ be 4 a.totalT ++ be 2 a.epochs ++ be 4 a.lost ++
                be 4 a.recovered ++ be 4 a.voids ++ be 4 a.thins)) ∧
        (∀ g, s.ep.batch = some g → (∀ j, (u.row j).cfg = (g.rows.get j).apply (s.row j).cfg) ∧
          ∀ p : Param, p ≠ .epochS → u.par p = (g.params.get p.info.index).getD (s.par p)) ∧
        (s.ep.batch = none → ∀ j, (u.row j).cfg = (s.row j).cfg) ∧
        (s.ep.held = none → u.yld.walk = none ∧ u.ep.epoch = s.ep.epoch ∧ u.ep.staging = s.ep.staging ∧
          u.ep.batch = none) ∧
        (∀ h p, s.ep.held = some h → s.ep.epoch = some p → s.ep.batch = none → s.rnd.isOpen = false →
          Swapped s u p p.voidMark ∧ (h.noTake = false → SwapTakes s u) ∧
          (h.noTake = true → u.ep.staging = s.ep.staging ∧ u.ep.batch = none)))

/-! ### Arithmetic and records -/

/-- R72 to R76: a full epoch's mean ratio settles a soiling record by capture or by smoothing; energy added to a counter
and its residue is conserved, 3,600,000,000 residue units to a watt-hour, and saturates at the limit. -/
def Obligations.YieldArithmetic : Prop :=
  (∀ (o : Soil) (k p : Nat),
    let out := o.settle k p
    (o.capture = true → 2048 ≤ p → out = ({ o with b := some p, capture := false }, false)) ∧
    (o.capture = true → p < 2048 → out = (o, true)) ∧
    (o.capture = false → o.b = none → out = (o, false)) ∧
    (∀ b, o.capture = false → o.b = some b → o.s ≤ 1000 → 0 < b →
      let l := (b - p) * 1000 / b
      out.2 = false ∧ { out.1 with s := o.s } = o ∧ 2 ^ k * out.1.s ≤ o.s * (2 ^ k - 1) + l ∧
        o.s * (2 ^ k - 1) + l < 2 ^ k * (out.1.s + 1) ∧ out.1.s ≤ 1000)) ∧
  (∀ (counter residue n : Nat), counter ≤ 4294967295 → residue < 3600000000 →
    let e := addEnergy counter residue n
    e.counter = counter + e.added ∧ e.counter ≤ 4294967295 ∧ e.residue < 3600000000 ∧
    (e.saturated = false → e.counter * 3600000000 + e.residue = counter * 3600000000 + residue + n) ∧
    (e.saturated = true → e.counter = 4294967295 ∧ e.residue = 0 ∧
      4294967296 * 3600000000 ≤ counter * 3600000000 + residue + n)) ∧
  (∀ (prated g t : Nat) (o : Soil) (a : Account),
    let e := energyTerms prated g t o a
    let l := addEnergy a.lost a.lostRes (prated * g * o.s * t)
    e.2.1.lost = l.counter ∧ e.2.1.lostRes = l.residue ∧ e.2.2.1 = l.added ∧ { e.1 with sPre := o.sPre } = o ∧
    (o.sPre = none → e.1 = o ∧ e.2.2.2.1 = 0 ∧ e.2.1.recovered = a.recovered ∧ e.2.1.recoveredRes = a.recoveredRes ∧
      e.2.2.2.2 = l.saturated) ∧
    (∀ p, o.sPre = some p →
      let r := addEnergy a.recovered a.recoveredRes (prated * g * (p - o.s) * t)
      e.2.1.recovered = r.counter ∧ e.2.1.recoveredRes = r.residue ∧ e.2.2.2.1 = r.added ∧
      e.2.2.2.2 = (l.saturated || r.saturated) ∧ e.1.sPre = (if p ≤ o.s then none else some p)))

/-- R79, R80, R90: a row's due judgement, and what the Round Planner does with it while the round is closed and no robot
holds an assignment for the row: a DUE row enters the due list, a row in it takes the new urgency, and a CLEAR row without a
claimant leaves it. In an open round a row that enters the list is planned (what `planRow` then does, R97, is stated in
RoundAndAdvisoryEvents). -/
def Obligations.DueJudgementTaken : Prop :=
  ∀ (s : State) (r : Nat),
    let row := s.row r
    let threshold := row.cfg.sDue.getD (s.par .sDueDefault)
    let u := row.soil.s * row.cfg.prated / 1000
    let outside := row.cfg.node = none ∨ row.cfg.iref = 0 ∨ row.soil.b = none
    (outside → s.judge r = .clear) ∧
    (¬outside → threshold ≤ row.soil.s → s.judge r = .due u) ∧
    (¬outside → row.soil.s < threshold → row.soil.s + s.par .dueHysteresis ≤ threshold → s.judge r = .clear) ∧
    (¬outside → row.soil.s < threshold → threshold < row.soil.s + s.par .dueHysteresis → s.judge r = .hold u) ∧
    (s.rnd.isOpen = false → (∀ x a, (s.robot x).asg = some a → a.row ≠ r) → DueLaw s →
      let t := takeJudgement r s
      DueLaw t ∧ { t with rnd := s.rnd } = s ∨ (∃ e x, s.dueEntry r = some e ∧ e.claimant = some x ∧ s.judge r = .clear)) ∧
    (s.rnd.isOpen = false → (∀ x a, (s.robot x).asg = some a → a.row ≠ r) →
      (∀ w, s.dueEntry r = none → s.judge r = .due w →
        ∀ e, e ∈ (takeJudgement r s).rnd.due ↔ e ∈ s.rnd.due ∨ e = ⟨r, w, s.clk.clock, none⟩) ∧
      (∀ d w, s.dueEntry r = some d → s.judge r = .due w ∨ s.judge r = .hold w →
        ∀ e, e ∈ (takeJudgement r s).rnd.due ↔ (e ∈ s.rnd.due ∧ e.row ≠ r) ∨ e = { d with u := w }) ∧
      (∀ d, s.dueEntry r = some d → s.judge r = .clear → d.claimant = none →
        ∀ e, e ∈ (takeJudgement r s).rnd.due ↔ e ∈ s.rnd.due ∧ e.row ≠ r) ∧
      (s.dueEntry r = none → (∀ w, s.judge r ≠ .due w) → takeJudgement r s = s)) ∧
    (∀ w, s.rnd.isOpen = true → (∀ x a, (s.robot x).asg = some a → a.row ≠ r) → s.dueEntry r = none → s.judge r = .due w →
      ∃ v, takeJudgement r s = planRow r v ∧ { v with rnd := s.rnd } = s ∧ { v.rnd with due := s.rnd.due } = s.rnd ∧
        (DueLaw s → DueLaw v) ∧ ∀ e, e ∈ v.rnd.due ↔ e ∈ s.rnd.due ∨ e = ⟨r, w, s.clk.clock, none⟩)

/-- R6: the demand of every row is what its two claims give, STOW before LEVEL before TRACK: so it is after reset, every step
keeps it so, and working the demand of a row out again makes it so and changes no other row. -/
def Obligations.DemandFollowsClaims : Prop :=
  DemandLaw State.reset ∧ (∀ s t : State, DemandLaw s → step s = .next t → DemandLaw t) ∧
  ∀ (s : State) (r : Nat),
    let t := (applyDemand r s).1
    (t.row r).sup.stowClaim = (s.row r).sup.stowClaim ∧ (t.row r).sup.levelClaim = (s.row r).sup.levelClaim ∧
    ((t.row r).sup.demand = .stow ↔ (s.row r).sup.stowClaim = true) ∧
    ((t.row r).sup.demand = .level ↔ (s.row r).sup.stowClaim = false ∧ (s.row r).sup.levelClaim.isSome = true) ∧
    ((t.row r).sup.demand = .track ↔ (s.row r).sup.stowClaim = false ∧ (s.row r).sup.levelClaim = none) ∧
    (∀ j, j ≠ r → t.row j = s.row j)
end

