-- ==== Sys2Proof/Laws/Table.lean ====
section
/-! SUPPORT. What a table operation does: reading after a write, reading after a change of every record, the indices of
records that satisfy a condition, equality of tables from equal records. -/

namespace Sys2Proof.Machine

variable {α : Type} {d : α}

theorem tabGet_of_lt {l : List (Nat × α)} {k : Nat} (h : ∀ x ∈ l, k < x.1) : tabGet d l k = d := by
  induction l with
  | nil => rfl
  | cons x t ih =>
    have := h x (List.mem_cons_self ..)
    simp only [tabGet]
    rw [if_neg (by omega)]
    exact ih fun y hy => h y (List.mem_cons_of_mem _ hy)

theorem tabGet_mem {l : List (Nat × α)} (h : l.Pairwise (fun a b => a.1 < b.1)) {x : Nat × α} (hx : x ∈ l) :
    tabGet d l x.1 = x.2 := by
  induction l with
  | nil => cases hx
  | cons y t ih =>
    rw [List.pairwise_cons] at h
    rcases List.mem_cons.1 hx with rfl | hx
    · simp [tabGet]
    · have := h.1 x hx
      simp only [tabGet]
      rw [if_neg (by omega)]
      exact ih h.2 hx

theorem tabGet_eq_or_mem (l : List (Nat × α)) (k : Nat) : tabGet d l k = d ∨ (k, tabGet d l k) ∈ l := by
  induction l with
  | nil => exact .inl rfl
  | cons y t ih =>
    simp only [tabGet]
    split
    · next h => subst h; exact .inr (List.mem_cons_self ..)
    · exact ih.imp id fun h => List.mem_cons_of_mem _ h

theorem tabGet_tabSet [DecidableEq α] {l : List (Nat × α)} (h : TabWf d l) (k : Nat) (v : α) (j : Nat) :
    tabGet d (tabSet d l k v) j = if j = k then v else tabGet d l j := by
  replace h := h.1
  induction l with
  | nil =>
    by_cases hv : v = d
    · simp [tabSet, hv, tabGet]
    · by_cases hj : j = k
      · simp [tabSet, hv, tabGet, hj]
      · simp [tabSet, hv, tabGet, hj, Ne.symm hj]
  | cons y t ih =>
    rw [List.pairwise_cons] at h
    have hlow : ∀ i, i ≤ y.1 → tabGet d t i = d := fun i hi => tabGet_of_lt fun x hx => lt_of_le_of_lt hi (h.1 x hx)
    have ih := ih h.2
    simp only [tabSet]
    by_cases h1 : k < y.1
    · rw [if_pos h1]
      by_cases hv : v = d
      · rw [if_pos hv]
        by_cases hj : j = k
        · subst hj
          rw [if_pos rfl, hv]
          simp only [tabGet]
          rw [if_neg (by omega)]
          exact hlow j (by omega)
        · rw [if_neg hj]
      · rw [if_neg hv]
        by_cases hj : j = k
        · simp [tabGet, hj]
        · rw [if_neg hj]
          conv_lhs => rw [tabGet]
          rw [if_neg (Ne.symm hj)]
    · rw [if_neg h1]
      by_cases h2 : k = y.1
      · rw [if_pos h2]
        by_cases hj : j = k
        · rw [if_pos hj]
          by_cases hv : v = d
          · rw [if_pos hv, hj, hlow k (by omega), hv]
          · simp [hv, tabGet, hj]
        · rw [if_neg hj]
          have : ¬ y.1 = j := by omega
          by_cases hv : v = d
          · simp [hv, tabGet, this]
          · simp [hv, tabGet, this, Ne.symm hj]
      · rw [if_neg h2]
        simp only [tabGet]
        by_cases hj : y.1 = j
        · rw [if_pos hj, if_pos hj, if_neg (by omega)]
        · rw [if_neg hj, if_neg hj, ih]

theorem tabGet_tabMap [DecidableEq α] {l : List (Nat × α)} (h : TabWf d l) {f : α → α} (hf : f d = d) (j : Nat) :
    tabGet d (tabMap d f l) j = f (tabGet d l j) := by
  replace h := h.1
  induction l with
  | nil => exact hf.symm
  | cons y t ih =>
    rw [List.pairwise_cons] at h
    have ih := ih h.2
    simp only [tabMap] at ih ⊢
    rw [List.filterMap_cons]
    by_cases hy : f y.2 = d
    · simp only [hy, if_true]
      rw [ih]
      simp only [tabGet]
      split
      · next e =>
        subst e
        rw [tabGet_of_lt (fun x hx => h.1 x hx), hf, hy]
      · rfl
    · simp only [hy, if_false, tabGet]
      split
      · rfl
      · exact ih

variable [DecidableEq α]

@[simp] theorem Tab.get_set (t : Tab d) (k j : Nat) (v : α) : (t.set k v).get j = if j = k then v else t.get j :=
  tabGet_tabSet t.2 k v j

@[simp] theorem Tab.get_upd (t : Tab d) (k j : Nat) (f : α → α) :
    (t.upd k f).get j = if j = k then f (t.get k) else t.get j :=
  tabGet_tabSet t.2 k _ j

theorem Tab.get_map (t : Tab d) {f : α → α} (hf : f d = d) (j : Nat) : (t.map f).get j = f (t.get j) :=
  tabGet_tabMap t.2 hf j

omit [DecidableEq α] in
@[simp] theorem Tab.get_empty (j : Nat) : (Tab.empty d).get j = d := rfl

omit [DecidableEq α] in
/-- The indices that idsWhere lists, for a condition that the reset record fails. -/
theorem Tab.mem_idsWhere (t : Tab d) {p : α → Bool} (hp : p d = false) (k : Nat) :
    k ∈ t.idsWhere p ↔ p (t.get k) = true := by
  simp only [Tab.idsWhere, List.mem_filterMap, Tab.get]
  constructor
  · rintro ⟨x, hx, h⟩
    split at h
    · next hpx =>
      simp only [Option.some.injEq] at h
      rw [← h, tabGet_mem t.2.1 hx, hpx]
    · exact absurd h (by simp)
  · intro h
    rcases tabGet_eq_or_mem (d := d) t.1 k with e | e
    · rw [e, hp] at h; exact absurd h (by simp)
    · exact ⟨_, e, by simp [h]⟩

omit [DecidableEq α] in
/-- The indices of idsWhere satisfy the condition, whatever the reset record does. -/
theorem Tab.of_mem_idsWhere (t : Tab d) {p : α → Bool} {k : Nat} (h : k ∈ t.idsWhere p) : p (t.get k) = true := by
  simp only [Tab.idsWhere, List.mem_filterMap, Tab.get] at h ⊢
  obtain ⟨x, hx, h⟩ := h
  split at h
  · next hpx =>
    simp only [Option.some.injEq] at h
    rw [← h, tabGet_mem t.2.1 hx, hpx]
  · exact absurd h (by simp)

omit [DecidableEq α] in
/-- Whether some record satisfies a condition that the reset record fails. -/
theorem Tab.anyRec_iff (t : Tab d) {p : α → Bool} (hp : p d = false) : t.anyRec p = true ↔ ∃ k, p (t.get k) = true := by
  simp only [Tab.anyRec, List.any_eq_true, Tab.get]
  constructor
  · rintro ⟨x, hx, h⟩
    exact ⟨x.1, by rw [tabGet_mem t.2.1 hx, h]⟩
  · rintro ⟨k, h⟩
    rcases tabGet_eq_or_mem (d := d) t.1 k with e | e
    · rw [e, hp] at h; exact absurd h (by simp)
    · exact ⟨_, e, h⟩

omit [DecidableEq α] in
/-- Whether every record satisfies a condition that the reset record satisfies. -/
theorem Tab.allRec_iff (t : Tab d) {p : α → Bool} (hp : p d = true) : t.allRec p = true ↔ ∀ k, p (t.get k) = true := by
  simp only [Tab.allRec, List.all_eq_true, Tab.get]
  constructor
  · intro h k
    rcases tabGet_eq_or_mem (d := d) t.1 k with e | e
    · rw [e, hp]
    · exact h _ e
  · intro h x hx
    rw [← tabGet_mem (d := d) t.2.1 hx]
    exact h _

omit [DecidableEq α] in
/-- Tables that read the same everywhere are the same. -/
theorem Tab.ext_get {t u : Tab d} (h : ∀ k, t.get k = u.get k) : t = u := by
  obtain ⟨l, hl, hl'⟩ := t
  obtain ⟨m, hm, hm'⟩ := u
  congr 1
  simp only [Tab.get] at h
  induction l generalizing m with
  | nil =>
    cases m with
    | nil => rfl
    | cons y t =>
      have := h y.1
      rw [tabGet_mem hm (List.mem_cons_self ..)] at this
      exact absurd this.symm (hm' y (List.mem_cons_self ..))
  | cons x l ih =>
    cases m with
    | nil =>
      have := h x.1
      rw [tabGet_mem hl (List.mem_cons_self ..)] at this
      exact absurd this (hl' x (List.mem_cons_self ..))
    | cons y m =>
      have hx := h x.1
      have hy := h y.1
      rw [tabGet_mem hl (List.mem_cons_self ..)] at hx
      rw [tabGet_mem hm (List.mem_cons_self ..)] at hy
      rw [List.pairwise_cons] at hl hm
      have e : x.1 = y.1 := by
        rcases lt_trichotomy x.1 y.1 with lt | e | lt
        · rw [tabGet_of_lt (d := d)] at hx
          · exact absurd hx (hl' x (List.mem_cons_self ..))
          · intro z hz
            rcases List.mem_cons.1 hz with rfl | hz
            · exact lt
            · exact lt_trans lt (hm.1 z hz)
        · exact e
        · rw [tabGet_of_lt (d := d)] at hy
          · exact absurd hy.symm (hm' y (List.mem_cons_self ..))
          · intro z hz
            rcases List.mem_cons.1 hz with rfl | hz
            · exact lt
            · exact lt_trans lt (hl.1 z hz)
      have e2 : x.2 = y.2 := by
        rw [hx]
        simp [tabGet, e]
      have : x = y := Prod.ext e e2
      subst this
      congr 1
      refine ih hl.2 (fun z hz => hl' z (List.mem_cons_of_mem _ hz)) _ hm.2 (fun z hz => hm' z (List.mem_cons_of_mem _ hz)) ?_
      intro k
      have hk := h k
      simp only [tabGet] at hk
      by_cases hxk : x.1 = k
      · subst hxk
        rw [tabGet_of_lt (fun z hz => hl.1 z hz), tabGet_of_lt (fun z hz => hm.1 z hz)]
      · rw [if_neg hxk, if_neg hxk] at hk
        exact hk

end Sys2Proof.Machine
end

