-- ==== Sys2Proof/Laws/State.lean ====
section
/-! SUPPORT. One lemma per field per update of the state, and reading a record after a change. -/

namespace Sys2Proof.Machine

/-! ### The fields an update leaves as they are -/

@[simp] theorem State.updCfg_pending (s : State) (r : Nat) (f : RowCfg → RowCfg) : (s.updCfg r f).pending = s.pending := rfl
@[simp] theorem State.updCfg_clk (s : State) (r : Nat) (f : RowCfg → RowCfg) : (s.updCfg r f).clk = s.clk := rfl
@[simp] theorem State.updCfg_ep (s : State) (r : Nat) (f : RowCfg → RowCfg) : (s.updCfg r f).ep = s.ep := rfl
@[simp] theorem State.updCfg_ctl (s : State) (r : Nat) (f : RowCfg → RowCfg) : (s.updCfg r f).ctl = s.ctl := rfl
@[simp] theorem State.updCfg_ntc (s : State) (r : Nat) (f : RowCfg → RowCfg) : (s.updCfg r f).ntc = s.ntc := rfl
@[simp] theorem State.updCfg_up (s : State) (r : Nat) (f : RowCfg → RowCfg) : (s.updCfg r f).up = s.up := rfl
@[simp] theorem State.updCfg_dsp (s : State) (r : Nat) (f : RowCfg → RowCfg) : (s.updCfg r f).dsp = s.dsp := rfl
@[simp] theorem State.updCfg_lookup (s : State) (r : Nat) (f : RowCfg → RowCfg) : (s.updCfg r f).lookup = s.lookup := rfl
@[simp] theorem State.updCfg_robots (s : State) (r : Nat) (f : RowCfg → RowCfg) : (s.updCfg r f).robots = s.robots := rfl
@[simp] theorem State.updCfg_carts (s : State) (r : Nat) (f : RowCfg → RowCfg) : (s.updCfg r f).carts = s.carts := rfl
@[simp] theorem State.updCfg_masts (s : State) (r : Nat) (f : RowCfg → RowCfg) : (s.updCfg r f).masts = s.masts := rfl
@[simp] theorem State.updCfg_yld (s : State) (r : Nat) (f : RowCfg → RowCfg) : (s.updCfg r f).yld = s.yld := rfl
@[simp] theorem State.updCfg_rnd (s : State) (r : Nat) (f : RowCfg → RowCfg) : (s.updCfg r f).rnd = s.rnd := rfl
@[simp] theorem State.updCfg_laneQ (s : State) (r : Nat) (f : RowCfg → RowCfg) : (s.updCfg r f).laneQ = s.laneQ := rfl
@[simp] theorem State.updCfg_stm (s : State) (r : Nat) (f : RowCfg → RowCfg) : (s.updCfg r f).stm = s.stm := rfl
@[simp] theorem State.updCfg_swp (s : State) (r : Nat) (f : RowCfg → RowCfg) : (s.updCfg r f).swp = s.swp := rfl
@[simp] theorem State.updCfg_choices (s : State) (r : Nat) (f : RowCfg → RowCfg) : (s.updCfg r f).choices = s.choices := rfl

@[simp] theorem State.updSup_pending (s : State) (r : Nat) (f : RowSup → RowSup) : (s.updSup r f).pending = s.pending := rfl
@[simp] theorem State.updSup_clk (s : State) (r : Nat) (f : RowSup → RowSup) : (s.updSup r f).clk = s.clk := rfl
@[simp] theorem State.updSup_ep (s : State) (r : Nat) (f : RowSup → RowSup) : (s.updSup r f).ep = s.ep := rfl
@[simp] theorem State.updSup_ctl (s : State) (r : Nat) (f : RowSup → RowSup) : (s.updSup r f).ctl = s.ctl := rfl
@[simp] theorem State.updSup_ntc (s : State) (r : Nat) (f : RowSup → RowSup) : (s.updSup r f).ntc = s.ntc := rfl
@[simp] theorem State.updSup_up (s : State) (r : Nat) (f : RowSup → RowSup) : (s.updSup r f).up = s.up := rfl
@[simp] theorem State.updSup_dsp (s : State) (r : Nat) (f : RowSup → RowSup) : (s.updSup r f).dsp = s.dsp := rfl
@[simp] theorem State.updSup_lookup (s : State) (r : Nat) (f : RowSup → RowSup) : (s.updSup r f).lookup = s.lookup := rfl
@[simp] theorem State.updSup_robots (s : State) (r : Nat) (f : RowSup → RowSup) : (s.updSup r f).robots = s.robots := rfl
@[simp] theorem State.updSup_carts (s : State) (r : Nat) (f : RowSup → RowSup) : (s.updSup r f).carts = s.carts := rfl
@[simp] theorem State.updSup_masts (s : State) (r : Nat) (f : RowSup → RowSup) : (s.updSup r f).masts = s.masts := rfl
@[simp] theorem State.updSup_yld (s : State) (r : Nat) (f : RowSup → RowSup) : (s.updSup r f).yld = s.yld := rfl
@[simp] theorem State.updSup_rnd (s : State) (r : Nat) (f : RowSup → RowSup) : (s.updSup r f).rnd = s.rnd := rfl
@[simp] theorem State.updSup_laneQ (s : State) (r : Nat) (f : RowSup → RowSup) : (s.updSup r f).laneQ = s.laneQ := rfl
@[simp] theorem State.updSup_stm (s : State) (r : Nat) (f : RowSup → RowSup) : (s.updSup r f).stm = s.stm := rfl
@[simp] theorem State.updSup_swp (s : State) (r : Nat) (f : RowSup → RowSup) : (s.updSup r f).swp = s.swp := rfl
@[simp] theorem State.updSup_choices (s : State) (r : Nat) (f : RowSup → RowSup) : (s.updSup r f).choices = s.choices := rfl

@[simp] theorem State.updStow_pending (s : State) (r : Nat) (f : Stow → Stow) : (s.updStow r f).pending = s.pending := rfl
@[simp] theorem State.updStow_clk (s : State) (r : Nat) (f : Stow → Stow) : (s.updStow r f).clk = s.clk := rfl
@[simp] theorem State.updStow_ep (s : State) (r : Nat) (f : Stow → Stow) : (s.updStow r f).ep = s.ep := rfl
@[simp] theorem State.updStow_ctl (s : State) (r : Nat) (f : Stow → Stow) : (s.updStow r f).ctl = s.ctl := rfl
@[simp] theorem State.updStow_ntc (s : State) (r : Nat) (f : Stow → Stow) : (s.updStow r f).ntc = s.ntc := rfl
@[simp] theorem State.updStow_up (s : State) (r : Nat) (f : Stow → Stow) : (s.updStow r f).up = s.up := rfl
@[simp] theorem State.updStow_dsp (s : State) (r : Nat) (f : Stow → Stow) : (s.updStow r f).dsp = s.dsp := rfl
@[simp] theorem State.updStow_lookup (s : State) (r : Nat) (f : Stow → Stow) : (s.updStow r f).lookup = s.lookup := rfl
@[simp] theorem State.updStow_robots (s : State) (r : Nat) (f : Stow → Stow) : (s.updStow r f).robots = s.robots := rfl
@[simp] theorem State.updStow_carts (s : State) (r : Nat) (f : Stow → Stow) : (s.updStow r f).carts = s.carts := rfl
@[simp] theorem State.updStow_masts (s : State) (r : Nat) (f : Stow → Stow) : (s.updStow r f).masts = s.masts := rfl
@[simp] theorem State.updStow_yld (s : State) (r : Nat) (f : Stow → Stow) : (s.updStow r f).yld = s.yld := rfl
@[simp] theorem State.updStow_rnd (s : State) (r : Nat) (f : Stow → Stow) : (s.updStow r f).rnd = s.rnd := rfl
@[simp] theorem State.updStow_laneQ (s : State) (r : Nat) (f : Stow → Stow) : (s.updStow r f).laneQ = s.laneQ := rfl
@[simp] theorem State.updStow_stm (s : State) (r : Nat) (f : Stow → Stow) : (s.updStow r f).stm = s.stm := rfl
@[simp] theorem State.updStow_swp (s : State) (r : Nat) (f : Stow → Stow) : (s.updStow r f).swp = s.swp := rfl
@[simp] theorem State.updStow_choices (s : State) (r : Nat) (f : Stow → Stow) : (s.updStow r f).choices = s.choices := rfl

@[simp] theorem State.updRel_pending (s : State) (r : Nat) (f : Option RelEntry → Option RelEntry) : (s.updRel r f).pending = s.pending := rfl
@[simp] theorem State.updRel_clk (s : State) (r : Nat) (f : Option RelEntry → Option RelEntry) : (s.updRel r f).clk = s.clk := rfl
@[simp] theorem State.updRel_ep (s : State) (r : Nat) (f : Option RelEntry → Option RelEntry) : (s.updRel r f).ep = s.ep := rfl
@[simp] theorem State.updRel_ctl (s : State) (r : Nat) (f : Option RelEntry → Option RelEntry) : (s.updRel r f).ctl = s.ctl := rfl
@[simp] theorem State.updRel_ntc (s : State) (r : Nat) (f : Option RelEntry → Option RelEntry) : (s.updRel r f).ntc = s.ntc := rfl
@[simp] theorem State.updRel_up (s : State) (r : Nat) (f : Option RelEntry → Option RelEntry) : (s.updRel r f).up = s.up := rfl
@[simp] theorem State.updRel_dsp (s : State) (r : Nat) (f : Option RelEntry → Option RelEntry) : (s.updRel r f).dsp = s.dsp := rfl
@[simp] theorem State.updRel_lookup (s : State) (r : Nat) (f : Option RelEntry → Option RelEntry) : (s.updRel r f).lookup = s.lookup := rfl
@[simp] theorem State.updRel_robots (s : State) (r : Nat) (f : Option RelEntry → Option RelEntry) : (s.updRel r f).robots = s.robots := rfl
@[simp] theorem State.updRel_carts (s : State) (r : Nat) (f : Option RelEntry → Option RelEntry) : (s.updRel r f).carts = s.carts := rfl
@[simp] theorem State.updRel_masts (s : State) (r : Nat) (f : Option RelEntry → Option RelEntry) : (s.updRel r f).masts = s.masts := rfl
@[simp] theorem State.updRel_yld (s : State) (r : Nat) (f : Option RelEntry → Option RelEntry) : (s.updRel r f).yld = s.yld := rfl
@[simp] theorem State.updRel_rnd (s : State) (r : Nat) (f : Option RelEntry → Option RelEntry) : (s.updRel r f).rnd = s.rnd := rfl
@[simp] theorem State.updRel_laneQ (s : State) (r : Nat) (f : Option RelEntry → Option RelEntry) : (s.updRel r f).laneQ = s.laneQ := rfl
@[simp] theorem State.updRel_stm (s : State) (r : Nat) (f : Option RelEntry → Option RelEntry) : (s.updRel r f).stm = s.stm := rfl
@[simp] theorem State.updRel_swp (s : State) (r : Nat) (f : Option RelEntry → Option RelEntry) : (s.updRel r f).swp = s.swp := rfl
@[simp] theorem State.updRel_choices (s : State) (r : Nat) (f : Option RelEntry → Option RelEntry) : (s.updRel r f).choices = s.choices := rfl

@[simp] theorem State.updSoil_pending (s : State) (r : Nat) (f : Soil → Soil) : (s.updSoil r f).pending = s.pending := rfl
@[simp] theorem State.updSoil_clk (s : State) (r : Nat) (f : Soil → Soil) : (s.updSoil r f).clk = s.clk := rfl
@[simp] theorem State.updSoil_ep (s : State) (r : Nat) (f : Soil → Soil) : (s.updSoil r f).ep = s.ep := rfl
@[simp] theorem State.updSoil_ctl (s : State) (r : Nat) (f : Soil → Soil) : (s.updSoil r f).ctl = s.ctl := rfl
@[simp] theorem State.updSoil_ntc (s : State) (r : Nat) (f : Soil → Soil) : (s.updSoil r f).ntc = s.ntc := rfl
@[simp] theorem State.updSoil_up (s : State) (r : Nat) (f : Soil → Soil) : (s.updSoil r f).up = s.up := rfl
@[simp] theorem State.updSoil_dsp (s : State) (r : Nat) (f : Soil → Soil) : (s.updSoil r f).dsp = s.dsp := rfl
@[simp] theorem State.updSoil_lookup (s : State) (r : Nat) (f : Soil → Soil) : (s.updSoil r f).lookup = s.lookup := rfl
@[simp] theorem State.updSoil_robots (s : State) (r : Nat) (f : Soil → Soil) : (s.updSoil r f).robots = s.robots := rfl
@[simp] theorem State.updSoil_carts (s : State) (r : Nat) (f : Soil → Soil) : (s.updSoil r f).carts = s.carts := rfl
@[simp] theorem State.updSoil_masts (s : State) (r : Nat) (f : Soil → Soil) : (s.updSoil r f).masts = s.masts := rfl
@[simp] theorem State.updSoil_yld (s : State) (r : Nat) (f : Soil → Soil) : (s.updSoil r f).yld = s.yld := rfl
@[simp] theorem State.updSoil_rnd (s : State) (r : Nat) (f : Soil → Soil) : (s.updSoil r f).rnd = s.rnd := rfl
@[simp] theorem State.updSoil_laneQ (s : State) (r : Nat) (f : Soil → Soil) : (s.updSoil r f).laneQ = s.laneQ := rfl
@[simp] theorem State.updSoil_stm (s : State) (r : Nat) (f : Soil → Soil) : (s.updSoil r f).stm = s.stm := rfl
@[simp] theorem State.updSoil_swp (s : State) (r : Nat) (f : Soil → Soil) : (s.updSoil r f).swp = s.swp := rfl
@[simp] theorem State.updSoil_choices (s : State) (r : Nat) (f : Soil → Soil) : (s.updSoil r f).choices = s.choices := rfl

@[simp] theorem State.updAcct_pending (s : State) (r : Nat) (f : Account → Account) : (s.updAcct r f).pending = s.pending := rfl
@[simp] theorem State.updAcct_clk (s : State) (r : Nat) (f : Account → Account) : (s.updAcct r f).clk = s.clk := rfl
@[simp] theorem State.updAcct_ep (s : State) (r : Nat) (f : Account → Account) : (s.updAcct r f).ep = s.ep := rfl
@[simp] theorem State.updAcct_ctl (s : State) (r : Nat) (f : Account → Account) : (s.updAcct r f).ctl = s.ctl := rfl
@[simp] theorem State.updAcct_ntc (s : State) (r : Nat) (f : Account → Account) : (s.updAcct r f).ntc = s.ntc := rfl
@[simp] theorem State.updAcct_up (s : State) (r : Nat) (f : Account → Account) : (s.updAcct r f).up = s.up := rfl
@[simp] theorem State.updAcct_dsp (s : State) (r : Nat) (f : Account → Account) : (s.updAcct r f).dsp = s.dsp := rfl
@[simp] theorem State.updAcct_lookup (s : State) (r : Nat) (f : Account → Account) : (s.updAcct r f).lookup = s.lookup := rfl
@[simp] theorem State.updAcct_robots (s : State) (r : Nat) (f : Account → Account) : (s.updAcct r f).robots = s.robots := rfl
@[simp] theorem State.updAcct_carts (s : State) (r : Nat) (f : Account → Account) : (s.updAcct r f).carts = s.carts := rfl
@[simp] theorem State.updAcct_masts (s : State) (r : Nat) (f : Account → Account) : (s.updAcct r f).masts = s.masts := rfl
@[simp] theorem State.updAcct_yld (s : State) (r : Nat) (f : Account → Account) : (s.updAcct r f).yld = s.yld := rfl
@[simp] theorem State.updAcct_rnd (s : State) (r : Nat) (f : Account → Account) : (s.updAcct r f).rnd = s.rnd := rfl
@[simp] theorem State.updAcct_laneQ (s : State) (r : Nat) (f : Account → Account) : (s.updAcct r f).laneQ = s.laneQ := rfl
@[simp] theorem State.updAcct_stm (s : State) (r : Nat) (f : Account → Account) : (s.updAcct r f).stm = s.stm := rfl
@[simp] theorem State.updAcct_swp (s : State) (r : Nat) (f : Account → Account) : (s.updAcct r f).swp = s.swp := rfl
@[simp] theorem State.updAcct_choices (s : State) (r : Nat) (f : Account → Account) : (s.updAcct r f).choices = s.choices := rfl

@[simp] theorem State.updBanks_pending (s : State) (r : Nat) (f : Banks → Banks) : (s.updBanks r f).pending = s.pending := rfl
@[simp] theorem State.updBanks_clk (s : State) (r : Nat) (f : Banks → Banks) : (s.updBanks r f).clk = s.clk := rfl
@[simp] theorem State.updBanks_ep (s : State) (r : Nat) (f : Banks → Banks) : (s.updBanks r f).ep = s.ep := rfl
@[simp] theorem State.updBanks_ctl (s : State) (r : Nat) (f : Banks → Banks) : (s.updBanks r f).ctl = s.ctl := rfl
@[simp] theorem State.updBanks_ntc (s : State) (r : Nat) (f : Banks → Banks) : (s.updBanks r f).ntc = s.ntc := rfl
@[simp] theorem State.updBanks_up (s : State) (r : Nat) (f : Banks → Banks) : (s.updBanks r f).up = s.up := rfl
@[simp] theorem State.updBanks_dsp (s : State) (r : Nat) (f : Banks → Banks) : (s.updBanks r f).dsp = s.dsp := rfl
@[simp] theorem State.updBanks_lookup (s : State) (r : Nat) (f : Banks → Banks) : (s.updBanks r f).lookup = s.lookup := rfl
@[simp] theorem State.updBanks_robots (s : State) (r : Nat) (f : Banks → Banks) : (s.updBanks r f).robots = s.robots := rfl
@[simp] theorem State.updBanks_carts (s : State) (r : Nat) (f : Banks → Banks) : (s.updBanks r f).carts = s.carts := rfl
@[simp] theorem State.updBanks_masts (s : State) (r : Nat) (f : Banks → Banks) : (s.updBanks r f).masts = s.masts := rfl
@[simp] theorem State.updBanks_yld (s : State) (r : Nat) (f : Banks → Banks) : (s.updBanks r f).yld = s.yld := rfl
@[simp] theorem State.updBanks_rnd (s : State) (r : Nat) (f : Banks → Banks) : (s.updBanks r f).rnd = s.rnd := rfl
@[simp] theorem State.updBanks_laneQ (s : State) (r : Nat) (f : Banks → Banks) : (s.updBanks r f).laneQ = s.laneQ := rfl
@[simp] theorem State.updBanks_stm (s : State) (r : Nat) (f : Banks → Banks) : (s.updBanks r f).stm = s.stm := rfl
@[simp] theorem State.updBanks_swp (s : State) (r : Nat) (f : Banks → Banks) : (s.updBanks r f).swp = s.swp := rfl
@[simp] theorem State.updBanks_choices (s : State) (r : Nat) (f : Banks → Banks) : (s.updBanks r f).choices = s.choices := rfl

@[simp] theorem State.updRobot_pending (s : State) (x : Nat) (f : Robot → Robot) : (s.updRobot x f).pending = s.pending := rfl
@[simp] theorem State.updRobot_clk (s : State) (x : Nat) (f : Robot → Robot) : (s.updRobot x f).clk = s.clk := rfl
@[simp] theorem State.updRobot_ep (s : State) (x : Nat) (f : Robot → Robot) : (s.updRobot x f).ep = s.ep := rfl
@[simp] theorem State.updRobot_ctl (s : State) (x : Nat) (f : Robot → Robot) : (s.updRobot x f).ctl = s.ctl := rfl
@[simp] theorem State.updRobot_ntc (s : State) (x : Nat) (f : Robot → Robot) : (s.updRobot x f).ntc = s.ntc := rfl
@[simp] theorem State.updRobot_up (s : State) (x : Nat) (f : Robot → Robot) : (s.updRobot x f).up = s.up := rfl
@[simp] theorem State.updRobot_dsp (s : State) (x : Nat) (f : Robot → Robot) : (s.updRobot x f).dsp = s.dsp := rfl
@[simp] theorem State.updRobot_lookup (s : State) (x : Nat) (f : Robot → Robot) : (s.updRobot x f).lookup = s.lookup := rfl
@[simp] theorem State.updRobot_rows (s : State) (x : Nat) (f : Robot → Robot) : (s.updRobot x f).rows = s.rows := rfl
@[simp] theorem State.updRobot_carts (s : State) (x : Nat) (f : Robot → Robot) : (s.updRobot x f).carts = s.carts := rfl
@[simp] theorem State.updRobot_masts (s : State) (x : Nat) (f : Robot → Robot) : (s.updRobot x f).masts = s.masts := rfl
@[simp] theorem State.updRobot_yld (s : State) (x : Nat) (f : Robot → Robot) : (s.updRobot x f).yld = s.yld := rfl
@[simp] theorem State.updRobot_rnd (s : State) (x : Nat) (f : Robot → Robot) : (s.updRobot x f).rnd = s.rnd := rfl
@[simp] theorem State.updRobot_laneQ (s : State) (x : Nat) (f : Robot → Robot) : (s.updRobot x f).laneQ = s.laneQ := rfl
@[simp] theorem State.updRobot_stm (s : State) (x : Nat) (f : Robot → Robot) : (s.updRobot x f).stm = s.stm := rfl
@[simp] theorem State.updRobot_swp (s : State) (x : Nat) (f : Robot → Robot) : (s.updRobot x f).swp = s.swp := rfl
@[simp] theorem State.updRobot_choices (s : State) (x : Nat) (f : Robot → Robot) : (s.updRobot x f).choices = s.choices := rfl

@[simp] theorem State.updCart_pending (s : State) (c : Nat) (f : Cart → Cart) : (s.updCart c f).pending = s.pending := rfl
@[simp] theorem State.updCart_clk (s : State) (c : Nat) (f : Cart → Cart) : (s.updCart c f).clk = s.clk := rfl
@[simp] theorem State.updCart_ep (s : State) (c : Nat) (f : Cart → Cart) : (s.updCart c f).ep = s.ep := rfl
@[simp] theorem State.updCart_ctl (s : State) (c : Nat) (f : Cart → Cart) : (s.updCart c f).ctl = s.ctl := rfl
@[simp] theorem State.updCart_ntc (s : State) (c : Nat) (f : Cart → Cart) : (s.updCart c f).ntc = s.ntc := rfl
@[simp] theorem State.updCart_up (s : State) (c : Nat) (f : Cart → Cart) : (s.updCart c f).up = s.up := rfl
@[simp] theorem State.updCart_dsp (s : State) (c : Nat) (f : Cart → Cart) : (s.updCart c f).dsp = s.dsp := rfl
@[simp] theorem State.updCart_lookup (s : State) (c : Nat) (f : Cart → Cart) : (s.updCart c f).lookup = s.lookup := rfl
@[simp] theorem State.updCart_rows (s : State) (c : Nat) (f : Cart → Cart) : (s.updCart c f).rows = s.rows := rfl
@[simp] theorem State.updCart_robots (s : State) (c : Nat) (f : Cart → Cart) : (s.updCart c f).robots = s.robots := rfl
@[simp] theorem State.updCart_masts (s : State) (c : Nat) (f : Cart → Cart) : (s.updCart c f).masts = s.masts := rfl
@[simp] theorem State.updCart_yld (s : State) (c : Nat) (f : Cart → Cart) : (s.updCart c f).yld = s.yld := rfl
@[simp] theorem State.updCart_rnd (s : State) (c : Nat) (f : Cart → Cart) : (s.updCart c f).rnd = s.rnd := rfl
@[simp] theorem State.updCart_laneQ (s : State) (c : Nat) (f : Cart → Cart) : (s.updCart c f).laneQ = s.laneQ := rfl
@[simp] theorem State.updCart_stm (s : State) (c : Nat) (f : Cart → Cart) : (s.updCart c f).stm = s.stm := rfl
@[simp] theorem State.updCart_swp (s : State) (c : Nat) (f : Cart → Cart) : (s.updCart c f).swp = s.swp := rfl
@[simp] theorem State.updCart_choices (s : State) (c : Nat) (f : Cart → Cart) : (s.updCart c f).choices = s.choices := rfl

@[simp] theorem State.updMast_pending (s : State) (m : Nat) (f : Mast → Mast) : (s.updMast m f).pending = s.pending := rfl
@[simp] theorem State.updMast_clk (s : State) (m : Nat) (f : Mast → Mast) : (s.updMast m f).clk = s.clk := rfl
@[simp] theorem State.updMast_ep (s : State) (m : Nat) (f : Mast → Mast) : (s.updMast m f).ep = s.ep := rfl
@[simp] theorem State.updMast_ctl (s : State) (m : Nat) (f : Mast → Mast) : (s.updMast m f).ctl = s.ctl := rfl
@[simp] theorem State.updMast_ntc (s : State) (m : Nat) (f : Mast → Mast) : (s.updMast m f).ntc = s.ntc := rfl
@[simp] theorem State.updMast_up (s : State) (m : Nat) (f : Mast → Mast) : (s.updMast m f).up = s.up := rfl
@[simp] theorem State.updMast_dsp (s : State) (m : Nat) (f : Mast → Mast) : (s.updMast m f).dsp = s.dsp := rfl
@[simp] theorem State.updMast_lookup (s : State) (m : Nat) (f : Mast → Mast) : (s.updMast m f).lookup = s.lookup := rfl
@[simp] theorem State.updMast_rows (s : State) (m : Nat) (f : Mast → Mast) : (s.updMast m f).rows = s.rows := rfl
@[simp] theorem State.updMast_robots (s : State) (m : Nat) (f : Mast → Mast) : (s.updMast m f).robots = s.robots := rfl
@[simp] theorem State.updMast_carts (s : State) (m : Nat) (f : Mast → Mast) : (s.updMast m f).carts = s.carts := rfl
@[simp] theorem State.updMast_yld (s : State) (m : Nat) (f : Mast → Mast) : (s.updMast m f).yld = s.yld := rfl
@[simp] theorem State.updMast_rnd (s : State) (m : Nat) (f : Mast → Mast) : (s.updMast m f).rnd = s.rnd := rfl
@[simp] theorem State.updMast_laneQ (s : State) (m : Nat) (f : Mast → Mast) : (s.updMast m f).laneQ = s.laneQ := rfl
@[simp] theorem State.updMast_stm (s : State) (m : Nat) (f : Mast → Mast) : (s.updMast m f).stm = s.stm := rfl
@[simp] theorem State.updMast_swp (s : State) (m : Nat) (f : Mast → Mast) : (s.updMast m f).swp = s.swp := rfl
@[simp] theorem State.updMast_choices (s : State) (m : Nat) (f : Mast → Mast) : (s.updMast m f).choices = s.choices := rfl

@[simp] theorem State.mapSup_pending (s : State) (f : RowSup → RowSup) : (s.mapSup f).pending = s.pending := rfl
@[simp] theorem State.mapSup_clk (s : State) (f : RowSup → RowSup) : (s.mapSup f).clk = s.clk := rfl
@[simp] theorem State.mapSup_ep (s : State) (f : RowSup → RowSup) : (s.mapSup f).ep = s.ep := rfl
@[simp] theorem State.mapSup_ctl (s : State) (f : RowSup → RowSup) : (s.mapSup f).ctl = s.ctl := rfl
@[simp] theorem State.mapSup_ntc (s : State) (f : RowSup → RowSup) : (s.mapSup f).ntc = s.ntc := rfl
@[simp] theorem State.mapSup_up (s : State) (f : RowSup → RowSup) : (s.mapSup f).up = s.up := rfl
@[simp] theorem State.mapSup_dsp (s : State) (f : RowSup → RowSup) : (s.mapSup f).dsp = s.dsp := rfl
@[simp] theorem State.mapSup_lookup (s : State) (f : RowSup → RowSup) : (s.mapSup f).lookup = s.lookup := rfl
@[simp] theorem State.mapSup_robots (s : State) (f : RowSup → RowSup) : (s.mapSup f).robots = s.robots := rfl
@[simp] theorem State.mapSup_carts (s : State) (f : RowSup → RowSup) : (s.mapSup f).carts = s.carts := rfl
@[simp] theorem State.mapSup_masts (s : State) (f : RowSup → RowSup) : (s.mapSup f).masts = s.masts := rfl
@[simp] theorem State.mapSup_yld (s : State) (f : RowSup → RowSup) : (s.mapSup f).yld = s.yld := rfl
@[simp] theorem State.mapSup_rnd (s : State) (f : RowSup → RowSup) : (s.mapSup f).rnd = s.rnd := rfl
@[simp] theorem State.mapSup_laneQ (s : State) (f : RowSup → RowSup) : (s.mapSup f).laneQ = s.laneQ := rfl
@[simp] theorem State.mapSup_stm (s : State) (f : RowSup → RowSup) : (s.mapSup f).stm = s.stm := rfl
@[simp] theorem State.mapSup_swp (s : State) (f : RowSup → RowSup) : (s.mapSup f).swp = s.swp := rfl
@[simp] theorem State.mapSup_choices (s : State) (f : RowSup → RowSup) : (s.mapSup f).choices = s.choices := rfl

@[simp] theorem State.mapStow_pending (s : State) (f : Stow → Stow) : (s.mapStow f).pending = s.pending := rfl
@[simp] theorem State.mapStow_clk (s : State) (f : Stow → Stow) : (s.mapStow f).clk = s.clk := rfl
@[simp] theorem State.mapStow_ep (s : State) (f : Stow → Stow) : (s.mapStow f).ep = s.ep := rfl
@[simp] theorem State.mapStow_ctl (s : State) (f : Stow → Stow) : (s.mapStow f).ctl = s.ctl := rfl
@[simp] theorem State.mapStow_ntc (s : State) (f : Stow → Stow) : (s.mapStow f).ntc = s.ntc := rfl
@[simp] theorem State.mapStow_up (s : State) (f : Stow → Stow) : (s.mapStow f).up = s.up := rfl
@[simp] theorem State.mapStow_dsp (s : State) (f : Stow → Stow) : (s.mapStow f).dsp = s.dsp := rfl
@[simp] theorem State.mapStow_lookup (s : State) (f : Stow → Stow) : (s.mapStow f).lookup = s.lookup := rfl
@[simp] theorem State.mapStow_robots (s : State) (f : Stow → Stow) : (s.mapStow f).robots = s.robots := rfl
@[simp] theorem State.mapStow_carts (s : State) (f : Stow → Stow) : (s.mapStow f).carts = s.carts := rfl
@[simp] theorem State.mapStow_masts (s : State) (f : Stow → Stow) : (s.mapStow f).masts = s.masts := rfl
@[simp] theorem State.mapStow_yld (s : State) (f : Stow → Stow) : (s.mapStow f).yld = s.yld := rfl
@[simp] theorem State.mapStow_rnd (s : State) (f : Stow → Stow) : (s.mapStow f).rnd = s.rnd := rfl
@[simp] theorem State.mapStow_laneQ (s : State) (f : Stow → Stow) : (s.mapStow f).laneQ = s.laneQ := rfl
@[simp] theorem State.mapStow_stm (s : State) (f : Stow → Stow) : (s.mapStow f).stm = s.stm := rfl
@[simp] theorem State.mapStow_swp (s : State) (f : Stow → Stow) : (s.mapStow f).swp = s.swp := rfl
@[simp] theorem State.mapStow_choices (s : State) (f : Stow → Stow) : (s.mapStow f).choices = s.choices := rfl

@[simp] theorem State.setDsp_pending (s : State) (f : Dispatcher → Dispatcher) : (s.setDsp f).pending = s.pending := rfl
@[simp] theorem State.setDsp_clk (s : State) (f : Dispatcher → Dispatcher) : (s.setDsp f).clk = s.clk := rfl
@[simp] theorem State.setDsp_ep (s : State) (f : Dispatcher → Dispatcher) : (s.setDsp f).ep = s.ep := rfl
@[simp] theorem State.setDsp_ctl (s : State) (f : Dispatcher → Dispatcher) : (s.setDsp f).ctl = s.ctl := rfl
@[simp] theorem State.setDsp_ntc (s : State) (f : Dispatcher → Dispatcher) : (s.setDsp f).ntc = s.ntc := rfl
@[simp] theorem State.setDsp_up (s : State) (f : Dispatcher → Dispatcher) : (s.setDsp f).up = s.up := rfl
@[simp] theorem State.setDsp_lookup (s : State) (f : Dispatcher → Dispatcher) : (s.setDsp f).lookup = s.lookup := rfl
@[simp] theorem State.setDsp_rows (s : State) (f : Dispatcher → Dispatcher) : (s.setDsp f).rows = s.rows := rfl
@[simp] theorem State.setDsp_robots (s : State) (f : Dispatcher → Dispatcher) : (s.setDsp f).robots = s.robots := rfl
@[simp] theorem State.setDsp_carts (s : State) (f : Dispatcher → Dispatcher) : (s.setDsp f).carts = s.carts := rfl
@[simp] theorem State.setDsp_masts (s : State) (f : Dispatcher → Dispatcher) : (s.setDsp f).masts = s.masts := rfl
@[simp] theorem State.setDsp_yld (s : State) (f : Dispatcher → Dispatcher) : (s.setDsp f).yld = s.yld := rfl
@[simp] theorem State.setDsp_rnd (s : State) (f : Dispatcher → Dispatcher) : (s.setDsp f).rnd = s.rnd := rfl
@[simp] theorem State.setDsp_laneQ (s : State) (f : Dispatcher → Dispatcher) : (s.setDsp f).laneQ = s.laneQ := rfl
@[simp] theorem State.setDsp_stm (s : State) (f : Dispatcher → Dispatcher) : (s.setDsp f).stm = s.stm := rfl
@[simp] theorem State.setDsp_swp (s : State) (f : Dispatcher → Dispatcher) : (s.setDsp f).swp = s.swp := rfl
@[simp] theorem State.setDsp_choices (s : State) (f : Dispatcher → Dispatcher) : (s.setDsp f).choices = s.choices := rfl

@[simp] theorem State.setStm_pending (s : State) (f : StormUnit → StormUnit) : (s.setStm f).pending = s.pending := rfl
@[simp] theorem State.setStm_clk (s : State) (f : StormUnit → StormUnit) : (s.setStm f).clk = s.clk := rfl
@[simp] theorem State.setStm_ep (s : State) (f : StormUnit → StormUnit) : (s.setStm f).ep = s.ep := rfl
@[simp] theorem State.setStm_ctl (s : State) (f : StormUnit → StormUnit) : (s.setStm f).ctl = s.ctl := rfl
@[simp] theorem State.setStm_ntc (s : State) (f : StormUnit → StormUnit) : (s.setStm f).ntc = s.ntc := rfl
@[simp] theorem State.setStm_up (s : State) (f : StormUnit → StormUnit) : (s.setStm f).up = s.up := rfl
@[simp] theorem State.setStm_dsp (s : State) (f : StormUnit → StormUnit) : (s.setStm f).dsp = s.dsp := rfl
@[simp] theorem State.setStm_lookup (s : State) (f : StormUnit → StormUnit) : (s.setStm f).lookup = s.lookup := rfl
@[simp] theorem State.setStm_rows (s : State) (f : StormUnit → StormUnit) : (s.setStm f).rows = s.rows := rfl
@[simp] theorem State.setStm_robots (s : State) (f : StormUnit → StormUnit) : (s.setStm f).robots = s.robots := rfl
@[simp] theorem State.setStm_carts (s : State) (f : StormUnit → StormUnit) : (s.setStm f).carts = s.carts := rfl
@[simp] theorem State.setStm_masts (s : State) (f : StormUnit → StormUnit) : (s.setStm f).masts = s.masts := rfl
@[simp] theorem State.setStm_yld (s : State) (f : StormUnit → StormUnit) : (s.setStm f).yld = s.yld := rfl
@[simp] theorem State.setStm_rnd (s : State) (f : StormUnit → StormUnit) : (s.setStm f).rnd = s.rnd := rfl
@[simp] theorem State.setStm_laneQ (s : State) (f : StormUnit → StormUnit) : (s.setStm f).laneQ = s.laneQ := rfl
@[simp] theorem State.setStm_swp (s : State) (f : StormUnit → StormUnit) : (s.setStm f).swp = s.swp := rfl
@[simp] theorem State.setStm_choices (s : State) (f : StormUnit → StormUnit) : (s.setStm f).choices = s.choices := rfl

@[simp] theorem State.setRnd_pending (s : State) (f : Planner → Planner) : (s.setRnd f).pending = s.pending := rfl
@[simp] theorem State.setRnd_clk (s : State) (f : Planner → Planner) : (s.setRnd f).clk = s.clk := rfl
@[simp] theorem State.setRnd_ep (s : State) (f : Planner → Planner) : (s.setRnd f).ep = s.ep := rfl
@[simp] theorem State.setRnd_ctl (s : State) (f : Planner → Planner) : (s.setRnd f).ctl = s.ctl := rfl
@[simp] theorem State.setRnd_ntc (s : State) (f : Planner → Planner) : (s.setRnd f).ntc = s.ntc := rfl
@[simp] theorem State.setRnd_up (s : State) (f : Planner → Planner) : (s.setRnd f).up = s.up := rfl
@[simp] theorem State.setRnd_dsp (s : State) (f : Planner → Planner) : (s.setRnd f).dsp = s.dsp := rfl
@[simp] theorem State.setRnd_lookup (s : State) (f : Planner → Planner) : (s.setRnd f).lookup = s.lookup := rfl
@[simp] theorem State.setRnd_rows (s : State) (f : Planner → Planner) : (s.setRnd f).rows = s.rows := rfl
@[simp] theorem State.setRnd_robots (s : State) (f : Planner → Planner) : (s.setRnd f).robots = s.robots := rfl
@[simp] theorem State.setRnd_carts (s : State) (f : Planner → Planner) : (s.setRnd f).carts = s.carts := rfl
@[simp] theorem State.setRnd_masts (s : State) (f : Planner → Planner) : (s.setRnd f).masts = s.masts := rfl
@[simp] theorem State.setRnd_yld (s : State) (f : Planner → Planner) : (s.setRnd f).yld = s.yld := rfl
@[simp] theorem State.setRnd_laneQ (s : State) (f : Planner → Planner) : (s.setRnd f).laneQ = s.laneQ := rfl
@[simp] theorem State.setRnd_stm (s : State) (f : Planner → Planner) : (s.setRnd f).stm = s.stm := rfl
@[simp] theorem State.setRnd_swp (s : State) (f : Planner → Planner) : (s.setRnd f).swp = s.swp := rfl
@[simp] theorem State.setRnd_choices (s : State) (f : Planner → Planner) : (s.setRnd f).choices = s.choices := rfl

@[simp] theorem State.setEp_pending (s : State) (f : EpochUnit → EpochUnit) : (s.setEp f).pending = s.pending := rfl
@[simp] theorem State.setEp_clk (s : State) (f : EpochUnit → EpochUnit) : (s.setEp f).clk = s.clk := rfl
@[simp] theorem State.setEp_ctl (s : State) (f : EpochUnit → EpochUnit) : (s.setEp f).ctl = s.ctl := rfl
@[simp] theorem State.setEp_ntc (s : State) (f : EpochUnit → EpochUnit) : (s.setEp f).ntc = s.ntc := rfl
@[simp] theorem State.setEp_up (s : State) (f : EpochUnit → EpochUnit) : (s.setEp f).up = s.up := rfl
@[simp] theorem State.setEp_dsp (s : State) (f : EpochUnit → EpochUnit) : (s.setEp f).dsp = s.dsp := rfl
@[simp] theorem State.setEp_lookup (s : State) (f : EpochUnit → EpochUnit) : (s.setEp f).lookup = s.lookup := rfl
@[simp] theorem State.setEp_rows (s : State) (f : EpochUnit → EpochUnit) : (s.setEp f).rows = s.rows := rfl
@[simp] theorem State.setEp_robots (s : State) (f : EpochUnit → EpochUnit) : (s.setEp f).robots = s.robots := rfl
@[simp] theorem State.setEp_carts (s : State) (f : EpochUnit → EpochUnit) : (s.setEp f).carts = s.carts := rfl
@[simp] theorem State.setEp_masts (s : State) (f : EpochUnit → EpochUnit) : (s.setEp f).masts = s.masts := rfl
@[simp] theorem State.setEp_yld (s : State) (f : EpochUnit → EpochUnit) : (s.setEp f).yld = s.yld := rfl
@[simp] theorem State.setEp_rnd (s : State) (f : EpochUnit → EpochUnit) : (s.setEp f).rnd = s.rnd := rfl
@[simp] theorem State.setEp_laneQ (s : State) (f : EpochUnit → EpochUnit) : (s.setEp f).laneQ = s.laneQ := rfl
@[simp] theorem State.setEp_stm (s : State) (f : EpochUnit → EpochUnit) : (s.setEp f).stm = s.stm := rfl
@[simp] theorem State.setEp_swp (s : State) (f : EpochUnit → EpochUnit) : (s.setEp f).swp = s.swp := rfl
@[simp] theorem State.setEp_choices (s : State) (f : EpochUnit → EpochUnit) : (s.setEp f).choices = s.choices := rfl

@[simp] theorem State.setYld_pending (s : State) (f : YieldUnit → YieldUnit) : (s.setYld f).pending = s.pending := rfl
@[simp] theorem State.setYld_clk (s : State) (f : YieldUnit → YieldUnit) : (s.setYld f).clk = s.clk := rfl
@[simp] theorem State.setYld_ep (s : State) (f : YieldUnit → YieldUnit) : (s.setYld f).ep = s.ep := rfl
@[simp] theorem State.setYld_ctl (s : State) (f : YieldUnit → YieldUnit) : (s.setYld f).ctl = s.ctl := rfl
@[simp] theorem State.setYld_ntc (s : State) (f : YieldUnit → YieldUnit) : (s.setYld f).ntc = s.ntc := rfl
@[simp] theorem State.setYld_up (s : State) (f : YieldUnit → YieldUnit) : (s.setYld f).up = s.up := rfl
@[simp] theorem State.setYld_dsp (s : State) (f : YieldUnit → YieldUnit) : (s.setYld f).dsp = s.dsp := rfl
@[simp] theorem State.setYld_lookup (s : State) (f : YieldUnit → YieldUnit) : (s.setYld f).lookup = s.lookup := rfl
@[simp] theorem State.setYld_rows (s : State) (f : YieldUnit → YieldUnit) : (s.setYld f).rows = s.rows := rfl
@[simp] theorem State.setYld_robots (s : State) (f : YieldUnit → YieldUnit) : (s.setYld f).robots = s.robots := rfl
@[simp] theorem State.setYld_carts (s : State) (f : YieldUnit → YieldUnit) : (s.setYld f).carts = s.carts := rfl
@[simp] theorem State.setYld_masts (s : State) (f : YieldUnit → YieldUnit) : (s.setYld f).masts = s.masts := rfl
@[simp] theorem State.setYld_rnd (s : State) (f : YieldUnit → YieldUnit) : (s.setYld f).rnd = s.rnd := rfl
@[simp] theorem State.setYld_laneQ (s : State) (f : YieldUnit → YieldUnit) : (s.setYld f).laneQ = s.laneQ := rfl
@[simp] theorem State.setYld_stm (s : State) (f : YieldUnit → YieldUnit) : (s.setYld f).stm = s.stm := rfl
@[simp] theorem State.setYld_swp (s : State) (f : YieldUnit → YieldUnit) : (s.setYld f).swp = s.swp := rfl
@[simp] theorem State.setYld_choices (s : State) (f : YieldUnit → YieldUnit) : (s.setYld f).choices = s.choices := rfl

@[simp] theorem State.setPar_pending (s : State) (p : Param) (v : Nat) : (s.setPar p v).pending = s.pending := rfl
@[simp] theorem State.setPar_clk (s : State) (p : Param) (v : Nat) : (s.setPar p v).clk = s.clk := rfl
@[simp] theorem State.setPar_ep (s : State) (p : Param) (v : Nat) : (s.setPar p v).ep = s.ep := rfl
@[simp] theorem State.setPar_ntc (s : State) (p : Param) (v : Nat) : (s.setPar p v).ntc = s.ntc := rfl
@[simp] theorem State.setPar_up (s : State) (p : Param) (v : Nat) : (s.setPar p v).up = s.up := rfl
@[simp] theorem State.setPar_dsp (s : State) (p : Param) (v : Nat) : (s.setPar p v).dsp = s.dsp := rfl
@[simp] theorem State.setPar_lookup (s : State) (p : Param) (v : Nat) : (s.setPar p v).lookup = s.lookup := rfl
@[simp] theorem State.setPar_rows (s : State) (p : Param) (v : Nat) : (s.setPar p v).rows = s.rows := rfl
@[simp] theorem State.setPar_robots (s : State) (p : Param) (v : Nat) : (s.setPar p v).robots = s.robots := rfl
@[simp] theorem State.setPar_carts (s : State) (p : Param) (v : Nat) : (s.setPar p v).carts = s.carts := rfl
@[simp] theorem State.setPar_masts (s : State) (p : Param) (v : Nat) : (s.setPar p v).masts = s.masts := rfl
@[simp] theorem State.setPar_yld (s : State) (p : Param) (v : Nat) : (s.setPar p v).yld = s.yld := rfl
@[simp] theorem State.setPar_rnd (s : State) (p : Param) (v : Nat) : (s.setPar p v).rnd = s.rnd := rfl
@[simp] theorem State.setPar_laneQ (s : State) (p : Param) (v : Nat) : (s.setPar p v).laneQ = s.laneQ := rfl
@[simp] theorem State.setPar_stm (s : State) (p : Param) (v : Nat) : (s.setPar p v).stm = s.stm := rfl
@[simp] theorem State.setPar_swp (s : State) (p : Param) (v : Nat) : (s.setPar p v).swp = s.swp := rfl
@[simp] theorem State.setPar_choices (s : State) (p : Param) (v : Nat) : (s.setPar p v).choices = s.choices := rfl

@[simp] theorem State.pushUp_pending (s : State) (e : UpEntry) : (s.pushUp e).pending = s.pending := rfl
@[simp] theorem State.pushUp_clk (s : State) (e : UpEntry) : (s.pushUp e).clk = s.clk := rfl
@[simp] theorem State.pushUp_ep (s : State) (e : UpEntry) : (s.pushUp e).ep = s.ep := rfl
@[simp] theorem State.pushUp_ctl (s : State) (e : UpEntry) : (s.pushUp e).ctl = s.ctl := rfl
@[simp] theorem State.pushUp_ntc (s : State) (e : UpEntry) : (s.pushUp e).ntc = s.ntc := rfl
@[simp] theorem State.pushUp_dsp (s : State) (e : UpEntry) : (s.pushUp e).dsp = s.dsp := rfl
@[simp] theorem State.pushUp_lookup (s : State) (e : UpEntry) : (s.pushUp e).lookup = s.lookup := rfl
@[simp] theorem State.pushUp_rows (s : State) (e : UpEntry) : (s.pushUp e).rows = s.rows := rfl
@[simp] theorem State.pushUp_robots (s : State) (e : UpEntry) : (s.pushUp e).robots = s.robots := rfl
@[simp] theorem State.pushUp_carts (s : State) (e : UpEntry) : (s.pushUp e).carts = s.carts := rfl
@[simp] theorem State.pushUp_masts (s : State) (e : UpEntry) : (s.pushUp e).masts = s.masts := rfl
@[simp] theorem State.pushUp_yld (s : State) (e : UpEntry) : (s.pushUp e).yld = s.yld := rfl
@[simp] theorem State.pushUp_rnd (s : State) (e : UpEntry) : (s.pushUp e).rnd = s.rnd := rfl
@[simp] theorem State.pushUp_laneQ (s : State) (e : UpEntry) : (s.pushUp e).laneQ = s.laneQ := rfl
@[simp] theorem State.pushUp_stm (s : State) (e : UpEntry) : (s.pushUp e).stm = s.stm := rfl
@[simp] theorem State.pushUp_swp (s : State) (e : UpEntry) : (s.pushUp e).swp = s.swp := rfl
@[simp] theorem State.pushUp_choices (s : State) (e : UpEntry) : (s.pushUp e).choices = s.choices := rfl

@[simp] theorem State.updLane_pending (s : State) (l : Nat) (f : List Request → List Request) : (s.updLane l f).pending = s.pending := rfl
@[simp] theorem State.updLane_clk (s : State) (l : Nat) (f : List Request → List Request) : (s.updLane l f).clk = s.clk := rfl
@[simp] theorem State.updLane_ep (s : State) (l : Nat) (f : List Request → List Request) : (s.updLane l f).ep = s.ep := rfl
@[simp] theorem State.updLane_ctl (s : State) (l : Nat) (f : List Request → List Request) : (s.updLane l f).ctl = s.ctl := rfl
@[simp] theorem State.updLane_ntc (s : State) (l : Nat) (f : List Request → List Request) : (s.updLane l f).ntc = s.ntc := rfl
@[simp] theorem State.updLane_up (s : State) (l : Nat) (f : List Request → List Request) : (s.updLane l f).up = s.up := rfl
@[simp] theorem State.updLane_dsp (s : State) (l : Nat) (f : List Request → List Request) : (s.updLane l f).dsp = s.dsp := rfl
@[simp] theorem State.updLane_lookup (s : State) (l : Nat) (f : List Request → List Request) : (s.updLane l f).lookup = s.lookup := rfl
@[simp] theorem State.updLane_rows (s : State) (l : Nat) (f : List Request → List Request) : (s.updLane l f).rows = s.rows := rfl
@[simp] theorem State.updLane_robots (s : State) (l : Nat) (f : List Request → List Request) : (s.updLane l f).robots = s.robots := rfl
@[simp] theorem State.updLane_carts (s : State) (l : Nat) (f : List Request → List Request) : (s.updLane l f).carts = s.carts := rfl
@[simp] theorem State.updLane_masts (s : State) (l : Nat) (f : List Request → List Request) : (s.updLane l f).masts = s.masts := rfl
@[simp] theorem State.updLane_yld (s : State) (l : Nat) (f : List Request → List Request) : (s.updLane l f).yld = s.yld := rfl
@[simp] theorem State.updLane_rnd (s : State) (l : Nat) (f : List Request → List Request) : (s.updLane l f).rnd = s.rnd := rfl
@[simp] theorem State.updLane_stm (s : State) (l : Nat) (f : List Request → List Request) : (s.updLane l f).stm = s.stm := rfl
@[simp] theorem State.updLane_swp (s : State) (l : Nat) (f : List Request → List Request) : (s.updLane l f).swp = s.swp := rfl
@[simp] theorem State.updLane_choices (s : State) (l : Nat) (f : List Request → List Request) : (s.updLane l f).choices = s.choices := rfl

@[simp] theorem State.setDsp_self (s : State) (f : Dispatcher → Dispatcher) : (s.setDsp f).dsp = f s.dsp := rfl
@[simp] theorem State.setStm_self (s : State) (f : StormUnit → StormUnit) : (s.setStm f).stm = f s.stm := rfl
@[simp] theorem State.setRnd_self (s : State) (f : Planner → Planner) : (s.setRnd f).rnd = f s.rnd := rfl
@[simp] theorem State.setEp_self (s : State) (f : EpochUnit → EpochUnit) : (s.setEp f).ep = f s.ep := rfl
@[simp] theorem State.setYld_self (s : State) (f : YieldUnit → YieldUnit) : (s.setYld f).yld = f s.yld := rfl

/-! ### Reading a record after a change -/

@[simp] theorem State.row_updCfg (s : State) (r j : Nat) (f : RowCfg → RowCfg) :
    (s.updCfg r f).row j = if j = r then { s.row r with cfg := f (s.row r).cfg } else s.row j :=
  Tab.get_upd s.rows r j _

@[simp] theorem State.row_updSup (s : State) (r j : Nat) (f : RowSup → RowSup) :
    (s.updSup r f).row j = if j = r then { s.row r with sup := f (s.row r).sup } else s.row j :=
  Tab.get_upd s.rows r j _

@[simp] theorem State.row_updStow (s : State) (r j : Nat) (f : Stow → Stow) :
    (s.updStow r f).row j = if j = r then { s.row r with stow := f (s.row r).stow } else s.row j :=
  Tab.get_upd s.rows r j _

@[simp] theorem State.row_updRel (s : State) (r j : Nat) (f : Option RelEntry → Option RelEntry) :
    (s.updRel r f).row j = if j = r then { s.row r with rel := f (s.row r).rel } else s.row j :=
  Tab.get_upd s.rows r j _

@[simp] theorem State.row_updSoil (s : State) (r j : Nat) (f : Soil → Soil) :
    (s.updSoil r f).row j = if j = r then { s.row r with soil := f (s.row r).soil } else s.row j :=
  Tab.get_upd s.rows r j _

@[simp] theorem State.row_updAcct (s : State) (r j : Nat) (f : Account → Account) :
    (s.updAcct r f).row j = if j = r then { s.row r with acct := f (s.row r).acct } else s.row j :=
  Tab.get_upd s.rows r j _

@[simp] theorem State.row_updBanks (s : State) (r j : Nat) (f : Banks → Banks) :
    (s.updBanks r f).row j = if j = r then { s.row r with banks := f (s.row r).banks } else s.row j :=
  Tab.get_upd s.rows r j _

@[simp] theorem State.robot_updRobot (s : State) (i j : Nat) (f : Robot → Robot) :
    (s.updRobot i f).robot j = if j = i then f (s.robot i) else s.robot j :=
  Tab.get_upd s.robots i j _

@[simp] theorem State.cart_updCart (s : State) (i j : Nat) (f : Cart → Cart) :
    (s.updCart i f).cart j = if j = i then f (s.cart i) else s.cart j :=
  Tab.get_upd s.carts i j _

@[simp] theorem State.mast_updMast (s : State) (i j : Nat) (f : Mast → Mast) :
    (s.updMast i f).mast j = if j = i then f (s.mast i) else s.mast j :=
  Tab.get_upd s.masts i j _

theorem State.row_mapSup (s : State) {f : RowSup → RowSup} (h : f RowSup.powerOn = RowSup.powerOn) (j : Nat) :
    (s.mapSup f).row j = { s.row j with sup := f (s.row j).sup } :=
  Tab.get_map s.rows (f := fun x : Row => { x with sup := f x.sup }) (by simp only [Row.powerOn, h]) j

theorem State.row_mapStow (s : State) {f : Stow → Stow} (h : f Stow.unreached = Stow.unreached) (j : Nat) :
    (s.mapStow f).row j = { s.row j with stow := f (s.row j).stow } :=
  Tab.get_map s.rows (f := fun x : Row => { x with stow := f x.stow }) (by simp only [Row.powerOn, h]) j

@[simp] theorem State.lane_updLane (s : State) (l j : Nat) (f : List Request → List Request) :
    (s.updLane l f).lane j = if j = l then f (s.lane l) else s.lane j :=
  Tab.get_upd s.laneQ l j _

/-- The place of a parameter determines it. -/
theorem Param.place_inj {p q : Param} (h : p.place = q.place) : p = q := by
  revert h; cases p <;> cases q <;> decide

@[simp] theorem State.par_setPar (s : State) (p q : Param) (v : Nat) :
    (s.setPar p v).par q = if q = p then v else s.par q := by
  simp only [State.par, State.setPar, Vector.get_eq_getElem, Vector.getElem_set]
  by_cases h : q = p
  · simp [h]
  · have : ¬ (p.place : Nat) = q.place := fun e => h (Param.place_inj (Fin.ext e)).symm
    simp [h, this]

end Sys2Proof.Machine
end

