-- ==== Sys2Proof/Laws/Moves.lean ====
section
/-! SUPPORT. What the blocks can do, said once: a move is one primitive change of the state, and every shared operation
below the commands is a run of moves. A law or a frame that each move keeps is kept by every operation. -/

namespace Sys2Proof.Machine

/-! ### Moves -/

/-- Which kinds of move besides the common ones an operation makes: cleaning completions, openings of the round, changes
of the robots' marks and modes at a storm entry, changes of the storm state and its timers, a cart's load taken away, a
pin taken away, openings and closings of the round (which come with a storm state too). -/
structure Allow where
  clean : Bool := false
  opens : Bool := false
  fleet : Bool := false
  storm : Bool := false
  unload : Bool := false
  unpin : Bool := false
  round : Bool := false

/-- What the first allows, the second allows. -/
structure Allow.Le (A B : Allow) : Prop where
  clean : A.clean = true → B.clean = true
  opens : A.opens = true → B.opens = true
  fleet : A.fleet = true → B.fleet = true
  storm : A.storm = true → B.storm = true
  unload : A.unload = true → B.unload = true
  unpin : A.unpin = true → B.unpin = true
  round : A.round = true ∨ A.storm = true → B.round = true ∨ B.storm = true

/-- A change of the dispatcher that starts and ends no frame, leaves the line alone and keeps the queues' bounds. -/
structure DspOk (d e : Dispatcher) : Prop where
  air : e.air = d.air
  permit : e.permit = d.permit
  fell : e.fell = d.fell
  rx : e.rx = d.rx
  echo : e.echo = d.echo
  routine : e.routine.length ≤ max 256 d.routine.length
  urgent : urgentWork e.urgent ≤ max 128 (urgentWork d.urgent)

/-- A change of a row by the blocks: no configuration, soiling record, account, occupant or reported posture changes, the
banks only in the open bank's disturbed flag, no level-fault mark is cleared, and a pin only where that is allowed. -/
structure RowOk (A : Allow) (x y : Row) : Prop where
  cfg : y.cfg = x.cfg
  soil : y.soil = x.soil
  acct : y.acct = x.acct
  opened : y.banks.opened.map Bank.core = x.banks.opened.map Bank.core
  closing : y.banks.closing = x.banks.closing
  occupant : y.sup.occupant = x.sup.occupant
  reported : y.sup.reported = x.sup.reported
  fault : x.sup.levelFault = true → y.sup.levelFault = true
  pinned : A.unpin = true ∨ (x.sup.pinned = true → y.sup.pinned = true)

/-- A change of a robot by the planner, the Transfer Controller or the Storm Controller: what its reports gave stays. -/
structure RobotOk (x y : Robot) : Prop where
  node : y.node = x.node
  lane : y.lane = x.lane
  state : y.state = x.state
  pos : y.pos = x.pos
  activity : y.activity = x.activity
  charge : y.charge = x.charge
  metres : y.metres = x.metres
  fault : y.fault = x.fault
  heard : y.heard = x.heard
  stranded : y.stranded = x.stranded
  ctrl : y.ctrl = x.ctrl

/-- A change of a robot's marks and mode at a storm entry. -/
structure FleetOk (x y : Robot) : Prop where
  node : y.node = x.node
  lane : y.lane = x.lane
  pos : y.pos = x.pos
  activity : y.activity = x.activity
  charge : y.charge = x.charge
  metres : y.metres = x.metres
  fault : y.fault = x.fault
  heard : y.heard = x.heard
  stranded : x.stranded = true → y.stranded = true
  state : y.state = x.state ∨ y.state = .stranded

/-- A change of a cart by the blocks: what its reports gave stays, but for a load taken away where that is allowed. -/
structure CartOk (A : Allow) (x y : Cart) : Prop where
  node : y.node = x.node
  lane : y.lane = x.lane
  garage : y.garage = x.garage
  slot : y.slot = x.slot
  moving : y.moving = x.moving
  garaged : y.garaged = x.garaged
  load : y.load = x.load ∨ (A.unload = true ∧ y.load = none)
  fault : y.fault = x.fault
  heard : y.heard = x.heard
  faulted : x.state = .faulted → y.state = .faulted

/-- A change of the due list: the round record stands. -/
structure RndOk (x y : Planner) : Prop where
  isOpen : y.isOpen = x.isOpen
  openedAt : y.openedAt = x.openedAt
  reason : y.reason = x.reason

/-- A change of the storm state and its timers. -/
structure StmOk (x y : StormUnit) : Prop where
  gust : y.gust = x.gust
  advisory : y.advisory = x.advisory
  silent : y.silent = x.silent

/-- One primitive change. -/
inductive Move (A : Allow) : State → State → Prop
  | choice (s : State) : Move A s { s with choices := s.choices + 1 }
  | latch (f : Flag) (s : State) : Move A s (Machine.latch f s)
  | dsp (s : State) (f : Dispatcher → Dispatcher) (h : DspOk s.dsp (f s.dsp)) : Move A s (s.setDsp f)
  | row (s : State) (r : Nat) (f : Row → Row) (h : RowOk A (s.row r) (f (s.row r))) :
      Move A s { s with rows := s.rows.upd r f }
  | rows (s : State) (f : Row → Row) (h0 : f Row.powerOn = Row.powerOn) (h : ∀ x, RowOk A x (f x)) :
      Move A s { s with rows := s.rows.map f }
  | unfault (s : State) (h : A.opens = true) : Move A s (s.mapSup (fun u => { u with levelFault := false }))
  | clean (s : State) (r : Nat) (h : A.clean = true) : Move A s (completeCleaning r s)
  | robot (s : State) (x : Nat) (f : Robot → Robot) (h : RobotOk (s.robot x) (f (s.robot x))) :
      Move A s (s.updRobot x f)
  | robots (s : State) (f : Robot → Robot) (h0 : f (Robot.fresh none 0) = Robot.fresh none 0)
      (h : ∀ k, RobotOk k (f k)) : Move A s { s with robots := s.robots.map f }
  | fleet (s : State) (x : Nat) (f : Robot → Robot) (hA : A.fleet = true) (h : ∀ k, FleetOk k (f k)) :
      Move A s (s.updRobot x f)
  | fleets (s : State) (f : Robot → Robot) (hA : A.fleet = true) (h0 : f (Robot.fresh none 0) = Robot.fresh none 0)
      (h : ∀ k, FleetOk k (f k)) : Move A s { s with robots := s.robots.map f }
  | cart (s : State) (c : Nat) (f : Cart → Cart) (h : CartOk A (s.cart c) (f (s.cart c))) : Move A s (s.updCart c f)
  | rnd (s : State) (f : Planner → Planner) (h : (A.round = true ∨ A.storm = true) ∨ RndOk s.rnd (f s.rnd))
      (k : DueOrder s.rnd.due → DueOrder (f s.rnd).due) : Move A s (s.setRnd f)
  | lane (s : State) (l : Nat) (f : List Request → List Request) : Move A s (s.updLane l f)
  | stm (s : State) (f : StormUnit → StormUnit) (hA : A.storm = true) (h : StmOk s.stm (f s.stm)) : Move A s (s.setStm f)
  | swp (s : State) (w : Sweep) : Move A s { s with swp := w }

/-- A run of moves. -/
abbrev Moves (A : Allow) : State → State → Prop := Relation.ReflTransGen (Move A)

variable {A : Allow} {s t u : State}

theorem Moves.refl (s : State) : Moves A s s := Relation.ReflTransGen.refl

theorem Moves.of {s t : State} (h : Move A s t) : Moves A s t := Relation.ReflTransGen.single h

theorem Move.mono {B : Allow} (k : A.Le B) {s t : State} (h : Move A s t) : Move B s t := by
  cases h with
  | choice => exact .choice s
  | latch f => exact .latch f s
  | dsp _ f h => exact .dsp s f h
  | row _ r f h =>
    exact .row s r f ⟨h.cfg, h.soil, h.acct, h.opened, h.closing, h.occupant, h.reported, h.fault, h.pinned.imp_left k.unpin⟩
  | rows _ f h0 h =>
    exact .rows s f h0 fun x => ⟨(h x).cfg, (h x).soil, (h x).acct, (h x).opened, (h x).closing, (h x).occupant,
      (h x).reported, (h x).fault, (h x).pinned.imp_left k.unpin⟩
  | unfault _ h => exact .unfault s (k.opens h)
  | clean _ r h => exact .clean s r (k.clean h)
  | robot _ x f h => exact .robot s x f h
  | robots _ f h0 h => exact .robots s f h0 h
  | fleet _ x f hA h => exact .fleet s x f (k.fleet hA) h
  | fleets _ f hA h0 h => exact .fleets s f (k.fleet hA) h0 h
  | cart _ c f h =>
    exact .cart s c f ⟨h.node, h.lane, h.garage, h.slot, h.moving, h.garaged, h.load.imp_right (And.imp_left k.unload),
      h.fault, h.heard, h.faulted⟩
  | rnd _ f h d => exact .rnd s f (h.imp_left k.round) d
  | lane _ l f => exact .lane s l f
  | stm _ f hA h => exact .stm s f (k.storm hA) h
  | swp _ w => exact .swp s w

theorem Moves.mono {B : Allow} (k : A.Le B) {s t : State} (h : Moves A s t) : Moves B s t := by
  induction h with
  | refl => exact Relation.ReflTransGen.refl
  | tail _ b ih => exact ih.tail (b.mono k)

theorem Moves.trans (h : Moves A s t) (k : Moves A t u) : Moves A s u := Relation.ReflTransGen.trans h k

theorem Moves.after (k : Moves A t u) (h : Moves A s t) : Moves A s u := h.trans k

theorem RowOk.refl (x : Row) : RowOk A x x := ⟨rfl, rfl, rfl, rfl, rfl, rfl, rfl, id, .inr id⟩

/-! ### A latch -/

@[simp] theorem latch_pending (f : Flag) (s : State) : (latch f s).pending = s.pending := by
  unfold latch causeNotice offerNotice; dsimp only; split_ifs <;> rfl
@[simp] theorem latch_clk (f : Flag) (s : State) : (latch f s).clk = s.clk := by
  unfold latch causeNotice offerNotice; dsimp only; split_ifs <;> rfl
@[simp] theorem latch_ep (f : Flag) (s : State) : (latch f s).ep = s.ep := by
  unfold latch causeNotice offerNotice; dsimp only; split_ifs <;> rfl
@[simp] theorem latch_ctl (f : Flag) (s : State) : (latch f s).ctl = s.ctl := by
  unfold latch causeNotice offerNotice; dsimp only; split_ifs <;> rfl
@[simp] theorem latch_dsp (f : Flag) (s : State) : (latch f s).dsp = s.dsp := by
  unfold latch causeNotice offerNotice; dsimp only; split_ifs <;> rfl
@[simp] theorem latch_lookup (f : Flag) (s : State) : (latch f s).lookup = s.lookup := by
  unfold latch causeNotice offerNotice; dsimp only; split_ifs <;> rfl
@[simp] theorem latch_rows (f : Flag) (s : State) : (latch f s).rows = s.rows := by
  unfold latch causeNotice offerNotice; dsimp only; split_ifs <;> rfl
@[simp] theorem latch_robots (f : Flag) (s : State) : (latch f s).robots = s.robots := by
  unfold latch causeNotice offerNotice; dsimp only; split_ifs <;> rfl
@[simp] theorem latch_carts (f : Flag) (s : State) : (latch f s).carts = s.carts := by
  unfold latch causeNotice offerNotice; dsimp only; split_ifs <;> rfl
@[simp] theorem latch_masts (f : Flag) (s : State) : (latch f s).masts = s.masts := by
  unfold latch causeNotice offerNotice; dsimp only; split_ifs <;> rfl
@[simp] theorem latch_yld (f : Flag) (s : State) : (latch f s).yld = s.yld := by
  unfold latch causeNotice offerNotice; dsimp only; split_ifs <;> rfl
@[simp] theorem latch_rnd (f : Flag) (s : State) : (latch f s).rnd = s.rnd := by
  unfold latch causeNotice offerNotice; dsimp only; split_ifs <;> rfl
@[simp] theorem latch_laneQ (f : Flag) (s : State) : (latch f s).laneQ = s.laneQ := by
  unfold latch causeNotice offerNotice; dsimp only; split_ifs <;> rfl
@[simp] theorem latch_stm (f : Flag) (s : State) : (latch f s).stm = s.stm := by
  unfold latch causeNotice offerNotice; dsimp only; split_ifs <;> rfl
@[simp] theorem latch_swp (f : Flag) (s : State) : (latch f s).swp = s.swp := by
  unfold latch causeNotice offerNotice; dsimp only; split_ifs <;> rfl
@[simp] theorem latch_choices (f : Flag) (s : State) : (latch f s).choices = s.choices := by
  unfold latch causeNotice offerNotice; dsimp only; split_ifs <;> rfl

/-! ### The primitive updates as moves -/

theorem choice_moves (s : State) : Moves A s { s with choices := s.choices + 1 } := .of (.choice s)

theorem latch_moves (f : Flag) (s : State) : Moves A s (latch f s) := .of (.latch f s)

theorem latchIf_moves (b : Bool) (f : Flag) (s : State) : Moves A s (latchIf b f s) := by
  unfold latchIf; split
  · exact latch_moves f s
  · exact .refl s

theorem dsp_moves {f : Dispatcher → Dispatcher} (h : DspOk s.dsp (f s.dsp)) : Moves A s (s.setDsp f) := .of (.dsp s f h)

/-- A change of the Row Supervisor's fields that keeps occupant and reported posture and clears neither mark. -/
theorem sup_moves {r : Nat} {f : RowSup → RowSup} {s : State}
    (h : ∀ u, (f u).occupant = u.occupant ∧ (f u).reported = u.reported ∧ (u.levelFault = true → (f u).levelFault = true) ∧
      (u.pinned = true → (f u).pinned = true)) : Moves A s (s.updSup r f) :=
  .of (.row s r _ ⟨rfl, rfl, rfl, rfl, rfl, (h _).1, (h _).2.1, (h _).2.2.1, .inr (h _).2.2.2⟩)

theorem stow_moves (r : Nat) (f : Stow → Stow) (s : State) : Moves A s (s.updStow r f) :=
  .of (.row s r _ ⟨rfl, rfl, rfl, rfl, rfl, rfl, rfl, id, .inr id⟩)

theorem rel_moves (r : Nat) (f : Option RelEntry → Option RelEntry) (s : State) : Moves A s (s.updRel r f) :=
  .of (.row s r _ ⟨rfl, rfl, rfl, rfl, rfl, rfl, rfl, id, .inr id⟩)

theorem mapStow_moves {f : Stow → Stow} (h : f Stow.unreached = Stow.unreached) (s : State) : Moves A s (s.mapStow f) :=
  .of (.rows s _ (by simp only [Row.powerOn, h]) fun _ => ⟨rfl, rfl, rfl, rfl, rfl, rfl, rfl, id, .inr id⟩)

theorem rnd_moves {f : Planner → Planner} {s : State} (h : ∀ p, RndOk p (f p))
    (k : ∀ p, DueOrder p.due → DueOrder (f p).due) : Moves A s (s.setRnd f) := .of (.rnd s f (.inr (h _)) (k _))

theorem lane_moves (l : Nat) (f : List Request → List Request) (s : State) : Moves A s (s.updLane l f) :=
  .of (.lane s l f)

theorem swp_moves (w : Sweep) (s : State) : Moves A s { s with swp := w } := .of (.swp s w)

/-- Where no storm move is allowed the Storm Controller's record stands. -/
theorem Move.stm_eq (hA : A.storm = false) (h : Move A s t) : t.stm = s.stm := by
  cases h with
  | stm _ f hs => rw [hA] at hs; cases hs
  | latch f => exact latch_stm f s
  | clean _ r => unfold completeCleaning; dsimp only; split <;> rfl
  | _ => rfl

theorem Moves.stm_eq (hA : A.storm = false) (h : Moves A s t) : t.stm = s.stm := by
  induction h with
  | refl => rfl
  | tail _ b ih => rw [b.stm_eq hA, ih]

/-! ### Work in any order -/

theorem forEach_moves {l : List Nat} {f : Nat → State → State} (h : ∀ i ∈ l, ∀ s, Moves A s (f i s)) (s : State) :
    Moves A s (forEach l f s) := by
  induction l generalizing s with
  | nil => exact .refl s
  | cons a l ih => exact (h a (List.mem_cons_self ..) s).trans (ih (fun i hi => h i (List.mem_cons_of_mem _ hi)) _)

theorem insertKeyed_perm {β : Type} (x : Nat × β) (l : List (Nat × β)) : (insertKeyed x l).Perm (x :: l) := by
  induction l with
  | nil => exact List.Perm.refl _
  | cons y t ih =>
    simp only [insertKeyed]
    split
    · exact List.Perm.refl _
    · exact (ih.cons y).trans (List.Perm.swap x y t)

/-- A free order is an order of the same candidates. -/
theorem freeOrder_perm {β : Type} (n : Nat) (l : List β) : (freeOrder n l).Perm l := by
  unfold freeOrder
  split
  · exact List.Perm.refl _
  · exact List.Perm.refl _
  · have key : ∀ m : List (Nat × β), (m.foldr insertKeyed []).Perm m := by
      intro m
      induction m with
      | nil => exact List.Perm.refl _
      | cons a m ih => exact (insertKeyed_perm a _).trans (ih.cons a)
    refine ((key _).map _).trans ?_
    rw [List.map_map]
    have : ((fun p : Nat × β => p.2) ∘ fun p : β × Nat => (Config.orderKey n p.2, p.1)) = Prod.fst := rfl
    rw [this, List.zipIdx_map_fst]

theorem foldl_moves {l : List (State → State)} (h : ∀ f ∈ l, ∀ s, Moves A s (f s)) (s : State) :
    Moves A s (l.foldl (fun t f => f t) s) := by
  induction l generalizing s with
  | nil => exact .refl s
  | cons a l ih => exact (h a (List.mem_cons_self ..) s).trans (ih (fun i hi => h i (List.mem_cons_of_mem _ hi)) _)

theorem inAnyOrder_moves {l : List (State → State)} (h : ∀ f ∈ l, ∀ s, Moves A s (f s)) (s : State) :
    Moves A s (inAnyOrder l s) := by
  unfold inAnyOrder
  split
  · exact .refl s
  · exact h _ (List.mem_cons_self ..) s
  · refine (choice_moves s).trans (foldl_moves (fun f hf => h f ((freeOrder_perm _ _).mem_iff.1 hf)) _)

/-- Pieces of work that are moves wherever a property that moves keep holds. -/
theorem foldl_moves_of {P : State → Prop} (hP : ∀ {s t}, Moves A s t → P s → P t) {l : List (State → State)}
    (h : ∀ f ∈ l, ∀ s, P s → Moves A s (f s)) (s : State) (hs : P s) : Moves A s (l.foldl (fun t f => f t) s) := by
  induction l generalizing s with
  | nil => exact .refl s
  | cons a l ih =>
    have k := h a (List.mem_cons_self ..) s hs
    exact k.trans (ih (fun i hi => h i (List.mem_cons_of_mem _ hi)) _ (hP k hs))

theorem inAnyOrder_moves_of {P : State → Prop} (hP : ∀ {s t}, Moves A s t → P s → P t) {l : List (State → State)}
    (h : ∀ f ∈ l, ∀ s, P s → Moves A s (f s)) (s : State) (hs : P s) : Moves A s (inAnyOrder l s) := by
  unfold inAnyOrder
  split
  · exact .refl s
  · exact h _ (List.mem_cons_self ..) s hs
  · exact (choice_moves s).trans
      (foldl_moves_of hP (fun f hf => h f ((freeOrder_perm _ _).mem_iff.1 hf)) _ (hP (choice_moves s) hs))

theorem mem_onlyIf {b : Bool} {f g : State → State} (h : g ∈ onlyIf b f) : b = true ∧ g = f := by
  unfold onlyIf at h; split at h
  · exact ⟨‹_›, List.mem_singleton.1 h⟩
  · cases h

/-! ### The order queues -/

theorem urgentWork_filter_le (p : Entry → Bool) (l : List Entry) : urgentWork (l.filter p) ≤ urgentWork l := by
  unfold urgentWork
  rw [List.filter_filter]
  refine List.Sublist.length_le ?_
  have : (l.filter fun e => decide (e.dest ≠ broadcast) && p e) = (l.filter fun e => decide (e.dest ≠ broadcast)).filter p := by
    rw [List.filter_filter]
    exact List.filter_congr fun e _ => Bool.and_comm _ _
  rw [this]
  exact List.filter_sublist

theorem DspOk.shrink {d : Dispatcher} {r u : List Entry} {n : Nat} {g : Option GroupRec} (hr : r.length ≤ d.routine.length)
    (hu : urgentWork u ≤ urgentWork d.urgent) :
    DspOk d { d with routine := r, urgent := u, nextTag := n, group := g } :=
  ⟨rfl, rfl, rfl, rfl, rfl, le_max_of_le_right hr, le_max_of_le_right hu⟩

theorem groupEntries_length (o : Owner) (d t : Nat) (os : List Order) : (groupEntries o d t os).length = os.length := by
  induction os with
  | nil => rfl
  | cons a l ih =>
    cases l with
    | nil => rfl
    | cons b m => simp only [groupEntries, List.length_cons] at ih ⊢; rw [ih]

theorem offerRoutine_moves (o : Owner) (d : Nat) (os : List Order) (s : State) : Moves A s (offerRoutine o d os s).1 := by
  unfold offerRoutine
  split
  · exact .refl s
  · split
    · exact .refl s
    · next h =>
      dsimp only
      apply Moves.of (.dsp s _ _)
      refine ⟨rfl, rfl, rfl, rfl, rfl, le_max_of_le_left ?_, by exact le_max_right _ _⟩
      rw [List.length_append, groupEntries_length]
      omega

theorem urgentWork_map (l : List Entry) (p : Entry → Bool) (o : Order) :
    urgentWork (l.map fun e => if p e then { e with order := o } else e) = urgentWork l := by
  unfold urgentWork
  rw [List.filter_map, List.length_map]
  refine congrArg _ (List.filter_congr fun e _ => ?_)
  simp only [Function.comp]
  split <;> rfl

theorem urgentWork_append (l m : List Entry) : urgentWork (l ++ m) = urgentWork l + urgentWork m := by
  simp only [urgentWork, List.filter_append, List.length_append]

theorem offerUrgent_moves (o : Owner) (d : Nat) (k : Order) (s : State) : Moves A s (offerUrgent o d k s).1 := by
  unfold offerUrgent
  split
  · dsimp only
    apply Moves.of (.dsp s _ _)
    refine ⟨rfl, rfl, rfl, rfl, rfl, by exact le_max_right _ _, ?_⟩
    show urgentWork (s.dsp.urgent.map _) ≤ _
    rw [urgentWork_map]
    exact le_max_right _ _
  · split
    · exact .refl s
    · next h =>
      dsimp only
      apply Moves.of (.dsp s _ _)
      refine ⟨rfl, rfl, rfl, rfl, rfl, by exact le_max_right _ _, le_max_of_le_left ?_⟩
      show urgentWork (s.dsp.urgent ++ _) ≤ _
      rw [urgentWork_append]
      have : urgentWork [(⟨d, k, s.dsp.nextTag, true, o⟩ : Entry)] ≤ 1 := by
        unfold urgentWork
        exact le_trans (List.length_filter_le _ _) (le_refl _)
      omega

theorem dropEntries_moves (p : Entry → Bool) (s : State) : Moves A s (dropEntries p s) :=
  dsp_moves (DspOk.shrink (List.length_filter_le _ _) (urgentWork_filter_le _ _))

theorem withdrawTag_moves (g : Nat) (s : State) : Moves A s (withdrawTag g s) :=
  (dropEntries_moves _ s).trans (dsp_moves (DspOk.shrink (le_refl _) (le_refl _)))

theorem withdrawTag?_moves (g : Option Nat) (s : State) : Moves A s (withdrawTag? g s) := by
  unfold withdrawTag?; split
  · exact withdrawTag_moves _ s
  · exact .refl s

theorem removeGroups_moves (l : List Nat) (s : State) : Moves A s (removeGroups l s) :=
  dsp_moves (DspOk.shrink (List.length_filter_le _ _) (le_refl _))

theorem find?_not_filter {p : Entry → Bool} {l : List Entry} {e : Entry} (h : l.find? p = some e) :
    urgentWork (e :: l.filter fun a => !p a) ≤ urgentWork l := by
  induction l with
  | nil => cases h
  | cons a l ih =>
    rw [List.find?_cons] at h
    have step : ∀ (b : Entry) (m : List Entry),
        urgentWork (b :: m) = (if b.dest ≠ broadcast then 1 else 0) + urgentWork m := by
      intro b m
      unfold urgentWork
      by_cases hb : b.dest = broadcast
      · simp [hb]
      · simp [hb]; omega
    cases ha : p a with
    | true =>
      simp only [ha, Option.some.injEq] at h
      subst h
      simp only [List.filter_cons, ha, Bool.not_true, Bool.false_eq_true, if_false]
      rw [step, step]
      exact Nat.add_le_add_left (urgentWork_filter_le _ _) _
    | false =>
      simp only [ha] at h
      have := ih h
      simp only [List.filter_cons, ha, Bool.not_false, if_true]
      rw [step] at this ⊢
      rw [step a, step a]
      omega

theorem offerBroadcast_moves (s : State) : Moves A s (offerBroadcast s) := by
  unfold offerBroadcast
  split
  · next e h =>
    apply Moves.of (.dsp s _ _)
    refine ⟨rfl, rfl, rfl, rfl, rfl, by exact le_max_right _ _, le_max_of_le_right ?_⟩
    exact find?_not_filter h
  · apply Moves.of (.dsp s _ _)
    refine ⟨rfl, rfl, rfl, rfl, rfl, by exact le_max_right _ _, le_max_of_le_right ?_⟩
    show urgentWork ((_ : Entry) :: s.dsp.urgent) ≤ _
    unfold urgentWork
    simp

end Sys2Proof.Machine
end

