-- ==== Sys2Proof/Laws/BlockMoves.lean ====
section
/-! SUPPORT. The operations of the Row Supervisor, the sweep, the Transfer Controller and the Round Planner as runs of
moves. -/

namespace Sys2Proof.Machine

variable {A : Allow}

/-! ### Row Supervisor -/

theorem dropPosture_moves (r : Nat) (s : State) : Moves A s (dropPosture r s) :=
  dsp_moves (DspOk.shrink (List.length_filter_le _ _) (le_refl _))

theorem offerPosture_moves (r : Nat) (o : Order) (s : State) : Moves A s (offerPosture r o s) := by
  have h := offerRoutine_moves (A := A) .row (s.rowAddr r) [o] s
  unfold offerPosture
  generalize offerRoutine .row (s.rowAddr r) [o] s = p at h ⊢
  obtain ⟨t, a⟩ := p
  cases a <;> dsimp only <;> exact Moves.after (sup_moves fun _ => ⟨rfl, rfl, id, id⟩) h

theorem applyDemand_moves (r : Nat) (s : State) : Moves A s (applyDemand r s).1 := by
  unfold applyDemand
  extract_lets u new had t
  have ht : Moves A s t := Moves.after (sup_moves fun _ => ⟨rfl, rfl, id, id⟩) (dropPosture_moves r s)
  clear_value new
  split
  · exact .refl s
  · split
    · exact ht
    · split
      · split
        · exact ht
        · dsimp only; exact Moves.after (sup_moves fun _ => ⟨rfl, rfl, id, id⟩) ht
      · exact Moves.after (offerPosture_moves _ _ _) ht
    · split
      · exact ht
      · exact Moves.after (offerPosture_moves _ _ _) ht

theorem levelRequest_moves (x r : Nat) (s : State) : Moves A s (levelRequest x r s).1 := by
  unfold levelRequest
  split
  · exact .refl s
  · extract_lets t
    have ht : Moves A s t := sup_moves fun _ => ⟨rfl, rfl, id, id⟩
    have h := Moves.after (applyDemand_moves r t) ht
    generalize applyDemand r t = p at h ⊢
    obtain ⟨t', b⟩ := p
    cases b
    · dsimp only at h ⊢
      split
      · dsimp only; exact Moves.after (sup_moves fun _ => ⟨rfl, rfl, id, id⟩) h
      · exact h
    · exact h

theorem releaseLevel_moves (x r : Nat) (s : State) : Moves A s (releaseLevel x r s) := by
  unfold releaseLevel
  split
  · exact Moves.after (applyDemand_moves _ _) (sup_moves (f := fun u => { u with levelClaim := none, told := false, levelDeadline := none })
      fun _ => ⟨rfl, rfl, id, id⟩)
  · exact .refl s

theorem setStow_moves (r : Nat) (s : State) : Moves A s (setStow r s) :=
  Moves.after (applyDemand_moves _ _) (sup_moves (f := fun u => { u with stowClaim := true }) fun _ => ⟨rfl, rfl, id, id⟩)

theorem clearStow_moves (r : Nat) (s : State) : Moves A s (clearStow r s).1 :=
  Moves.after (applyDemand_moves _ _) (sup_moves (f := fun u => { u with stowClaim := false }) fun _ => ⟨rfl, rfl, id, id⟩)

theorem reofferPosture_moves (r : Nat) (s : State) : Moves A s (reofferPosture r s) := by
  unfold reofferPosture
  extract_lets u
  split
  · split
    · exact sup_moves fun _ => ⟨rfl, rfl, id, id⟩
    · exact offerPosture_moves _ _ _
    · exact offerPosture_moves _ _ _
  · exact .refl s

theorem reofferPostures_moves (l : List Nat) (s : State) : Moves A s (reofferPostures l s) := by
  induction l generalizing s with
  | nil => exact .refl s
  | cons r l ih =>
    unfold reofferPostures
    extract_lets s'
    have h : Moves A s s' := reofferPosture_moves r s
    split
    · exact h
    · exact Moves.after (ih _) h

theorem levelLeft_moves (r : Nat) (s : State) : Moves A s (levelLeft r s) := by
  unfold levelLeft
  extract_lets u
  split
  · exact sup_moves fun _ => ⟨rfl, rfl, id, id⟩
  · exact .refl s

theorem pinRow_moves (r : Nat) (s : State) : Moves A s (pinRow r s) := by
  unfold pinRow
  split
  · exact .refl s
  · exact Moves.after (latch_moves _ _) (sup_moves (f := fun u => { u with pinned := true }) fun _ => ⟨rfl, rfl, id, fun _ => rfl⟩)

theorem sampleFault_moves (r : Nat) (b : Bool) (s : State) : Moves A s (sampleFault r b s) := by
  unfold sampleFault
  split
  · exact Moves.after (latch_moves _ _) (sup_moves (f := fun u => { u with levelFault := true }) fun _ => ⟨rfl, rfl, fun _ => rfl, id⟩)
  · exact .refl s

theorem sampleResync_moves (r : Nat) (p : Posture) (s : State) : Moves A s (sampleResync r p s) := by
  unfold sampleResync
  extract_lets u t
  have ht : Moves A s t := sup_moves fun _ => ⟨rfl, rfl, id, id⟩
  split
  · split
    · exact Moves.after (offerPosture_moves _ _ _) (Moves.after (dropPosture_moves _ _) ht)
    · exact ht
  · exact .refl s

theorem unpin_moves (h : A.unpin = true) {r : Nat} {f : RowSup → RowSup} {s : State}
    (h1 : (f (s.row r).sup).occupant = (s.row r).sup.occupant) (h2 : (f (s.row r).sup).reported = (s.row r).sup.reported)
    (h3 : (s.row r).sup.levelFault = true → (f (s.row r).sup).levelFault = true) : Moves A s (s.updSup r f) :=
  .of (.row s r _ ⟨rfl, rfl, rfl, rfl, rfl, h1, h2, h3, .inl h⟩)

theorem sampleUnpin_moves (h : A.unpin = true) (r : Nat) (p : Posture) (s : State) : Moves A s (sampleUnpin r p s) := by
  unfold sampleUnpin
  extract_lets u
  split
  · exact unpin_moves h rfl rfl id
  · exact .refl s

theorem sampleLevel_moves (r : Nat) (p : Posture) (s : State) : Moves A s (sampleLevel r p s).1 := by
  unfold sampleLevel
  extract_lets u
  split
  · split
    · dsimp only; exact sup_moves fun _ => ⟨rfl, rfl, id, id⟩
    · exact .refl s
  · exact .refl s

/-! ### The stow sweep -/

theorem offerStow_moves (r n : Nat) (s : State) : Moves A s (offerStow r n s) := by
  unfold offerStow
  exact Moves.after (stow_moves r _ _) (offerUrgent_moves .row (s.rowAddr r) .rowStow s)

theorem sweepRow_moves (r : Nat) (s : State) : Moves A s (sweepRow r s) := by
  unfold sweepRow
  extract_lets row
  split
  · exact .refl s
  · split
    · exact Moves.after (stow_moves _ _ _) (setStow_moves _ _)
    · split
      · exact stow_moves _ _ _
      · exact Moves.after (offerStow_moves _ _ _) (setStow_moves _ _)

theorem sweepLoop_moves (n : Nat) (s : State) : Moves A s (sweepLoop n s) := by
  induction n generalizing s with
  | zero => exact .refl s
  | succ n ih =>
    unfold sweepLoop
    split
    · exact .refl s
    · split
      · exact Moves.after (ih _) (Moves.after (offerStow_moves _ _ _) (setStow_moves _ _))
      · split
        · exact .refl s
        · exact Moves.after (ih _) (Moves.after (swp_moves _ _) (sweepRow_moves _ _))

theorem sweepAdvance_moves (s : State) : Moves A s (sweepAdvance s) := sweepLoop_moves _ _

theorem sweepStart_moves (s : State) : Moves A s (sweepStart s) :=
  Moves.after (sweepAdvance_moves _) (Moves.after (swp_moves _ _) (mapStow_moves rfl s))

theorem sweepWithdraw_moves (s : State) : Moves A s (sweepWithdraw s) :=
  Moves.after (mapStow_moves rfl _) (dropEntries_moves _ s)

theorem sweepLockout_moves (s : State) : Moves A s (sweepLockout s) := by
  unfold sweepLockout
  extract_lets t
  refine (Moves.after (sweepAdvance_moves _) ((sweepWithdraw_moves s).trans ?_))
  exact Moves.after (swp_moves _ _) (Moves.of (.rows t (fun x => { x with stow := x.stow.restart _ }) rfl fun _ =>
    ⟨rfl, rfl, rfl, rfl, rfl, rfl, rfl, id, .inr id⟩))

theorem sweepOff_moves (s : State) : Moves A s (sweepOff s) :=
  Moves.after (swp_moves _ _) (Moves.after (mapStow_moves rfl _) (sweepWithdraw_moves s))

theorem sweepFreed_moves (s : State) : Moves A s (sweepFreed s) :=
  Moves.after (sweepAdvance_moves _) (forEach_moves (fun _ _ _ => stow_moves _ _ _) s)

theorem sweepSample_moves (h : A.unpin = true) (r : Nat) (p : Posture) (s : State) : Moves A s (sweepSample r p s) := by
  unfold sweepSample
  extract_lets w
  split
  · exact .refl s
  · split
    · exact .refl s
    · split
      · exact .refl s
      · exact Moves.after (stow_moves _ _ _) (unpin_moves h rfl rfl id)
    · exact stow_moves _ _ _
    · exact .refl s
    · split
      · exact Moves.after (pinRow_moves _ _) (stow_moves _ _ _)
      · exact Moves.after (sweepAdvance_moves _) (stow_moves _ _ _)
    · exact .refl s

theorem stowLeft_moves (r : Nat) (s : State) : Moves A s (stowLeft r s) := Moves.after (sweepAdvance_moves _) (stow_moves _ _ _)

theorem reofferStow_moves (r : Nat) (s : State) : Moves A s (reofferStow r s) := by
  unfold reofferStow
  split
  · exact Moves.after (stow_moves r _ _) (offerUrgent_moves .row (s.rowAddr r) .rowStow s)
  · exact .refl s

theorem stowExpiry_moves (r : Nat) (s : State) : Moves A s (stowExpiry r s) := by
  unfold stowExpiry
  split
  · extract_lets t
    have ht : Moves A s t := stow_moves _ _ _
    split
    · exact ht
    · split
      · exact Moves.after (pinRow_moves _ _) (Moves.after (stow_moves _ _ _) ht)
      · exact Moves.after (sweepAdvance_moves _) (Moves.after (stow_moves _ _ _) ht)
  · exact .refl s

/-! ### Transfer Controller, its own records -/

theorem robot_moves {x : Nat} {f : Robot → Robot} {s : State} (h : ∀ k, RobotOk k (f k)) :
    Moves A s (s.updRobot x f) := .of (.robot s x f (h _))

theorem robots_moves {f : Robot → Robot} {s : State} (h0 : f (Robot.fresh none 0) = Robot.fresh none 0)
    (h : ∀ k, RobotOk k (f k)) : Moves A s { s with robots := s.robots.map f } := .of (.robots s f h0 h)

theorem cart_moves {c : Nat} {f : Cart → Cart} {s : State} (h : ∀ k, CartOk A k (f k)) :
    Moves A s (s.updCart c f) := .of (.cart s c f (h _))

theorem Cart.rederive_ok {x y : Cart} (h : CartOk A x y) : CartOk A x y.rederive := by
  unfold Cart.rederive
  split
  · exact h
  · next hs =>
    exact ⟨h.node, h.lane, h.garage, h.slot, h.moving, h.garaged, h.load, h.fault, h.heard, fun e => absurd (h.faulted e) hs⟩

theorem Cart.toRecover_ok (x : Cart) : CartOk A x x.toRecover :=
  ⟨rfl, rfl, rfl, rfl, rfl, rfl, .inl rfl, rfl, rfl, fun e => by simp [Cart.toRecover, e]⟩

theorem freeReservation_moves (x r : Nat) (s : State) : Moves A s (freeReservation x r s) := by
  unfold freeReservation
  refine sup_moves fun u => ?_
  split <;> exact ⟨rfl, rfl, id, id⟩

theorem offerPhase_moves (c : Nat) (s : State) : Moves A s (offerPhase c s).1 := by
  unfold offerPhase
  split
  · exact .refl s
  · next t _ =>
    split
    · exact .refl s
    · extract_lets o
      have h := offerRoutine_moves (A := A) .transfer o.1 [o.2] s
      generalize offerRoutine .transfer o.1 [o.2] s = p at h ⊢
      obtain ⟨t, a⟩ := p
      cases a
      · dsimp only; exact Moves.after (cart_moves fun _ => ⟨rfl, rfl, rfl, rfl, rfl, rfl, .inl rfl, rfl, rfl, id⟩) h
      · exact h
      · exact h

theorem nearest_mem {dist : Nat → Nat} {l : List Nat} {a : Nat} (h : nearest dist l = some a) : a ∈ l := by
  induction l generalizing a with
  | nil => cases h
  | cons b l ih =>
    simp only [nearest] at h
    split at h
    · simp only [Option.some.injEq] at h; rw [h]; exact List.mem_cons_self ..
    · next c hc =>
      split at h <;> simp only [Option.some.injEq] at h
      · rw [h]; exact List.mem_cons_self ..
      · rw [← h]; exact List.mem_cons_of_mem _ (ih hc)

/-- A cart that is eligible is IDLE or GARAGED, and so not FAULTED (R110). -/
theorem eligible_state {s : State} {lane c : Nat} (h : c ∈ s.eligibleCarts lane) : (s.cart c).state ≠ .faulted := by
  have := Tab.of_mem_idsWhere _ h
  intro e
  have e' : (s.carts.get c).state = .faulted := e
  simp [Cart.eligible, e'] at this

theorem grant_moves {lane c : Nat} {q : Request} {s : State} (h : (s.cart c).state ≠ .faulted) :
    Moves A s (grant lane c q s) := by
  refine Moves.after (offerPhase_moves c _) (Moves.after
    (robot_moves fun _ => ⟨rfl, rfl, rfl, rfl, rfl, rfl, rfl, rfl, rfl, rfl, rfl⟩)
    (Moves.after (sup_moves fun _ => ⟨rfl, rfl, id, id⟩) (Moves.after ?_ (lane_moves lane (fun l => l.tail) s))))
  exact .of (.cart _ c _ ⟨rfl, rfl, rfl, rfl, rfl, rfl, .inl rfl, rfl, rfl, fun e => absurd e h⟩)

theorem grants_moves (lane n : Nat) (s : State) : Moves A s (grants lane n s) := by
  induction n generalizing s with
  | zero => exact .refl s
  | succ n ih =>
    unfold grants
    split
    · exact .refl s
    · split
      · exact .refl s
      · next hc => exact Moves.after (ih _) (grant_moves (eligible_state (nearest_mem hc)))

theorem arbiter_moves (lane : Nat) (s : State) : Moves A s (arbiter lane s) := by
  unfold arbiter
  split
  · exact grants_moves _ _ _
  · exact .refl s

theorem arbiters_moves (s : State) : Moves A s (arbiters s) := forEach_moves (fun _ _ _ => arbiter_moves _ _) s

theorem requestTransfer_moves (x origin dest : Nat) (s : State) : Moves A s (requestTransfer x origin dest s).1 := by
  unfold requestTransfer
  split
  · extract_lets lane t1 t2 t3
    have h : Moves A s t3 :=
      (Moves.after (robot_moves fun _ => ⟨rfl, rfl, rfl, rfl, rfl, rfl, rfl, rfl, rfl, rfl, rfl⟩) (Moves.after (lane_moves lane _ _) (sup_moves fun _ => ⟨rfl, rfl, id, id⟩)))
    dsimp only
    split
    · exact Moves.after (arbiter_moves _ _) h
    · exact h
  · exact .refl s

theorem offerHold_moves (c : Nat) (s : State) : Moves A s (offerHold c s) := by
  have h := offerRoutine_moves (A := A) .transfer (s.cartAddr c) [.cartHold] s
  unfold offerHold
  generalize offerRoutine .transfer (s.cartAddr c) [.cartHold] s = p at h ⊢
  obtain ⟨t, a⟩ := p
  cases a <;> dsimp only <;> exact Moves.after (cart_moves fun _ => ⟨rfl, rfl, rfl, rfl, rfl, rfl, .inl rfl, rfl, rfl, id⟩) h

theorem reofferHold_moves (c : Nat) (s : State) : Moves A s (reofferHold c s) := by
  unfold reofferHold
  split
  · exact offerHold_moves c s
  · exact .refl s

theorem transferSent_moves (tag : Nat) (s : State) : Moves A s (transferSent tag s) := by
  unfold transferSent
  extract_lets one
  refine forEach_moves (fun c _ s => ?_) s
  show Moves A s (one c s)
  simp only [one]
  split
  · exact Moves.after (arbiter_moves _ _) (cart_moves fun _ => ⟨rfl, rfl, rfl, rfl, rfl, rfl, .inl rfl, rfl, rfl, id⟩)
  · split
    · split
      · exact cart_moves fun _ => ⟨rfl, rfl, rfl, rfl, rfl, rfl, .inl rfl, rfl, rfl, id⟩
      · exact .refl s
    · exact .refl s

/-! ### Round Planner -/

theorem DueOrder.filter {l : List DueEntry} (h : DueOrder l) (p : DueEntry → Bool) : DueOrder (l.filter p) :=
  List.Pairwise.filter p h

theorem DueOrder.map {l : List DueEntry} (h : DueOrder l) {f : DueEntry → DueEntry}
    (hf : ∀ e, (f e).row = e.row ∧ (f e).u = e.u) : DueOrder (l.map f) := by
  refine List.pairwise_map.2 (List.Pairwise.imp (fun {a b} k => ?_) h)
  rw [(hf a).1, (hf b).1, (hf a).2, (hf b).2]; exact k

theorem mem_insertDue {e d : DueEntry} {l : List DueEntry} : d ∈ insertDue e l ↔ d = e ∨ d ∈ l := by
  induction l with
  | nil => simp [insertDue]
  | cons a l ih =>
    simp only [insertDue]
    split
    · simp
    · simp only [List.mem_cons, ih]; tauto

theorem DueOrder.insert {l : List DueEntry} (h : DueOrder l) {e : DueEntry} (k : ∀ d ∈ l, d.row ≠ e.row) :
    DueOrder (insertDue e l) := by
  induction l with
  | nil => exact List.pairwise_singleton _ _
  | cons a l ih =>
    obtain ⟨h1, h2⟩ := List.pairwise_cons.1 h
    have ka := k a (List.mem_cons_self ..)
    simp only [insertDue]
    split
    · next hb =>
      have hb' : a.u < e.u ∨ e.u = a.u ∧ e.row < a.row := by simpa [DueEntry.before] using hb
      refine List.pairwise_cons.2 ⟨fun d hd => ?_, h⟩
      rcases List.mem_cons.1 hd with rfl | hd
      · exact ⟨ka.symm, hb'⟩
      · exact ⟨(k d (List.mem_cons_of_mem _ hd)).symm, by have := (h1 d hd).2; omega⟩
    · next hb =>
      have hb' : ¬(a.u < e.u ∨ e.u = a.u ∧ e.row < a.row) := by simpa [DueEntry.before] using hb
      refine List.pairwise_cons.2 ⟨fun d hd => ?_, ih h2 fun d hd => k d (List.mem_cons_of_mem _ hd)⟩
      rcases mem_insertDue.1 hd with rfl | hd
      · exact ⟨ka, by omega⟩
      · exact h1 d hd

theorem removeDue_moves (r : Nat) (s : State) : Moves A s (removeDue r s) :=
  rnd_moves (fun _ => ⟨rfl, rfl, rfl⟩) fun _ h => h.filter _

theorem placeDue_moves (e : DueEntry) (s : State) : Moves A s (placeDue e s) :=
  rnd_moves (f := fun p => { p with due := insertDue e (p.due.filter (fun d => decide (d.row ≠ e.row))) })
    (fun _ => ⟨rfl, rfl, rfl⟩) fun _ h => (h.filter _).insert fun d hd => by simpa using (List.mem_filter.1 hd).2

theorem dropClaim_moves (x : Nat) (s : State) : Moves A s (dropClaim x s) := by
  unfold dropClaim
  split
  · exact .refl s
  · exact Moves.after
      (rnd_moves (fun _ => ⟨rfl, rfl, rfl⟩) fun _ h => h.map fun e => by split <;> exact ⟨rfl, rfl⟩) (robot_moves fun _ => ⟨rfl, rfl, rfl, rfl, rfl, rfl, rfl, rfl, rfl, rfl, rfl⟩)

theorem placeClaim_moves (x r : Nat) (s : State) : Moves A s (placeClaim x r s) :=
  Moves.after
    (rnd_moves (fun _ => ⟨rfl, rfl, rfl⟩) fun _ h => h.map fun e => by split <;> exact ⟨rfl, rfl⟩) (robot_moves fun _ => ⟨rfl, rfl, rfl, rfl, rfl, rfl, rfl, rfl, rfl, rfl, rfl⟩)

theorem dropOtherClaim_moves (x r : Nat) (s : State) : Moves A s (dropOtherClaim x r s) := by
  unfold dropOtherClaim
  split
  · exact .refl s
  · exact dropClaim_moves x s

theorem reenter_moves (r : Nat) (s : State) : Moves A s (reenter r s).1 := by
  unfold reenter
  split
  · exact placeDue_moves _ _
  · exact placeDue_moves _ _
  · exact .refl s

theorem updAsg_moves (x : Nat) (f : Assignment → Assignment) (s : State) : Moves A s (updAsg x f s) :=
  robot_moves fun _ => ⟨rfl, rfl, rfl, rfl, rfl, rfl, rfl, rfl, rfl, rfl, rfl⟩

theorem offerPass_moves (x : Nat) (a : Assignment) (s : State) : Moves A s (offerPass x a s).1 := by
  unfold offerPass
  have h := offerRoutine_moves (A := A) .round (s.robotAddr x)
    [.passSetup (s.row a.row).cfg.length (if a.heavy then 1 else 0), .passRun] s
  generalize offerRoutine .round (s.robotAddr x)
    [.passSetup (s.row a.row).cfg.length (if a.heavy then 1 else 0), .passRun] s = p at h ⊢
  obtain ⟨t, b⟩ := p
  cases b <;> dsimp only <;> exact Moves.after (updAsg_moves _ _ _) h

theorem reofferPass_moves (x : Nat) (s : State) : Moves A s (reofferPass x s).1 := by
  unfold reofferPass
  split
  · split
    · exact offerPass_moves _ _ _
    · exact .refl s
  · exact .refl s

theorem reofferAtPlanning_moves (s : State) : Moves A s (reofferAtPlanning s) :=
  forEach_moves (fun _ _ _ => reofferPass_moves _ _) s

theorem endAssignment_moves (x : Nat) (a : Assignment) (s : State) : Moves A s (endAssignment x a s).1 :=
  Moves.after (reenter_moves _ _) (Moves.after (releaseLevel_moves _ _ _) (robot_moves fun _ => ⟨rfl, rfl, rfl, rfl, rfl, rfl, rfl, rfl, rfl, rfl, rfl⟩))

theorem disturb_moves (r : Nat) (s : State) : Moves A s (disturb r s) := by
  refine .of (.row s r _ ⟨rfl, rfl, rfl, ?_, rfl, rfl, rfl, id, .inr id⟩)
  simp only [Option.map_map]
  cases (s.row r).banks.opened <;> rfl

theorem dispatch_moves (x r : Nat) (s : State) : Moves A s (dispatch x r s) := by
  unfold dispatch
  extract_lets a s1 s2 s3
  have h : Moves A s s3 :=
    (Moves.after (disturb_moves _ _) (Moves.after (robot_moves fun _ => ⟨rfl, rfl, rfl, rfl, rfl, rfl, rfl, rfl, rfl, rfl, rfl⟩) (removeDue_moves r s)))
  have k := Moves.after (levelRequest_moves x r s3) h
  generalize levelRequest x r s3 = p at k ⊢
  obtain ⟨t, b⟩ := p
  cases b
  · exact Moves.after (reenter_moves _ _) (Moves.after (robot_moves fun _ => ⟨rfl, rfl, rfl, rfl, rfl, rfl, rfl, rfl, rfl, rfl, rfl⟩) k)
  · exact k
  · exact Moves.after (offerPass_moves _ _ _) k

theorem takeRow_moves (x r : Nat) (s : State) : Moves A s (takeRow x r s) := by
  unfold takeRow
  extract_lets t
  have ht : Moves A s t := dropOtherClaim_moves x r s
  split
  · exact ht
  · next d _ =>
    split
    · exact Moves.after (dispatch_moves _ _ _) ht
    · have h := Moves.after (requestTransfer_moves x d r _) (Moves.after (placeClaim_moves x r t) ht)
      generalize requestTransfer x d r (placeClaim x r t) = p at h ⊢
      obtain ⟨u, b⟩ := p
      cases b
      · exact Moves.after (dropClaim_moves _ _) h
      · exact Moves.after (dropClaim_moves _ _) h
      · exact Moves.after (dropClaim_moves _ _) h
      · exact h

theorem planRobot_moves (x : Nat) (s : State) : Moves A s (planRobot x s) := by
  unfold planRobot
  split
  · extract_lets t
    have ht : Moves A s t := reofferAtPlanning_moves s
    split
    · exact Moves.after (robot_moves fun _ => ⟨rfl, rfl, rfl, rfl, rfl, rfl, rfl, rfl, rfl, rfl, rfl⟩) ht
    · exact Moves.after (takeRow_moves _ _ _) (Moves.after (robot_moves fun _ => ⟨rfl, rfl, rfl, rfl, rfl, rfl, rfl, rfl, rfl, rfl, rfl⟩) ht)
  · exact .refl s

theorem planRow_moves (r : Nat) (s : State) : Moves A s (planRow r s) := by
  unfold planRow
  split
  · extract_lets t
    have ht : Moves A s t := reofferAtPlanning_moves s
    split
    · exact ht
    · split
      · exact ht
      · exact Moves.after (takeRow_moves _ _ _) ht
  · exact .refl s

theorem offerReturned_moves (r : Nat) (s : State) : Moves A s (offerReturned r s) := by
  unfold offerReturned
  split
  · split
    · exact planRow_moves _ _
    · exact .refl s
  · exact .refl s

theorem endPass_moves (x : Nat) (s : State) : Moves A s (endPass x s) := by
  unfold endPass
  split
  · exact .refl s
  · next a _ =>
    have h := endAssignment_moves (A := A) x a s
    generalize endAssignment x a s = p at h ⊢
    obtain ⟨t, b⟩ := p
    cases b
    · exact Moves.after (planRobot_moves _ _) h
    · exact Moves.after (offerReturned_moves _ _) (Moves.after (planRobot_moves _ _) h)

theorem abandon_moves (x : Nat) (s : State) : Moves A s (abandon x s) := by
  unfold abandon
  split
  · exact .refl s
  · split
    · exact .refl s
    · extract_lets t
      have ht : Moves A s t := updAsg_moves _ _ _
      split
      · exact ht
      · exact Moves.after (endPass_moves _ _) ht

theorem decideSetup_moves (x : Nat) {f : State → State} (hf : ∀ s, Moves A s (f s)) (s : State) :
    Moves A s (decideSetup x f s) := by
  unfold decideSetup
  split
  · exact .refl s
  · split
    · exact endPass_moves _ _
    · split
      · exact Moves.after (endPass_moves _ _) (withdrawTag_moves _ _)
      · exact hf s

theorem completePass_moves (h : A.clean = true) (x r : Nat) (s : State) : Moves A s (completePass x r s) :=
  Moves.after (planRobot_moves _ _) (Moves.after (robot_moves fun _ => ⟨rfl, rfl, rfl, rfl, rfl, rfl, rfl, rfl, rfl, rfl, rfl⟩) (Moves.after (releaseLevel_moves _ _ _) (Moves.of (.clean s r h))))

theorem rowLevelTold_moves (x : Nat) (s : State) : Moves A s (rowLevelTold x s) := by
  unfold rowLevelTold
  split
  · exact .refl s
  · next a _ =>
    have h := offerPass_moves (A := A) x a s
    generalize offerPass x a s = p at h ⊢
    obtain ⟨t, b⟩ := p
    cases b
    · exact h
    · exact Moves.after (endPass_moves _ _) h

theorem reofferHeldPass_moves (x : Nat) (s : State) : Moves A s (reofferHeldPass x s) := by
  unfold reofferHeldPass
  have h := reofferPass_moves (A := A) x s
  generalize reofferPass x s = p at h ⊢
  obtain ⟨t, b⟩ := p
  cases b
  · exact h
  · exact Moves.after (endPass_moves _ _) h

theorem levelTimedOut_moves (x : Nat) (s : State) : Moves A s (levelTimedOut x s) := by
  unfold levelTimedOut
  split
  · split
    · exact endPass_moves _ _
    · exact .refl s
  · exact .refl s

theorem passCut_moves (g : Nat) (s : State) : Moves A s (passCut g s) := by
  unfold passCut
  split
  · exact endPass_moves _ _
  · exact .refl s

theorem passSent_moves (g : Nat) (s : State) : Moves A s (passSent g s) := by
  unfold passSent
  split
  · exact .refl s
  · exact updAsg_moves _ _ _

/-- A robot change at the planner completes a cleaning only with the result COMPLETE. -/
theorem passChange_moves (x : Nat) (a : Assignment) {res : Option PassResult}
    (h : A.clean = true ∨ res ≠ some .complete) (s : State) : Moves A s (passChange x a res s) := by
  unfold passChange
  extract_lets k done
  split
  · split
    · exact endPass_moves _ _
    · exact .refl s
  · split
    · exact decideSetup_moves _ (abandon_moves _) _
    · exact .refl s
  · split
    · next hd =>
      refine completePass_moves (h.resolve_right ?_) _ _ _
      simp only [done, Bool.and_eq_true, decide_eq_true_eq] at hd
      exact fun h => h hd.1
    · split
      · split
        · exact .refl s
        · exact endPass_moves _ _
      · split
        · exact abandon_moves _ _
        · exact .refl s

theorem plannerChange_moves (x : Nat) (w : Bool) {res : Option PassResult} (h : A.clean = true ∨ res ≠ some .complete)
    (s : State) : Moves A s (plannerChange x w res s) := by
  unfold plannerChange
  extract_lets k
  split
  · exact passChange_moves _ _ h _
  · split
    · exact planRobot_moves _ _
    · exact .refl s

theorem withdrawQueued_moves (x : Nat) (s : State) : Moves A s (withdrawQueued x s) := by
  unfold withdrawQueued
  extract_lets lane
  split
  · exact .refl s
  · exact Moves.after (arbiter_moves _ _) (Moves.after (planRobot_moves _ _) (Moves.after (dropClaim_moves _ _) (Moves.after (robot_moves fun _ => ⟨rfl, rfl, rfl, rfl, rfl, rfl, rfl, rfl, rfl, rfl, rfl⟩) (Moves.after (freeReservation_moves _ _ _) (lane_moves lane _ s)))))

theorem loseClaim_moves (x : Nat) (s : State) : Moves A s (loseClaim x s) := by
  unfold loseClaim
  extract_lets t
  have ht : Moves A s t := dropClaim_moves x s
  split
  · exact Moves.after (withdrawQueued_moves _ _) ht
  · exact ht

theorem takeJudgement_moves (r : Nat) (s : State) : Moves A s (takeJudgement r s) := by
  unfold takeJudgement
  split
  · exact .refl s
  · split
    · exact placeDue_moves _ _
    · exact placeDue_moves _ _
    · split
      · exact Moves.after (loseClaim_moves _ _) (removeDue_moves _ _)
      · exact removeDue_moves _ _
    · exact Moves.after (planRow_moves _ _) (placeDue_moves _ _)
    · exact .refl s

theorem buildDueList_moves (s : State) : Moves A s (buildDueList s) := by
  refine (Moves.after (forEach_moves (fun r _ s => ?_) _) (Moves.after (rnd_moves (fun _ => ⟨rfl, rfl, rfl⟩) fun _ _ => List.Pairwise.nil) (robots_moves rfl fun _ => ⟨rfl, rfl, rfl, rfl, rfl, rfl, rfl, rfl, rfl, rfl, rfl⟩)))
  split
  · exact placeDue_moves _ _
  · exact .refl s

/-- A change of the round record, where it is allowed; the due list stands. -/
theorem round_moves (h : A.round = true ∨ A.storm = true) {f : Planner → Planner} (k : ∀ p, (f p).due = p.due) (s : State) :
    Moves A s (s.setRnd f) := .of (.rnd s f (.inl h) fun d => by rw [k]; exact d)

theorem openRound_moves (h : A.opens = true) (h' : A.round = true ∨ A.storm = true) (s : State) : Moves A s (openRound s) :=
  Moves.after (forEach_moves (fun _ _ _ => planRobot_moves _ _) _) (Moves.after (robots_moves rfl fun _ => ⟨rfl, rfl, rfl, rfl, rfl, rfl, rfl, rfl, rfl, rfl, rfl⟩) (Moves.after (.of (.unfault _ h)) (round_moves (f := fun p => { p with isOpen := true, openedAt := some s.clk.clock }) h' (fun _ => rfl) s)))

theorem closePass_moves (x : Nat) (s : State) : Moves A s (closePass x s) := by
  unfold closePass
  split
  · exact .refl s
  · split
    · exact endPass_moves _ _
    · exact decideSetup_moves _ Moves.refl _
    · exact .refl s

theorem closeClaim_moves (x : Nat) (s : State) : Moves A s (closeClaim x s) := by
  unfold closeClaim
  split
  · exact withdrawQueued_moves _ _
  · exact .refl s

theorem closeRound_moves (h' : A.round = true ∨ A.storm = true) (c : CloseReason) (s : State) : Moves A s (closeRound c s) :=
  Moves.after (forEach_moves (fun _ _ _ => closeClaim_moves _ _) _) (Moves.after (forEach_moves (fun _ _ _ => closePass_moves _ _) _) (round_moves (f := fun p => { p with isOpen := false, reason := some c }) h' (fun _ => rfl) s))

/-- An evaluation of the round condition opens a round only where it may, and never outside CALM. -/
theorem evaluateRound_moves (h' : A.round = true ∨ A.storm = true) (b : Bool) {s : State} (h : A.opens = true ∨ s.stm.state ≠ .calm) :
    Moves A s (evaluateRound b s) := by
  unfold evaluateRound
  split
  · next hc =>
    split
    · exact .refl s
    · refine openRound_moves (h.resolve_right ?_) h' s
      simp only [State.roundCondition, Bool.and_eq_true, decide_eq_true_eq] at hc
      exact fun h => h hc.2
  · split
    · exact closeRound_moves h' _ _
    · exact .refl s

theorem parkPass_moves (x : Nat) (s : State) : Moves A s (parkPass x s) := by
  unfold parkPass
  split
  · exact .refl s
  · split
    · exact endPass_moves _ _
    · exact decideSetup_moves _ (abandon_moves _) _
    · exact abandon_moves _ _

theorem plannerPark_moves (s : State) : Moves A s (plannerPark s) :=
  Moves.after (forEach_moves (fun _ _ _ => dropClaim_moves _ _) _) (forEach_moves (fun _ _ _ => parkPass_moves _ _) s)

end Sys2Proof.Machine
end

