-- ==== Sys2Proof/Laws/StormMoves.lean ====
section
/-! SUPPORT. The operations of the Storm Controller's lists, the ends of transfers, the Storm Controller, the Order
Dispatcher and the Fleet Tracker as runs of moves. -/

namespace Sys2Proof.Machine

variable {A : Allow}

/-! ### The park list -/

theorem updPark_moves (x : Nat) (f : ParkEntry → ParkEntry) (s : State) : Moves A s (updPark x f s) :=
  robot_moves fun _ => ⟨rfl, rfl, rfl, rfl, rfl, rfl, rfl, rfl, rfl, rfl, rfl⟩

theorem offerPark_moves (x : Nat) (s : State) : Moves A s (offerPark x s) := by
  unfold offerPark
  split
  · exact .refl s
  · next o _ =>
    have h := offerUrgent_moves (A := A) .storm (s.robotAddr x) o s
    generalize offerUrgent .storm (s.robotAddr x) o s = p at h ⊢
    obtain ⟨t, b⟩ := p
    cases b <;> exact Moves.after (updPark_moves _ _ _) h

theorem placePark_moves (x : Nat) (o : ParkOrder) (s : State) : Moves A s (placePark x o s) := by
  unfold placePark
  split
  · exact .refl s
  · exact Moves.after (offerPark_moves _ _)
      (robot_moves fun _ => ⟨rfl, rfl, rfl, rfl, rfl, rfl, rfl, rfl, rfl, rfl, rfl⟩)

theorem leavePark_moves (x : Nat) (s : State) : Moves A s (leavePark x s) := by
  unfold leavePark
  split
  · exact Moves.after (planRobot_moves _ _)
      (Moves.after (robot_moves fun _ => ⟨rfl, rfl, rfl, rfl, rfl, rfl, rfl, rfl, rfl, rfl, rfl⟩) (dropEntries_moves _ s))
  · exact .refl s

theorem pinUnder_moves (x : Nat) (s : State) : Moves A s (pinUnder x s) := by
  unfold pinUnder
  split
  · exact pinRow_moves _ _
  · exact .refl s

theorem strikePark_moves (x : Nat) (s : State) : Moves A s (strikePark x s) := by
  unfold strikePark
  split
  · exact Moves.after (leavePark_moves _ _) (pinUnder_moves _ _)
  · exact .refl s

theorem parkToHold_moves (x : Nat) (s : State) : Moves A s (parkToHold x s) := by
  unfold parkToHold
  extract_lets b t
  have ht : Moves A s t := updPark_moves _ _ _
  split
  · exact Moves.after (offerPark_moves _ _) ht
  · exact ht

theorem stormRobot_moves (x : Nat) (b : Bool) (s : State) : Moves A s (stormRobot x b s) := by
  unfold stormRobot
  extract_lets k
  split
  · split
    · exact strikePark_moves _ _
    · split
      · split
        · exact leavePark_moves _ _
        · exact parkToHold_moves _ _
      · split
        · exact updPark_moves _ _ _
        · exact .refl s
  · split
    · split
      · split
        · exact .refl s
        · exact placePark_moves _ _ _
      · exact .refl s
    · exact .refl s

theorem parkReplay_moves (x : Nat) (s : State) : Moves A s (parkReplay x s) := by
  unfold parkReplay
  split
  · exact offerPark_moves _ _
  · exact .refl s

theorem reofferPark_moves (x : Nat) (s : State) : Moves A s (reofferPark x s) := by
  unfold reofferPark
  split
  · exact offerPark_moves _ _
  · exact .refl s

/-! ### The garage list -/

theorem updGarage_moves (c : Nat) (f : GarageEntry → GarageEntry) (s : State) : Moves A s (updGarage c f s) :=
  cart_moves fun _ => ⟨rfl, rfl, rfl, rfl, rfl, rfl, .inl rfl, rfl, rfl, id⟩

theorem offerGarage_moves (c : Nat) (s : State) : Moves A s (offerGarage c s) := by
  unfold offerGarage
  have h := offerUrgent_moves (A := A) .storm (s.cartAddr c) (.cartGarage (s.cart c).garage) s
  generalize offerUrgent .storm (s.cartAddr c) (.cartGarage (s.cart c).garage) s = p at h ⊢
  obtain ⟨t, b⟩ := p
  cases b <;> exact Moves.after (updGarage_moves _ _ _) h

theorem placeGarage_moves (c : Nat) (s : State) : Moves A s (placeGarage c s) := by
  unfold placeGarage
  split
  · exact .refl s
  · exact Moves.after (offerGarage_moves _ _) (cart_moves fun _ => ⟨rfl, rfl, rfl, rfl, rfl, rfl, .inl rfl, rfl, rfl, id⟩)

theorem leaveGarage_moves (c : Nat) (s : State) : Moves A s (leaveGarage c s) := by
  unfold leaveGarage
  split
  · exact Moves.after (cart_moves fun _ => ⟨rfl, rfl, rfl, rfl, rfl, rfl, .inl rfl, rfl, rfl, id⟩) (dropEntries_moves _ s)
  · exact .refl s

theorem stormCart_moves (c : Nat) (s : State) : Moves A s (stormCart c s) := by
  unfold stormCart
  extract_lets k
  split
  · exact leaveGarage_moves _ _
  · exact .refl s

theorem garageFreed_moves (c : Nat) (s : State) : Moves A s (garageFreed c s) := by
  unfold garageFreed
  extract_lets k
  split
  · exact placeGarage_moves _ _
  · exact .refl s

theorem garageReplay_moves (c : Nat) (s : State) : Moves A s (garageReplay c s) := by
  unfold garageReplay
  split
  · exact offerGarage_moves _ _
  · exact .refl s

theorem reofferGarage_moves (c : Nat) (s : State) : Moves A s (reofferGarage c s) := by
  unfold reofferGarage
  split
  · exact offerGarage_moves _ _
  · exact .refl s

/-! ### How transfers go on and end -/

theorem plannerOutcome_moves (x : Nat) (o : OutcomeKind) (s : State) : Moves A s (plannerOutcome x o s) := by
  unfold plannerOutcome
  split
  · extract_lets t
    have ht : Moves A s t := planRobot_moves _ _
    split
    · exact Moves.after (dropClaim_moves _ _) ht
    · exact ht
  · exact dropClaim_moves _ _
  · exact Moves.after (planRobot_moves _ _) (dropClaim_moves _ _)
  · exact Moves.after (planRobot_moves _ _) (dropClaim_moves _ _)

theorem stormOutcome_moves (x : Nat) (o : OutcomeKind) (s : State) : Moves A s (stormOutcome x o s) := by
  unfold stormOutcome
  split
  · split
    · exact leavePark_moves _ _
    · exact planRobot_moves _ _
  · split
    · exact Moves.after (offerPark_moves _ _) (updPark_moves _ _ _)
    · exact planRobot_moves _ _
  · exact planRobot_moves _ _
  · exact .refl s

theorem handOutcome_moves (t : Transfer) (o : OutcomeKind) (s : State) : Moves A s (handOutcome t o s) := by
  unfold handOutcome
  split
  · exact plannerOutcome_moves _ _ _
  · exact stormOutcome_moves _ _ _

theorem removeTransfer_moves (c : Nat) (t : Transfer) (o : OutcomeKind) {f : Cart → Cart}
    (h : ∀ k l, CartOk A k (f { k with transfer := none, lastTransfer := l })) (s : State) :
    Moves A s (removeTransfer c t o f s) :=
  Moves.after (robot_moves fun _ => ⟨rfl, rfl, rfl, rfl, rfl, rfl, rfl, rfl, rfl, rfl, rfl⟩)
    (Moves.after (cart_moves fun k => h k _) (withdrawTag?_moves _ s))

theorem rederive_moves (k : Cart) (l : Option LastTransfer) :
    CartOk A k ({ k with transfer := none, lastTransfer := l } : Cart).rederive :=
  Cart.rederive_ok ⟨rfl, rfl, rfl, rfl, rfl, rfl, .inl rfl, rfl, rfl, id⟩

theorem unload_rederive (h : A.unload = true) (k : Cart) (l : Option LastTransfer) :
    CartOk A k ({ ({ k with transfer := none, lastTransfer := l } : Cart) with load := none } : Cart).rederive :=
  Cart.rederive_ok ⟨rfl, rfl, rfl, rfl, rfl, rfl, .inr ⟨h, rfl⟩, rfl, rfl, id⟩

theorem freeCart_moves (c : Nat) {w : State → State} (h : ∀ s, Moves A s (w s)) (s : State) :
    Moves A s (freeCart c w s) := by
  unfold freeCart
  extract_lets lane
  split
  · refine inAnyOrder_moves (fun f hf s => ?_) s
    rcases List.mem_cons.1 hf with rfl | hf
    · exact arbiter_moves _ _
    · rw [List.mem_singleton.1 hf]; exact h s
  · exact h s

theorem transferDone_moves (h : A.unload = true) (c : Nat) (t : Transfer) (s : State) : Moves A s (transferDone c t s) :=
  Moves.after (freeCart_moves _ (handOutcome_moves _ _) _)
    (Moves.after (garageFreed_moves _ _) (removeTransfer_moves _ _ _ (unload_rederive h) s))

theorem toRecover_moves (c : Nat) (s : State) : Moves A s (s.updCart c Cart.toRecover) := cart_moves Cart.toRecover_ok

theorem transferFailed_moves (c : Nat) (t : Transfer) (s : State) : Moves A s (transferFailed c t s) :=
  Moves.after (handOutcome_moves _ _ _) (Moves.after (garageFreed_moves _ _) (Moves.after (latch_moves _ _)
    (Moves.after (toRecover_moves _ _) (Moves.after (offerHold_moves _ _) (Moves.after (freeReservation_moves _ _ _)
      (removeTransfer_moves _ _ _ (fun _ _ => ⟨rfl, rfl, rfl, rfl, rfl, rfl, .inl rfl, rfl, rfl, id⟩) s))))))

theorem transferStalled_moves (c : Nat) (t : Transfer) (s : State) : Moves A s (transferStalled c t s) :=
  Moves.after (handOutcome_moves _ _ _) (Moves.after (latch_moves _ _) (Moves.after (toRecover_moves _ _)
    (Moves.after (offerHold_moves _ _) (Moves.after
      (cart_moves fun _ => ⟨rfl, rfl, rfl, rfl, rfl, rfl, .inl rfl, rfl, rfl, id⟩) (withdrawTag?_moves _ s)))))

theorem closeStall_moves (h : A.unload = true) (c : Nat) (t : Transfer) (d : Nat) (s : State) :
    Moves A s (closeStall c t d s) := by
  unfold closeStall
  extract_lets u v
  have hu : Moves A s u := removeTransfer_moves _ _ _ (unload_rederive h) s
  have hv : Moves A s v := by
    simp only [v]
    split
    · exact hu
    · exact Moves.after (freeReservation_moves _ _ _) hu
  exact Moves.after (freeCart_moves _ (planRobot_moves _) _) (Moves.after (garageFreed_moves _ _) hv)

theorem transferAbort_moves (c : Nat) (t : Transfer) (s : State) : Moves A s (transferAbort c t s) := by
  unfold transferAbort
  exact Moves.after (plannerOutcome_moves _ _ _) (Moves.after (freeReservation_moves _ _ _)
    (removeTransfer_moves _ _ _ rederive_moves s))

theorem transferWithdraw_moves (c : Nat) (t : Transfer) (s : State) : Moves A s (transferWithdraw c t s) := by
  unfold transferWithdraw
  extract_lets left u v w
  have hv : Moves A s v := Moves.after (freeReservation_moves _ _ _) (removeTransfer_moves _ _ _ rederive_moves s)
  have hw : Moves A s w := by
    simp only [w]
    split
    · exact Moves.after (offerHold_moves _ _) hv
    · exact hv
  exact Moves.after (freeCart_moves _ (handOutcome_moves _ _) _) hw

theorem boardCut_moves (b : Bool) (c : Nat) (t : Transfer) (s : State) : Moves A s (boardCut b c t s) := by
  unfold boardCut
  split
  · exact cart_moves fun _ => ⟨rfl, rfl, rfl, rfl, rfl, rfl, .inl rfl, rfl, rfl, id⟩
  · split
    · exact Moves.after (garageFreed_moves _ _) (transferAbort_moves _ _ _)
    · exact transferAbort_moves _ _ _

theorem transferCut_moves (b : Bool) (g : Nat) (s : State) : Moves A s (transferCut b g s) := by
  unfold transferCut
  split
  · exact .refl s
  · split
    · exact boardCut_moves _ _ _ _
    · exact .refl s

theorem reofferPhase_moves (c : Nat) (s : State) : Moves A s (reofferPhase c s) := by
  unfold reofferPhase
  have h := offerPhase_moves (A := A) c s
  generalize offerPhase c s = p at h ⊢
  obtain ⟨t, a⟩ := p
  split
  · next heq =>
    simp only [Prod.mk.injEq] at heq
    rw [← heq.1]
    split
    · exact Moves.after (boardCut_moves _ _ _ _) h
    · exact h
  · next heq =>
    simp only [Prod.mk.injEq] at heq
    rw [← heq.1]
    exact h

theorem beginPhase_moves (c : Nat) (p : Phase) (s : State) : Moves A s (beginPhase c p s) :=
  Moves.after (reofferPhase_moves _ _) (cart_moves fun _ => ⟨rfl, rfl, rfl, rfl, rfl, rfl, .inl rfl, rfl, rfl, id⟩)

theorem reofferHeld_moves (c : Nat) (s : State) : Moves A s (reofferHeld c s) :=
  Moves.after (reofferHold_moves _ _) (reofferPhase_moves _ _)

theorem testPhase_moves (c : Nat) (d : Option Nat) (s : State) : Moves A s (testPhase c d s) := by
  unfold testPhase
  split
  · exact beginPhase_moves _ _ _
  · exact reofferHeld_moves _ _

theorem phaseExpiry_moves (c : Nat) (s : State) : Moves A s (phaseExpiry c s) := by
  unfold phaseExpiry
  split
  · exact .refl s
  · split
    · split
      · split
        · exact transferStalled_moves _ _ _
        · exact transferFailed_moves _ _ _
      · split
        · exact transferStalled_moves _ _ _
        · exact transferFailed_moves _ _ _
      · exact transferStalled_moves _ _ _
      · exact transferStalled_moves _ _ _
    · exact .refl s

theorem transferDocked_moves (h : A.unload = true) (c : Nat) (t : Transfer) (d : Nat) (s : State) :
    Moves A s (transferDocked c t d s) := by
  unfold transferDocked
  split
  · exact Moves.after (closeStall_moves h _ _ _ _) (reofferHold_moves _ _)
  · split
    · exact transferDone_moves h _ _ _
    · split
      · split
        · exact reofferPhase_moves _ _
        · exact transferFailed_moves _ _ _
      · split
        · exact reofferPhase_moves _ _
        · exact transferFailed_moves _ _ _
      · exact transferFailed_moves _ _ _
      · exact transferFailed_moves _ _ _

/-- A robot change at the Transfer Controller takes a load away only at a docking. -/
theorem transferRobot_moves (x : Nat) {d : Option Nat} (h : A.unload = true ∨ d = none) (s : State) :
    Moves A s (transferRobot x d s) := by
  unfold transferRobot
  extract_lets k
  split
  · exact .refl s
  · split
    · exact .refl s
    · split
      · exact withdrawQueued_moves _ _
      · exact .refl s
  · split
    · exact .refl s
    · split
      · exact transferDocked_moves (h.resolve_right (by simp)) _ _ _ _
      · exact testPhase_moves _ _ _

theorem transferCart_moves (c : Nat) (d : Option Nat) (b : Bool) (s : State) : Moves A s (transferCart c d b s) := by
  unfold transferCart
  split
  · exact arbiter_moves _ _
  · extract_lets late
    split
    · exact transferStalled_moves _ _ _
    · exact testPhase_moves _ _ _

theorem parkTransfer_moves (s0 : State) (c : Nat) (s : State) : Moves A s (parkTransfer s0 c s) := by
  unfold parkTransfer
  extract_lets on
  have h : Moves A s on :=
    Moves.after (reofferHeld_moves _ _) (cart_moves fun _ => ⟨rfl, rfl, rfl, rfl, rfl, rfl, .inl rfl, rfl, rfl, id⟩)
  split
  · split
    · exact h
    · split
      · exact transferAbort_moves _ _ _
      · split
        · exact h
        · exact transferAbort_moves _ _ _
      · exact h
      · exact h
  · split
    · exact .refl s
    · split
      · exact .refl s
      · exact Moves.after (cart_moves fun _ => ⟨rfl, rfl, rfl, rfl, rfl, rfl, .inl rfl, rfl, rfl, id⟩) (withdrawTag?_moves _ s)

theorem transferPark_moves (s0 s : State) : Moves A s (transferPark s0 s) :=
  Moves.after (forEach_moves (fun _ _ _ => parkTransfer_moves _ _ _) _)
    (forEach_moves (fun _ _ _ => withdrawQueued_moves _ _) _)

/-! ### The Storm Controller -/

theorem stm_moves (h : A.storm = true) {f : StormUnit → StormUnit} {s : State} (hf : ∀ m, StmOk m (f m)) :
    Moves A s (s.setStm f) := .of (.stm s f h (hf _))

theorem changeState_moves (h : A.storm = true) (st : StormState) (s : State) : Moves A s (changeState st s) :=
  Moves.after (latch_moves _ _) (stm_moves h fun _ => ⟨rfl, rfl, rfl⟩)

@[simp] theorem changeState_state (st : StormState) (s : State) : (changeState st s).stm.state = st := by
  unfold changeState
  rw [latch_stm]
  rfl

theorem handState_moves (h' : A.round = true ∨ A.storm = true) {s : State} (h : A.opens = true ∨ s.stm.state ≠ .calm) : Moves A s (handState s) :=
  Moves.after (arbiters_moves _) (evaluateRound_moves h' _ h)

theorem enterWatch_moves (h : A.storm = true) (s : State) : Moves A s (enterWatch s) :=
  Moves.after (handState_moves (.inr h) (.inr (by simp))) (changeState_moves h _ _)

theorem enterCalm_moves (h : A.storm = true) (k : A.opens = true) (s : State) : Moves A s (enterCalm s) :=
  Moves.after (handState_moves (.inr h) (.inl k)) (changeState_moves h _ _)

theorem cutEvent_moves (b : Bool) (g : Nat × Owner) (s : State) : Moves A s (cutEvent b g s) := by
  unfold cutEvent
  split
  · exact passCut_moves _ _
  · exact transferCut_moves _ _ _
  all_goals exact .refl s

theorem purge_moves (s : State) : Moves A s (purge s) := by
  unfold purge
  extract_lets gs
  refine (removeGroups_moves (gs.map fun g => g.1) s).trans ?_
  generalize removeGroups (gs.map fun g => g.1) s = t
  clear_value gs
  induction gs generalizing t with
  | nil => exact .refl t
  | cons g gs ih => exact (cutEvent_moves false g t).trans (ih _)

theorem allAuto_moves (h : A.fleet = true) (s : State) : Moves A s (allAuto s) :=
  .of (.fleets s _ h rfl fun _ => ⟨rfl, rfl, rfl, rfl, rfl, rfl, rfl, rfl, id, .inl rfl⟩)

theorem parkJudge_moves (s0 : State) (x : Nat) (s : State) : Moves A s (parkJudge s0 x s) := by
  unfold parkJudge
  extract_lets k
  split
  · exact pinUnder_moves _ _
  · split
    · exact placePark_moves _ _ _
    · exact .refl s

theorem garageJudge_moves (s0 : State) (c : Nat) (s : State) : Moves A s (garageJudge s0 c s) := by
  unfold garageJudge
  extract_lets k
  split
  · exact .refl s
  · exact placeGarage_moves _ _

theorem buildLists_moves (s0 : State) (b : Bool) (s : State) : Moves A s (buildLists s0 b s) :=
  Moves.after (forEach_moves (fun _ _ _ => garageJudge_moves _ _ _) _) (forEach_moves (fun _ _ _ => parkJudge_moves _ _ _) _)

theorem strand_moves (h : A.fleet = true) (x : Nat) (s : State) : Moves A s (strand x s) := by
  unfold strand
  split
  · refine Moves.after (leavePark_moves _ _) (Moves.after (pinUnder_moves _ _) (Moves.after (latch_moves _ _) ?_))
    exact .of (.fleet s x _ h fun _ => ⟨rfl, rfl, rfl, rfl, rfl, rfl, rfl, rfl, fun _ => rfl, .inr rfl⟩)
  · exact .refl s

theorem strandAll_moves (h : A.fleet = true) (s : State) : Moves A s (strandAll s) :=
  forEach_moves (fun _ _ _ => strand_moves h _ _) s

theorem mapRel_moves {f : Row → Option RelEntry} (h : f Row.powerOn = none) (s : State) :
    Moves A s { s with rows := s.rows.map (fun x => { x with rel := f x }) } :=
  .of (.rows s _ (by rw [h]; rfl) fun _ => ⟨rfl, rfl, rfl, rfl, rfl, rfl, rfl, id, .inr id⟩)

theorem dropReleases_moves (s : State) : Moves A s (dropReleases s) :=
  Moves.after (dropEntries_moves _ _) (mapRel_moves (f := fun _ => none) rfl s)

theorem closeForStorm_moves (h : A.round = true ∨ A.storm = true) (s : State) : Moves A s (closeForStorm s) := by
  unfold closeForStorm
  split
  · exact .of (.rnd s _ (.inl h) id)
  · exact .refl s

theorem stormEntry_moves (h : A.storm = true) (st : StormState) (s : State) : Moves A s (stormEntry st s) := by
  unfold stormEntry
  refine Moves.after (changeState_moves h _ _) ?_
  split
  · exact dropReleases_moves _
  · exact .refl s

/-- What the owners do at a storm entry is allowed where marks and modes of the fleet may change. -/
theorem fleet_le (h : A.fleet = true) : Allow.Le { fleet := true } A :=
  ⟨nofun, nofun, fun _ => h, nofun, nofun, nofun, nofun⟩

theorem parkEntry_moves (hf : A.fleet = true) (hs : A.storm = true) (s : State) : Moves A s (parkEntry s) := by
  refine Moves.after (Moves.mono (fleet_le hf) (inAnyOrder_moves ?_ _))
    (Moves.after (closeForStorm_moves (.inr hs) _) (stormEntry_moves hs _ s))
  simp only [List.mem_cons, List.not_mem_nil, or_false, forall_eq_or_imp, forall_eq]
  exact ⟨plannerPark_moves, transferPark_moves _, purge_moves, allAuto_moves rfl, sweepStart_moves, buildLists_moves _ _⟩

theorem lockoutEntry_moves (hf : A.fleet = true) (hs : A.storm = true) (s : State) : Moves A s (lockoutEntry s) := by
  unfold lockoutEntry
  extract_lets t stowAll common
  have ht : Moves A s t := Moves.after (stm_moves hs fun _ => ⟨rfl, rfl, rfl⟩) (stormEntry_moves hs _ s)
  have hw : ∀ s, Moves { fleet := true } s (stowAll s) := fun s =>
    Moves.after (sweepLockout_moves _) (forEach_moves (fun _ _ _ => setStow_moves _ _) _)
  have key : ∀ (l : List (State → State)) (u : State), Moves A s u → (∀ f ∈ l, ∀ s, Moves { fleet := true } s (f s)) →
      Moves A s (inAnyOrder l u) := fun l u hu hl => Moves.after (Moves.mono (fleet_le hf) (inAnyOrder_moves hl u)) hu
  split <;> refine key _ _ (by first | exact ht | exact Moves.after (closeForStorm_moves (.inr hs) _) ht) ?_ <;>
    simp only [common, List.cons_append, List.nil_append, List.mem_cons, List.not_mem_nil, or_false, forall_eq_or_imp,
      forall_eq]
  · exact ⟨offerBroadcast_moves, hw, strandAll_moves rfl, plannerPark_moves, transferPark_moves _, purge_moves,
      allAuto_moves rfl, buildLists_moves _ _⟩
  · exact ⟨offerBroadcast_moves, hw, strandAll_moves rfl, plannerPark_moves, transferPark_moves _, purge_moves,
      allAuto_moves rfl, buildLists_moves _ _⟩
  · exact ⟨offerBroadcast_moves, hw, strandAll_moves rfl, allAuto_moves rfl, buildLists_moves _ _⟩
  all_goals exact ⟨offerBroadcast_moves, hw, strandAll_moves rfl⟩

theorem emptyLists_moves (s : State) : Moves A s (emptyLists s) :=
  Moves.after (forEach_moves (fun _ _ _ => leaveGarage_moves _ _) _) (forEach_moves (fun _ _ _ => leavePark_moves _ _) _)

theorem calmFromRelease_moves (h : A.storm = true) (k : A.opens = true) (s : State) : Moves A s (calmFromRelease s) :=
  Moves.after (handState_moves (.inr h) (.inl k)) (Moves.after (changeState_moves h _ _) (emptyLists_moves s))

theorem releaseDone_moves (h : A.storm = true) (k : A.opens = true) (s : State) : Moves A s (releaseDone s) := by
  unfold releaseDone
  split
  · exact calmFromRelease_moves h k s
  · exact .refl s

theorem releaseRow_moves (r : Nat) (s : State) : Moves A s (releaseRow r s) := by
  unfold releaseRow
  have h := clearStow_moves (A := A) r s
  generalize clearStow r s = p at h ⊢
  obtain ⟨t, b⟩ := p
  cases b
  · exact h
  · dsimp only
    split
    · exact Moves.after (rowLevelTold_moves _ _) h
    · exact h

theorem buildReleases_moves (s : State) : Moves A s (buildReleases s) := mapRel_moves rfl s

theorem releaseEntry_moves (h : A.storm = true) (k : A.opens = true) (s : State) : Moves A s (releaseEntry s) :=
  Moves.after (releaseDone_moves h k _) (Moves.after (buildReleases_moves _) (Moves.after (sweepOff_moves _)
    (Moves.after (forEach_moves (fun _ _ _ => releaseRow_moves _ _) _)
      (Moves.after (handState_moves (.inr h) (.inr (by simp))) (changeState_moves h _ _)))))

theorem secure_moves (h : A.storm = true) (s : State) : Moves A s (secure s) := by
  unfold secure
  split
  · exact Moves.after (handState_moves (.inr h) (.inr (by simp))) (changeState_moves h _ _)
  · exact .refl s

theorem watchExpiry_moves (h : A.storm = true) (s : State) : Moves A s (watchExpiry s) := by
  unfold watchExpiry
  split
  · exact enterWatch_moves h s
  · exact .refl s

theorem parkExpiry_moves (hf : A.fleet = true) (h : A.storm = true) (s : State) : Moves A s (parkExpiry s) := by
  unfold parkExpiry
  split
  · exact parkEntry_moves hf h s
  · exact .refl s

theorem calmExpiry_moves (h : A.storm = true) (k : A.opens = true) (s : State) : Moves A s (calmExpiry s) := by
  unfold calmExpiry
  split
  · exact enterCalm_moves h k s
  · exact .refl s

theorem releaseExpiry_moves (h : A.storm = true) (k : A.opens = true) (s : State) : Moves A s (releaseExpiry s) := by
  unfold releaseExpiry
  split
  · exact releaseEntry_moves h k s
  · exact .refl s

theorem lockoutExpiry_moves (h : A.storm = true) (s : State) : Moves A s (lockoutExpiry s) := by
  unfold lockoutExpiry
  split
  · exact Moves.after (secure_moves h _) (Moves.after (swp_moves _ _)
      (Moves.after (handState_moves (.inr h) (.inr (by simp))) (changeState_moves h _ _)))
  · exact .refl s

theorem evaluateTimers_moves (h : A.storm = true) (g : Nat) (s : State) : Moves A s (evaluateTimers g s) := by
  unfold evaluateTimers
  extract_lets a b c d
  split
  all_goals first | exact .refl s | exact stm_moves h fun _ => ⟨rfl, rfl, rfl⟩

/-- An evaluation, after it has stored the site gust. -/
theorem evaluate_moves (hf : A.fleet = true) (h : A.storm = true) (k : A.opens = true) (s : State) :
    Moves A (s.setStm (fun m => { m with gust := s.siteGust })) (evaluate s) := by
  unfold evaluate
  extract_lets t
  show Moves A t _
  clear_value t
  split
  · exact .refl t
  · split
    · split
      · exact stm_moves h fun _ => ⟨rfl, rfl, rfl⟩
      · exact lockoutEntry_moves hf h t
    · refine Moves.after (inAnyOrder_moves (fun f hm s => ?_) _) (evaluateTimers_moves h _ _)
      simp only [zeroTimers, List.mem_append] at hm
      rcases hm with ((hm | hm) | hm) | hm <;> obtain ⟨-, rfl⟩ := mem_onlyIf hm
      · exact watchExpiry_moves h s
      · exact parkExpiry_moves hf h s
      · exact calmExpiry_moves h k s
      · exact releaseExpiry_moves h k s

theorem parkCause_moves (hf : A.fleet = true) (h : A.storm = true) (s : State) : Moves A s (parkCause s) := by
  unfold parkCause
  split
  all_goals first | exact parkEntry_moves hf h s | exact .refl s

/-- A mast silence event, after it has changed gust, timers and mark. -/
theorem mastSilence_moves (hf : A.fleet = true) (h : A.storm = true) (s : State) :
    Moves A (s.setStm (fun m => { m with gust := none, calmT := none, releaseT := none, silent := true }))
      (mastSilence s) := by
  unfold mastSilence
  extract_lets t u
  have hu : Moves A t u := latch_moves _ _
  show Moves A t _
  split
  all_goals first | exact Moves.after (parkEntry_moves hf h _) hu | exact hu

theorem leaveRelease_moves (h : A.storm = true) (k : A.opens = true) (r : Nat) (s : State) :
    Moves A s (leaveRelease r s) := by
  unfold leaveRelease
  split
  · exact Moves.after (releaseDone_moves h k _) (rel_moves _ _ _)
  · exact .refl s

theorem releaseSample_moves (h : A.storm = true) (k : A.opens = true) (r : Nat) (p : Posture) (s : State) :
    Moves A s (releaseSample r p s) := by
  unfold releaseSample
  split
  · exact .refl s
  · exact leaveRelease_moves h k r s

theorem offerSecond_moves (r : Nat) (s : State) : Moves A s (offerSecond r s) := by
  unfold offerSecond
  have h := offerRoutine_moves (A := A) .storm (s.rowAddr r) [.rowRelease] s
  generalize offerRoutine .storm (s.rowAddr r) [.rowRelease] s = p at h ⊢
  obtain ⟨t, b⟩ := p
  cases b <;> dsimp only <;> exact Moves.after (rel_moves _ _ _) h

theorem reofferSecond_moves (r : Nat) (s : State) : Moves A s (reofferSecond r s) := by
  unfold reofferSecond
  split
  · exact offerSecond_moves _ _
  · exact .refl s

theorem releaseRowExpiry_moves (h : A.storm = true) (k : A.opens = true) (r : Nat) (s : State) :
    Moves A s (releaseRowExpiry r s) := by
  unfold releaseRowExpiry
  split
  · split
    · exact Moves.after (leaveRelease_moves h k _ _) (pinRow_moves _ _)
    · exact Moves.after (offerSecond_moves _ _) (rel_moves _ _ _)
  · exact .refl s

/-! ### The Order Dispatcher -/

theorem leaveAsked_moves (x : Nat) (s : State) : Moves A s (leaveAsked x s) := by
  unfold leaveAsked
  extract_lets a o
  split
  · refine .of (.dsp s _ ⟨rfl, rfl, rfl, rfl, rfl, ?_, ?_⟩)
    · dsimp only; rw [List.length_map]; exact le_max_right _ _
    · exact le_max_right _ _
  · exact offerRoutine_moves _ _ _ _

theorem cutGroup_moves (s : State) : Moves A s (cutGroup s) := by
  unfold cutGroup
  split
  · exact .refl s
  · exact Moves.after (cutEvent_moves _ _ _) (removeGroups_moves _ _)

theorem chooseEntry_moves (n : Nat) (s : State) : Moves A s (chooseEntry n s).1 := by
  induction n generalizing s with
  | zero => exact .refl s
  | succ n ih =>
    unfold chooseEntry
    split
    · exact cutGroup_moves s
    · split
      · exact .refl s
      · split
        · exact Moves.after (ih _) (Moves.after (cutEvent_moves _ _ _) (removeGroups_moves _ _))
        · exact .refl s

theorem entryLeft_moves (e : Entry) (s : State) : Moves A s (entryLeft e s) := by
  unfold entryLeft
  split
  · exact .refl s
  · split
    · exact levelLeft_moves _ _
    · exact stowLeft_moves _ _
    · exact rel_moves _ _ _
    · exact .refl s

theorem sentEvent_moves (e : Entry) (s : State) : Moves A s (sentEvent e s) := by
  unfold sentEvent
  split
  · split
    · exact passSent_moves _ _
    · exact .refl s
  · exact transferSent_moves _ _
  all_goals exact .refl s

theorem reofferAll_moves (s : State) : Moves A s (reofferAll s) := by
  refine inAnyOrder_moves (fun f hm s => ?_) s
  simp only [List.mem_append] at hm
  rcases hm with ((hm | hm) | hm) | hm <;> obtain ⟨-, rfl⟩ := mem_onlyIf hm
  · exact forEach_moves (fun _ _ _ => reofferHeldPass_moves _ _) s
  · exact forEach_moves (fun _ _ _ => reofferHeld_moves _ _) s
  · exact Moves.after (reofferPostures_moves _ _) (forEach_moves (fun _ _ _ => reofferStow_moves _ _) _)
  · exact Moves.after (forEach_moves (fun _ _ _ => reofferSecond_moves _ _) _)
      (Moves.after (forEach_moves (fun _ _ _ => reofferGarage_moves _ _) _)
        (forEach_moves (fun _ _ _ => reofferPark_moves _ _) _))

theorem noteQueues_moves (s : State) : Moves A s (noteQueues s) :=
  dsp_moves ⟨rfl, rfl, rfl, rfl, rfl, le_max_right _ _, le_max_right _ _⟩

theorem stallExpiry_moves (s : State) : Moves A s (stallExpiry s) := by
  unfold stallExpiry
  split
  · exact Moves.after (latch_moves _ _) (dsp_moves ⟨rfl, rfl, rfl, rfl, rfl, le_max_right _ _, le_max_right _ _⟩)
  · exact .refl s

theorem settle_moves (h : A.storm = true) (s : State) : Moves A s (settle s) :=
  Moves.after (noteQueues_moves _) (secure_moves h s)

/-! ### Changes handed on by the Fleet Tracker -/

theorem robotWork_moves (x : Nat) (w : Bool) {res : Option PassResult} {d : Option Nat} (b : Bool) (s0 : State)
    (h : A.clean = true ∨ res ≠ some .complete) (k : A.unload = true ∨ d = none) :
    ∀ f ∈ robotWork x w res d b s0, ∀ s, Moves A s (f s) := by
  intro f hm s
  simp only [robotWork, List.mem_append] at hm
  rcases hm with ((hm | hm) | hm) | hm <;> obtain ⟨-, rfl⟩ := mem_onlyIf hm
  · exact plannerChange_moves _ _ h s
  · exact transferRobot_moves _ k s
  · exact stormRobot_moves _ _ s
  · exact sweepFreed_moves s

/-- A robot change handed on completes a cleaning only with the result COMPLETE, and takes a load away only at a
docking. -/
theorem handRobot_moves (x : Nat) (w : Bool) {res : Option PassResult} {d : Option Nat} (b : Bool)
    (h : A.clean = true ∨ res ≠ some .complete) (k : A.unload = true ∨ d = none) (s : State) :
    Moves A s (handRobot x w res d b s) := inAnyOrder_moves (robotWork_moves x w b s h k) s

theorem handCart_moves (c : Nat) (d : Option Nat) (b : Bool) (s : State) : Moves A s (handCart c d b s) := by
  refine inAnyOrder_moves (fun f hm s => ?_) s
  simp only [List.mem_append] at hm
  rcases hm with hm | hm <;> obtain ⟨-, rfl⟩ := mem_onlyIf hm
  · exact transferCart_moves _ _ _ s
  · exact stormCart_moves _ s

end Sys2Proof.Machine
end

