-- ==== Sys2Proof/Laws/Frame.lean ====
section
/-! SUPPORT. What a latch does, and what moves leave unchanged: the frames and laws of Safety.lean. -/

namespace Sys2Proof.Machine

variable {A : Allow} {s t u : State}

/-! ### A latch -/

theorem hasFlag_bit (f g : Flag) : hasFlag f.bit g = decide (f = g) := by
  cases f <;> cases g <;> decide

theorem hasFlag_or (a b : BitVec 19) (f : Flag) : hasFlag (a ||| b) f = (hasFlag a f || hasFlag b f) := by
  simp only [hasFlag, BitVec.getLsbD_or]

theorem latch_flag (f g : Flag) (s : State) :
    hasFlag (latch f s).ntc.latched g = (hasFlag s.ntc.latched g || decide (f = g)) := by
  have key : ∀ s : State, (causeNotice s).ntc.latched = s.ntc.latched := by
    intro s; unfold causeNotice offerNotice; split_ifs <;> rfl
  unfold latch
  split
  · next h =>
    by_cases e : f = g
    · subst e; simp [h]
    · simp [e]
  · next h =>
    dsimp only
    split
    · simp only [Notices.latch, h, Bool.false_eq_true, if_false, hasFlag_or, hasFlag_bit]
    · rw [key]
      simp only [Notices.latch, h, Bool.false_eq_true, if_false, hasFlag_or, hasFlag_bit]

theorem latch_risen (f g : Flag) (s : State) :
    hasFlag (latch f s).ntc.risen g =
      (hasFlag s.ntc.risen g || (decide (f = g) && !hasFlag s.ntc.latched f)) := by
  have key : ∀ s : State, (causeNotice s).ntc.risen = s.ntc.risen := by
    intro s; unfold causeNotice offerNotice; split_ifs <;> rfl
  unfold latch
  split
  · next h => simp [h]
  · next h =>
    dsimp only
    split
    · simp [Notices.latch, h, hasFlag_or, hasFlag_bit]
    · rw [key]
      simp [Notices.latch, h, hasFlag_or, hasFlag_bit]

@[simp] theorem latch_mask (f : Flag) (s : State) : (latch f s).ntc.mask = s.ntc.mask := by
  unfold latch causeNotice offerNotice Notices.latch; dsimp only; split_ifs <;> rfl

@[simp] theorem latch_air (f : Flag) (s : State) : (latch f s).up.air = s.up.air := by
  unfold latch causeNotice offerNotice; dsimp only; split_ifs <;> rfl

@[simp] theorem latch_rx (f : Flag) (s : State) : (latch f s).up.rx = s.up.rx := by
  unfold latch causeNotice offerNotice; dsimp only; split_ifs <;> rfl

/-- A latch puts at most one NOTICE at the tail of the uplink queue, and only while there is room. -/
theorem latch_queue (f : Flag) (s : State) :
    (latch f s).up.queue = s.up.queue ∨
      ((latch f s).up.queue = s.up.queue ++ [.notice] ∧ s.up.queue.length < 64) := by
  unfold latch causeNotice offerNotice
  dsimp only
  split_ifs <;> first | exact .inl rfl | exact .inr ⟨rfl, by assumption⟩

@[simp] theorem latch_row (f : Flag) (s : State) (r : Nat) : (latch f s).row r = s.row r :=
  congrArg (fun t : Tab Row.powerOn => t.get r) (latch_rows f s)

@[simp] theorem latch_robot (f : Flag) (s : State) (x : Nat) : (latch f s).robot x = s.robot x :=
  congrArg (fun t : Tab (Robot.fresh none 0) => t.get x) (latch_robots f s)

@[simp] theorem latch_cart (f : Flag) (s : State) (c : Nat) : (latch f s).cart c = s.cart c :=
  congrArg (fun t : Tab (Cart.fresh none 0 0) => t.get c) (latch_carts f s)

@[simp] theorem latch_mast (f : Flag) (s : State) (m : Nat) : (latch f s).mast m = s.mast m :=
  congrArg (fun t : Tab Mast.powerOn => t.get m) (latch_masts f s)

/-! ### Frames compose -/

theorem SiteKept.refl (s : State) : SiteKept s s := ⟨rfl, rfl, rfl, rfl, rfl, rfl, rfl⟩

theorem SiteKept.trans (h : SiteKept s t) (k : SiteKept t u) : SiteKept s u :=
  ⟨k.pending.trans h.pending, k.clk.trans h.clk, k.ep.trans h.ep, k.ctl.trans h.ctl, k.lookup.trans h.lookup,
    k.masts.trans h.masts, k.yld.trans h.yld⟩

theorem LinksKept.refl (s : State) : LinksKept s s := ⟨rfl, rfl, ⟨0, by simp⟩, rfl, rfl, rfl, rfl, rfl⟩

theorem LinksKept.trans (h : LinksKept s t) (k : LinksKept t u) : LinksKept s u := by
  obtain ⟨n, hn⟩ := h.queue
  obtain ⟨m, hm⟩ := k.queue
  exact ⟨k.air.trans h.air, k.rx.trans h.rx, ⟨n + m, by rw [hm, hn, List.append_assoc, List.replicate_append_replicate]⟩,
    k.fieldAir.trans h.fieldAir, k.permit.trans h.permit, k.fell.trans h.fell, k.fieldRx.trans h.fieldRx, k.echo.trans h.echo⟩

theorem FlagsKept.refl (s : State) : FlagsKept s s := ⟨rfl, fun _ => id, fun _ => id⟩

theorem FlagsKept.trans (h : FlagsKept s t) (k : FlagsKept t u) : FlagsKept s u :=
  ⟨k.mask.trans h.mask, fun f e => k.latched f (h.latched f e), fun f e => k.risen f (h.risen f e)⟩

theorem WindKept.refl (s : State) : WindKept s s := ⟨rfl, rfl, rfl⟩

theorem WindKept.trans (h : WindKept s t) (k : WindKept t u) : WindKept s u :=
  ⟨k.gust.trans h.gust, k.advisory.trans h.advisory, k.silent.trans h.silent⟩

theorem RowKept.refl (x : Row) : RowKept x x := ⟨rfl, rfl, rfl, rfl, rfl, rfl, rfl⟩

theorem RowKept.trans {x y z : Row} (h : RowKept x y) (k : RowKept y z) : RowKept x z :=
  ⟨k.cfg.trans h.cfg, k.soil.trans h.soil, k.acct.trans h.acct, k.opened.trans h.opened, k.closing.trans h.closing,
    k.occupant.trans h.occupant, k.reported.trans h.reported⟩

theorem RobotKept.refl (x : Robot) : RobotKept x x := ⟨rfl, rfl, rfl, rfl, rfl, rfl, rfl, rfl⟩

theorem RobotKept.trans {x y z : Robot} (h : RobotKept x y) (k : RobotKept y z) : RobotKept x z :=
  ⟨k.node.trans h.node, k.lane.trans h.lane, k.pos.trans h.pos, k.activity.trans h.activity, k.charge.trans h.charge,
    k.metres.trans h.metres, k.fault.trans h.fault, k.heard.trans h.heard⟩

theorem RobotStill.refl (x : Robot) : RobotStill x x := ⟨RobotKept.refl x, rfl, rfl, rfl⟩

theorem RobotStill.trans {x y z : Robot} (h : RobotStill x y) (k : RobotStill y z) : RobotStill x z :=
  ⟨h.toRobotKept.trans k.toRobotKept, k.state.trans h.state, k.ctrl.trans h.ctrl, k.stranded.trans h.stranded⟩

theorem CartKept.refl (x : Cart) : CartKept x x := ⟨rfl, rfl, rfl, rfl, rfl, rfl, rfl, rfl⟩

theorem CartKept.trans {x y z : Cart} (h : CartKept x y) (k : CartKept y z) : CartKept x z :=
  ⟨k.node.trans h.node, k.lane.trans h.lane, k.garage.trans h.garage, k.slot.trans h.slot, k.moving.trans h.moving,
    k.garaged.trans h.garaged, k.fault.trans h.fault, k.heard.trans h.heard⟩

/-! ### What one move leaves unchanged -/

/-- The fields a cleaning completion does not touch. -/
theorem clean_eq (r : Nat) (s : State) : ∃ rows, completeCleaning r s = { s with rows := rows } := by
  unfold completeCleaning
  dsimp only
  split <;> exact ⟨_, rfl⟩

theorem Move.site (h : Move A s t) : SiteKept s t := by
  cases h with
  | latch f => exact ⟨latch_pending f s, latch_clk f s, latch_ep f s, latch_ctl f s, latch_lookup f s, latch_masts f s,
      latch_yld f s⟩
  | clean _ r => obtain ⟨rows, e⟩ := clean_eq r s; rw [e]; exact ⟨rfl, rfl, rfl, rfl, rfl, rfl, rfl⟩
  | _ => exact ⟨rfl, rfl, rfl, rfl, rfl, rfl, rfl⟩

theorem Move.links (h : Move A s t) : LinksKept s t := by
  cases h with
  | latch f =>
    refine ⟨latch_air f s, latch_rx f s, ?_, ?_, ?_, ?_, ?_, ?_⟩
    · rcases latch_queue f s with e | ⟨e, -⟩
      · exact ⟨0, by simpa using e⟩
      · exact ⟨1, e⟩
    all_goals rw [latch_dsp]
  | dsp _ f h => exact ⟨rfl, rfl, ⟨0, by simp⟩, h.air, h.permit, h.fell, h.rx, h.echo⟩
  | clean _ r =>
    obtain ⟨rows, e⟩ := clean_eq r s; rw [e]; exact ⟨rfl, rfl, ⟨0, by simp⟩, rfl, rfl, rfl, rfl, rfl⟩
  | _ => exact ⟨rfl, rfl, ⟨0, by simp⟩, rfl, rfl, rfl, rfl, rfl⟩

theorem Move.flags (h : Move A s t) : FlagsKept s t := by
  cases h with
  | latch f =>
    exact ⟨latch_mask f s, fun g e => by rw [latch_flag, e]; rfl, fun g e => by rw [latch_risen, e]; rfl⟩
  | clean _ r => obtain ⟨rows, e⟩ := clean_eq r s; rw [e]; exact ⟨rfl, fun _ => id, fun _ => id⟩
  | _ => exact ⟨rfl, fun _ => id, fun _ => id⟩

theorem Move.wind (h : Move A s t) : WindKept s t := by
  cases h with
  | latch f => exact ⟨by rw [latch_stm], by rw [latch_stm], by rw [latch_stm]⟩
  | stm _ f _ h => exact ⟨h.gust, h.advisory, h.silent⟩
  | clean _ r => obtain ⟨rows, e⟩ := clean_eq r s; rw [e]; exact ⟨rfl, rfl, rfl⟩
  | _ => exact ⟨rfl, rfl, rfl⟩

/-- What a cleaning completion makes of the row (R82, R83). -/
structure RowClean (x y : Row) : Prop where
  cfg : y.cfg = x.cfg
  sup : y.sup = x.sup
  soil : ∃ c, y.soil = ⟨0, none, true, some x.soil.s, c⟩
  acct : y.acct = { x.acct with cleanings := satQuad (x.acct.cleanings + 1) }
  opened : y.banks.opened.map Bank.core = x.banks.opened.map Bank.core
  closing : y.banks.closing.map Bank.core = x.banks.closing.map Bank.core

theorem clean_row (r j : Nat) (s : State) :
    (j = r ∧ RowClean (s.row j) ((completeCleaning r s).row j)) ∨ (completeCleaning r s).row j = s.row j := by
  have core : ∀ o : Option Bank, (o.map fun b => ({ b with disturbed := true } : Bank)).map Bank.core = o.map Bank.core := by
    intro o; cases o <;> rfl
  by_cases hj : j = r
  · refine .inl ⟨hj, ?_⟩
    unfold completeCleaning disturb
    dsimp only
    split <;> simp only [State.row_updBanks, State.row_updAcct, State.row_updSoil, hj, if_true]
    · exact ⟨rfl, rfl, ⟨_, rfl⟩, rfl, core _, core _⟩
    · exact ⟨rfl, rfl, ⟨_, rfl⟩, rfl, core _, rfl⟩
  · right
    unfold completeCleaning disturb
    dsimp only
    split <;> simp only [State.row_updBanks, State.row_updAcct, State.row_updSoil, hj, if_false]

/-- What one move makes of a row. -/
theorem Move.at_row (h : Move A s t) (j : Nat) :
    RowOk A (s.row j) (t.row j) ∨
      (A.opens = true ∧ t.row j = { s.row j with sup := { (s.row j).sup with levelFault := false } }) ∨
      (A.clean = true ∧ RowClean (s.row j) (t.row j)) := by
  cases h with
  | latch f => left; rw [latch_row]; exact .refl _
  | row _ r f h =>
    left
    have e : State.row { s with rows := s.rows.upd r f } j = if j = r then f (s.row r) else s.row j := Tab.get_upd s.rows r j f
    rw [e]
    split
    · next hj => subst hj; exact h
    · exact .refl _
  | rows _ f h0 h =>
    left
    have e : State.row { s with rows := s.rows.map f } j = f (s.row j) := Tab.get_map s.rows h0 j
    rw [e]
    exact h _
  | unfault _ h => exact .inr (.inl ⟨h, State.row_mapSup s rfl j⟩)
  | clean _ r h =>
    rcases clean_row r j s with ⟨-, k⟩ | k
    · exact .inr (.inr ⟨h, k⟩)
    · left; rw [k]; exact .refl _
  | _ => exact .inl (.refl _)

/-- What one move makes of a robot. -/
theorem Move.at_robot (h : Move A s t) (j : Nat) :
    RobotOk (s.robot j) (t.robot j) ∨ (A.fleet = true ∧ FleetOk (s.robot j) (t.robot j)) := by
  have R : ∀ k : Robot, RobotOk k k := fun _ => ⟨rfl, rfl, rfl, rfl, rfl, rfl, rfl, rfl, rfl, rfl, rfl⟩
  cases h with
  | latch f => left; rw [latch_robot]; exact R _
  | clean _ r => obtain ⟨rows, e⟩ := clean_eq r s; rw [e]; exact .inl (R _)
  | robot _ x f h =>
    left
    rw [State.robot_updRobot]
    split
    · next hj => subst hj; exact h
    · exact R _
  | robots _ f h0 h =>
    left
    have e : State.robot { s with robots := s.robots.map f } j = f (s.robot j) := Tab.get_map s.robots h0 j
    rw [e]; exact h _
  | fleet _ x f hA h =>
    rw [State.robot_updRobot]
    split
    · next hj => subst hj; exact .inr ⟨hA, h _⟩
    · exact .inl (R _)
  | fleets _ f hA h0 h =>
    have e : State.robot { s with robots := s.robots.map f } j = f (s.robot j) := Tab.get_map s.robots h0 j
    rw [e]; exact .inr ⟨hA, h _⟩
  | _ => exact .inl (R _)

/-- What one move makes of a cart. -/
theorem Move.at_cart (h : Move A s t) (j : Nat) : CartOk A (s.cart j) (t.cart j) := by
  have R : ∀ k : Cart, CartOk A k k := fun _ => ⟨rfl, rfl, rfl, rfl, rfl, rfl, .inl rfl, rfl, rfl, id⟩
  cases h with
  | latch f => rw [latch_cart]; exact R _
  | clean _ r => obtain ⟨rows, e⟩ := clean_eq r s; rw [e]; exact R _
  | cart _ x f h =>
    rw [State.cart_updCart]
    split
    · next hj => subst hj; exact h
    · exact R _
  | _ => exact R _

/-! ### What runs of moves leave unchanged -/

theorem Moves.site (h : Moves A s t) : SiteKept s t := by
  induction h with
  | refl => exact .refl s
  | tail _ b ih => exact ih.trans b.site

theorem Moves.links (h : Moves A s t) : LinksKept s t := by
  induction h with
  | refl => exact .refl s
  | tail _ b ih => exact ih.trans b.links

theorem Moves.flags (h : Moves A s t) : FlagsKept s t := by
  induction h with
  | refl => exact .refl s
  | tail _ b ih => exact ih.trans b.flags

theorem Moves.wind (h : Moves A s t) : WindKept s t := by
  induction h with
  | refl => exact .refl s
  | tail _ b ih => exact ih.trans b.wind

theorem Moves.row_kept (hc : A.clean = false) (h : Moves A s t) (r : Nat) : RowKept (s.row r) (t.row r) := by
  induction h with
  | refl => exact .refl _
  | tail _ b ih =>
    refine ih.trans ?_
    rcases b.at_row r with k | ⟨-, k⟩ | ⟨k, -⟩
    · exact ⟨k.cfg, k.soil, k.acct, k.opened, k.closing, k.occupant, k.reported⟩
    · rw [k]; exact ⟨rfl, rfl, rfl, rfl, rfl, rfl, rfl⟩
    · rw [hc] at k; cases k

/-- Without a round opening no level-fault mark is cleared. -/
theorem Moves.levelFault (ho : A.opens = false) (h : Moves A s t) (r : Nat) (e : (s.row r).sup.levelFault = true) :
    (t.row r).sup.levelFault = true := by
  induction h with
  | refl => exact e
  | tail _ b ih =>
    rcases b.at_row r with k | ⟨k, -⟩ | ⟨-, k⟩
    · exact k.fault ih
    · rw [ho] at k; cases k
    · rw [k.sup]; exact ih

/-- Where no pin may be taken away none is. -/
theorem Moves.pinned (ho : A.unpin = false) (h : Moves A s t) (r : Nat) (e : (s.row r).sup.pinned = true) :
    (t.row r).sup.pinned = true := by
  induction h with
  | refl => exact e
  | tail _ b ih =>
    rcases b.at_row r with k | ⟨-, k⟩ | ⟨-, k⟩
    · exact k.pinned.resolve_left (by rw [ho]; simp) ih
    · rw [k]; exact ih
    · rw [k.sup]; exact ih

theorem Moves.robot_kept (h : Moves A s t) (x : Nat) : RobotKept (s.robot x) (t.robot x) := by
  induction h with
  | refl => exact .refl _
  | tail _ b ih =>
    refine ih.trans ?_
    rcases b.at_robot x with k | ⟨-, k⟩
    · exact ⟨k.node, k.lane, k.pos, k.activity, k.charge, k.metres, k.fault, k.heard⟩
    · exact ⟨k.node, k.lane, k.pos, k.activity, k.charge, k.metres, k.fault, k.heard⟩

theorem Moves.robot_still (hf : A.fleet = false) (h : Moves A s t) (x : Nat) : RobotStill (s.robot x) (t.robot x) := by
  induction h with
  | refl => exact .refl _
  | tail _ b ih =>
    refine ih.trans ?_
    rcases b.at_robot x with k | ⟨k, -⟩
    · exact ⟨⟨k.node, k.lane, k.pos, k.activity, k.charge, k.metres, k.fault, k.heard⟩, k.state, k.ctrl, k.stranded⟩
    · rw [hf] at k; cases k

theorem Moves.cart_kept (h : Moves A s t) (c : Nat) : CartKept (s.cart c) (t.cart c) := by
  induction h with
  | refl => exact .refl _
  | tail _ b ih =>
    have k := b.at_cart c
    exact ih.trans ⟨k.node, k.lane, k.garage, k.slot, k.moving, k.garaged, k.fault, k.heard⟩

/-- A load stands, or is taken away where that is allowed. -/
theorem Moves.load (h : Moves A s t) (c : Nat) :
    (t.cart c).load = (s.cart c).load ∨ (A.unload = true ∧ (t.cart c).load = none) := by
  induction h with
  | refl => exact .inl rfl
  | tail _ b ih =>
    rcases (b.at_cart c).load with k | k
    · rw [k]; exact ih
    · exact .inr k

/-- A FAULTED cart stays FAULTED. -/
theorem Moves.faulted (h : Moves A s t) (c : Nat) (e : (s.cart c).state = .faulted) : (t.cart c).state = .faulted := by
  induction h with
  | refl => exact e
  | tail _ b ih => exact (b.at_cart c).faulted ih

theorem Move.round_kept (hr : A.round = false) (hs : A.storm = false) (h : Move A s t) : RoundKept s t := by
  cases h with
  | latch f => exact ⟨by rw [latch_rnd], by rw [latch_rnd], by rw [latch_rnd]⟩
  | rnd _ f h =>
    rw [hr, hs] at h
    have k := h.resolve_left (by simp)
    exact ⟨k.isOpen, k.openedAt, k.reason⟩
  | clean _ r => obtain ⟨rows, e⟩ := clean_eq r s; rw [e]; exact ⟨rfl, rfl, rfl⟩
  | _ => exact ⟨rfl, rfl, rfl⟩

theorem Moves.round_kept (hr : A.round = false) (hs : A.storm = false) (h : Moves A s t) : RoundKept s t := by
  induction h with
  | refl => exact ⟨rfl, rfl, rfl⟩
  | tail _ b ih =>
    have k := b.round_kept hr hs
    exact ⟨k.isOpen.trans ih.isOpen, k.openedAt.trans ih.openedAt, k.reason.trans ih.reason⟩

theorem Moves.storm_frame (hc : A.clean = false) (hu : A.unload = false) (h : Moves A s t) : StormFrame s t :=
  ⟨h.site, h.links, h.flags, h.wind, h.row_kept hc, h.robot_kept, h.cart_kept,
    fun c => (h.load c).resolve_right (by rw [hu]; simp)⟩

theorem Moves.frame (hc : A.clean = false) (hu : A.unload = false) (hf : A.fleet = false) (h : Moves A s t) : Frame s t :=
  ⟨h.site, h.links, h.flags, h.wind, h.row_kept hc, h.robot_still hf, h.cart_kept,
    fun c => (h.load c).resolve_right (by rw [hu]; simp)⟩

/-! ### Laws that moves keep -/

theorem Bank.core_law {o p : Option Bank} (h : p.map Bank.core = o.map Bank.core)
    (k : ∀ b, o = some b → BankLaw b) : ∀ b, p = some b → BankLaw b := by
  intro b hb
  subst hb
  cases o with
  | none => cases h
  | some c =>
    simp only [Option.map_some, Option.some.injEq, Bank.core, Bank.mk.injEq] at h
    obtain ⟨h1, h2, h3, -⟩ := h
    have := k c rfl
    exact ⟨by rw [h1, h2]; exact this.sum, by rw [h2]; exact this.valid, by rw [h3]; exact this.stale⟩

theorem Moves.yieldLaw (h : Moves A s t) (l : YieldLaw s) : YieldLaw t := by
  induction h with
  | refl => exact l
  | tail _ b ih =>
    intro r
    obtain ⟨h1, h2, h3, h4⟩ := ih r
    rcases b.at_row r with k | ⟨-, k⟩ | ⟨-, k⟩
    · rw [k.soil, k.acct, k.closing]
      exact ⟨h1, h2, Bank.core_law k.opened h3, h4⟩
    · rw [k]; exact ⟨h1, h2, h3, h4⟩
    · obtain ⟨c, hs⟩ := k.soil
      refine ⟨?_, ?_, Bank.core_law k.opened h3, Bank.core_law k.closing h4⟩
      · rw [hs]
        exact ⟨Nat.zero_le _, nofun, fun p e => by simp only [Option.some.injEq] at e; rw [← e]; exact h1.s⟩
      · rw [k.acct]
        exact ⟨h2.lost, h2.lostRes, h2.recovered, h2.recoveredRes, Nat.min_le_right _ _, h2.voids, h2.thins⟩

theorem Move.queueLaw (h : Move A s t) (l : QueueLaw s) : QueueLaw t := by
  cases h with
  | latch f =>
    refine ⟨?_, by rw [latch_dsp]; exact l.routine, by rw [latch_dsp]; exact l.urgent⟩
    rcases latch_queue f s with e | ⟨e, k⟩
    · rw [e]; exact l.uplink
    · rw [e, List.length_append]; exact k
  | dsp _ f h => exact ⟨l.uplink, le_trans h.routine (max_le le_rfl l.routine), le_trans h.urgent (max_le le_rfl l.urgent)⟩
  | clean _ r => obtain ⟨rows, e⟩ := clean_eq r s; rw [e]; exact ⟨l.uplink, l.routine, l.urgent⟩
  | _ => exact ⟨l.uplink, l.routine, l.urgent⟩

theorem Moves.queueLaw (h : Moves A s t) (l : QueueLaw s) : QueueLaw t := by
  induction h with
  | refl => exact l
  | tail _ b ih => exact b.queueLaw ih

theorem Moves.dueLaw (h : Moves A s t) (l : DueLaw s) : DueLaw t := by
  induction h with
  | refl => exact l
  | tail _ b ih =>
    cases b with
    | latch f => unfold DueLaw; rw [latch_rnd]; exact ih
    | rnd _ f _ k => exact k ih
    | clean _ r => obtain ⟨rows, e⟩ := clean_eq r _; rw [e]; exact ih
    | _ => exact ih

theorem Move.occupant (h : Move A s t) (r : Nat) : (t.row r).sup.occupant = (s.row r).sup.occupant := by
  rcases h.at_row r with k | ⟨-, k⟩ | ⟨-, k⟩
  · exact k.occupant
  · rw [k]
  · rw [k.sup]

theorem Moves.dockLaw (h : Moves A s t) (l : DockLaw s) : DockLaw t := by
  induction h with
  | refl => exact l
  | tail _ b ih =>
    refine ⟨fun r q x h1 h2 => ih.one r q x (by rw [← b.occupant]; exact h1) (by rw [← b.occupant]; exact h2),
      fun x hx => ?_, fun r x c h1 => ?_⟩
    · rcases b.at_robot x with k | ⟨-, k⟩
      · rw [k.state] at hx
        obtain ⟨c, hc⟩ := ih.aboard x hx
        exact ⟨c, by rw [k.pos]; exact hc⟩
      · rcases k.state with e | e
        · rw [e] at hx
          obtain ⟨c, hc⟩ := ih.aboard x hx
          exact ⟨c, by rw [k.pos]; exact hc⟩
        · rw [e] at hx; cases hx
    · rw [b.occupant] at h1
      rcases b.at_robot x with k | ⟨-, k⟩ <;> rw [k.pos] <;> exact ih.cart r x c h1

/-! ### Notices -/

theorem noticeWaiting_eq (s : State) : s.noticeWaiting = decide (0 < s.unsentUp.count .notice) := by
  unfold State.noticeWaiting State.unsentUp
  generalize (if s.up.air.isSome then s.up.queue.tail else s.up.queue) = l
  rw [Bool.eq_iff_iff]
  simp [List.count_pos_iff]

theorem unsent_append (s : State) (e : UpEntry) :
    (s.pushUp e).unsentUp = s.unsentUp ++ [e] ∨ (s.pushUp e).unsentUp = s.unsentUp := by
  unfold State.unsentUp
  have e1 : (s.pushUp e).up.air = s.up.air := rfl
  have e2 : (s.pushUp e).up.queue = s.up.queue ++ [e] := rfl
  rw [e1, e2]
  split
  · cases s.up.queue with
    | nil => exact .inr rfl
    | cons a l => exact .inl rfl
  · exact .inl rfl

theorem offerNotice_law (s : State) (h : s.unsentUp.count .notice = 0) : NoticeLaw (offerNotice s) := by
  unfold offerNotice NoticeLaw
  split
  · have : State.unsentUp { (s.pushUp .notice) with ntc := { s.ntc with owed := false } } = (s.pushUp .notice).unsentUp := rfl
    rw [this]
    rcases unsent_append s .notice with e | e <;> rw [e] <;> simp [List.count_append, h]
  · have : State.unsentUp { s with ntc := { s.ntc with owed := true } } = s.unsentUp := rfl
    rw [this, h]
    simp

theorem causeNotice_law (s : State) (l : NoticeLaw s) : NoticeLaw (causeNotice s) := by
  unfold causeNotice
  split
  · exact l
  · next h =>
    refine offerNotice_law s ?_
    rw [noticeWaiting_eq] at h
    simp only [Bool.or_eq_true, decide_eq_true_eq, not_or, not_lt, Nat.le_zero] at h
    exact h.1

theorem latch_noticeLaw (f : Flag) (s : State) (l : NoticeLaw s) : NoticeLaw (latch f s) := by
  have key : NoticeLaw { s with ntc := s.ntc.latch f } := by
    unfold NoticeLaw at l ⊢
    have e : (s.ntc.latch f).owed = s.ntc.owed := by unfold Notices.latch; split <;> rfl
    show s.unsentUp.count .notice + (if (s.ntc.latch f).owed then 1 else 0) ≤ 1
    rw [e]; exact l
  unfold latch
  split
  · exact l
  · dsimp only
    split
    · exact key
    · exact causeNotice_law _ key

theorem Moves.noticeLaw (h : Moves A s t) (l : NoticeLaw s) : NoticeLaw t := by
  induction h with
  | refl => exact l
  | @tail a _ _ b ih =>
    cases b with
    | latch f => exact latch_noticeLaw f a ih
    | clean _ r => obtain ⟨rows, e⟩ := clean_eq r a; rw [e]; exact ih
    | _ => exact ih

end Sys2Proof.Machine
end

