-- ==== Sys2Proof/Laws/PerInstr.lean ====
section
/-! SUPPORT. One family of facts about the commands as syntax, proved for each constructor: a timed event of one record is
well formed exactly when its index is one of its table's. -/

namespace Sys2Proof

/-- The record that a timed event belongs to: its index, and how many records its table has (R1). -/
def Instr.record : Instr → Option (Nat × Nat)
  | .levelDeadlineExpiry r | .stowDeadlineExpiry r | .releaseDeadlineExpiry r => some (r, 1024)
  | .robotSilenceExpiry x | .passDeadlineExpiry x | .parkRepeatReplay x => some (x, 96)
  | .cartSilenceExpiry c | .phaseDeadlineExpiry c | .garageReplay c => some (c, 8)
  | .mastRecordStale m => some (m, 4)
  | _ => none

end Sys2Proof

namespace Sys2Proof.Laws

/-- A command of one record is well formed exactly when the record is there. -/
def Formed.Statement (c : Instr) : Prop := ∀ i n, c.record = some (i, n) → (c.wf = true ↔ i < n)

/-- What the lemmas of the record's commands share. -/
theorem Formed.of_index {c : Instr} {i n : Nat} (h : c.record = some (i, n)) (k : c.wf = decide (i < n)) :
    Formed.Statement c := by
  intro j m e
  rw [h] at e
  cases e
  rw [k, decide_eq_true_iff]

theorem Formed.powerOnReset : Formed.Statement (.powerOnReset) := nofun
theorem Formed.fieldFrameRejected (bytes : List Byte) : Formed.Statement (.fieldFrameRejected bytes) := nofun
theorem Formed.rowSample (src current : Half) (posture fault : Byte) :
    Formed.Statement (.rowSample src current posture fault) := nofun
theorem Formed.mastSample (src irradiance mean gust : Half) :
    Formed.Statement (.mastSample src irradiance mean gust) := nofun
theorem Formed.robotStatus (src : Half) (kind : Byte) (index : Half) (activity result : Byte) (metres charge : Half) (fault : Byte) :
    Formed.Statement (.robotStatus src kind index activity result metres charge fault) := nofun
theorem Formed.cartStatus (src : Half) (slot motion garaged : Byte) (load : Half) (fault : Byte) :
    Formed.Statement (.cartStatus src slot motion garaged load fault) := nofun
theorem Formed.leaveAsk (src : Half) : Formed.Statement (.leaveAsk src) := nofun
theorem Formed.uplinkFrameRejected (bytes : List Byte) : Formed.Statement (.uplinkFrameRejected bytes) := nofun
theorem Formed.tableWrite (q : Req) (table : Byte) (index : Half) (field : Byte) (value : Quad) :
    Formed.Statement (.tableWrite q table index field value) := nofun
theorem Formed.baselineValueWrite (q : Req) (index : Half) (value : Quad) :
    Formed.Statement (.baselineValueWrite q index value) := nofun
theorem Formed.baselineReset (q : Req) (index : Half) : Formed.Statement (.baselineReset q index) := nofun
theorem Formed.tableRead (q : Req) (table : Byte) (first : Half) (count : Byte) :
    Formed.Statement (.tableRead q table first count) := nofun
theorem Formed.order (q : Req) (dest : Half) (cls : Byte) (payload : List Byte) :
    Formed.Statement (.order q dest cls payload) := nofun
theorem Formed.commit (q : Req) : Formed.Statement (.commit q) := nofun
theorem Formed.decommit (q : Req) : Formed.Statement (.decommit q) := nofun
theorem Formed.timeSet (q : Req) (time : Quad) : Formed.Statement (.timeSet q time) := nofun
theorem Formed.stormForce (q : Req) (flags : Byte) : Formed.Statement (.stormForce q flags) := nofun
theorem Formed.stormAdvisory (q : Req) (arrival : Quad) : Formed.Statement (.stormAdvisory q arrival) := nofun
theorem Formed.advisoryCancel (q : Req) : Formed.Statement (.advisoryCancel q) := nofun
theorem Formed.robotManual (q : Req) (robot mode : Byte) : Formed.Statement (.robotManual q robot mode) := nofun
theorem Formed.robotClear (q : Req) (robot : Byte) : Formed.Statement (.robotClear q robot) := nofun
theorem Formed.transferResolve (q : Req) (robot : Byte) (row : Half) :
    Formed.Statement (.transferResolve q robot row) := nofun
theorem Formed.roundsEnable (q : Req) (value : Byte) : Formed.Statement (.roundsEnable q value) := nofun
theorem Formed.closeNow (q : Req) : Formed.Statement (.closeNow q) := nofun
theorem Formed.accountClear (q : Req) (row : Half) : Formed.Statement (.accountClear q row) := nofun
theorem Formed.resetRun (q : Req) : Formed.Statement (.resetRun q) := nofun
theorem Formed.noticeClear (q : Req) (marks : BitVec 24) : Formed.Statement (.noticeClear q marks) := nofun
theorem Formed.noticeMask (q : Req) (marks : BitVec 24) : Formed.Statement (.noticeMask q marks) := nofun
theorem Formed.controlUnknownKind (q : Req) (kind : Byte) : Formed.Statement (.controlUnknownKind q kind) := nofun
theorem Formed.frameStart : Formed.Statement (.frameStart) := nofun
theorem Formed.frameEnd : Formed.Statement (.frameEnd) := nofun
theorem Formed.sendPermitChange (asserted : Bool) : Formed.Statement (.sendPermitChange asserted) := nofun
theorem Formed.permitStallExpiry : Formed.Statement (.permitStallExpiry) := nofun
theorem Formed.uplinkFrameStart : Formed.Statement (.uplinkFrameStart) := nofun
theorem Formed.uplinkFrameEnd : Formed.Statement (.uplinkFrameEnd) := nofun
theorem Formed.levelDeadlineExpiry (row : Nat) :
    Formed.Statement (.levelDeadlineExpiry row) := Formed.of_index rfl rfl
theorem Formed.robotSilenceExpiry (robot : Nat) :
    Formed.Statement (.robotSilenceExpiry robot) := Formed.of_index rfl rfl
theorem Formed.cartSilenceExpiry (cart : Nat) : Formed.Statement (.cartSilenceExpiry cart) := Formed.of_index rfl rfl
theorem Formed.mastSilenceEvent : Formed.Statement (.mastSilenceEvent) := nofun
theorem Formed.mastRecordStale (mast : Nat) : Formed.Statement (.mastRecordStale mast) := Formed.of_index rfl rfl
theorem Formed.passDeadlineExpiry (robot : Nat) :
    Formed.Statement (.passDeadlineExpiry robot) := Formed.of_index rfl rfl
theorem Formed.phaseDeadlineExpiry (cart : Nat) :
    Formed.Statement (.phaseDeadlineExpiry cart) := Formed.of_index rfl rfl
theorem Formed.watchTimerExpiry : Formed.Statement (.watchTimerExpiry) := nofun
theorem Formed.parkTimerExpiry : Formed.Statement (.parkTimerExpiry) := nofun
theorem Formed.calmTimerExpiry : Formed.Statement (.calmTimerExpiry) := nofun
theorem Formed.releaseTimerExpiry : Formed.Statement (.releaseTimerExpiry) := nofun
theorem Formed.lockoutTimerExpiry : Formed.Statement (.lockoutTimerExpiry) := nofun
theorem Formed.stowDeadlineExpiry (row : Nat) : Formed.Statement (.stowDeadlineExpiry row) := Formed.of_index rfl rfl
theorem Formed.releaseDeadlineExpiry (row : Nat) :
    Formed.Statement (.releaseDeadlineExpiry row) := Formed.of_index rfl rfl
theorem Formed.parkRepeatReplay (robot : Nat) : Formed.Statement (.parkRepeatReplay robot) := Formed.of_index rfl rfl
theorem Formed.garageReplay (cart : Nat) : Formed.Statement (.garageReplay cart) := Formed.of_index rfl rfl
theorem Formed.epochBoundary : Formed.Statement (.epochBoundary) := nofun
theorem Formed.roundWindowEdge : Formed.Statement (.roundWindowEdge) := nofun
theorem Formed.advisoryReached : Formed.Statement (.advisoryReached) := nofun
theorem Formed.walkStep : Formed.Statement (.walkStep) := nofun

end Sys2Proof.Laws
end

