-- ==== Sys2Proof/Tests/Slice0.lean ====
section
/-! SUPPORT. Tests on small states: the smoke test of WellFormed, the manual's worked figures, one step of each command, and
for each statement with hypotheses a state and operands that meet them. -/

namespace Sys2Proof.Tests

open Sys2Proof Sys2Proof.Machine

set_option maxRecDepth 4000

/-! ### A small site -/

/-- A request to the part's uplink address from 0x0001 with tag 7. -/
def req : Req := ⟨0x00F0, 0x0001, 7⟩

/-- Two rows (addresses 16, 17), two robots (32, 33), a cart (48) and a reference mast (64) in lane 0, not yet running. -/
def loaded : State :=
  let s := State.reset
  let s := s.updCfg 0 (fun _ => ⟨some 16, 0, 1, 1000, 2000, 50, none⟩)
  let s := s.updCfg 1 (fun _ => ⟨some 17, 0, 2, 1000, 2000, 50, none⟩)
  let s := s.updRobot 0 (fun _ => Robot.fresh (some 32) 0)
  let s := s.updRobot 1 (fun _ => Robot.fresh (some 33) 0)
  let s := s.updCart 0 (fun _ => Cart.fresh (some 48) 0 3)
  s.updMast 0 (fun _ => { Mast.powerOn with node := some 64, ref := true })

/-- The site in RUNNING and WATCH at monotonic time 1000, the clock at 7200. -/
def site : State :=
  let s := { loaded with
    ctl := { loaded.ctl with mode := .running }
    clk := ⟨1000, 7200, true⟩
    lookup := [(16, ⟨.row, 0⟩), (17, ⟨.row, 1⟩), (32, ⟨.robot, 0⟩), (33, ⟨.robot, 1⟩), (48, ⟨.cart, 0⟩),
      (64, ⟨.mast, 0⟩)] }
  let s := s.setStm (fun m => { m with state := .watch })
  let s := s.updRobot 0 (fun k => { k with heard := some 990 })
  let s := s.updRobot 1 (fun k => { k with heard := some 990 })
  let s := s.updCart 0 (fun k => { k with heard := some 990 })
  s.updMast 0 (fun k => { k with heard := some 990 })

/-- The site in another storm state. -/
def siteIn (st : StormState) : State := site.setStm (fun m => { m with state := st })

/-- The site with an epoch open since 6300, 900 seconds ago, and an empty site bank. -/
def siteOpen : State :=
  (site.setEp (fun e => { e with epoch := some ⟨6300, 100, 7200, false⟩ })).setYld (fun y =>
    { y with openSite := some ⟨0, 0⟩ })

/-- A walk over the closing banks of that epoch, its cursor at row 0. -/
def walk : Walk := ⟨6300, 7200, 900, false, 842, 0, 0, 0, 0, 0⟩

/-- The site with that walk in flight. -/
def siteWalk : State := siteOpen.setYld (fun y => { y with walk := some walk })

/-- The site with robot 0 at dock 0 and robot 1 on row 1. -/
def siteRobots : State :=
  let s := site.updRobot 0 (fun k => { k with state := .docked, pos := some (.dock 0), activity := some .idle })
  let s := s.updRobot 1 (fun k => { k with state := .onRow, pos := some (.row 1), activity := some .cleaning })
  s.updSup 0 (fun u => { u with occupant := some 0 })

/-- A transfer of robot 0 from row 0 to row 1. -/
def carry (p : Phase) (stalled : Bool) : Transfer := ⟨0, 0, 1, .round, p, true, some 1000, stalled, none⟩

/-- The site with cart 0 in that transfer. -/
def siteCarry (p : Phase) (stalled : Bool) : State :=
  (siteRobots.updCart 0 (fun k => { k with state := .busy, transfer := some (carry p stalled) })).updRobot 0 (fun k =>
    { k with link := some (.cart 0) })

/-- Whether a command answers a next state with a property. -/
def out (c : Instr) (s : State) (p : State → Bool) : Bool :=
  match exec c s with
  | .next t => p t
  | _ => false

/-- The code of the last answer in the uplink queue. -/
def lastCode (s : State) : Option Byte :=
  match s.up.queue.getLast? with
  | some (.answer _ _ (_ :: _ :: _ :: c :: _)) => some c
  | _ => none

/-- A state out of PARK meets SecuredLaw. -/
theorem secured_of {s : State} (h : s.stm.state ≠ .park) : SecuredLaw s := fun _ k => absurd k h

theorem secured_site : SecuredLaw site := secured_of (by decide)

/-! ### WellFormed: an ill-formed command for each check -/

theorem test_wf_field_frame : Instr.wf (.fieldFrameRejected []) = false := by decide
theorem test_wf_uplink_frame : Instr.wf (.uplinkFrameRejected [0x00]) = false := by decide
theorem test_wf_order_class : Instr.wf (.order req 16 0x2E []) = false := by decide
theorem test_wf_order_length : Instr.wf (.order req 16 0x20 [1]) = false := by decide
theorem test_wf_unknown_kind : Instr.wf (.controlUnknownKind req 15) = false := by decide
theorem test_wf_level_row : Instr.wf (.levelDeadlineExpiry 1024) = false := by decide
theorem test_wf_silent_robot : Instr.wf (.robotSilenceExpiry 96) = false := by decide
theorem test_wf_silent_cart : Instr.wf (.cartSilenceExpiry 8) = false := by decide
theorem test_wf_stale_mast : Instr.wf (.mastRecordStale 4) = false := by decide
theorem test_wf_pass_robot : Instr.wf (.passDeadlineExpiry 96) = false := by decide
theorem test_wf_phase_cart : Instr.wf (.phaseDeadlineExpiry 8) = false := by decide
theorem test_wf_stow_row : Instr.wf (.stowDeadlineExpiry 1024) = false := by decide
theorem test_wf_release_row : Instr.wf (.releaseDeadlineExpiry 1024) = false := by decide
theorem test_wf_replay_robot : Instr.wf (.parkRepeatReplay 96) = false := by decide
theorem test_wf_replay_cart : Instr.wf (.garageReplay 8) = false := by decide

/-! ### The manual's figures -/

/-- R179: the check value over the ASCII digits 1 to 9. -/
theorem test_crc_digits : crc [0x31, 0x32, 0x33, 0x34, 0x35, 0x36, 0x37, 0x38, 0x39] = 0x29B1 := by rfl

/-- 04, "Worked case: two sample ratios". -/
theorem test_sample_ratio : sampleRatio 29310 (expectedCurrent 37800 842) = 3772 := by decide
theorem test_sample_ratio_clamped : sampleRatio 65535 (expectedCurrent 37800 201) = 8191 := by decide
theorem test_site_irradiance : meanOf [838, 847] = some 842 := by decide

/-- 04, "A full epoch on row 210". -/
theorem test_full_epoch_soil :
    (Soil.settle ⟨40, some 4010, false, none, none⟩ 2 (565800 / 150)).1.s = 44 := by decide
theorem test_full_epoch_energy : addEnergy 0 0 (49500 * 842 * 44 * 900) = ⟨458, 1688400000, 458, false⟩ := by decide

/-- 04, "The same row cut short". -/
theorem test_short_epoch_energy :
    addEnergy 458 1688400000 (49500 * 842 * 47 * 240) = ⟨589, 227520000, 131, false⟩ := by decide

/-- 04, "A counter at its limit". -/
theorem test_energy_saturates :
    addEnergy 4294967000 3000000000 1649400000000 = ⟨4294967295, 0, 295, true⟩ := by decide

/-- 04, "Cleaning, capture and recovery on row 212". -/
theorem test_capture_and_gain :
    energyTerms 47200 615 900 (Soil.settle ⟨0, none, true, some 38, some 9670⟩ 2 4105).1 Account.zero =
      (⟨0, some 4105, false, some 38, some 9670⟩, ⟨0, 0, 275, 2757600000, 0, 0, 0⟩, 0, 275, false) := by decide
theorem test_capture_low : Soil.settle ⟨0, none, true, some 38, none⟩ 2 1950 = (⟨0, none, true, some 38, none⟩, true) := by
  decide

/-- 03, 3.8: the nominal end after 20:14:35 is 20:15:00; at the top of the count it is the roll-over. -/
theorem test_nominal_end : nominalEnd 1728072875 900 = 1728072900 := by decide
theorem test_nominal_end_rollover : nominalEnd 4294967290 900 = 4294967296 := by decide

/-- 05: row 405 of 190 m needs ceil(28.5) + 40 Wh. -/
theorem test_charge_need : (site.updCfg 0 (fun c => { c with length := 190 })).chargeNeed 0 = 69 := by decide

/-- 08, R158: with release 100, park 160 and lockout 220, a watch gust of 170 is stored as 159. -/
theorem test_watch_gust_fitted :
    out (.tableWrite req 6 10 1 170) site (fun t => decide (t.par .watchGust = 159)) = true := by decide

/-- 10.6: an advisory for 01:10:00 has its park entry at 00:40:00; taken at 00:30:00 it waits. -/
theorem test_advisory_time :
    out (.stormAdvisory req 4200) { site with clk := ⟨1000, 1800, true⟩ }
      (fun t => decide (t.stm.advisory = some ⟨4200, 2400⟩)) = true := by decide

/-! ### One step of the field frames, and their hypotheses -/

theorem test_power_on : out .powerOnReset site (fun t => decide (t.ctl.mode = .unconfigured)) = true := by decide

theorem witness_rejected_field_frames :
    (Instr.wf (.fieldFrameRejected [0xC3]) = true ∧ judgeFrame [0xC3] = .bad) ∧
      Instr.wf (.fieldFrameRejected (frameBytes 0xF1 32 0x30 [])) = true ∧
      judgeFrame (frameBytes 0xF1 32 0x30 []) = .good ⟨0xF1, 32, 0x30, []⟩ := ⟨⟨by decide, by decide⟩, by rfl, by rfl⟩

theorem witness_rejected_uplink_frames :
    (Instr.wf (.uplinkFrameRejected [0xC3]) = true ∧ judgeFrame [0xC3] = .bad) ∧
      Instr.wf (.uplinkFrameRejected (frameBytes 0xF0 1 0x44 [])) = true ∧
      judgeFrame (frameBytes 0xF0 1 0x44 []) = .good ⟨0xF0, 1, 0x44, []⟩ := ⟨⟨by decide, by decide⟩, by rfl, by rfl⟩

theorem test_damaged_field_frame :
    out (.fieldFrameRejected [0xC3, 1]) site (fun t => hasFlag t.ntc.latched .fieldFraming) = true := by decide
theorem test_damaged_uplink_frame :
    out (.uplinkFrameRejected [0xC3, 1]) site (fun t => hasFlag t.ntc.latched .uplinkFraming) = true := by decide

theorem witness_reports_echo :
    Instr.report (.leaveAsk 0xF1) = some ⟨0xF1, 0x14, [], .robot, true⟩ ∧ (0xF1 : Half).toNat = site.dsp.echo :=
  ⟨rfl, by decide⟩
/-- R156: a field address written in UNCONFIGURED serves the echo check from the next frame start. -/
theorem test_echo_after_write :
    out (.leaveAsk 0xF1) { loaded with ctl := { loaded.ctl with part := ⟨0xF0, 0x77, 1⟩ } }
      (fun t => decide (t.up.queue = [])) = true := by decide
theorem witness_reports_unconfigured :
    Instr.report (.leaveAsk 32) = some ⟨32, 0x14, [], .robot, true⟩ ∧ (32 : Half).toNat ≠ loaded.dsp.echo ∧
      loaded.running = false := ⟨rfl, by decide, by decide⟩
theorem witness_reports_unusable :
    (32 : Half).toNat ≠ site.dsp.echo ∧ site.running = true ∧ site.nodeAt (99 : Half).toNat = none ∧
      site.nodeAt (16 : Half).toNat = some ⟨.row, 0⟩ ∧ NodeKind.row ≠ NodeKind.robot ∧
      (Instr.report (.rowSample 16 500 4 0)).map (fun f => f.valid) = some false := by decide

/-- R65: 500 mA of an expected 842 mA, with the reference at 842 W/m². -/
theorem test_row_sample_banked :
    out (.rowSample 16 500 0 0)
      ((site.updMast 0 (fun m => { m with irr := some ⟨842, 990⟩ })).updBanks 0 (fun b =>
        { b with opened := some (Bank.fresh false false) }))
      (fun t => decide ((t.row 0).banks.opened = some ⟨2432, 1, 0, false, false, false⟩)) = true := by decide

theorem witness_row_sample :
    site.running = true ∧ (16 : Half).toNat ≠ site.dsp.echo ∧ site.nodeAt (16 : Half).toNat = some ⟨.row, 0⟩ ∧
      RowReport.ofFields (500 : Half).toNat (3 : Byte).toNat (1 : Byte).toNat = some ⟨500, .moving, true⟩ ∧
      (site.row 0).sup.levelFault = false := by decide

/-- Row 0 restarted while it stood level, pinned. -/
def siteResync : State := site.updSup 0 (fun u => { u with resync := true, pinned := true })

/-- Row 1 is to be level for robot 1, in CALM. -/
def siteAwait : State :=
  ((siteIn .calm).updSup 1 (fun u => { u with levelClaim := some 1, demand := .level })).updRobot 1 (fun k => { k with
    state := .docked, pos := some (.dock 1), asg := some ⟨1, .leveling, true, none, false, none, false⟩ })

/-- Row 0 DONE in the sweep after a number of sends, and row 1 on the release list. -/
def siteDone (n : Nat) : State :=
  { (siteIn .secured).updStow 0 (fun _ => ⟨.done, n, none, false, false, none⟩) with swp := ⟨.park, 2⟩ }

theorem witness_row_sample_effects :
    (siteResync.row 0).sup.resync = true ∧ (siteResync.row 0).sup.demand = .track ∧ siteResync.swp.mode = .off ∧
      siteResync.stm.state ≠ .release ∧ siteResync.stm.state ≠ .park ∧ siteResync.dsp.routine = [] ∧
      (siteResync.row 0).sup.pinned = true ∧ siteResync.robotOn 0 = false ∧ siteRobots.robotOn 1 = true ∧
      (siteAwait.row 1).sup.demand = .level ∧ (siteAwait.row 1).sup.told = false ∧
      (siteAwait.row 1).sup.levelClaim = some 1 ∧ siteAwait.stm.state.stormy = false ∧
      (siteAwait.robot 1).asg = some ⟨1, .leveling, true, none, false, none, false⟩ ∧
      (siteDone 1).swp.mode ≠ .off ∧ ((siteDone 1).row 0).stow.progress = .done ∧ ((siteDone 1).row 0).stow.sends < 2 ∧
      2 ≤ ((siteDone 2).row 0).stow.sends ∧ (siteDone 1).sweepWaiting < 16 ∧ 0 < (siteDone 1).swp.cursor ∧
      (((siteIn .release).updRel 0 (fun _ => some ⟨1, none, false⟩)).row 0).rel.isSome = true := by decide
theorem test_level_reached :
    out (.rowSample 17 500 1 0) siteAwait (fun t => decide (t.dsp.routine =
      [⟨33, .passSetup 50 1, 0, false, .round⟩, ⟨33, .passRun, 0, true, .round⟩])) = true := by decide

/-- R64: the clauses of a valid, an unmetered and a stale sample. -/
theorem witness_sample_banked :
    (1000 : Nat) * 842 / 1000 ≠ 0 ∧ 200 ≤ 842 ∧ (Bank.fresh false false).valid < 65535 ∧
      (Bank.take ⟨0, 0, 65535, false, false, false⟩ 1000 200 none ⟨1, .tracking, false⟩).stale = 65535 ∧
      (Bank.take ⟨0, 65535, 0, false, false, false⟩ 1000 200 (some 842) ⟨500, .tracking, false⟩).valid = 65535 := by decide

theorem test_mast_sample :
    out (.mastSample 64 500 100 120) (site.updMast 0 (fun m => { m with ref := false }))
      (fun t => decide (t.stm.gust = some 120)) = true := by decide
theorem witness_mast_sample :
    site.running = true ∧ (64 : Half).toNat ≠ site.dsp.echo ∧ site.nodeAt (64 : Half).toNat = some ⟨.mast, 0⟩ ∧
      MastReport.ofFields (1600 : Half).toNat (800 : Half).toNat (220 : Half).toNat = some ⟨1600, 800, 220⟩ ∧
      site.par .lockoutGust ≤ 220 := by decide

theorem witness_mast_timers :
    out (.mastSample 64 500 100 120) ((siteIn .calm).updMast 0 (fun m => { m with ref := false }))
      (fun t => decide (t.stm.gust = some 120 ∧ t.stm.watchT = some 1000 ∧ t.stm.parkT = none)) = true ∧
      site.par .watchGust = 120 ∧ 120 < site.par .parkGust ∧ 160 < site.par .lockoutGust ∧ 0 < site.par .watchDebounce ∧
      0 < site.par .parkDebounce ∧ 0 < site.par .calmHold ∧ 0 < site.par .releaseHold ∧ (siteIn .calm).stm.watchT = none ∧
      ((siteIn .calm).setPar .watchDebounce 0).par .watchDebounce = 0 ∧
      ((siteIn .calm).setPar .parkDebounce 0).par .parkDebounce = 0 ∧ (siteIn .calm).stm.parkT = none := by decide

theorem test_robot_status_docks :
    out (.robotStatus 32 0 1 0 0 5 400 0) site (fun t => decide ((t.row 1).sup.occupant = some 0)) = true := by decide
theorem test_robot_status_elsewhere :
    out (.robotStatus 32 0 2 0 0 5 400 0) site (fun t => hasFlag t.ntc.latched .positionConflict) = true := by decide
theorem witness_robot_status :
    site.running = true ∧ (32 : Half).toNat ≠ site.dsp.echo ∧ site.nodeAt (32 : Half).toNat = some ⟨.robot, 0⟩ ∧
      RobotReport.ofFields (0 : Byte).toNat (1 : Half).toNat (0 : Byte).toNat (2 : Byte).toNat (5 : Half).toNat
        (400 : Half).toNat (3 : Byte).toNat = some ⟨.dock 1, .idle, some .incomplete, 5, 400, 3⟩ ∧
      site.reachable 0 (.dock 1) = true ∧ site.barred 0 (.dock 1) = false ∧ site.rival 0 (.dock 1) = none ∧
      (site.robot 0).state ≠ .faulted := by decide
theorem witness_robot_conflicts :
    site.reachable 0 (.dock 2) = false ∧
      (site.updSup 1 (fun u => { u with reservation := some ⟨1, some 0⟩ })).barred 0 (.dock 1) = true ∧
      siteRobots.reachable 1 (.dock 0) = true ∧ siteRobots.barred 1 (.dock 0) = false ∧
      siteRobots.rival 1 (.dock 0) = some 0 := by decide

theorem witness_robot_status_storm :
    (siteIn .secured).stm.state.stormy = true ∧
      (((siteIn .secured).updRobot 0 (fun k => { k with park := some ⟨.hold, some 990, false⟩ })).robot 0).park =
        some ⟨.hold, some 990, false⟩ ∧ (5 : Nat) ≠ 0 := by decide
theorem witness_transfer_done :
    ((siteCarry .alighting false).robot 0).link = some (.cart 0) ∧
      ((siteCarry .alighting false).cart 0).transfer = some (carry .alighting false) ∧
      (carry .alighting false).robot = 0 ∧ (carry .alighting false).dest = 1 ∧ (carry .alighting false).stalled = false ∧
      (siteCarry .alighting false).rnd.isOpen = false ∧ (siteCarry .alighting false).lane 0 = [] := by decide
theorem test_transfer_done :
    out (.robotStatus 32 0 1 0 0 5 400 0) (siteCarry .alighting false) (fun t => decide ((t.cart 0).transfer = none ∧
      (t.cart 0).lastTransfer = some ⟨0, 1, some .done⟩ ∧ (t.robot 0).link = none)) = true := by decide

/-- In PARK robot 0 is back at its origin, boarding begun and its BOARD held. -/
def siteBack : State :=
  ((siteCarry .boarding false).updCart 0 (fun k => { k with transfer := some { carry .boarding false with
    entered := false, deadline := none } })).setStm (fun m => { m with state := .park })

theorem witness_board_refused :
    (siteBack.robot 0).link = some (.cart 0) ∧ (siteBack.cart 0).load = none ∧ (siteBack.cart 0).garaged = false ∧
      siteBack.rnd.isOpen = false ∧ siteBack.reachable 0 (.dock 0) = true ∧ siteBack.barred 0 (.dock 0) = false ∧
      siteBack.rival 0 (.dock 0) = none ∧ (siteBack.cart 0).transfer.any (fun f =>
        decide (f.phase = .boarding ∧ f.entered = false ∧ f.tag = none ∧ f.origin = 0 ∧ f.dest = 1)) = true := by decide
theorem test_board_refused :
    (let t := reofferPhase 0 siteBack
     decide ((t.cart 0).transfer = none ∧ (t.cart 0).garageEntry.isSome = true ∧ (t.robot 0).link = none)) = true := by decide

/-- Robot 1 with a running pass on row 1. -/
def sitePass : State :=
  siteRobots.updRobot 1 (fun k => { k with asg := some ⟨1, .running, false, none, false, some 1000, false⟩ })

theorem test_pass_completes :
    out (.robotStatus 33 0 1 0 1 5 400 0) sitePass (fun t => decide ((t.row 1).acct.cleanings = 1)) = true := by decide
/-- R83: a walk that has not reached row 1, and one past it. -/
theorem witness_pass_in_walk :
    let s (n : Nat) := sitePass.setYld (fun y => { y with walk := some { walk with cursor := n } })
    (s 1).yld.walk.any (fun w => decide (w.cursor ≤ 1)) = true ∧ (s 2).yld.walk.any (fun w => decide (1 < w.cursor)) = true :=
  ⟨by decide, by decide⟩
theorem test_pass_disturbs_closing :
    out (.robotStatus 33 0 1 0 1 5 400 0) ((sitePass.setYld (fun y => { y with walk := some walk })).updBanks 1 (fun b =>
      { b with closing := some (Bank.fresh false false) }))
      (fun t => (t.row 1).banks.closing.any (fun b => b.disturbed)) = true := by decide
theorem witness_pass_completes :
    sitePass.running = true ∧ (33 : Half).toNat ≠ sitePass.dsp.echo ∧
      sitePass.nodeAt (33 : Half).toNat = some ⟨.robot, 1⟩ ∧
      RobotReport.ofFields (0 : Byte).toNat (1 : Half).toNat (0 : Byte).toNat (1 : Byte).toNat (5 : Half).toNat
        (400 : Half).toNat (0 : Byte).toNat = some ⟨.dock 1, .idle, some .complete, 5, 400, 0⟩ ∧
      sitePass.reachable 1 (.dock 1) = true ∧ sitePass.barred 1 (.dock 1) = false ∧ sitePass.rival 1 (.dock 1) = none ∧
      (sitePass.robot 1).asg = some ⟨1, .running, false, none, false, some 1000, false⟩ ∧ (sitePass.robot 1).link = none ∧
      sitePass.stm.state.stormy = false ∧ sitePass.swp.mode = .off ∧ sitePass.yld.walk = none := by decide

theorem test_cart_status :
    out (.cartStatus 48 9 0 0 0 0) site (fun t => decide ((t.cart 0).state = .idle ∧ (t.cart 0).slot = 9)) = true := by
  decide
theorem witness_cart_status :
    site.running = true ∧ (48 : Half).toNat ≠ site.dsp.echo ∧ site.nodeAt (48 : Half).toNat = some ⟨.cart, 0⟩ ∧
      CartReport.ofFields (9 : Byte).toNat (1 : Byte).toNat (0 : Byte).toNat (32 : Half).toNat (5 : Byte).toNat =
        some ⟨9, true, false, 32, 5⟩ ∧
      site.loadRobot 32 = some (some 0) ∧ site.loadRobot 99 = none ∧ (site.cart 0).state ≠ .faulted ∧
      (site.cart 0).transfer = none ∧ (site.cart 0).garageEntry = none ∧ site.stm.state ≠ .park ∧
      site.stm.state ≠ .calm := by decide

/-- In CALM robot 0's request waits, row 0 to row 1. -/
def siteAsk : State :=
  ((siteRobots.setStm (fun m => { m with state := .calm })).updLane 0 (fun _ => [⟨0, 0, 1, 990, .round⟩])).updRobot 0
    (fun k => { k with link := some .queued })

theorem witness_phase_ends :
    ((siteCarry .approach false).cart 0).transfer = some (carry .approach false) ∧ (carry .approach false).entered = true ∧
      (carry .approach false).stalled = false ∧ ((siteCarry .approach false).cart 0).garageEntry = none ∧
      (siteCarry .approach false).dsp.routine.length < 256 ∧ (1 : Byte).toNat = ((siteCarry .approach false).row 0).cfg.slot ∧
      (siteCarry .approach false).stm.state = .watch ∧ (2 : Byte).toNat = ((siteCarry .travel false).row 1).cfg.slot ∧
      (((siteCarry .boarding false).updRobot 0 (fun k => { k with pos := some (.cart 0) })).robot 0).pos = some (.cart 0) := by
  decide
theorem witness_grant :
    siteAsk.stm.state = .calm ∧ siteAsk.lane 0 = [⟨0, 0, 1, 990, .round⟩] ∧ (siteAsk.cart 0).transfer = none ∧
      (siteAsk.cart 0).hold = none ∧ (siteAsk.cart 0).recover = false ∧ siteAsk.cartOk 0 = true ∧
      (siteAsk.cart 0).lane = 0 := by decide
theorem witness_no_other_cart : ∀ j, j ≠ 0 → (siteAsk.cart j).eligible 0 = false := by
  intro j h
  obtain ⟨k, rfl⟩ := Nat.exists_eq_succ_of_ne_zero h
  rfl
theorem test_cart_granted :
    out (.cartStatus 48 1 0 0 0 0) siteAsk (fun t => decide (t.lane 0 = [] ∧ (t.robot 0).link = some (.cart 0) ∧
      t.dsp.routine = [⟨48, .cartFetch 1, 0, true, .transfer⟩])) = true := by decide

/-- Robot 0 at the dock of row 0, which reports LEVEL. -/
def siteLevel : State := siteRobots.updSup 0 (fun u => { u with reported := some .level })

theorem test_leave_granted :
    out (.leaveAsk 32) siteLevel (fun t => decide (t.dsp.routine = [⟨32, .leaveAnswer 1, 0, true, .row⟩])) = true := by
  decide
theorem witness_leave_ask :
    siteLevel.running = true ∧ (32 : Half).toNat ≠ siteLevel.dsp.echo ∧
      siteLevel.nodeAt (32 : Half).toNat = some ⟨.robot, 0⟩ ∧ siteLevel.leaveGranted 0 = true ∧
      siteRobots.leaveGranted 0 = false := by decide

/-! ### The machine -/

theorem witness_idle_second : State.reset.pending = [] := rfl
theorem witness_clocks_kept :
    Instr.wf .walkStep = true ∧ Instr.walkStep ≠ .powerOnReset ∧ (∀ q v, Instr.walkStep ≠ .timeSet q v) ∧
      ∃ t, exec .walkStep site = .next t := ⟨by decide, by decide, nofun, _, rfl⟩
/-- R102, R131, R141: a pass, a watch timer and a replay come due at their times. -/
theorem witness_comes_due :
    State.comesDue sitePass (.passDeadlineExpiry 1) ∧
      State.comesDue ((siteIn .calm).setStm (fun m => { m with watchT := some 10 })) .watchTimerExpiry ∧
      State.comesDue site .roundWindowEdge = (site.ctl.mode = .running ∧ site.clk.set = true ∧
        (site.clk.clock % 86400 = site.par .windowStart ∨ site.clk.clock % 86400 = site.par .windowEnd ∨
          site.clk.clock = 0)) :=
  ⟨⟨by decide, _, 1000, rfl, rfl, by decide⟩, ⟨rfl, 10, rfl, by decide⟩, rfl⟩
theorem witness_mast_heard : site.hears 0 := ⟨by decide, 990, by decide, by decide⟩
theorem test_second :
    (match step site with
     | .next t => decide (t.clk = ⟨1001, 7201, true⟩)
     | _ => false) = true := by decide

/-- Twenty-five seconds after power-on. -/
def later : State := { State.reset with clk := ⟨25, 0, false⟩ }

theorem witness_steps_go_on : ∃ t, step later = .next t := ⟨_, rfl⟩
theorem witness_yield_law : YieldLaw later :=
  have z : ∀ n : Nat, 0 ≤ n := Nat.zero_le
  fun _ => ⟨⟨z _, nofun, nofun⟩, ⟨z _, z _, z _, z _, z _, z _, z _⟩, nofun, nofun⟩
theorem witness_queue_laws : QueueLaw later ∧ NoticeLaw later ∧ ClockLaw later :=
  ⟨⟨by decide, by decide, by decide⟩, by unfold NoticeLaw; decide, by decide, fun _ => rfl⟩
theorem witness_dock_law : DockLaw later := ⟨nofun, nofun, nofun⟩
theorem witness_secured_law : SecuredLaw later := nofun
theorem witness_claim_law : ClaimLaw later := by
  have asg (x : Nat) : (later.robot x).asg = none := rfl
  have claim (x : Nat) : (later.robot x).claim = none := rfl
  have due : later.rnd.due = [] := rfl
  refine ⟨List.Pairwise.nil, fun x _ _ _ h => ?_, fun x _ h => ?_, fun x r => ?_, fun x _ => ⟨asg x, claim x⟩,
    fun _ => ⟨rfl, due, rfl, rfl, asg⟩⟩
  · rw [asg] at h; cases h
  · rw [asg] at h; cases h
  · simp [claim, due]
/-- Robot 1 holds the claim of row 0 in the due list. -/
theorem witness_claim : let s := (later.updRobot 1 (fun k => { k with claim := some 0 })).setRnd (fun p => { p with
      due := [⟨0, 40, 5, some 1⟩] })
    (s.robot 1).claim = some 0 ∧ (∃ e ∈ s.rnd.due, e.row = 0 ∧ e.claimant = some 1) ∧ s.robotOk 0 = false := by decide
theorem witness_due_law : DueLaw { later with rnd := { later.rnd with due := [⟨4, 90, 0, none⟩, ⟨2, 40, 0, none⟩] } } := by
  unfold DueLaw DueOrder; decide

theorem witness_frame : (0xF0 : Nat) < 65536 ∧ (1 : Nat) < 65536 ∧ (0x40 : Nat) < 256 ∧ ([] : List Byte).length ≤ 56 := by
  decide
theorem witness_order_fits : Order.Fits (.passSetup 180 1) ∧ Order.Fits (.cartFetch 255) := ⟨⟨by decide, by decide⟩, show (255 : Nat) < 256 by decide⟩
theorem test_order_wire : Order.ofWire 0x23 [0, 180, 1] = some (.passSetup 180 1) := by decide

/-! ### Requests -/

theorem witness_not_taken :
    Instr.request (.commit ⟨0x00F9, 1, 7⟩) = some ⟨0x00F9, 1, 7⟩ ∧ (0x00F9 : Half).toNat ≠ site.ctl.part.uplink ∧
      Instr.request (.closeNow req) = some req ∧ req.dst.toNat = loaded.ctl.part.uplink ∧
      Instr.runningKind (.closeNow req) = some 11 ∧ loaded.running = false := by decide

theorem witness_writes_refused :
    req.dst.toNat = site.ctl.part.uplink ∧ site.running = true ∧ (9 : Byte).toNat = 9 ∧ 8 ≤ (8 : Half).toNat ∧
      (7 : Half).toNat < 8 := by decide
theorem test_write_bad_index : out (.tableWrite req 4 8 1 5) site (fun t => lastCode t == some 7) = true := by decide
theorem test_write_structural : out (.tableWrite req 4 7 3 5) site (fun t => lastCode t == some 2) = true := by decide

theorem witness_active_writes :
    req.dst.toNat = loaded.ctl.part.uplink ∧ loaded.running = false ∧ (0 : Half).toNat = 0 ∧
      (5 : Quad).toNat % 65536 ≠ 0 ∧ (5 : Quad).toNat % 65536 ≠ 0xFFFF ∧ (3 : Half).toNat < 4 ∧ (5 : Half).toNat < 6 ∧
      (0xFFFFFFFF : Quad).toNat = 0xFFFFFFFF := by decide
theorem witness_part_refused :
    (0x10000 : Quad).toNat % 65536 = 0 ∧ (0x1FFFF : Quad).toNat % 65536 = 0xFFFF ∧ (1 : Byte).toNat = 1 ∧
      (0xFFFF : Quad).toNat = 0xFFFF ∧ Param.epochS.info.staged = true := by decide
theorem test_node_written :
    out (.tableWrite req 2 1023 1 0x12345) loaded (fun t => decide ((t.row 1023).cfg.node = some 0x2345)) = true := by decide
theorem test_policy_written :
    out (.tableWrite req 8 5 15 3) site (fun t => t.ctl.policy.get 89) = true := by decide

theorem witness_staged_writes :
    req.dst.toNat = site.ctl.part.uplink ∧ site.running = true ∧ (1023 : Half).toNat < 1024 ∧
      Param.gmin.info.index = (2 : Half).toNat ∧ Param.gmin.info.staged = true ∧ Param.gmin ≠ .epochS := by decide
theorem test_epoch_fitted :
    out (.tableWrite req 6 0 1 1000) site
      (fun t => decide (t.ep.staging.params.get 0 = some 960 ∧ t.par .epochS = 900)) = true := by decide

theorem witness_live_writes :
    Param.gDark.info.index = (3 : Half).toNat ∧ Param.gDark.info.staged = false ∧ Param.gDark.isGust = false ∧
      Param.watchGust.info.index = (10 : Half).toNat ∧ Param.watchGust.isGust = true ∧ site.running = true ∧
      site.par .releaseGust < site.par .watchGust ∧ site.par .watchGust < site.par .parkGust ∧
      site.par .parkGust < site.par .lockoutGust ∧ site.par .lockoutGust ≤ 800 := by decide

theorem witness_gust_writes :
    site.par .releaseGust + 1 = 101 ∧ (101 : Quad).toNat = 101 ∧ (100 : Quad).toNat < 101 ∧
      (159 : Quad).toNat < site.par .parkGust ∧ site.par .parkGust = 160 ∧ loaded.running = false ∧
      (site.setPar .parkGust 101).par .parkGust ≤ site.par .releaseGust + 1 := by decide
theorem test_gust_no_room :
    out (.tableWrite req 6 10 1 100) (site.setPar .parkGust 101) (fun t => lastCode t == some 2) = true := by decide

/-- The round open in CALM, then disabled: reason DISABLED (R88). -/
def siteRound : State :=
  ((siteIn .calm).updMast 0 (fun m => { m with irr := some ⟨0, 990⟩ })).setRnd (fun p => { p with isOpen := true })

theorem test_rounds_disabled :
    out (.roundsEnable req 0) siteRound (fun t => decide (t.rnd.isOpen = false ∧ t.rnd.reason = some .disabled)) = true := by
  decide
theorem witness_rounds_enable :
    siteRound.running = true ∧ siteRound.rnd.isOpen = true ∧ siteRound.stm.state = .calm ∧ (0 : Byte).toNat = 0 ∧
      (siteIn .calm).rnd.isOpen = false := by decide
theorem test_round_opens :
    out (.roundsEnable req 1) (siteIn .calm) (fun t => decide (t.rnd.openedAt = some 7200)) = true := by decide

theorem witness_baseline_writes :
    req.dst.toNat = site.ctl.part.uplink ∧ (1023 : Half).toNat < 1024 ∧ 1024 ≤ (1024 : Half).toNat ∧
      loaded.running = false := by decide
/-- Row 1 waits for its capture and is in the due list. -/
def siteCapture : State := (site.updSoil 1 (fun o => { o with capture := true })).setRnd (fun p => { p with
  due := [⟨1, 40, 5, none⟩] })

theorem witness_baseline_metered :
    siteCapture.running = true ∧ (siteCapture.row (1 : Half).toNat).cfg.iref ≠ 0 ∧ (siteCapture.robot 0).asg = none ∧
      (0xFFFFFFFF : Quad).toNat = 0xFFFFFFFF ∧ (1 : Quad).toNat ≠ 0 := by decide
theorem test_flag_written_clear :
    out (.tableWrite req 2 1 9 0) siteCapture (fun t => decide ((t.row 1).soil.capture = false ∧ (t.row 1).soil.b = none)) =
      true := by decide
theorem test_baseline_absent :
    out (.baselineValueWrite req 1 0xFFFFFFFF) siteCapture (fun t => decide (t.rnd.due = [])) = true := by decide
theorem test_baseline_clamped :
    out (.baselineValueWrite req 1 9000) site (fun t => decide ((t.row 1).soil.b = some 8191)) = true := by decide
theorem test_baseline_reset :
    out (.baselineReset req 1) site (fun t => (t.row 1).soil.capture) = true := by decide

theorem witness_table_read :
    req.dst.toNat = site.ctl.part.uplink ∧ (1 : Half).toNat < 1024 ∧ (1 : Byte).toNat ≠ 0 ∧ site.rowOk 1 = true ∧
      site.ctl.part.supervisor < 65536 := by decide
theorem witness_account_read : AccountLaw (site.row 1).acct :=
  ⟨by decide, by decide, by decide, by decide, by decide, by decide, by decide⟩
theorem test_read_row :
    out (.tableRead req 2 0 1) siteRobots (fun t => match t.up.queue with
      | [.answer 1 0x50 bs] => decide (bs.take 33 = [7, 2, 0, 0, 1, 0, 16, 0, 0, 0, 1, 3, 232, 7, 208, 0, 50, 0xFF, 0xFF, 0, 0,
          0xFF, 0, 0xFF, 0, 0xFF, 0xFF, 0, 0, 0, 0, 0xFF, 0xFF] ∧ bs.drop 37 = [0])
      | _ => false) = true := by decide
theorem test_read_parameter :
    out (.tableRead req 6 0 1) site (fun t => decide (t.up.queue =
      [.answer 1 0x50 [7, 6, 0, 0, 1, 0, 0, 3, 132, 0]])) = true := by decide
theorem test_read_bad_index : out (.tableRead req 6 38 1) site (fun t => lastCode t == some 7) = true := by decide

theorem witness_order_requests :
    Order.ofWire (0x2D : Byte).toNat [] = some .cartHold ∧ site.nodeAt (48 : Half).toNat = some ⟨.cart, 0⟩ ∧
      NodeKind.cart = Order.cartHold.kind.target ∧ Order.cartHold.encodable = true ∧
      site.ctl.policy.get (15 * site.stm.state.idx + Order.cartHold.kind.idx) = false ∧
      (siteIn .park).stm.state.stormy = true ∧ Order.kind (.cartFetch 1) = .cartFetch ∧
      Kind.fixedDrop .cartFetch = true ∧ (siteCarry .approach false).nodeAt 48 = some ⟨.cart, 0⟩ ∧
      (siteCarry .approach false).cart 0 ≠ site.cart 0 ∧ site.nodeAt (99 : Half).toNat = none := by decide
theorem test_order_queued :
    out (.order req 48 0x2D []) site (fun t => decide (t.dsp.routine = [⟨48, .cartHold, 0, true, .supervisor⟩])) = true := by
  decide
theorem test_order_dropped :
    out (.order req 48 0x2A [1]) (siteIn .park) (fun t => lastCode t == some 2) = true := by decide

theorem witness_commit_checks :
    req.dst.toNat = loaded.ctl.part.uplink ∧ loaded.running = false ∧ loaded.commitFault = none ∧ site.running = true ∧
      (loaded.updRobot 1 (fun k => { k with node := some 16 })).commitFault = some (3, ⟨2, 1⟩) := by decide
/-- Each check is the first to fail of some configuration. -/
theorem witness_each_check :
    (loaded.updCfg 1 (fun c => { c with lane := 8 })).commitFault.map (fun p => p.1) = some 1 ∧
      (loaded.updCfg 1 (fun c => { c with slot := 1 })).commitFault.map (fun p => p.1) = some 2 ∧
      (loaded.updCfg 1 (fun c => { c with node := some 0xF1 })).commitFault.map (fun p => p.1) = some 3 ∧
      (loaded.updRobot 1 (fun k => { k with lane := 7 })).commitFault.map (fun p => p.1) = some 4 ∧
      (loaded.updCart 0 (fun k => { k with garage := 256 })).commitFault.map (fun p => p.1) = some 5 ∧
      (loaded.setPar .watchGust 160).commitFault.map (fun p => p.1) = some 6 ∧
      (loaded.setPar .epochS 1000).commitFault.map (fun p => p.1) = some 7 := by decide
/-- Of two records that fail check 1, the row's comes first. -/
theorem test_commit_first_record :
    (((loaded.updCfg 1 (fun c => { c with lane := 8 })).updRobot 0 (fun k => { k with lane := 9 })).updCfg 0 (fun c =>
      { c with slot := 300 })).commitFault = some (1, ⟨1, 1⟩) := by decide
/-- 08, "three commits": an address shared by row and robot is found at the robot, check 3. -/
theorem test_commit_fails :
    out (.commit req) (loaded.updRobot 1 (fun k => { k with node := some 16 }))
      (fun t => decide (t.up.queue = [.answer 1 0x51 [7, 0x42, 1, 8, 3, 2, 0, 1]])) = true := by decide
theorem test_commit_enters :
    out (.commit req) loaded (fun t => decide (t.stm.state = .watch ∧ t.nodeAt 48 = some ⟨.cart, 0⟩)) = true := by decide
theorem witness_commit_enters :
    (∃ m, (loaded.mast m).node.isSome = true) ∧
      ∀ m, (({ loaded with masts := Tab.empty _ } : State).mast m).node = none := ⟨⟨0, by decide⟩, fun _ => rfl⟩
theorem witness_no_mast_commits : ({ loaded with masts := Tab.empty _ } : State).commitFault = none := by decide

theorem witness_decommit :
    req.dst.toNat = site.ctl.part.uplink ∧ site.running = true ∧ (siteIn .park).stm.state.stormy = true ∧
      (siteCarry .travel false).robot 0 ≠ site.robot 0 := by decide
theorem witness_decommit_idle :
    ¬(later.stm.state.stormy = true ∨ ∃ x, (later.robot x).asg.isSome = true ∨ (later.robot x).link.isSome = true) := by
  rintro (h | ⟨_, h | h⟩) <;> cases h
theorem test_decommit_leaves :
    out (.decommit req) site (fun t => decide (t.ctl.mode = .unconfigured ∧ t.lookup = [])) = true := by decide
theorem test_decommit_busy :
    out (.decommit req) (siteCarry .travel false) (fun t => lastCode t == some 1) = true := by decide

theorem witness_time_set :
    req.dst.toNat = site.ctl.part.uplink ∧ loaded.running = false ∧ site.running = true ∧ site.ep.epoch = none ∧
      siteOpen.ep.epoch = some ⟨6300, 100, 7200, false⟩ ∧ siteOpen.yld.walk = none ∧ siteWalk.yld.walk = some walk ∧
      site.stm.advisory = none := by decide
theorem witness_time_set_advisory :
    (site.setStm (fun m => { m with advisory := some ⟨9000, 7300⟩ })).stm.advisory = some ⟨9000, 7300⟩ ∧
      (7300 : Nat) ≤ (7300 : Quad).toNat ∧ (7299 : Quad).toNat < 7300 := by decide
theorem test_time_set_opens :
    out (.timeSet req 1728072875) site
      (fun t => decide (t.ep.epoch = some ⟨1728072875, 1000, 1728072900, false⟩)) = true := by decide
theorem test_time_set_voids :
    out (.timeSet req 50) siteOpen (fun t => hasFlag t.ntc.latched .epochVoid) = true := by decide

theorem witness_close_now :
    site.running = true ∧ site.ep.epoch = none ∧ siteOpen.ep.held = none ∧ siteWalk.yld.walk.isSome = true ∧
      60 ≤ siteOpen.clk.mono - 100 ∧ ({ siteOpen with clk := ⟨159, 6359, true⟩ } : State).clk.mono - 100 < 60 := by decide
/-- Row 1 has a pending Prated, and epoch_s is pending. -/
def siteStaged : State := siteOpen.setEp (fun e => { e with
  staging := ⟨e.staging.rows.upd 1 (fun g => { g with prated := some 900 }), e.staging.params.set 0 (some 600)⟩ })

theorem witness_swap_takes :
    siteStaged.ep.staging.rows ≠ Tab.empty _ ∧ siteOpen.ep.staging.rows = Tab.empty _ ∧
      (∀ k, k ≠ 0 → siteOpen.ep.staging.params.get k = none) ∧ 1 ∈ siteStaged.rowIds ∧
      (siteStaged.ep.staging.rows.get 1).prated = some 900 := ⟨by decide, by decide, fun _ _ => rfl, by decide, by decide⟩
theorem test_swap_takes :
    out (.closeNow req) siteStaged (fun t => t.par .epochS == 600 && t.ep.batch.isSome &&
      (t.row 1).banks.opened.any (fun b => b.staged)) = true := by decide
theorem test_close_now :
    out (.closeNow req) siteOpen (fun t => lastCode t == some 0 && t.yld.walk.isSome) = true := by decide
theorem test_close_too_early :
    out (.closeNow req) { siteOpen with clk := ⟨159, 6359, true⟩ } (fun t => lastCode t == some 4) = true := by decide

theorem witness_reset_run :
    loaded.running = false ∧ site.running = true ∧ (site.mast 0).node.isSome = true ∧ site.clk.set = true ∧
      siteOpen.ep.epoch = some ⟨6300, 100, 7200, false⟩ ∧ siteOpen.yld.walk = none ∧ siteWalk.yld.walk = some walk := by
  decide
theorem witness_reset_run_held :
    ((siteWalk.setEp (fun e => { e with held := some ⟨false⟩ })).ep.held = some ⟨false⟩) ∧
      out (.resetRun req) (siteWalk.setEp (fun e => { e with held := some ⟨false⟩ }))
        (fun t => decide (t.ep.held = some ⟨true⟩)) = true := by decide
theorem test_reset_run :
    out (.resetRun req) siteOpen (fun t => decide (t.stm.state = .watch ∧ (t.row 0).sup.resync = true)) = true := by decide

theorem witness_storm_force :
    req.dst.toNat = site.ctl.part.uplink ∧ site.running = true ∧ (7 : Byte).getLsbD 2 = true ∧ (3 : Byte).getLsbD 2 = false ∧
      (3 : Byte).getLsbD 1 = true ∧ (1 : Byte).getLsbD 1 = false ∧ (1 : Byte).getLsbD 0 = true ∧
      (8 : Byte).getLsbD 0 = false ∧ site.stm.state = .watch ∧ (siteIn .secured).stm.state = .secured := by decide
theorem witness_storm_windy :
    ∃ g, ((siteIn .secured).setStm (fun m => { m with gust := some 100 })).stm.gust = some g ∧
      (siteIn .secured).par .releaseGust ≤ g := ⟨100, by decide⟩
/-- The park list and the stow sweep of a park entry (R137, R142). -/
theorem test_park_entry :
    ((buildLists siteRobots false siteRobots).robot 1).park.map (fun e => e.order) = some .abort ∧
      ((sweepStart siteRobots).row 0).stow.progress = .sent ∧ ((sweepStart siteRobots).row 1).stow.progress = .skipped := by
  decide
theorem test_force_windy :
    out (.stormForce req 1) ((siteIn .secured).setStm (fun m => { m with gust := some 100 }))
      (fun t => decide (t.up.queue = [.answer 1 0x51 [7, 0x42, 4, 3, 1]])) = true := by decide
theorem test_force_release :
    out (.stormForce req 1) (siteIn .secured) (fun t => decide (t.stm.state = .calm)) = true := by decide

theorem witness_advisory :
    site.running = true ∧ site.clk.set = true ∧ later.clk.set = false ∧
      site.clk.clock < (9001 : Quad).toNat - site.par .parkLead ∧
      (9000 : Quad).toNat - site.par .parkLead ≤ site.clk.clock := by decide
theorem test_advisory_reached_at_once :
    out (.stormAdvisory req 9000) (siteIn .secured) (fun t => decide (t.stm.advisory = none)) = true := by decide
theorem test_advisory_cancel :
    out (.advisoryCancel req) (site.setStm (fun m => { m with advisory := some ⟨9000, 7300⟩ }))
      (fun t => decide (t.stm.advisory = none)) = true := by decide

theorem witness_robot_requests :
    site.running = true ∧ (96 : Byte).toNat > 95 ∧ site.robotOk 1 = true ∧ (1 : Byte).toNat = 1 ∧
      (site.robot 1).ctrl = .auto ∧ site.stm.state ≠ .lockout ∧
      (siteCarry .boarding false).transferOf 0 = some (0, carry .boarding false) ∧
      ((site.updRobot 1 (fun k => { k with stranded := true })).robot 1).stranded = true := by decide
theorem witness_manual_work :
    (siteAwait.robot 1).asg = some ⟨1, .leveling, true, none, false, none, false⟩ ∧ siteAwait.rnd.isOpen = false ∧
      siteAwait.robotOk 1 = true ∧ (siteAwait.robot 1).park = none ∧ (siteAsk.robot 0).link = some .queued ∧
      (siteAsk.lane 0).any (fun w => decide (w.robot = 0)) = true := by decide
/-- Robot 0's APPROACH transfer with its CART FETCH waiting, and one whose CART FETCH has left. -/
theorem witness_manual_approach :
    let s := (siteCarry .approach false).updCart 0 (fun k => { k with
      transfer := some { carry .approach false with entered := false, deadline := none, tag := some 9 } })
    let q := s.setDsp (fun d => { d with routine := [⟨48, .cartFetch 1, 9, true, .transfer⟩] })
    (s.robot 0).link = some (.cart 0) ∧ (s.robot 0).asg = none ∧ (s.robot 0).park = none ∧ s.lane (s.cart 0).lane = [] ∧
      s.queued 9 = false ∧ q.queued 9 = true ∧ (q.dsp.routine.filter (fun e => some 9 ≠ some e.tag)).length < 256 := by decide
theorem test_manual_abandons :
    (let t := match exec (.robotManual req 1 1) sitePass with | .next t => t | _ => sitePass
     decide ((t.robot 1).asg.map (fun a => a.abandoned) = some true)) = true := by decide
theorem test_manual_withdraws :
    out (.robotManual req 0 1) (siteCarry .approach false)
      (fun t => decide ((t.robot 0).link = none ∧ t.dsp.routine.map (fun e => e.order) = [.cartHold])) = true := by decide
theorem witness_clear_faulted :
    let k := (siteRobots.updRobot 1 (fun k => { k with stranded := true, state := .offline, fault := 3 })).robot 1
    k.stranded = true ∧ k.pos.isSome = true ∧ k.fault ≠ 0 ∧ k.state ≠ .faulted := by decide
theorem test_clear_offline :
    out (.robotClear req 1) (siteRobots.updRobot 1 (fun k => { k with stranded := true, state := .offline }))
      (fun t => decide ((t.robot 1).state = .onRow)) = true := by decide
theorem test_robot_manual :
    out (.robotManual req 1 1) site (fun t => decide ((t.robot 1).ctrl = .manual)) = true := by decide
theorem test_robot_manual_busy :
    out (.robotManual req 0 1) (siteCarry .boarding false) (fun t => lastCode t == some 1) = true := by decide
theorem test_robot_clear :
    out (.robotClear req 1) (siteRobots.updRobot 1 (fun k => { k with stranded := true, state := .stranded }))
      (fun t => decide ((t.robot 1).state = .onRow ∧ (t.robot 1).stranded = false)) = true := by decide

theorem witness_resolve :
    site.running = true ∧ site.robotOk 0 = true ∧ (siteCarry .travel true).transferOf 0 = some (0, carry .travel true) ∧
      (carry .travel true).stalled = true ∧ (1 : Half).toNat ≠ 0xFFFF ∧ site.rowOk 1 = true ∧
      (site.row 1).cfg.lane = (site.robot 0).lane ∧ (siteCarry .travel true).resolveRefusal 0 1 = none ∧
      (siteCarry .travel false).resolveRefusal 0 1 = some .busy ∧ site.resolveRefusal 0 1 = some .refusedState ∧
      site.resolveRefusal 0 2 = some .badIndex := by decide
theorem witness_resolve_transfer :
    ((siteCarry .travel true).robot 0).link = some (.cart 0) ∧
      ((siteCarry .travel true).cart 0).transfer = some (carry .travel true) ∧ (carry .travel true).robot = 0 ∧
      (siteCarry .travel true).rnd.isOpen = false ∧ (siteCarry .travel true).stm.state ≠ .calm := by decide
theorem witness_no_requests : ∀ l, ∀ w ∈ (siteCarry .travel true).lane l, w.robot ≠ 0 := nofun
theorem test_resolve_docks :
    out (.transferResolve req 0 1) (siteCarry .travel true)
      (fun t => decide ((t.row 1).sup.occupant = some 0 ∧ (t.row 0).sup.occupant = none)) = true := by decide
theorem test_resolve_none :
    out (.transferResolve req 0 0xFFFF) (siteCarry .travel true)
      (fun t => decide ((t.robot 0).pos = none ∧ (t.cart 0).transfer = none)) = true := by decide

theorem witness_account_clear :
    site.running = true ∧ (1024 : Half).toNat > 1023 ∧ site.rowOk 1 = true ∧ (0xFFFF : Half).toNat = 0xFFFF ∧
      walk.cursor ≤ 1 := by decide
theorem test_account_clear :
    out (.accountClear req 0xFFFF) (siteWalk.updAcct 1 (fun a => { a with voids := 3 }))
      (fun t => decide ((t.row 1).acct = Account.zero)) = true := by decide

theorem witness_notices : req.dst.toNat = loaded.ctl.part.uplink := by decide
theorem test_notice_clear :
    out (.noticeClear req 0xF80002) { site with ntc := ⟨3, 3, 0, false⟩ } (fun t => decide (t.ntc = ⟨1, 1, 0, false⟩)) =
      true := by decide
theorem test_notice_unmasked :
    out (.noticeMask req 1) { site with ntc := ⟨2, 2, 2, false⟩ } (fun t => decide (t.up.queue.head? = some .notice)) =
      true := by decide
theorem test_unknown_kind : out (.controlUnknownKind req 16) site (fun t => lastCode t == some 6) = true := by decide

/-! ### Transmitters -/

/-- A site that may send: an urgent CART GARAGE and a routine LEAVE ANSWER that grants. -/
def siteSend : State :=
  site.setDsp (fun d => { d with
    permit := true, urgent := [⟨48, .cartGarage 3, 5, true, .storm⟩], routine := [⟨32, .leaveAnswer 1, 6, true, .row⟩] })

theorem witness_frame_start :
    siteSend.dsp.air = none ∧ siteSend.dsp.rx = [] ∧ siteSend.dsp.permit = true ∧ siteSend.dsp.group = none ∧
      siteSend.rowAt 48 = none ∧ Kind.cartGarage ≠ Kind.leaveAnswer ∧ siteSend.leaveGranted 0 = false ∧
      siteSend.robotAt 32 = some 0 ∧ site.dsp.permit = false ∧
      (chooseEntry 2 siteSend).2 = some (⟨48, .cartGarage 3, 5, true, .storm⟩, true) := by decide
/-- An order of an owner to row 0 at the head of the routine queue, row 0 claimed for a robot, SENT and to be released. -/
def siteRow (o : Order) (w : Owner) (mode : SweepMode) : State :=
  let s := { (siteSend.setDsp (fun d => { d with urgent := [], routine := [⟨16, o, 6, true, w⟩] })) with swp := ⟨mode, 2⟩ }
  ((s.updSup 0 (fun u => { u with levelClaim := some 1, demand := .level })).updRel 0 (fun _ => some ⟨1, none, false⟩)).updStow
    0 (fun _ => ⟨.sent, 1, none, true, false, none⟩)

theorem witness_row_orders :
    (siteRow .rowLevel .row .off).rowAt 16 = some 0 ∧ ((siteRow .rowLevel .row .off).row 0).sup.told = false ∧
      ((siteRow .rowLevel .row .off).row 0).sup.levelDeadline = none ∧
      ((siteRow .rowRelease .storm .off).row 0).rel.isSome = true ∧ (siteRow .rowStow .row .park).swp.mode ≠ .off ∧
      0 < (siteRow .rowStow .row .park).swp.cursor ∧ ((siteRow .rowStow .row .park).row 0).stow.reoffer = none ∧
      (siteRow .rowStow .row .park).dsp.urgent = [] := by decide
/-- R9, R142, R147: the deadlines that start as the orders leave, 1000 plus level_timeout and stow_timeout. -/
theorem test_level_order_leaves :
    out .frameStart (siteRow .rowLevel .row .off)
      (fun t => decide ((t.row 0).sup.levelDeadline = some (1000 + t.par .levelTimeout))) = true := by rfl
theorem test_stow_order_leaves :
    out .frameStart (siteRow .rowStow .row .park)
      (fun t => decide ((t.row 0).stow = ⟨.sent, 1, some (1000 + t.par .stowTimeout), false, false, none⟩)) = true := by rfl
theorem test_release_order_leaves :
    out .frameStart (siteRow .rowRelease .storm .off)
      (fun t => decide ((t.row 0).rel = some ⟨2, some (1000 + t.par .stowTimeout), false⟩)) = true := by rfl
theorem witness_storm_check :
    (chooseEntry 2 ((siteSend.setDsp (fun d => { d with urgent := [] })).setStm (fun m => { m with state := .park }))).2 =
      some (⟨32, .leaveAnswer 1, 6, true, .row⟩, false) := by decide
/-- Robot 1's pass group is half sent. -/
def siteCut : State :=
  let e : Entry := ⟨33, .passRun, 3, true, .round⟩
  (siteSend.updRobot 1 (fun k => { k with asg := some ⟨1, .setup, false, some 3, false, none, false⟩ })).setDsp (fun d =>
    { d with routine := [e], group := some ⟨3, .round, e⟩, nextTag := 7 })

theorem witness_cut :
    siteCut.dsp.urgent = [⟨48, .cartGarage 3, 5, true, .storm⟩] ∧ siteCut.dsp.group.isSome = true ∧ (3 : Nat) < siteCut.dsp.nextTag ∧
      (5 : Nat) ≠ 3 ∧ siteCut.robotWithTag 3 = some 1 ∧ siteCut.rnd.isOpen = false ∧
      ((siteCut.setDsp (fun d => { d with urgent := [] })).setStm (fun m => { m with state := .park })).stm.state.stormy =
        true ∧ Kind.passRun.stormHeld = true := by decide
theorem witness_cut_transfer :
    let s := (siteCarry .boarding false).updCart 0 (fun k => { k with
      transfer := some { carry .boarding false with entered := false, deadline := none, tag := some 3 } })
    (s.cart 0).transfer.bind (fun f => f.tag) = some 3 ∧ s.aboard 0 0 = false := by decide
/-- R124, R125: a BOARD at the head in PARK aborts its transfer, and the cart goes to its garage. -/
theorem test_board_at_the_head :
    out .frameStart ((siteBack.updCart 0 (fun k => { k with
      transfer := some { carry .boarding false with entered := false, deadline := none, tag := some 3 } })).setDsp (fun d =>
        { d with permit := true, routine := [⟨32, .board 0, 3, true, .transfer⟩], nextTag := 7 }))
      (fun t => decide ((t.cart 0).transfer = none ∧ (t.cart 0).garageEntry.isSome = true)) = true := by rfl
theorem test_group_cut :
    out .frameStart siteCut (fun t => decide ((t.robot 1).asg = none ∧ t.dsp.routine = [])) = true := by rfl
theorem test_frame_start :
    out .frameStart siteSend (fun t => decide (t.dsp.air.map (fun f => f.bytes.take 8) =
      some [0xC3, 0, 48, 0, 0xF1, 0x2C, 1, 3])) = true := by rfl
theorem test_leave_denied :
    out .frameStart (siteSend.setDsp (fun d => { d with urgent := [] }))
      (fun t => decide (t.dsp.air.map (fun f => f.entry.order) = some (.leaveAnswer 0))) = true := by rfl

/-- Robot 1's pass group in SETUP, queued, gone, and held; and its RUNNING pass, on the row and off it. -/
theorem witness_manual_setup :
    let s (g : Option Nat) : State := siteCut.updRobot 1 (fun k => { k with asg := some ⟨1, .setup, false, g, false, none, false⟩ })
    (s (some 3)).queued 3 = true ∧ (s (some 2)).queued 2 = false ∧ ((s none).robot 1).link = none ∧
      3 < (s none).dsp.nextTag ∧ (s none).stm.state.stormy = false ∧ sitePass.robotOk 1 = true ∧
      (sitePass.robot 1).pos = some (.row 1) ∧
      ((sitePass.updRobot 1 (fun k => { k with pos := none })).robot 1).pos ≠ some (.row 1) := by decide
/-- R145: a broadcast ROW STOW already queued moves to the head. -/
theorem test_lockout_broadcast :
    (offerBroadcast (siteSend.setDsp (fun d => { d with
      urgent := [⟨48, .cartGarage 3, 5, true, .storm⟩, ⟨0xFFFF, .rowStow, 6, true, .storm⟩] }))).dsp.urgent.map
      (fun e => e.tag) = [6, 5] := by decide

/-- Robot 1's pass group has one frame left, on the air. -/
def siteAir : State :=
  let e : Entry := ⟨33, .passRun, 9, true, .round⟩
  (siteRobots.updRobot 1 (fun k => { k with asg := some ⟨1, .setup, false, some 9, false, none, false⟩ })).setDsp (fun d =>
    { d with air := some ⟨e, [], true⟩ })

theorem witness_frame_end :
    site.dsp.air = none ∧ siteAir.dsp.air = some ⟨⟨33, .passRun, 9, true, .round⟩, [], true⟩ ∧ siteAir.heldRound = false ∧
      siteAir.heldTransfers = false ∧ siteAir.heldRows = false ∧ siteAir.heldStorm = false ∧
      siteAir.robotWithTag 9 = some 1 ∧
      (siteAir.robot 1).asg = some ⟨1, .setup, false, some 9, false, none, false⟩ := by decide
/-- Cart 0's CART FETCH, or its CART HOLD, is on the air. -/
def siteFetch (hold : Bool) : State :=
  let s := (siteCarry .approach false).updCart 0 (fun k => { k with
    transfer := if hold then none else some { carry .approach false with entered := false, deadline := none, tag := some 9 }
    hold := if hold then some ⟨some 9⟩ else none })
  s.setDsp (fun d => { d with air := some ⟨⟨48, .cartFetch 1, 9, true, .transfer⟩, [], true⟩ })

theorem witness_frame_end_transfer :
    (siteFetch false).dsp.air = some ⟨⟨48, .cartFetch 1, 9, true, .transfer⟩, [], true⟩ ∧ (siteFetch false).cartOk 0 = true ∧
      (siteFetch false).heldRound = false ∧ (siteFetch false).heldTransfers = false ∧ (siteFetch false).heldRows = false ∧
      (siteFetch false).heldStorm = false ∧ ((siteFetch false).cart 0).hold = none ∧
      ((siteFetch false).cart 0).transfer.bind (fun f => f.tag) = some 9 ∧ ((siteFetch true).cart 0).hold = some ⟨some 9⟩ ∧
      (siteFetch true).heldTransfers = false ∧ (siteFetch true).stm.state ≠ .calm := by decide
theorem witness_frame_end_alone : ∀ j, j ≠ 0 → ∀ h, ((siteFetch h).cart j).hold ≠ some ⟨some 9⟩ ∧
    ∀ g, ((siteFetch h).cart j).transfer = some g → g.tag ≠ some 9 := by
  intro j hj h
  obtain ⟨k, rfl⟩ := Nat.exists_eq_succ_of_ne_zero hj
  cases h <;> exact ⟨nofun, nofun⟩
theorem test_phase_entered :
    out .frameEnd (siteFetch false) (fun t => decide ((t.cart 0).transfer =
      some { carry .approach false with deadline := some 1068, tag := none })) = true := by decide
theorem test_hold_ends : out .frameEnd (siteFetch true) (fun t => decide ((t.cart 0).hold = none)) = true := by decide
theorem test_frame_end_starts_pass :
    out .frameEnd siteAir (fun t => decide ((t.robot 1).asg = some ⟨1, .running, false, some 9, false, some 1270, false⟩)) =
      true := by decide

/-- A mast's record at the last second of its freshness. -/
def siteEdge0 : State := { site.updMast 0 (fun m => { m with irr := some ⟨0, 930⟩ }) with clk := ⟨1050, 7250, true⟩ }

/-- The part waits for send-permit since 960. -/
def siteStall : State := site.setDsp (fun d => { d with wait := some ⟨960, false⟩ })

theorem witness_permit :
    siteStall.dsp.wait = some ⟨960, false⟩ ∧ 960 + siteStall.par .permitStall < siteStall.now ∧ site.dsp.wait = none ∧
      siteSend.dsp.air = none ∧ siteSend.dsp.urgent ≠ [] ∧
      (siteStall.setDsp (fun d => { d with wait := some ⟨970, false⟩ })).now ≤ 970 + site.par .permitStall := by decide
theorem test_permit_falls :
    out (.sendPermitChange false) siteSend (fun t => decide (t.dsp.wait = some ⟨1000, false⟩)) = true := by decide
theorem test_permit_stall : out .permitStallExpiry siteStall (fun t => hasFlag t.ntc.latched .fieldStall) = true := by decide

/-- An answer and a NOTICE wait on the uplink. -/
def siteUp : State := { site with
  up := ⟨[.notice, .answer 1 0x51 [7]], none, []⟩, ntc := ⟨3, 1, 0, true⟩ }

theorem witness_uplink :
    siteUp.up.air = none ∧ siteUp.up.queue = [.notice, .answer 1 0x51 [7]] ∧ site.up.queue = [] ∧
      ({ siteUp with up := { siteUp.up with air := some [] } } : State).up.air.isSome = true ∧ siteUp.ntc.owed = true ∧
      siteUp.up.queue.length ≤ 64 ∧ site.ntc.owed = false := by decide
theorem test_notice_starts :
    out .uplinkFrameStart siteUp (fun t => decide (t.ntc.risen = 0 ∧ t.up.air.map (fun b => b.take 16) =
      some [0xC3, 0, 1, 0, 0xF0, 0x52, 9, 0, 0, 3, 0, 0, 1, 0, 0, 0])) = true := by rfl
theorem test_uplink_end_owed :
    out .uplinkFrameEnd { siteUp with up := { siteUp.up with air := some [] } }
      (fun t => decide (t.up.queue = [.answer 1 0x51 [7], .notice] ∧ t.ntc.owed = false)) = true := by decide

/-! ### Timed events -/

/-- Deadlines and replays a second away, where a condition has a time; the boundary is now. -/
theorem witness_not_due :
    let s := { siteWalk with clk := ⟨1049, 7249, true⟩ }
    (site.row 0).sup.levelClaim = none ∧ (990 : Nat) + site.par .cartSilence = 1049 + 1 ∧ (s.mast 0).heard = some 990 ∧
      s.now < 990 + s.par .mastSilence ∧ (siteEdge0.mast 0).irr = some ⟨0, 930⟩ ∧ siteEdge0.now ≤ 930 + 120 ∧
      (sitePass.robot 1).asg.bind (fun a => a.deadline) = some 1000 ∧ 999 < 1000 ∧ site.stm.state ≠ .calm ∧
      (siteIn .lockout).stm.state = .lockout ∧ (site.row 0).stow.deadline = none ∧ (site.row 0).sup.reported ≠ some .stowed ∧
      (site.robot 1).park = none ∧ (site.cart 0).garageEntry = none ∧ s.clk.clock % 86400 ≠ s.par .windowStart ∧
      s.clk.clock % 86400 ≠ s.par .windowEnd ∧ s.clk.clock ≠ 0 ∧ s.stm.advisory = none ∧ site.yld.walk = none ∧
      siteOpen.ep.epoch = some ⟨6300, 100, 7200, false⟩ ∧ 999 - 100 < 7200 - 6300 := by decide

theorem witness_silence :
    site.running = true ∧ siteRobots.robotOk 1 = true ∧ (siteRobots.robot 1).state = .onRow ∧
      (siteRobots.robot 1).pos = some (.row 1) ∧ (siteRobots.robot 1).heard = some 990 ∧
      990 + site.par .robotSilence ≤ ({ siteRobots with clk := ⟨1110, 7310, true⟩ } : State).now ∧
      site.cartOk 0 = true ∧ (site.cart 0).state ≠ .faulted ∧ (site.cart 0).heard = some 990 ∧
      990 + site.par .cartSilence ≤ 1050 ∧ 990 + site.par .mastSilence ≤ 1050 ∧ site.stm.silent = false := by decide
theorem witness_masts_silent :
    ∀ m, (({ site with masts := Tab.empty _ } : State).mast m).node.isSome = true →
      ∀ h, (({ site with masts := Tab.empty _ } : State).mast m).heard = some h → h + site.par .mastSilence ≤ site.now := nofun
theorem test_robot_offline :
    out (.robotSilenceExpiry 1) { siteRobots with clk := ⟨1110, 7310, true⟩ }
      (fun t => decide ((t.robot 1).state = .offline ∧ (t.row 1).sup.pinned = true)) = true := by decide
theorem test_cart_silent :
    out (.cartSilenceExpiry 0) { site with clk := ⟨1050, 7250, true⟩ } (fun t => decide ((t.cart 0).state = .faulted)) =
      true := by decide
theorem test_mast_silence :
    out .mastSilenceEvent { siteIn .lockout with clk := ⟨1050, 7250, true⟩ } (fun t => hasFlag t.ntc.latched .mastSilent) =
      true := by decide

/-- Robot 1 waits for row 1, due at S 40, to be level, past the deadline. -/
def siteLate : State :=
  ((siteRobots.updRobot 1 (fun k => { k with
    state := .docked, pos := some (.dock 1), asg := some ⟨1, .leveling, false, none, false, none, false⟩ })).updSup 1
      (fun u => { u with levelClaim := some 1, demand := .level, levelDeadline := some 1000 })).updSoil 1 (fun o => { o with
    s := 40, b := some 4000 })

theorem witness_level_deadline :
    (siteLate.row 1).sup.levelClaim = some 1 ∧ (siteLate.row 1).sup.levelDeadline = some 1000 ∧ 1000 ≤ siteLate.now ∧
      (siteLate.robot 1).asg = some ⟨1, .leveling, false, none, false, none, false⟩ ∧ siteLate.rnd.isOpen = false ∧
      siteLate.judge 1 = .due 80 := by decide
theorem test_level_deadline :
    out (.levelDeadlineExpiry 1) siteLate
      (fun t => decide ((t.row 1).sup.levelFault = true ∧ (t.row 1).sup.levelClaim = none ∧ (t.robot 1).asg = none ∧
        t.rnd.due = [⟨1, 80, 7200, none⟩])) = true := by decide
theorem witness_pass_deadline :
    (sitePass.robot 1).asg = some ⟨1, .running, false, none, false, some 1000, false⟩ ∧ 1000 ≤ sitePass.now ∧
      (sitePass.robot 1).pos = some (.row 1) ∧ sitePass.rnd.isOpen = false ∧
      ((sitePass.updRobot 1 (fun k => { k with pos := none })).robot 1).pos ≠ some (.row 1) := by decide
theorem test_pass_deadline :
    out (.passDeadlineExpiry 1) sitePass (fun t => decide ((t.robot 1).asg.map (fun a => a.abandoned) = some true)) = true := by
  decide
theorem witness_phase_deadline :
    ((siteCarry .travel false).cart 0).transfer = some (carry .travel false) ∧ (carry .travel false).stalled = false ∧
      (carry .boarding false).deadline = some 1000 ∧ 1000 ≤ (siteCarry .boarding false).now ∧
      (siteCarry .boarding false).aboard 0 0 = false ∧ (siteCarry .boarding false).rnd.isOpen = false := by decide
theorem test_phase_stalls :
    out (.phaseDeadlineExpiry 0) (siteCarry .travel false) (fun t => hasFlag t.ntc.latched .transferStalled) = true := by
  decide
theorem test_phase_fails :
    out (.phaseDeadlineExpiry 0) (siteCarry .boarding false)
      (fun t => decide ((t.cart 0).transfer = none ∧ (t.cart 0).recover = true)) = true := by decide

/-- The site in a storm state with every timer run out. -/
def siteTimers (st : StormState) : State :=
  site.setStm (fun m => ⟨st, some 10, some 10, some 10, some 10, some 10, m.gust, m.advisory, m.silent⟩)

theorem witness_storm_timers :
    (siteTimers .calm).stm.watchT = some 10 ∧ 10 + site.par .watchDebounce ≤ site.now ∧ 10 + site.par .calmHold ≤ site.now ∧
      10 + site.par .parkDebounce ≤ site.now ∧ 10 + site.par .lockoutHold ≤ site.now ∧
      10 + site.par .releaseHold ≤ ({ siteTimers .park with clk := ⟨1300, 0, false⟩ } : State).now ∧
      (siteTimers .lockout).stm.state = .lockout ∧ (siteTimers .watch).stm.calmT = some 10 := by decide
theorem test_watch_timer : out .watchTimerExpiry (siteTimers .calm) (fun t => decide (t.stm.state = .watch)) = true := by decide
theorem test_calm_timer : out .calmTimerExpiry (siteTimers .watch) (fun t => decide (t.stm.state = .calm)) = true := by decide
theorem test_release_timer :
    out .releaseTimerExpiry { siteTimers .secured with clk := ⟨1300, 0, false⟩ } (fun t => decide (t.stm.state = .calm)) =
      true := by decide
theorem test_lockout_timer : out .lockoutTimerExpiry (siteTimers .lockout) (fun t => decide (t.stm.state = .park)) = true := by
  decide

/-- Row 0 SENT with its stow deadline past, after a number of sends. -/
def siteStow (n : Nat) (mode : SweepMode) : State :=
  { (siteIn .secured).updStow 0 (fun _ => ⟨.sent, n, some 1000, false, false, none⟩) with swp := ⟨mode, 2⟩ }

theorem witness_stow_deadline :
    ((siteStow 2 .park).row 0).stow.deadline = some 1000 ∧ 1000 ≤ (siteStow 2 .park).now ∧
      ((siteStow 2 .park).row 0).sup.reported ≠ some .stowed ∧ 2 ≤ ((siteStow 2 .park).row 0).stow.sends ∧
      ((siteStow 1 .off).row 0).stow.sends < 2 ∧ (siteStow 1 .off).swp.mode = .off ∧ (siteStow 1 .park).swp.mode ≠ .off ∧
      (siteStow 1 .park).stm.state ≠ .park ∧ (siteStow 1 .park).sweepWaiting < 16 ∧ 0 < (siteStow 1 .park).swp.cursor := by
  decide
theorem witness_stow_in_park :
    let s := (siteStow 1 .park).setStm (fun m => { m with state := .park })
    s.stm.state = .park ∧ s.sweepWaiting < 16 ∧ (s.row 0).stow.reoffer = none ∧ (s.row 1).stow.reoffer = none := by decide
theorem test_stow_second :
    out (.stowDeadlineExpiry 0) (siteStow 1 .park)
      (fun t => decide ((t.row 0).stow = ⟨.sent, 2, none, true, false, none⟩ ∧ t.dsp.urgent.length = 1)) = true := by decide
theorem test_stow_pins :
    out (.stowDeadlineExpiry 0) (siteStow 2 .park) (fun t => (t.row 0).sup.pinned) = true := by decide

/-- Both rows on the release list, row 0 with its deadline past. -/
def siteRelease (n : Nat) : State :=
  let s := (siteIn .release).updSup 0 (fun u => { u with reported := some .stowed })
  (s.updRel 0 (fun _ => some ⟨n, some 1000, false⟩)).updRel 1 (fun _ => some ⟨0, none, false⟩)

theorem witness_release_deadline :
    ((siteRelease 2).row 0).rel = some ⟨2, some 1000, false⟩ ∧ 1000 ≤ (siteRelease 2).now ∧
      ((siteRelease 2).row 0).sup.reported = some .stowed ∧ (siteRelease 2).stm.state = .release ∧
      ((siteRelease 2).row 1).rel.isSome = true ∧ (siteRelease 1).dsp.routine.length < 256 := by decide
theorem test_release_second :
    out (.releaseDeadlineExpiry 0) (siteRelease 1)
      (fun t => decide (t.dsp.routine = [⟨16, .rowRelease, 0, true, .storm⟩])) = true := by decide
theorem test_release_pins :
    out (.releaseDeadlineExpiry 0) (siteRelease 2) (fun t => decide ((t.row 0).rel = none ∧ (t.row 0).sup.pinned = true)) =
      true := by decide

/-- Robot 1 and cart 0 wait for their replays. -/
def siteReplay : State :=
  ((siteIn .park).updRobot 1 (fun k => { k with park := some ⟨.abort, some 985, false⟩ })).updCart 0 (fun k =>
    { k with garageEntry := some ⟨some 985, false⟩ })

theorem witness_replays :
    (siteReplay.robot 1).park = some ⟨.abort, some 985, false⟩ ∧ 985 + siteReplay.par .parkRepeat ≤ siteReplay.now ∧
      (siteReplay.cart 0).garageEntry = some ⟨some 985, false⟩ ∧ urgentWork siteReplay.dsp.urgent < 128 := by decide
theorem test_park_replay :
    out (.parkRepeatReplay 1) siteReplay (fun t => decide (t.dsp.urgent = [⟨33, .passAbort, 0, true, .storm⟩])) = true := by
  decide
theorem test_garage_replay :
    out (.garageReplay 0) siteReplay (fun t => decide (t.dsp.urgent = [⟨48, .cartGarage 3, 0, true, .storm⟩])) = true := by
  decide

/-- The open round at the end of its window, its mast's record stale. -/
def siteEdge : State := { siteRound.updMast 0 (fun m => { m with irr := some ⟨500, 800⟩ }) with clk := ⟨1000, 18000, true⟩ }

theorem witness_round_events :
    (siteEdge.mast 0).irr = some ⟨500, 800⟩ ∧ 800 + siteEdge.par .mastStale < siteEdge.now ∧ siteEdge.running = true ∧
      siteEdge.clk.set = true ∧ siteEdge.tod = siteEdge.par .windowEnd ∧ siteEdge.rnd.isOpen = true ∧
      siteEdge.stm.state = .calm ∧ siteEdge.par .roundsEnabled ≠ 0 ∧ siteEdge.windowOpen = false := by decide
/-- The open round in CALM, robot 1 available at dock 1, and row 1, or row 0, due. -/
def sitePlan (r : Nat) : State :=
  let s := ((siteIn .calm).updRobot 1 (fun k => { k with state := .docked, pos := some (.dock 1), charge := 400 })).updSup 1
    (fun u => { u with occupant := some 1, reported := some .tracking })
  (s.updSup 0 (fun u => { u with reported := some .tracking })).setRnd (fun p => { p with
    isOpen := true, due := [⟨r, 80, 7000, none⟩] })

theorem witness_planning :
    (sitePlan 1).rnd.isOpen = true ∧ (sitePlan 1).heldRound = false ∧ (sitePlan 1).robotOk 1 = true ∧
      ((sitePlan 1).robot 1).state = .docked ∧ ((sitePlan 1).robot 1).ctrl = .auto ∧ ((sitePlan 1).robot 1).asg = none ∧
      ((sitePlan 1).robot 1).link = none ∧ ((sitePlan 1).robot 1).park = none ∧
      ((sitePlan 1).robot 1).pos = some (.dock 1) ∧ (sitePlan 1).fits 1 ⟨1, 80, 7000, none⟩ = true ∧
      (sitePlan 0).fits 1 ⟨0, 80, 7000, none⟩ = true ∧ ((sitePlan 1).row 1).sup.levelClaim = none ∧
      ((sitePlan 1).row 1).sup.demand = .track ∧ ((sitePlan 1).row 1).sup.stowClaim = false ∧
      ((sitePlan 0).row 0).sup.occupant = none ∧ (sitePlan 0).lane 0 = [] ∧ (sitePlan 0).eligibleCarts 0 = [] ∧
      ((sitePlan 1).updRobot 1 (fun k => { k with charge := 47 })).fits 1 ⟨1, 80, 7000, none⟩ = false := by decide
theorem witness_one_robot :
    let s := siteEdge.updRobot 1 (fun k => { k with node := none })
    let t := { s.setRnd (fun p => { p with isOpen := false }) with clk := ⟨1000, 1800, true⟩ }
    t.tod = t.par .windowStart ∧ t.rnd.isOpen = false ∧ t.roundCondition = true ∧ t.robotIds = [0] := by decide
/-- R86, R97: a window that spans midnight, before and after it, and an empty one; row 1 planned for robot 1, for whom
alone it fits, and row 0 with robot 0 free at its dock. -/
theorem witness_plan_row :
    let s (c : Nat) := { ((siteIn .calm).setPar .windowStart 80000).setPar .windowEnd 3600 with clk := ⟨1000, c, true⟩ }
    (s 82000).roundCondition = true ∧ (s 3599).roundCondition = true ∧ (s 3600).roundCondition = false ∧
      ((s 3600).setPar .windowEnd 80000).windowOpen = false ∧ (sitePlan 1).dueEntry 1 = some ⟨1, 80, 7000, none⟩ ∧
      (sitePlan 1).fits 1 ⟨1, 80, 7000, none⟩ = true ∧ ((sitePlan 1).robot 0).state ≠ .docked ∧
      ((sitePlan 1).updRobot 1 (fun k => { k with charge := 47 })).fits 1 ⟨1, 80, 7000, none⟩ = false := by decide
/-- R97: robots 0 and 1 are as far from row 0: the lower index is chosen at its own dock, the nearer before it. -/
theorem test_plan_row :
    (let s := ((sitePlan 0).updRobot 0 (fun k => { k with state := .docked, pos := some (.dock 0), charge := 400 })).updSup 0
       (fun u => { u with occupant := some 0 })
     let t := planRow 0 s
     decide ((t.robot 0).asg.map (fun a => a.row) = some 0 ∧ (t.robot 1).claim = none)) = true := by decide
theorem test_dispatch :
    (let t := planRobot 1 (sitePlan 1)
     decide ((t.robot 1).asg = some ⟨1, .leveling, false, none, false, none, false⟩ ∧
      t.dsp.routine = [⟨17, .rowLevel, 0, true, .row⟩])) = true := by decide
theorem test_claim_and_request :
    (let t := planRobot 1 (sitePlan 0)
     decide ((t.robot 1).claim = some 0 ∧ t.lane 0 = [⟨1, 1, 0, 1000, .round⟩])) = true := by decide
theorem test_window_edge : out .roundWindowEdge siteEdge (fun t => decide (t.rnd.reason = some .window)) = true := by decide
theorem test_record_stale :
    out (.mastRecordStale 0) { siteEdge with clk := ⟨1000, 7200, true⟩ } (fun t => t.rnd.isOpen) = true := by decide
theorem witness_advisory_reached :
    (site.setStm (fun m => { m with advisory := some ⟨9000, 7200⟩ })).stm.advisory = some ⟨9000, 7200⟩ ∧
      7200 ≤ site.clk.clock ∧ site.clk.set = true ∧ site.running = true := by decide
theorem test_advisory_event :
    out .advisoryReached ((siteIn .secured).setStm (fun m => { m with advisory := some ⟨9000, 7200⟩ }))
      (fun t => decide (t.stm.advisory = none ∧ t.stm.state = .secured)) = true := by decide

theorem witness_epoch_boundary :
    siteOpen.ep.epoch = some ⟨6300, 100, 7200, false⟩ ∧ siteOpen.ep.held = none ∧
      7200 - 6300 ≤ siteOpen.clk.mono - 100 ∧ siteWalk.yld.walk.isSome = true ∧ siteOpen.yld.walk = none := by decide
theorem test_epoch_boundary :
    out .epochBoundary siteOpen (fun t => decide (t.ep.epoch = some ⟨7200, 1000, 8100, false⟩ ∧ t.yld.walk.isSome = true)) =
      true := by decide

/-- The walk at row 0, with the figures of row 210 in chapter 04. -/
def siteFull : State :=
  let s := siteWalk.updCfg 0 (fun c => { c with iref := 37800, prated := 49500 })
  let s := s.updSoil 0 (fun o => { o with s := 40, b := some 4010 })
  s.updBanks 0 (fun b => { b with closing := some ⟨565800, 150, 0, false, false, false⟩ })

theorem witness_walk_step :
    siteFull.yld.walk = some walk ∧ siteFull.rowFrom 0 = some 0 ∧ (siteFull.rowFrom 1).isSome = true ∧
      (siteFull.row 0).banks.closing = some ⟨565800, 150, 0, false, false, false⟩ ∧ siteFull.rowFrom 2 = none ∧
      (siteFull.row 1).banks.closing = none ∧ siteFull.ep.held = none ∧ siteFull.ep.batch = none ∧
      siteFull.par .reportDivider ≤ siteFull.ep.acc.walks ∧ siteFull.up.queue.length < 64 ∧ ¬(150 < site.par .minSamples) := by
  decide
/-- The last row's step, with a closing bank, a batch in hand and a held close behind it. -/
def siteLast : State :=
  ((siteFull.updBanks 1 (fun b => { b with closing := some ⟨0, 0, 0, false, false, false⟩ })).setYld (fun y => { y with
    walk := some { walk with cursor := 1 } })).setEp (fun e => { e with
      batch := some ⟨(Tab.empty _ : Tab RowStage.none).upd 1 (fun g => { g with prated := some 900 }), Tab.empty _⟩ })

theorem witness_walk_last :
    siteLast.rowFrom 1 = some 1 ∧ siteLast.rowFrom 2 = none ∧ siteLast.ep.held = none ∧ siteLast.ep.batch.isSome = true ∧
      siteLast.rnd.isOpen = false ∧ 0 < siteLast.par .minSamples ∧ (siteLast.row 1).cfg.iref ≠ 0 ∧
      siteLast.up.queue.length < 63 ∧
      (siteLast.setEp (fun e => { e with batch := none, held := some ⟨false⟩ })).ep.held = some ⟨false⟩ ∧
      (siteLast.setEp (fun e => { e with held := some ⟨true⟩ })).ep.epoch = some ⟨6300, 100, 7200, false⟩ := by decide
theorem test_batch_applied :
    out .walkStep siteLast (fun t => decide ((t.row 1).cfg.prated = 900 ∧ (t.row 1).acct.thins = 1 ∧ t.ep.batch = none)) =
      true := by decide
theorem test_walk_step :
    out .walkStep siteFull (fun t => decide ((t.row 0).soil.s = 44 ∧ (t.row 0).acct.lost = 458 ∧
      (t.row 0).acct.lostRes = 1688400000)) = true := by decide
theorem test_walk_finishes :
    out .walkStep (siteFull.setYld (fun y => { y with walk := some { walk with cursor := 1 } }))
      (fun t => decide (t.yld.walk = none ∧ t.up.queue.length = 1)) = true := by decide

/-! ### Arithmetic and records -/

theorem witness_yield_arithmetic :
    (⟨0, none, true, none, none⟩ : Soil).capture = true ∧ (2048 : Nat) ≤ 2048 ∧ (2047 : Nat) < 2048 ∧
      (⟨40, some 4010, false, none, none⟩ : Soil).b = some 4010 ∧ (40 : Nat) ≤ 1000 ∧ (0 : Nat) < 4010 ∧
      (4294967295 : Nat) ≤ 4294967295 ∧ (3599999999 : Nat) < 3600000000 ∧ (addEnergy 4294967295 0 3600000000).saturated = true ∧
      (addEnergy 0 0 3600000000).saturated = false := by decide

/-- R80: threshold 30, hysteresis 10; S 30 is DUE, 29 HOLD, 20 CLEAR. -/
def siteSoil (n : Nat) : State := site.updSoil 1 (fun o => { o with s := n, b := some 4000 })

theorem test_judgements :
    (siteSoil 30).judge 1 = .due 60 ∧ (siteSoil 29).judge 1 = .hold 58 ∧ (siteSoil 20).judge 1 = .clear ∧
      site.judge 1 = .clear := by decide
theorem witness_due_judgement :
    (siteSoil 30).rnd.isOpen = false ∧ (siteSoil 30).dueEntry 1 = none ∧ DueLaw (siteSoil 30) ∧
      ((siteSoil 29).setRnd (fun p => { p with due := [⟨1, 60, 5, none⟩] })).dueEntry 1 = some ⟨1, 60, 5, none⟩ ∧
      (site.setRnd (fun p => { p with due := [⟨1, 60, 5, none⟩] })).judge 1 = .clear :=
  ⟨by decide, by decide, List.Pairwise.nil, by decide, by decide⟩
theorem witness_open_judgement :
    let s := (siteSoil 30).setRnd (fun p => { p with isOpen := true })
    s.rnd.isOpen = true ∧ s.dueEntry 1 = none ∧ s.judge 1 = .due 60 ∧ (s.robot 0).asg = none := by decide
theorem witness_demand_law : DemandLaw later := fun _ => rfl
theorem witness_no_assignment : ∀ x a, (later.robot x).asg = some a → a.row ≠ 1 := nofun

end Sys2Proof.Tests
end

