-- ==== Sys2Proof/Proofs/Wire.lean ====
section
/-! SUPPORT. An order's wire form: reading back numbers of one and two bytes, and every order from its class and payload
(R178, 11.2, 11.3). -/

namespace Sys2Proof.Machine

theorem be_one_eq (v : Nat) : be 1 v = [BitVec.ofNat 8 v] := by simp [be]

theorem be_two_eq (v : Nat) : be 2 v = [BitVec.ofNat 8 (v / 256), BitVec.ofNat 8 v] := by simp [be]

theorem toNat_ofNat_byte {v : Nat} (h : v < 256) : (BitVec.ofNat 8 v).toNat = v := by
  rw [BitVec.toNat_ofNat]
  exact Nat.mod_eq_of_lt h

/-- A number that fits two bytes reads back from them. -/
theorem ofBe_two_bytes {v : Nat} (h : v < 65536) : ofBe [BitVec.ofNat 8 (v / 256), BitVec.ofNat 8 v] = v := by
  simp only [ofBe, List.foldl, BitVec.toNat_ofNat]
  omega

/-- The class codes follow R40's order, and each field reads back from its bytes. -/
theorem Order.ofWire_of_fits {o : Order} (h : o.Fits) : Order.ofWire o.cls o.payload = some o := by
  cases o with
  | passSetup l b =>
    obtain ⟨hl, hb⟩ := h
    simp only [Order.payload, be_one_eq, be_two_eq, List.cons_append, List.nil_append]
    show some (Order.passSetup (ofBe [_, _]) (BitVec.toNat _)) = _
    rw [ofBe_two_bytes hl, toNat_ofNat_byte hb]
  | alight r =>
    simp only [Order.payload, be_two_eq]
    exact congrArg (fun n => some (Order.alight n)) (ofBe_two_bytes h)
  | board c =>
    simp only [Order.payload, be_one_eq]
    exact congrArg (fun n => some (Order.board n)) (toNat_ofNat_byte h)
  | leaveAnswer g =>
    simp only [Order.payload, be_one_eq]
    exact congrArg (fun n => some (Order.leaveAnswer n)) (toNat_ofNat_byte h)
  | cartFetch c =>
    simp only [Order.payload, be_one_eq]
    exact congrArg (fun n => some (Order.cartFetch n)) (toNat_ofNat_byte h)
  | cartCarry c =>
    simp only [Order.payload, be_one_eq]
    exact congrArg (fun n => some (Order.cartCarry n)) (toNat_ofNat_byte h)
  | cartGarage c =>
    simp only [Order.payload, be_one_eq]
    exact congrArg (fun n => some (Order.cartGarage n)) (toNat_ofNat_byte h)
  | rowLevel | rowRelease | rowStow | passRun | passAbort | dockHold | cartHold => rfl

/-- Settles O14: a case for each order, over reading back one byte and two. -/
theorem orderReadsBack : Obligations.OrderReadsBack := fun _ h => Order.ofWire_of_fits h

end Sys2Proof.Machine
end

