-- ==== Sys2Proof/Proofs/Ports.lean ====
section
/-! SUPPORT. What a port does with a frame whose check sequence and length are right: its class and payload length name the
report or request that the frame is taken as, or the framing flag latches (R24, R154, R179, R181). -/

namespace Sys2Proof.Machine

/-! ### The field port -/

/-- A field frame is the part's own echo, or a report that is taken as its own command is, or it latches FIELD_FRAMING
(R24). The case split goes through the class code and then the payload's length, as Lean makes no splitter for the
joint match over `Byte`. -/
theorem takeField_elim {P : State → Prop} {f : RxFrame} {s : State} (echo : f.src = s.dsp.echo → P s)
    (report : reportLength f.cls = some f.payload.length → ∀ c t, c.report.isSome = true → exec c s = .next t → P t)
    (other : f.src ≠ s.dsp.echo → P (latch .fieldFraming s)) : P (takeField f s) := by
  obtain ⟨dst, src, n, p⟩ := f
  unfold takeField
  dsimp only at *
  split
  · next h => exact echo h
  next h =>
  replace other := other h
  clear h echo
  match n with
  | 0x10 =>
    match p with
    | [k, i, j, a, r, m, n, c, d, e] =>
      exact report rfl (.robotStatus _ k (halfOf i j) a r (halfOf m n) (halfOf c d) e) _ rfl rfl
    | [] | [_] | [_, _] | [_, _, _] | [_, _, _, _] | [_, _, _, _, _] | [_, _, _, _, _, _] | [_, _, _, _, _, _, _]
    | [_, _, _, _, _, _, _, _] | [_, _, _, _, _, _, _, _, _]
    | _ :: _ :: _ :: _ :: _ :: _ :: _ :: _ :: _ :: _ :: _ :: _ => exact other
  | 0x11 =>
    match p with
    | [sl, m, g, a, b, e] => exact report rfl (.cartStatus _ sl m g (halfOf a b) e) _ rfl rfl
    | [] | [_] | [_, _] | [_, _, _] | [_, _, _, _] | [_, _, _, _, _] | _ :: _ :: _ :: _ :: _ :: _ :: _ :: _ => exact other
  | 0x12 =>
    match p with
    | [a, b, q, e] => exact report rfl (.rowSample _ (halfOf a b) q e) _ rfl rfl
    | [] | [_] | [_, _] | [_, _, _] | _ :: _ :: _ :: _ :: _ :: _ => exact other
  | 0x13 =>
    match p with
    | [a, b, c, d, e, g] => exact report rfl (.mastSample _ (halfOf a b) (halfOf c d) (halfOf e g)) _ rfl rfl
    | [] | [_] | [_, _] | [_, _, _] | [_, _, _, _] | [_, _, _, _, _] | _ :: _ :: _ :: _ :: _ :: _ :: _ :: _ => exact other
  | 0x14 =>
    match p with
    | [] => exact report rfl (.leaveAsk _) _ rfl rfl
    | _ :: _ => exact other
  | 0 | 1 | 2 | 3 | 4 | 5 | 6 | 7 | 8 | 9 | 10 | 11 | 12 | 13 | 14 | 15 | _ + 21 => exact other

/-- A field frame whose class and length are no field report's: its echo is discarded, any other latches FIELD_FRAMING
(R24). -/
theorem takeField_of_rejected {f : RxFrame} (h : reportLength f.cls ≠ some f.payload.length) (s : State) :
    takeField f s = if f.src = s.dsp.echo then s else latch .fieldFraming s :=
  takeField_elim (P := fun t => t = if f.src = s.dsp.echo then s else latch .fieldFraming s)
    (fun e => (if_pos e).symm) (fun hl => absurd hl h) (fun e => (if_neg e).symm)

theorem fieldRejects_of_good {bytes : List Byte} {f : RxFrame} (hf : judgeFrame bytes = .good f)
    (h : fieldRejects bytes = true) : reportLength f.cls ≠ some f.payload.length := by
  simpa only [fieldRejects, hf, decide_eq_true_eq] using h

/-! ### The uplink port -/

/-- A CONTROL frame is taken as the command of its kind is (11.4, R181). The case split is by the kind's code, then by
the length of its argument, as in `takeField_elim`. -/
theorem takeControl_elim {P : State → Prop} {q : Req} {kind : Byte} {arg : List Byte} {s : State}
    (request : ∀ c t, c.request.isSome = true → exec c s = .next t → P t) : P (takeControl q kind arg s) := by
  have other : P (takeUnknown q kind s) := request (.controlUnknownKind q kind) _ rfl rfl
  unfold takeControl
  generalize kind.toNat = n
  match n with
  | 1 =>
    match arg with
    | [] => exact request (.commit q) _ rfl rfl
    | _ :: _ => exact other
  | 2 =>
    match arg with
    | [] => exact request (.decommit q) _ rfl rfl
    | _ :: _ => exact other
  | 3 =>
    match arg with
    | [a, b, c, d] => exact request (.timeSet q (a ++ b ++ c ++ d)) _ rfl rfl
    | [] | [_] | [_, _] | [_, _, _] | _ :: _ :: _ :: _ :: _ :: _ => exact other
  | 4 =>
    match arg with
    | [a] => exact request (.stormForce q a) _ rfl rfl
    | [] | _ :: _ :: _ => exact other
  | 5 =>
    match arg with
    | [a, b, c, d] => exact request (.stormAdvisory q (a ++ b ++ c ++ d)) _ rfl rfl
    | [] | [_] | [_, _] | [_, _, _] | _ :: _ :: _ :: _ :: _ :: _ => exact other
  | 6 =>
    match arg with
    | [] => exact request (.advisoryCancel q) _ rfl rfl
    | _ :: _ => exact other
  | 7 =>
    match arg with
    | [a, b] => exact request (.robotManual q a b) _ rfl rfl
    | [] | [_] | _ :: _ :: _ :: _ => exact other
  | 8 =>
    match arg with
    | [a] => exact request (.robotClear q a) _ rfl rfl
    | [] | _ :: _ :: _ => exact other
  | 9 =>
    match arg with
    | [a, b, c] => exact request (.transferResolve q a (b ++ c)) _ rfl rfl
    | [] | [_] | [_, _] | _ :: _ :: _ :: _ :: _ => exact other
  | 10 =>
    match arg with
    | [a] => exact request (.roundsEnable q a) _ rfl rfl
    | [] | _ :: _ :: _ => exact other
  | 11 =>
    match arg with
    | [] => exact request (.closeNow q) _ rfl rfl
    | _ :: _ => exact other
  | 12 =>
    match arg with
    | [a, b] => exact request (.accountClear q (a ++ b)) _ rfl rfl
    | [] | [_] | _ :: _ :: _ :: _ => exact other
  | 13 =>
    match arg with
    | [] => exact request (.resetRun q) _ rfl rfl
    | _ :: _ => exact other
  | 14 =>
    match arg with
    | [a, b, c] => exact request (.noticeClear q (a ++ b ++ c)) _ rfl rfl
    | [] | [_] | [_, _] | _ :: _ :: _ :: _ :: _ => exact other
  | 15 =>
    match arg with
    | [a, b, c] => exact request (.noticeMask q (a ++ b ++ c)) _ rfl rfl
    | [] | [_] | [_, _] | _ :: _ :: _ :: _ :: _ => exact other
  | 0 | _ + 16 => exact other

/-- An uplink frame is for another address, or a request that is taken as its own command is, or it latches UPLINK_FRAMING
(R154). -/
theorem takeUplink_elim {P : State → Prop} {f : RxFrame} {s : State} (elsewhere : P s)
    (request : ∀ c t, c.request.isSome = true → exec c s = .next t → P t) (other : P (latch .uplinkFraming s)) :
    P (takeUplink f s) := by
  obtain ⟨dst, src, n, p⟩ := f
  unfold takeUplink
  dsimp only
  split
  · exact elsewhere
  split
  · exact other
  by_cases hn : n < 64
  · interval_cases n <;> exact other
  obtain ⟨m, rfl⟩ := Nat.exists_eq_add_of_le' (not_lt.1 hn)
  match m with
  | 0 =>
    match p with
    | [tag, t, i, j, k, a, b, c, d] => exact request (.tableWrite ⟨_, _, tag⟩ t (i ++ j) k (a ++ b ++ c ++ d)) _ rfl rfl
    | [] | [_] | [_, _] | [_, _, _] | [_, _, _, _] | [_, _, _, _, _] | [_, _, _, _, _, _] | [_, _, _, _, _, _, _]
    | [_, _, _, _, _, _, _, _] | _ :: _ :: _ :: _ :: _ :: _ :: _ :: _ :: _ :: _ :: _ => exact other
  | 1 =>
    match p with
    | [tag, t, i, j, n] => exact request (.tableRead ⟨_, _, tag⟩ t (i ++ j) n) _ rfl rfl
    | [] | [_] | [_, _] | [_, _, _] | [_, _, _, _] | _ :: _ :: _ :: _ :: _ :: _ :: _ => exact other
  | 2 =>
    match p with
    | tag :: k :: arg => exact takeControl_elim request
    | [] | [_] => exact other
  | 3 =>
    match p with
    | tag :: a :: b :: c :: r => exact request (.order ⟨_, _, tag⟩ (a ++ b) c r) _ rfl rfl
    | [] | [_] | [_, _] | [_, _, _] => exact other
  | _ + 4 => exact other

/-- An uplink frame whose class and length are not allowed: one to another address is discarded, any other latches
UPLINK_FRAMING (R154, R181). -/
theorem takeUplink_of_rejected {f : RxFrame} (h : requestLengthOk f.cls f.payload = false) (s : State) :
    takeUplink f s = if f.dst ≠ s.ctl.part.uplink then s else latch .uplinkFraming s := by
  unfold takeUplink
  simp only [h, Bool.not_false, if_true]

theorem uplinkRejects_of_good {bytes : List Byte} {f : RxFrame} (hf : judgeFrame bytes = .good f)
    (h : uplinkRejects bytes = true) : requestLengthOk f.cls f.payload = false := by
  simpa only [uplinkRejects, hf, Bool.not_eq_true'] using h

/-- Settles O16: by the port's verdict on the bytes; a good frame that is rejected has a wrong class or length. -/
theorem rejectedFramesLatch : Obligations.RejectedFramesLatch := by
  intro bytes s
  refine ⟨fun hwf => ⟨fun hbad => ?_, fun f hf => ?_⟩, fun hwf => ⟨fun hbad => ?_, fun f hf => ?_⟩⟩
  · simp only [exec, execFieldFrameRejected, hbad]
  · simp only [exec, execFieldFrameRejected, hf, takeField_of_rejected (fieldRejects_of_good hf hwf)]
  · simp only [exec, execUplinkFrameRejected, hbad]
  · simp only [exec, execUplinkFrameRejected, hf, takeUplink_of_rejected (uplinkRejects_of_good hf hwf)]

end Sys2Proof.Machine
end

