-- ==== Sys2Proof/Proofs/Dispatch.lean ====
section
/-! SUPPORT. The facts about the Order Dispatcher that the statements on its requests and events share: the permit wait,
the SECURED test where it finds nothing, an offer of one order, the answers (R29, R35, R38, R39, R134). -/

namespace Sys2Proof.Machine

/-! ### The permit wait (R35) -/

theorem Dispatcher.holds_eq_false {d : Dispatcher} (hu : d.urgent = []) (hr : d.routine = []) : d.holds = false := by
  simp [Dispatcher.holds, hu, hr]

theorem Dispatcher.holds_eq_true {d : Dispatcher} (h : d.urgent ≠ [] ∨ d.routine ≠ []) : d.holds = true := by
  rcases h with h | h <;> simp [Dispatcher.holds, h]

/-- No permit wait runs with the line asserted, an order on the air or the queues empty. -/
theorem Dispatcher.note_wait_none {d : Dispatcher} {now : Nat}
    (h : d.permit = true ∨ d.air.isSome = true ∨ d.urgent = [] ∧ d.routine = []) : (d.note now).wait = none := by
  unfold Dispatcher.note
  dsimp only
  split
  · rfl
  · next a ha =>
    rcases h with h | h | ⟨hu, hr⟩
    · simp [h]
    · obtain ⟨f, hf⟩ := Option.isSome_iff_exists.1 h
      simp [hf]
    · rw [Dispatcher.holds_eq_false hu hr] at ha
      cases ha

/-- Otherwise one runs, from the later of the fall of the line and the arrival of the first entry (log 8). -/
theorem Dispatcher.note_wait_some {d : Dispatcher} {now : Nat} (hp : d.permit = false) (ha : d.air = none)
    (hq : d.urgent ≠ [] ∨ d.routine ≠ []) :
    (d.note now).wait = some (d.wait.getD ⟨max d.fell (d.since.getD now), false⟩) := by
  unfold Dispatcher.note
  simp [Dispatcher.holds_eq_true hq, hp, ha]

theorem stallDue_of_wait {s : State} {w : PermitWait} (h : s.dsp.wait = some w) :
    s.stallDue = (!w.stalled && decide (w.start + s.par .permitStall < s.now)) := by
  simp only [State.stallDue, h, Option.any_some]

/-- Settles O48: the line and its fall are set, the permit wait is brought up to date by `note`, and its stall latches
FIELD_STALL exactly when it is due. -/
theorem sendPermitWait : Obligations.SendPermitWait := by
  refine ⟨fun b s => ⟨_, rfl, rfl, rfl, fun h => ?_, fun hb ha hq => ?_⟩, fun s w hw => ⟨fun hst hlt => ?_, fun h => ?_⟩,
    fun s hw => ?_⟩
  · exact Dispatcher.note_wait_none h
  · subst hb
    refine (Dispatcher.note_wait_some (d := (permitChange false s).dsp) (now := s.now) rfl ha hq).trans ?_
    simp [permitChange]
  · have hdue : s.stallDue = true := by rw [stallDue_of_wait hw, hst]; simpa using hlt
    simp only [exec, execPermitStallExpiry, stallExpiry, hdue, if_true, State.setDsp, hw, Option.map_some]
  · have hdue : s.stallDue = false := by
      rw [stallDue_of_wait hw]
      rcases h with h | h
      · simp [h]
      · simp [not_lt.2 h]
    simp only [exec, execPermitStallExpiry, stallExpiry, hdue, Bool.false_eq_true, if_false]
  · have hdue : s.stallDue = false := by simp only [State.stallDue, hw, Option.any_none]
    simp only [exec, execPermitStallExpiry, stallExpiry, hdue, Bool.false_eq_true, if_false]

/-! ### The SECURED test (R134) -/

theorem secure_of_law {s : State} (h : SecuredLaw s) : secure s = s := by
  unfold secure
  split
  · next hc =>
    simp only [Bool.and_eq_true, decide_eq_true_eq] at hc
    obtain ⟨⟨hr, hp⟩, hsafe⟩ := hc
    rw [h hr hp] at hsafe
    cases hsafe
  · rfl

theorem settle_of_law {s : State} (h : SecuredLaw s) : settle s = noteQueues s := by
  rw [settle, secure_of_law h]

/-- Whether the fleet is safe is a matter of the two lists and the rows. -/
theorem allSafe_congr {s t : State} (hx : ∀ x, (t.robot x).park = (s.robot x).park)
    (hc : ∀ c, (t.cart c).garageEntry = (s.cart c).garageEntry) (hr : ∀ r, (t.row r).safe = (s.row r).safe) :
    t.allSafe = s.allSafe := by
  have key : ∀ u : State, u.allSafe = true ↔
      ((∀ x, (u.robot x).park.isNone = true) ∧ ∀ c, (u.cart c).garageEntry.isNone = true) ∧ ∀ r, (u.row r).safe = true := by
    intro u
    rw [State.allSafe, Bool.and_eq_true, Bool.and_eq_true, Tab.allRec_iff _ rfl, Tab.allRec_iff _ rfl, Tab.allRec_iff _ rfl]
    rfl
  rw [Bool.eq_iff_iff, key, key]
  simp only [hx, hc, hr]

theorem SecuredLaw.congr {s t : State} (h : SecuredLaw s) (hm : t.ctl.mode = s.ctl.mode)
    (hs : t.stm.state = s.stm.state) (ha : t.allSafe = s.allSafe) : SecuredLaw t := by
  unfold SecuredLaw State.running at *
  rw [hm, hs, ha]
  exact h

/-! ### ORDER requests (R38, R39) -/

theorem exec_order_taken {q : Req} {dest : Half} {cls : Byte} {payload : List Byte} {o : Order} {s : State}
    (hq : q.dst.toNat = s.ctl.part.uplink) (ho : Order.ofWire cls.toNat payload = some o) :
    exec (.order q dest cls payload) s = .next (
      if s.running then
        match s.orderRefusal dest.toNat o with
        | some c => reply q 0x43 0 c [] s
        | none => passOrder q dest.toNat o s
      else passOrder q dest.toNat o s) := by
  simp only [exec, execOrder, takeOrder, taken, hq, if_true, requestOrder, ho]
  rfl

theorem passOrder_eq (q : Req) (dest : Nat) (o : Order) (s : State) :
    passOrder q dest o s =
      if s.dsp.routine.length < 256 then
        reply q 0x43 0 .accepted [] (noteQueues { s with dsp := { s.dsp with
          routine := s.dsp.routine ++ [⟨dest, o, s.dsp.nextTag, true, .supervisor⟩]
          nextTag := s.dsp.nextTag + 1 } })
      else reply q 0x43 0 .queueFull [] s := by
  unfold passOrder
  by_cases h : s.dsp.routine.length < 256
  · rw [if_neg (by omega), if_pos h]; rfl
  · rw [if_pos (by omega), if_neg h]; rfl

/-- Work in hand on an order's node, as a proposition (R39). -/
theorem orderBusy_iff (s : State) (n : NodeId) (k : Kind) :
    s.orderBusy n k = true ↔ match n.kind with
      | .robot =>
        (s.robot n.index).ctrl = .auto ∧ ((s.robot n.index).asg.isSome = true ∨ (s.robot n.index).link.isSome = true)
      | .cart =>
        (s.cart n.index).transfer.isSome = true ∧ (k = .cartFetch ∨ k = .cartCarry ∨ k = .cartGarage)
      | .row => (s.row n.index).sup.levelClaim.isSome = true ∧ (k = .rowLevel ∨ k = .rowRelease)
      | .mast => False := by
  obtain ⟨kind, i⟩ := n
  cases kind <;> simp [State.orderBusy, or_assoc]

/-- The four checks of an ORDER to a node, in R39's order. -/
theorem orderRefusal_of_node {s : State} {dest : Nat} {n : NodeId} (h : s.nodeAt dest = some n) (o : Order) :
    s.orderRefusal dest o =
      if n.kind ≠ o.kind.target ∨ o.encodable = false then some .badIndex
      else if s.stm.state.stormy = true ∧ o.kind.fixedDrop = true ∨
          s.ctl.policy.get (15 * s.stm.state.idx + o.kind.idx) = true then some .refusedState
      else if s.orderBusy n o.kind = true then some .busy else none := by
  simp only [State.orderRefusal, h, State.policyDrop, Bool.or_eq_true, decide_eq_true_eq, Bool.not_eq_true',
    Bool.and_eq_true]
  split_ifs <;> simp_all

/-- Settles O33: by the checks of an ORDER in their order, then by room in the routine queue. -/
theorem orderRequests : Obligations.OrderRequests := by
  intro q dest cls payload o s hq ho refuse pass busy
  have hpass : passOrder q dest.toNat o s = pass := passOrder_eq q dest.toNat o s
  rw [exec_order_taken hq ho, hpass]
  refine ⟨fun hr => by simp only [hr, Bool.false_eq_true, if_false], fun hr => ⟨fun hn => ?_, fun n hn => ?_⟩⟩
  · simp only [hr, if_true, State.orderRefusal, hn]; rfl
  · intro bad dropped
    have hbusy : s.orderBusy n o.kind = true ↔ busy n := orderBusy_iff s n o.kind
    rw [orderRefusal_of_node hn]
    refine ⟨fun h1 => ?_, fun h1 h2 => ?_, fun h1 h2 h3 => ?_, fun h1 h2 h3 => ?_⟩
    · rw [if_pos hr, if_pos h1]
    · rw [if_pos hr, if_neg h1, if_pos h2]
    · rw [if_pos hr, if_neg h1, if_neg h2, if_pos (hbusy.2 h3)]
    · rw [if_pos hr, if_neg h1, if_neg h2, if_neg (mt hbusy.1 h3)]

/-! ### LEAVE ASK (R41) -/

/-- The conditions of a leave grant, as a proposition (R41). -/
theorem leaveGranted_iff (s : State) (x : Nat) :
    s.leaveGranted x = true ↔
      (s.stm.state = .calm ∨ s.stm.state = .watch) ∧ s.policyDrop s.stm.state 14 = false ∧ (s.robot x).link = none ∧
        ∃ r, s.dockOf x = some r ∧ (s.row r).sup.reported = some .level ∧
          ∀ y, (s.robotOk y = true ∧ y ≠ x) → ∀ a, (s.robot y).asg = some a → a.row ≠ r := by
  have others : ∀ r, (s.robotIds.any fun y => decide (y ≠ x) && (s.robot y).asg.any fun a => decide (a.row = r)) = false ↔
      ∀ y, (s.robotOk y = true ∧ y ≠ x) → ∀ a, (s.robot y).asg = some a → a.row ≠ r := by
    intro r
    simp only [List.any_eq_false, State.robotIds, Tab.mem_idsWhere s.robots (p := fun k => k.node.isSome) rfl,
      Bool.and_eq_true, decide_eq_true_eq, Option.any_eq_true, not_and, not_exists, and_imp]
    rfl
  simp only [State.leaveGranted, Bool.and_eq_true, Bool.or_eq_true, decide_eq_true_eq, Bool.not_eq_true', leaveColumn,
    Option.isNone_iff_eq_none, and_assoc]
  refine and_congr_right fun _ => and_congr_right fun _ => and_congr_right fun _ => ?_
  cases hd : s.dockOf x with
  | none => simp
  | some r => simp only [Bool.and_eq_true, decide_eq_true_eq, Bool.not_eq_true', others, Option.some.injEq, exists_eq_left']

/-- The dispatcher after a LEAVE ASK: the row's own LEAVE ANSWER decided afresh, else a new one while there is room. -/
theorem leaveAsked_eq (x : Nat) (s : State) :
    leaveAsked x s =
      { s with dsp :=
          let o : Order := .leaveAnswer (if s.leaveGranted x then 1 else 0)
          if s.dsp.routine.any (fun e => e.isLeave (s.robotAddr x)) then
            { s.dsp with
              routine := s.dsp.routine.map (fun e => if e.isLeave (s.robotAddr x) then { e with order := o } else e) }
          else if s.dsp.routine.length < 256 then
            { s.dsp with
              routine := s.dsp.routine ++ [⟨s.robotAddr x, o, s.dsp.nextTag, true, .row⟩]
              nextTag := s.dsp.nextTag + 1 }
          else s.dsp } := by
  unfold leaveAsked
  dsimp only
  split
  · rfl
  · unfold offerRoutine
    simp only [List.any_cons, List.any_nil, Order.kind, Kind.stormHeld, Bool.or_false, Bool.and_false, Bool.false_eq_true,
      if_false, List.length_cons, List.length_nil]
    by_cases h : s.dsp.routine.length < 256
    · rw [if_neg (by omega), if_pos h]; rfl
    · rw [if_pos (by omega), if_neg h]

/-- A relay changes nothing but the uplink. -/
theorem State.relayed_eq (s : State) (pass : Bool) (src cls : Nat) (payload : List Byte) :
    s.relayed pass src cls payload = { s with up := (s.relayed pass src cls payload).up } := by
  unfold State.relayed offerRelay
  split_ifs <;> rfl

/-- Settles O25: a LEAVE ASK that reaches the dispatcher changes its routine queue alone; the relayed copy touches the
uplink alone, so the grant is judged on the same records. -/
theorem leaveAskAnswered : Obligations.LeaveAskAnswered := by
  intro src x s hrun hecho hnode hlaw u o d
  refine ⟨?_, leaveGranted_iff s x⟩
  have hu : u = { s with up := u.up } := State.relayed_eq _ _ _ _ _
  have hask : leaveAsked x u = { u with dsp := d } := by
    rw [hu]
    exact leaveAsked_eq x _
  have hexec : exec (.leaveAsk src) s = .next (settle (leaveAsked x u)) := by
    simp only [exec, execLeaveAsk, fieldLeave, classifyReport, if_neg hecho, hrun, Bool.not_true, Bool.false_eq_true, if_false,
      hnode]
    rfl
  rw [hexec, hask, settle_of_law]
  rw [hu]
  exact hlaw.congr rfl rfl rfl

end Sys2Proof.Machine
end

