-- ==== Sys2Proof/Proofs/FrameEnd.lean ====
section
/-! SUPPORT. The field frame end: what the sent event does at its owner, and that no work held for room is work not offered
again (R34, R100, R113, R119). -/

namespace Sys2Proof.Machine

/-! ### Work for each index in turn -/

theorem forEach_cons (a : Nat) (l : List Nat) (f : Nat → State → State) (s : State) :
    forEach (a :: l) f s = forEach l f (f a s) := rfl

/-- A property that each piece of work keeps is kept. -/
theorem forEach_keeps {P : State → Prop} {l : List Nat} {f : Nat → State → State} (h : ∀ i s, P s → P (f i s)) {s : State}
    (hs : P s) : P (forEach l f s) := by
  induction l generalizing s with
  | nil => exact hs
  | cons a l ih => exact ih (h a s hs)

/-- A property that one index's work brings about and no other ends holds after all of them. -/
theorem forEach_reaches {P Q : State → Prop} {l : List Nat} {f : Nat → State → State} {c : Nat} (hc : c ∈ l)
    (hP : ∀ i s, P s → P (f i s)) (hQ : ∀ i s, Q s → Q (f i s)) (h : ∀ s, P s → Q (f c s)) {s : State} (hs : P s) :
    Q (forEach l f s) := by
  induction l generalizing s with
  | nil => cases hc
  | cons a l ih =>
    rw [forEach_cons]
    rcases List.mem_cons.1 hc with rfl | hc
    · exact forEach_keeps hQ (h s hs)
    · exact ih hc (hP a s hs)

theorem forEach_eq_self {l : List Nat} {f : Nat → State → State} {s : State} (h : ∀ i ∈ l, f i s = s) : forEach l f s = s := by
  induction l with
  | nil => rfl
  | cons a l ih =>
    rw [forEach_cons, h a (List.mem_cons_self ..)]
    exact ih fun i hi => h i (List.mem_cons_of_mem _ hi)

/-- Where only one index has work to do, before and after it, that work is all. -/
theorem forEach_eq_single {l : List Nat} {f : Nat → State → State} {c : Nat} {s : State} (hc : c ∈ l) (hl : l.Nodup)
    (before : ∀ i, i ≠ c → f i s = s) (after : ∀ i, i ≠ c → f i (f c s) = f c s) : forEach l f s = f c s := by
  induction l with
  | nil => cases hc
  | cons a l ih =>
    obtain ⟨ha, hl⟩ := List.nodup_cons.1 hl
    rw [forEach_cons]
    rcases List.mem_cons.1 hc with rfl | hc
    · exact forEach_eq_self fun i hi => after i fun e => ha (e ▸ hi)
    · rw [before a fun e => ha (e ▸ hc)]
      exact ih hc hl

theorem Tab.idsWhere_nodup {α : Type} {d : α} (t : Tab d) (p : α → Bool) : (t.idsWhere p).Nodup := by
  have hlt : (t.idsWhere p).Pairwise (· < ·) := by
    refine List.Pairwise.filterMap _ (fun a b hab x hx y hy => ?_) t.2.1
    split_ifs at hx hy
    cases hx
    cases hy
    exact hab
  exact hlt.imp Nat.ne_of_lt

/-! ### Work held for room (R34) -/

/-- No owner holds work: no pass group, phase order, CART HOLD, posture order, stow order, second release, park order or
garage order is held for room. -/
structure NoneHeld (s : State) : Prop where
  pass : ∀ x, (s.robot x).asg.any (fun a => a.held) = false
  hold : ∀ c, (s.cart c).hold ≠ some ⟨none⟩
  phase : ∀ c, (s.cart c).transfer.any (fun t => !t.entered && !t.stalled && t.tag.isNone) = false
  posture : ∀ r, (s.row r).sup.orderPending = false
  stow : ∀ r, (s.row r).stow.held = false
  second : ∀ r, (s.row r).rel.any (fun e => e.held) = false
  park : ∀ x, (s.robot x).park.any (fun e => e.held) = false
  garage : ∀ c, (s.cart c).garageEntry.any (fun e => e.held) = false

theorem Tab.anyRec_eq_false {α : Type} {d : α} (t : Tab d) {p : α → Bool} (hp : p d = false) :
    t.anyRec p = false ↔ ∀ k, p (t.get k) = false := by
  rw [← Bool.not_eq_true, Tab.anyRec_iff t hp]
  simp

theorem heldRound_eq_false (s : State) : s.heldRound = false ↔ ∀ x, (s.robot x).asg.any (fun a => a.held) = false :=
  Tab.anyRec_eq_false s.robots rfl

theorem heldRows_eq_false (s : State) :
    s.heldRows = false ↔ (∀ r, (s.row r).sup.orderPending = false) ∧ ∀ r, (s.row r).stow.held = false := by
  rw [State.heldRows, Tab.anyRec_eq_false s.rows rfl, ← forall_and]
  simp only [Bool.or_eq_false_iff]
  rfl

theorem heldTransfers_eq_false (s : State) :
    s.heldTransfers = false ↔ (∀ c, (s.cart c).hold ≠ some ⟨none⟩) ∧
      ∀ c, (s.cart c).transfer.any (fun t => !t.entered && !t.stalled && t.tag.isNone) = false := by
  rw [State.heldTransfers, Tab.anyRec_eq_false s.carts rfl, ← forall_and]
  simp only [Bool.or_eq_false_iff, decide_eq_false_iff_not]
  rfl

theorem heldStorm_eq_false (s : State) :
    s.heldStorm = false ↔ (∀ r, (s.row r).rel.any (fun e => e.held) = false) ∧
      (∀ x, (s.robot x).park.any (fun e => e.held) = false) ∧ ∀ c, (s.cart c).garageEntry.any (fun e => e.held) = false := by
  rw [State.heldStorm, Bool.or_eq_false_iff, Bool.or_eq_false_iff, Tab.anyRec_eq_false s.rows rfl,
    Tab.anyRec_eq_false s.robots rfl, Tab.anyRec_eq_false s.carts rfl, and_assoc]
  rfl

theorem noneHeld_iff (s : State) :
    NoneHeld s ↔ s.heldRound = false ∧ s.heldTransfers = false ∧ s.heldRows = false ∧ s.heldStorm = false := by
  rw [heldRound_eq_false, heldTransfers_eq_false, heldRows_eq_false, heldStorm_eq_false]
  constructor
  · exact fun h => ⟨h.pass, ⟨h.hold, h.phase⟩, ⟨h.posture, h.stow⟩, h.second, h.park, h.garage⟩
  · rintro ⟨pass, ⟨hold, phase⟩, ⟨posture, stow⟩, second, park, garage⟩
    exact ⟨pass, hold, phase, posture, stow, second, park, garage⟩

theorem reofferAll_of_noneHeld {s : State} (h : NoneHeld s) : reofferAll s = s := by
  obtain ⟨h1, h2, h3, h4⟩ := (noneHeld_iff s).1 h
  simp only [reofferAll, h1, h2, h3, h4, onlyIf, Bool.false_eq_true, if_false, List.append_nil]
  rfl

theorem NoneHeld.updRobot {s : State} (h : NoneHeld s) {x : Nat} {f : Robot → Robot}
    (ha : (f (s.robot x)).asg.any (fun a => a.held) = false) (hp : (f (s.robot x)).park = (s.robot x).park) :
    NoneHeld (s.updRobot x f) := by
  refine ⟨fun y => ?_, h.hold, h.phase, h.posture, h.stow, h.second, fun y => ?_, h.garage⟩
  all_goals rw [State.robot_updRobot]; split
  · exact ha
  · exact h.pass y
  · rw [hp]; exact h.park x
  · exact h.park y

theorem NoneHeld.updCart {s : State} (h : NoneHeld s) {c : Nat} {f : Cart → Cart} (hh : (f (s.cart c)).hold ≠ some ⟨none⟩)
    (ht : (f (s.cart c)).transfer.any (fun t => !t.entered && !t.stalled && t.tag.isNone) = false)
    (hg : (f (s.cart c)).garageEntry = (s.cart c).garageEntry) : NoneHeld (s.updCart c f) := by
  refine ⟨h.pass, fun j => ?_, fun j => ?_, h.posture, h.stow, h.second, h.park, fun j => ?_⟩
  all_goals rw [State.cart_updCart]; split
  · exact hh
  · exact h.hold j
  · exact ht
  · exact h.phase j
  · rw [hg]; exact h.garage c
  · exact h.garage j

/-! ### The SECURED law across a change of one record -/

theorem SecuredLaw.updRobot {s : State} (h : SecuredLaw s) {x : Nat} {f : Robot → Robot}
    (hp : (f (s.robot x)).park = (s.robot x).park) : SecuredLaw (s.updRobot x f) := by
  refine h.congr rfl rfl (allSafe_congr (fun y => ?_) (fun _ => rfl) fun _ => rfl)
  rw [State.robot_updRobot]
  split
  · next e => rw [hp, e]
  · rfl

theorem SecuredLaw.updCart {s : State} (h : SecuredLaw s) {c : Nat} {f : Cart → Cart}
    (hg : (f (s.cart c)).garageEntry = (s.cart c).garageEntry) : SecuredLaw (s.updCart c f) := by
  refine h.congr rfl rfl (allSafe_congr (fun _ => rfl) (fun j => ?_) fun _ => rfl)
  rw [State.cart_updCart]
  split
  · next e => rw [hg, e]
  · rfl

/-! ### The sent event of a pass group (R100) -/

theorem passSent_of_tag {s : State} {tag x : Nat} {a : Assignment} (ht : s.robotWithTag tag = some x)
    (ha : (s.robot x).asg = some a) (hb : a.abandoned = false) :
    passSent tag s = s.updRobot x (fun k => { k with asg := some { a with
      phase := .running
      deadline := some (s.now + s.par .passBase + (s.row a.row).cfg.length * s.par .passPerMetre) } }) := by
  simp only [passSent, ht, updAsg, State.updRobot, Tab.upd]
  rw [State.robot] at ha
  rw [ha]
  simp only [Option.map_some, hb, Bool.false_eq_true, if_false]

/-! ### The sent event of a transfer's order (R113, R119) -/

/-- What `transferSent` does at one cart. -/
def cartSent (tag c : Nat) (s : State) : State :=
  let k := s.cart c
  if k.hold = some ⟨some tag⟩ then arbiter k.lane (s.updCart c (fun k => { k with hold := none }))
  else
    match k.transfer with
    | some t =>
      if t.tag = some tag ∧ t.stalled = false then
        s.updCart c (fun k => { k with
          transfer := some { t with entered := true, tag := none, deadline := some (phaseDeadline c t s) } })
      else s
    | none => s

theorem transferSent_eq (tag : Nat) (s : State) : transferSent tag s = forEach s.cartIds (cartSent tag) s := rfl

/-- The cart has nothing to do with the group: neither its pending hold nor its phase order has the tag. -/
def Cart.foreign (k : Cart) (tag : Nat) : Prop := k.hold ≠ some ⟨some tag⟩ ∧ ∀ t, k.transfer = some t → t.tag ≠ some tag

theorem cartSent_of_foreign {tag c : Nat} {s : State} (h : (s.cart c).foreign tag) : cartSent tag c s = s := by
  obtain ⟨hh, ht⟩ := h
  unfold cartSent
  rw [if_neg hh]
  split
  · next t e => exact if_neg fun k => ht t e k.1
  · rfl

theorem cartSent_of_phase {tag c : Nat} {t : Transfer} {s : State} (hh : (s.cart c).hold ≠ some ⟨some tag⟩)
    (ht : (s.cart c).transfer = some t) (hg : t.tag = some tag) (hs : t.stalled = false) :
    cartSent tag c s = s.updCart c (fun k => { k with
      transfer := some { t with entered := true, tag := none, deadline := some (phaseDeadline c t s) } }) := by
  simp only [cartSent, if_neg hh, ht, hg, hs, and_self, if_true]

theorem cartSent_of_hold {tag c : Nat} {s : State} (h : (s.cart c).hold = some ⟨some tag⟩) :
    cartSent tag c s = arbiter (s.cart c).lane (s.updCart c (fun k => { k with hold := none })) := if_pos h

/-- Without CALM, or without a request waiting, a lane's arbiter grants nothing (R111). -/
theorem arbiter_of_idle {lane : Nat} {s : State} (h : s.stm.state ≠ .calm ∨ s.lane lane = []) : arbiter lane s = s := by
  unfold arbiter
  split
  · next hc => rw [h.resolve_left (not_not.2 hc)]; rfl
  · rfl

/-- Where the tag is that of one cart alone, and its work leaves the other carts as they are, that work is all. -/
theorem transferSent_of_alone {tag c : Nat} {s : State} (hc : s.cartOk c = true)
    (alone : ∀ j, j ≠ c → (s.cart j).foreign tag) (kept : ∀ j, j ≠ c → (cartSent tag c s).cart j = s.cart j) :
    transferSent tag s = cartSent tag c s := by
  rw [transferSent_eq]
  refine forEach_eq_single ?_ (Tab.idsWhere_nodup _ _) (fun j hj => cartSent_of_foreign (alone j hj)) fun j hj => ?_
  · exact (Tab.mem_idsWhere s.carts rfl c).2 hc
  · exact cartSent_of_foreign (by rw [kept j hj]; exact alone j hj)

/-! ### What grants and sent events leave alone -/

theorem offerRoutine_carts (o : Owner) (d : Nat) (os : List Order) (s : State) :
    (offerRoutine o d os s).1.carts = s.carts := by
  unfold offerRoutine
  split_ifs <;> rfl

theorem offerRoutine_rows (o : Owner) (d : Nat) (os : List Order) (s : State) :
    (offerRoutine o d os s).1.rows = s.rows := by
  unfold offerRoutine
  split_ifs <;> rfl

theorem offerRoutine_robots (o : Owner) (d : Nat) (os : List Order) (s : State) :
    (offerRoutine o d os s).1.robots = s.robots := by
  unfold offerRoutine
  split_ifs <;> rfl

/-- A cart's grants, phases and holds change no work that another owner than the Transfer Controller may hold, and a
pending CART HOLD only by its end. -/
structure HoldsEnd (s t : State) : Prop where
  asg : ∀ x, (t.robot x).asg = (s.robot x).asg
  park : ∀ x, (t.robot x).park = (s.robot x).park
  pending : ∀ r, (t.row r).sup.orderPending = (s.row r).sup.orderPending
  stow : ∀ r, (t.row r).stow = (s.row r).stow
  rel : ∀ r, (t.row r).rel = (s.row r).rel
  garage : ∀ c, (t.cart c).garageEntry = (s.cart c).garageEntry
  hold : ∀ c, (t.cart c).hold = (s.cart c).hold ∨ (t.cart c).hold = none

theorem HoldsEnd.refl (s : State) : HoldsEnd s s :=
  ⟨fun _ => rfl, fun _ => rfl, fun _ => rfl, fun _ => rfl, fun _ => rfl, fun _ => rfl, fun _ => .inl rfl⟩

theorem HoldsEnd.trans {s t u : State} (h : HoldsEnd s t) (k : HoldsEnd t u) : HoldsEnd s u :=
  ⟨fun x => (k.asg x).trans (h.asg x), fun x => (k.park x).trans (h.park x), fun r => (k.pending r).trans (h.pending r),
    fun r => (k.stow r).trans (h.stow r), fun r => (k.rel r).trans (h.rel r), fun c => (k.garage c).trans (h.garage c),
    fun c => by
      rcases k.hold c with e | e
      · rw [e]; exact h.hold c
      · exact .inr e⟩

theorem HoldsEnd.updCart {s : State} {c : Nat} {f : Cart → Cart} (hg : ∀ k, (f k).garageEntry = k.garageEntry)
    (hh : ∀ k, (f k).hold = k.hold ∨ (f k).hold = none) : HoldsEnd s (s.updCart c f) := by
  refine ⟨fun _ => rfl, fun _ => rfl, fun _ => rfl, fun _ => rfl, fun _ => rfl, fun j => ?_, fun j => ?_⟩
  all_goals rw [State.cart_updCart]; split
  · next e => rw [hg, e]
  · rfl
  · next e => rw [e]; exact hh _
  · exact .inl rfl

theorem HoldsEnd.updRobot {s : State} {x : Nat} {f : Robot → Robot} (ha : ∀ k, (f k).asg = k.asg)
    (hp : ∀ k, (f k).park = k.park) : HoldsEnd s (s.updRobot x f) := by
  refine ⟨fun y => ?_, fun y => ?_, fun _ => rfl, fun _ => rfl, fun _ => rfl, fun _ => rfl, fun _ => .inl rfl⟩
  all_goals rw [State.robot_updRobot]; split
  · next e => rw [ha, e]
  · rfl
  · next e => rw [hp, e]
  · rfl

theorem HoldsEnd.updSup {s : State} {r : Nat} {f : RowSup → RowSup} (h : ∀ u, (f u).orderPending = u.orderPending) :
    HoldsEnd s (s.updSup r f) := by
  refine ⟨fun _ => rfl, fun _ => rfl, fun q => ?_, fun q => ?_, fun q => ?_, fun _ => rfl, fun _ => .inl rfl⟩
  all_goals rw [State.row_updSup]; split
  · next e => rw [e]; exact h _
  · rfl
  · next e => rw [e]
  · rfl
  · next e => rw [e]
  · rfl

theorem HoldsEnd.offerRoutine (o : Owner) (d : Nat) (os : List Order) (s : State) :
    HoldsEnd s (offerRoutine o d os s).1 := by
  have hc := offerRoutine_carts o d os s
  have hr := offerRoutine_rows o d os s
  have hx := offerRoutine_robots o d os s
  constructor
  case hold => exact fun c => .inl (by simp only [State.cart, hc])
  all_goals intro i; simp only [State.cart, State.row, State.robot, hc, hr, hx]

theorem HoldsEnd.offerPhase (c : Nat) (s : State) : HoldsEnd s (offerPhase c s).1 := by
  unfold Machine.offerPhase
  split
  · exact .refl s
  next t _ =>
  split
  · exact .refl s
  have h := HoldsEnd.offerRoutine .transfer (phaseOrder c t s).1 [(phaseOrder c t s).2] s
  dsimp only
  generalize Machine.offerRoutine .transfer (phaseOrder c t s).1 [(phaseOrder c t s).2] s = p at h ⊢
  obtain ⟨u, a⟩ := p
  cases a with
  | accepted g => exact h.trans (.updCart (fun _ => rfl) fun _ => .inl rfl)
  | noRoom => exact h
  | stormRefused => exact h

theorem HoldsEnd.grant (lane c : Nat) (q : Request) (s : State) : HoldsEnd s (grant lane c q s) := by
  unfold Machine.grant
  dsimp only
  refine .trans ?_ (.offerPhase c _)
  refine .trans ?_ (.updRobot (fun _ => rfl) fun _ => rfl)
  refine .trans ?_ (.updSup fun _ => rfl)
  refine .trans ?_ (.updCart (fun _ => rfl) fun _ => .inl rfl)
  exact ⟨fun _ => rfl, fun _ => rfl, fun _ => rfl, fun _ => rfl, fun _ => rfl, fun _ => rfl, fun _ => .inl rfl⟩

theorem HoldsEnd.arbiter (lane : Nat) (s : State) : HoldsEnd s (arbiter lane s) := by
  have grants : ∀ n s, HoldsEnd s (grants lane n s) := by
    intro n
    induction n with
    | zero => exact .refl
    | succ n ih =>
      intro s
      unfold Machine.grants
      split
      · exact .refl s
      · split
        · exact .refl s
        · exact (HoldsEnd.grant _ _ _ _).trans (ih _)
  unfold Machine.arbiter
  split
  · exact grants _ _
  · exact .refl s

theorem HoldsEnd.cartSent (tag c : Nat) (s : State) : HoldsEnd s (cartSent tag c s) := by
  unfold Machine.cartSent
  dsimp only
  split
  · exact (HoldsEnd.updCart (f := fun k => { k with hold := none }) (fun _ => rfl) fun _ => .inr rfl).trans (.arbiter _ _)
  · split
    · split
      · exact .updCart (fun _ => rfl) fun _ => .inl rfl
      · exact .refl s
    · exact .refl s

theorem HoldsEnd.transferSent (tag : Nat) (s : State) : HoldsEnd s (transferSent tag s) :=
  forEach_keeps (P := HoldsEnd s) (fun c _ h => h.trans (.cartSent tag c _)) (.refl s)

/-- A pending CART HOLD that was sent has ended, whatever the arbiters granted besides. -/
theorem transferSent_hold {tag c : Nat} {s : State} (hc : s.cartOk c = true) (h : (s.cart c).hold = some ⟨some tag⟩) :
    ((transferSent tag s).cart c).hold = none := by
  rw [transferSent_eq]
  refine forEach_reaches (P := fun t => (t.cart c).hold = some ⟨some tag⟩ ∨ (t.cart c).hold = none)
    (Q := fun t => (t.cart c).hold = none) (c := c) ?_ (fun j t ht => ?_) (fun j t ht => ?_) (fun t ht => ?_) (.inl h)
  · exact (Tab.mem_idsWhere s.carts rfl c).2 hc
  · rcases (HoldsEnd.cartSent tag j t).hold c with e | e
    · rwa [e]
    · exact .inr e
  · rcases (HoldsEnd.cartSent tag j t).hold c with e | e
    · rwa [e]
    · exact e
  · rcases ht with ht | ht
    · rw [cartSent_of_hold ht]
      rcases (HoldsEnd.arbiter (t.cart c).lane (t.updCart c fun k => { k with hold := none })).hold c with e | e
      · rw [e, State.cart_updCart, if_pos rfl]
      · exact e
    · rcases (HoldsEnd.cartSent tag c t).hold c with e | e
      · rwa [e]
      · exact e

/-! ### Held orders of transfers in CALM (R113, R119) -/

theorem offerPhase_of_calm {c : Nat} {s : State} (h : s.stm.state = .calm) : (offerPhase c s).2 ≠ some .stormRefused := by
  unfold offerPhase
  split
  · nofun
  split
  · nofun
  next t _ _ =>
  have hs : s.stm.state.stormy = false := by rw [h]; rfl
  dsimp only [offerRoutine]
  rw [hs, Bool.false_and, if_neg Bool.false_ne_true]
  by_cases hroom : s.dsp.routine.length + [(phaseOrder c t s).2].length > 256
  · rw [if_pos hroom]; nofun
  · rw [if_neg hroom]; nofun

/-- In CALM no BOARD is refused for the storm, so a phase order offered again is offered and nothing else. -/
theorem reofferPhase_of_calm {c : Nat} {s : State} (h : s.stm.state = .calm) : reofferPhase c s = (offerPhase c s).1 := by
  have hne := offerPhase_of_calm (c := c) h
  unfold reofferPhase
  split
  · next e => rw [e] at hne; exact absurd rfl hne
  · next e => rw [e]

/-- An offer of CART HOLD to one cart leaves the others alone. -/
theorem offerHold_cart_ne {c j : Nat} (h : c ≠ j) (s : State) : (offerHold j s).cart c = s.cart c := by
  have hc := offerRoutine_carts .transfer (s.cartAddr j) [.cartHold] s
  unfold offerHold
  generalize offerRoutine .transfer (s.cartAddr j) [.cartHold] s = p at hc ⊢
  obtain ⟨u, a⟩ := p
  have hu : u.cart c = s.cart c := congrArg (fun t : Tab (Cart.fresh none 0 0) => t.get c) hc
  cases a <;> exact (State.cart_updCart u j c _).trans ((if_neg h).trans hu)

/-- Offering held orders again in CALM starts no CART HOLD at a cart that has none pending. -/
theorem reofferHeld_hold_none {c j : Nat} {s : State} (hs : s.stm.state = .calm) (hh : (s.cart c).hold = none) :
    ((reofferHeld j s).cart c).hold = none := by
  have h1 : ((reofferPhase j s).cart c).hold = none := by
    rw [reofferPhase_of_calm hs]
    rcases (HoldsEnd.offerPhase j s).hold c with e | e
    · rwa [e]
    · exact e
  unfold reofferHeld reofferHold
  split
  · next hj =>
    have hcj : c ≠ j := by
      rintro rfl
      rw [h1] at hj
      cases hj
    rw [offerHold_cart_ne hcj]
    exact h1
  · exact h1

theorem reofferTransfers_hold_none {c : Nat} {s : State} (hs : s.stm.state = .calm) (hh : (s.cart c).hold = none) :
    ((reofferTransfers s).cart c).hold = none := by
  have h : (reofferTransfers s).stm.state = .calm ∧ ((reofferTransfers s).cart c).hold = none := by
    refine forEach_keeps (P := fun t => t.stm.state = .calm ∧ (t.cart c).hold = none) (fun j t ⟨h1, h2⟩ => ⟨?_, ?_⟩) ⟨hs, hh⟩
    · rw [(reofferHeld_moves (A := {}) j t).stm_eq rfl]
      exact h1
    · exact reofferHeld_hold_none h1 h2
  exact h.2

/-- Where only the Transfer Controller may hold work, only it offers work again. -/
theorem reofferAll_of_transfers {s : State} (hr : s.heldRound = false) (hw : s.heldRows = false) (hs : s.heldStorm = false) :
    reofferAll s = if s.heldTransfers then reofferTransfers s else s := by
  simp only [reofferAll, hr, hw, hs, onlyIf, Bool.false_eq_true, if_false, List.append_nil, List.nil_append]
  split <;> rfl

theorem reofferAll_hold_none {c : Nat} {s : State} (hr : s.heldRound = false) (hw : s.heldRows = false)
    (hs : s.heldStorm = false) (hcalm : s.stm.state = .calm) (hh : (s.cart c).hold = none) :
    ((reofferAll s).cart c).hold = none := by
  rw [reofferAll_of_transfers hr hw hs]
  split
  · exact reofferTransfers_hold_none hcalm hh
  · exact hh

/-- Grants, phases and ended holds leave the other owners without held work. -/
theorem HoldsEnd.noneHeld {s t : State} (h : HoldsEnd s t) (n : NoneHeld s) :
    t.heldRound = false ∧ t.heldRows = false ∧ t.heldStorm = false := by
  rw [heldRound_eq_false, heldRows_eq_false, heldStorm_eq_false]
  exact ⟨fun x => by rw [h.asg]; exact n.pass x,
    ⟨fun r => by rw [h.pending]; exact n.posture r, fun r => by rw [h.stow]; exact n.stow r⟩,
    fun r => by rw [h.rel]; exact n.second r, fun x => by rw [h.park]; exact n.park x,
    fun c => by rw [h.garage]; exact n.garage c⟩

/-! ### The frame end -/

/-- The transmitter is free. -/
def State.airFreed (s : State) : State := { s with dsp := { s.dsp with air := none } }

theorem NoneHeld.airFreed {s : State} (h : NoneHeld s) : NoneHeld s.airFreed :=
  ⟨h.pass, h.hold, h.phase, h.posture, h.stow, h.second, h.park, h.garage⟩

theorem SecuredLaw.airFreed {s : State} (h : SecuredLaw s) : SecuredLaw s.airFreed := h

theorem exec_frameEnd_of_idle {s : State} (h : SecuredLaw s) (ha : s.dsp.air = none) :
    exec .frameEnd s = .next (noteQueues s) := by
  show Host.Outcome.next (settle (frameEnd s)) = _
  rw [frameEnd, ha]
  exact congrArg Host.Outcome.next (settle_of_law h)

theorem exec_frameEnd_of_air {s : State} {f : AirFrame} (ha : s.dsp.air = some f) :
    exec .frameEnd s =
      .next (settle (reofferAll (if f.handOn then sentEvent f.entry s.airFreed else s.airFreed))) := by
  show Host.Outcome.next (settle (frameEnd s)) = _
  rw [frameEnd, ha]
  rfl

/-- A frame end stays inside its frame, the transmitter free. -/
theorem exec_frameEnd_frame {s : State} {f : AirFrame} (ha : s.dsp.air = some f) :
    ∃ u, exec .frameEnd s = .next u ∧ u.dsp.air = none ∧ Frame s.airFreed u := by
  have sent : Moves { storm := true } s.airFreed (if f.handOn then sentEvent f.entry s.airFreed else s.airFreed) := by
    split
    · exact sentEvent_moves _ _
    · exact .refl _
  have h := (settle_moves (A := { storm := true }) rfl _).after ((reofferAll_moves _).after sent)
  exact ⟨_, exec_frameEnd_of_air ha, h.links.fieldAir, h.frame rfl rfl rfl⟩

/-- Where the sent event leaves no work held and the SECURED test nothing to find, it is all that happens. -/
theorem exec_frameEnd_of_noneHeld {s t : State} {f : AirFrame} (ha : s.dsp.air = some f)
    (ht : (if f.handOn then sentEvent f.entry s.airFreed else s.airFreed) = t) (hn : NoneHeld t) (hl : SecuredLaw t) :
    exec .frameEnd s = .next (noteQueues t) := by
  rw [exec_frameEnd_of_air ha, ht, reofferAll_of_noneHeld hn, settle_of_law hl]

/-- The owners that take no sent event: a pass group before its last entry, and the three besides planner and Transfer
Controller. -/
theorem sentEvent_of_untold {e : Entry} {s : State}
    (h : e.owner = .storm ∨ e.owner = .row ∨ e.owner = .supervisor ∨ e.owner = .round ∧ e.last = false) :
    sentEvent e s = s := by
  unfold sentEvent
  rcases h with h | h | h | ⟨h, hl⟩
  · rw [h]
  · rw [h]
  · rw [h]
  · rw [h, hl]; rfl

section Sent

variable {s : State} {f : AirFrame} (hlaw : SecuredLaw s) (hn : NoneHeld s) (ha : s.dsp.air = some f)
include hlaw hn ha

theorem exec_frameEnd_untold
    (h : f.handOn = false ∨ f.entry.owner = .storm ∨ f.entry.owner = .row ∨ f.entry.owner = .supervisor ∨
      f.entry.owner = .round ∧ f.entry.last = false) : exec .frameEnd s = .next (noteQueues s.airFreed) := by
  refine exec_frameEnd_of_noneHeld ha ?_ hn.airFreed hlaw.airFreed
  rcases h with h | h
  · rw [h]; rfl
  · split
    · exact sentEvent_of_untold h
    · rfl

theorem exec_frameEnd_pass {x : Nat} {a : Assignment} (ho : f.handOn = true) (hr : f.entry.owner = .round)
    (hl : f.entry.last = true) (ht : s.robotWithTag f.entry.tag = some x) (hx : (s.robot x).asg = some a)
    (hb : a.abandoned = false) :
    exec .frameEnd s = .next (noteQueues (s.airFreed.updRobot x (fun k => { k with asg := some { a with
      phase := .running
      deadline := some (s.now + s.par .passBase + (s.row a.row).cfg.length * s.par .passPerMetre) } }))) := by
  refine exec_frameEnd_of_noneHeld ha ?_ ?_ ?_
  · rw [if_pos ho]
    simp only [sentEvent, hr, hl, if_true]
    exact passSent_of_tag (s := s.airFreed) ht hx hb
  · refine hn.airFreed.updRobot ?_ rfl
    have := hn.pass x
    rw [hx] at this
    exact this
  · exact hlaw.airFreed.updRobot rfl

theorem exec_frameEnd_phase {c : Nat} {g : Transfer} (ho : f.handOn = true) (hr : f.entry.owner = .transfer)
    (hc : s.cartOk c = true) (alone : ∀ j, j ≠ c → (s.cart j).foreign f.entry.tag)
    (hh : (s.cart c).hold ≠ some ⟨some f.entry.tag⟩) (ht : (s.cart c).transfer = some g) (hg : g.tag = some f.entry.tag)
    (hs : g.stalled = false) :
    exec .frameEnd s = .next (noteQueues (s.airFreed.updCart c (fun k => { k with transfer := some { g with
      entered := true, tag := none, deadline := some (phaseDeadline c g s) } }))) := by
  refine exec_frameEnd_of_noneHeld ha ?_ ?_ ?_
  · rw [if_pos ho, sentEvent, hr]
    have hone := cartSent_of_phase (s := s.airFreed) hh ht hg hs
    refine (transferSent_of_alone (s := s.airFreed) hc alone fun j hj => ?_).trans hone
    rw [hone, State.cart_updCart, if_neg hj]
  · exact hn.airFreed.updCart (hn.hold c) rfl rfl
  · exact hlaw.airFreed.updCart rfl

theorem exec_frameEnd_hold_idle {c : Nat} (ho : f.handOn = true) (hr : f.entry.owner = .transfer) (hc : s.cartOk c = true)
    (alone : ∀ j, j ≠ c → (s.cart j).foreign f.entry.tag) (hh : (s.cart c).hold = some ⟨some f.entry.tag⟩)
    (hidle : s.stm.state ≠ .calm ∨ s.lane (s.cart c).lane = []) :
    exec .frameEnd s = .next (noteQueues (s.airFreed.updCart c (fun k => { k with hold := none }))) := by
  refine exec_frameEnd_of_noneHeld ha ?_ ?_ ?_
  · rw [if_pos ho, sentEvent, hr]
    have hone : cartSent f.entry.tag c s.airFreed = s.airFreed.updCart c (fun k => { k with hold := none }) :=
      (cartSent_of_hold (s := s.airFreed) hh).trans (arbiter_of_idle hidle)
    refine (transferSent_of_alone (s := s.airFreed) hc alone fun j hj => ?_).trans hone
    rw [hone, State.cart_updCart, if_neg hj]
  · exact hn.airFreed.updCart nofun (hn.phase c) rfl
  · exact hlaw.airFreed.updCart rfl

omit hlaw in
theorem exec_frameEnd_hold_calm {c : Nat} (ho : f.handOn = true) (hr : f.entry.owner = .transfer) (hc : s.cartOk c = true)
    (hh : (s.cart c).hold = some ⟨some f.entry.tag⟩) (hcalm : s.stm.state = .calm) :
    ∃ u, exec .frameEnd s = .next u ∧ (u.cart c).hold = none := by
  refine ⟨_, exec_frameEnd_of_air ha, ?_⟩
  rw [if_pos ho, sentEvent, hr]
  obtain ⟨hround, hrows, hstorm⟩ := (HoldsEnd.transferSent f.entry.tag s.airFreed).noneHeld hn.airFreed
  have hsent : (transferSent f.entry.tag s.airFreed).stm = s.airFreed.stm :=
    (transferSent_moves (A := {}) f.entry.tag s.airFreed).stm_eq rfl
  have hoffer : (reofferAll (transferSent f.entry.tag s.airFreed)).stm = s.airFreed.stm :=
    ((reofferAll_moves (A := {}) _).stm_eq rfl).trans hsent
  have hlaw : SecuredLaw (reofferAll (transferSent f.entry.tag s.airFreed)) := fun _ hp => by
    rw [hoffer] at hp
    cases hcalm.symm.trans hp
  rw [settle_of_law hlaw]
  exact reofferAll_hold_none hround hrows hstorm (by rw [hsent]; exact hcalm) (transferSent_hold hc hh)

end Sent

/-- Settles O47: by what is on the air and whose it is; with no work held the sent event is all that happens, but for the
grant that the end of a CART HOLD may bring. -/
theorem frameEndHandsOn : Obligations.FrameEndHandsOn := by
  intro s hlaw
  refine ⟨exec_frameEnd_of_idle hlaw, fun f ha => ?_⟩
  intro t alone apart slot
  refine ⟨exec_frameEnd_frame ha, fun h1 h2 h3 h4 => ?_⟩
  have hn : NoneHeld s := (noneHeld_iff s).2 ⟨h1, h2, h3, h4⟩
  refine ⟨exec_frameEnd_untold hlaw hn ha, fun x a ho hr hl ht hx hb => exec_frameEnd_pass hlaw hn ha ho hr hl ht hx hb,
    fun c g ho hr hc hal hh ht hg hs => ?_, fun c ho hr hc hal hh => ⟨?_, exec_frameEnd_hold_idle hlaw hn ha ho hr hc hal hh⟩⟩
  · intro limit
    rw [exec_frameEnd_phase hlaw hn ha ho hr hc hal hh ht hg hs]
    have hlimit : phaseDeadline c g s = s.now + limit := by
      cases hp : g.phase <;> simp only [phaseDeadline, limit, hp, Nat.add_assoc] <;> rfl
    rw [hlimit]
    rfl
  · obtain ⟨u, hu, -, hframe⟩ := exec_frameEnd_frame ha
    refine ⟨u, hu, ?_, hframe⟩
    by_cases hcalm : s.stm.state = .calm
    · obtain ⟨v, hv, hhold⟩ := exec_frameEnd_hold_calm hn ha ho hr hc hh hcalm
      cases hu.symm.trans hv
      exact hhold
    · cases hu.symm.trans (exec_frameEnd_hold_idle hlaw hn ha ho hr hc hal hh (.inl hcalm))
      exact congrArg Cart.hold (State.cart_updCart s.airFreed c c _ |>.trans (if_pos rfl))

end Sys2Proof.Machine
end

