-- ==== Sys2Proof/Proofs/QueueLaws.lean ====
section
/-! SUPPORT. The laws of the queues, of the NOTICE and of the clock across the steps: a relation between states that every
operation keeps, its rules for the primitive changes, and the operations that are no runs of moves (R29, R30, R45, R155,
R171, R173). -/

namespace Sys2Proof.Machine

/-! ### The relation and its rules -/

/-- What holds of the first state's queues, NOTICE and clock holds of the second's. -/
structure LawsKept (s t : State) : Prop where
  queue : QueueLaw s → QueueLaw t
  notice : NoticeLaw s → NoticeLaw t
  clock : ClockLaw s → ClockLaw t

theorem LawsKept.refl (s : State) : LawsKept s s := ⟨id, id, id⟩

theorem LawsKept.trans {s t u : State} (h : LawsKept s t) (k : LawsKept t u) : LawsKept s u :=
  ⟨k.queue ∘ h.queue, k.notice ∘ h.notice, k.clock ∘ h.clock⟩

theorem LawsKept.after {s t u : State} (k : LawsKept t u) (h : LawsKept s t) : LawsKept s u := h.trans k

theorem ClockLaw.of_clk {s t : State} (h : t.clk = s.clk) (l : ClockLaw s) : ClockLaw t :=
  ⟨h ▸ l.range, h ▸ l.unset⟩

/-- Every kind of move. -/
def Allow.all : Allow := ⟨true, true, true, true, true, true, true⟩

theorem LawsKept.moves {s t : State} (h : Moves Allow.all s t) : LawsKept s t :=
  ⟨h.queueLaw, h.noticeLaw, ClockLaw.of_clk h.site.clk⟩

/-- A change that leaves clock, uplink and the owed mark alone, and lengthens no order queue. -/
theorem LawsKept.shrink {s t : State} (hc : t.clk = s.clk) (hn : t.ntc.owed = s.ntc.owed) (hu : t.up = s.up)
    (hr : t.dsp.routine.length ≤ s.dsp.routine.length) (hw : urgentWork t.dsp.urgent ≤ urgentWork s.dsp.urgent) :
    LawsKept s t where
  queue l := ⟨by rw [hu]; exact l.uplink, hr.trans l.routine, hw.trans l.urgent⟩
  notice l := by
    unfold NoticeLaw State.unsentUp at *
    rw [hu, hn]
    exact l
  clock := ClockLaw.of_clk hc

/-- A change outside clock, notices, uplink and dispatcher. -/
theorem LawsKept.same {s t : State} (hc : t.clk = s.clk) (hn : t.ntc = s.ntc) (hu : t.up = s.up) (hd : t.dsp = s.dsp) :
    LawsKept s t :=
  .shrink hc (by rw [hn]) hu (by rw [hd]) (by rw [hd])

section Updates

variable (s : State) (i : Nat)

theorem updCfg_kept (f : RowCfg → RowCfg) : LawsKept s (s.updCfg i f) := .same rfl rfl rfl rfl
theorem updSup_kept (f : RowSup → RowSup) : LawsKept s (s.updSup i f) := .same rfl rfl rfl rfl
theorem updSoil_kept (f : Soil → Soil) : LawsKept s (s.updSoil i f) := .same rfl rfl rfl rfl
theorem updAcct_kept (f : Account → Account) : LawsKept s (s.updAcct i f) := .same rfl rfl rfl rfl
theorem updBanks_kept (f : Banks → Banks) : LawsKept s (s.updBanks i f) := .same rfl rfl rfl rfl
theorem updRobot_kept (f : Robot → Robot) : LawsKept s (s.updRobot i f) := .same rfl rfl rfl rfl
theorem updCart_kept (f : Cart → Cart) : LawsKept s (s.updCart i f) := .same rfl rfl rfl rfl
theorem updMast_kept (f : Mast → Mast) : LawsKept s (s.updMast i f) := .same rfl rfl rfl rfl
theorem mapSup_kept (f : RowSup → RowSup) : LawsKept s (s.mapSup f) := .same rfl rfl rfl rfl
theorem setStm_kept (f : StormUnit → StormUnit) : LawsKept s (s.setStm f) := .same rfl rfl rfl rfl
theorem setRnd_kept (f : Planner → Planner) : LawsKept s (s.setRnd f) := .same rfl rfl rfl rfl
theorem setEp_kept (f : EpochUnit → EpochUnit) : LawsKept s (s.setEp f) := .same rfl rfl rfl rfl
theorem setYld_kept (f : YieldUnit → YieldUnit) : LawsKept s (s.setYld f) := .same rfl rfl rfl rfl
theorem setPar_kept (p : Param) (v : Nat) : LawsKept s (s.setPar p v) := .same rfl rfl rfl rfl

end Updates

theorem LawsKept.ite {c : Prop} [Decidable c] {s t u : State} (h : LawsKept s t) (k : LawsKept s u) :
    LawsKept s (if c then t else u) := by
  split
  · exact h
  · exact k

/-- Work that is done where a condition holds, and else not. -/
theorem LawsKept.thenIf {c : Prop} [Decidable c] {s t u : State} (h : LawsKept s t) (k : LawsKept t u) :
    LawsKept s (if c then u else t) := .ite (h.trans k) h

theorem foldl_kept {β : Type} {l : List β} {f : State → β → State} (h : ∀ s b, LawsKept s (f s b)) (s : State) :
    LawsKept s (l.foldl f s) := by
  induction l generalizing s with
  | nil => exact .refl s
  | cons b l ih => exact (h s b).trans (ih _)

theorem forEach_kept {l : List Nat} {f : Nat → State → State} (h : ∀ i s, LawsKept s (f i s)) (s : State) :
    LawsKept s (forEach l f s) := foldl_kept (fun s i => h i s) s

theorem inAnyOrder_kept {l : List (State → State)} (h : ∀ f ∈ l, ∀ s, LawsKept s (f s)) (s : State) :
    LawsKept s (inAnyOrder l s) := by
  have fold : ∀ m : List (State → State), (∀ f ∈ m, ∀ s, LawsKept s (f s)) → ∀ s,
      LawsKept s (m.foldl (fun t f => f t) s) := by
    intro m
    induction m with
    | nil => exact fun _ s => .refl s
    | cons f m ih =>
      exact fun h s => (h f (List.mem_cons_self ..) s).trans (ih (fun g hg => h g (List.mem_cons_of_mem _ hg)) _)
  unfold inAnyOrder
  split
  · exact .refl s
  · exact h _ (List.mem_cons_self ..) s
  · exact (fold _ (fun f hf => h f ((freeOrder_perm _ _).mem_iff.1 hf)) _).after (.same rfl rfl rfl rfl)

/-- Work of two lists in any order. -/
theorem forall_append {P : (State → State) → Prop} {l m : List (State → State)} (h : ∀ f ∈ l, P f) (k : ∀ f ∈ m, P f) :
    ∀ f ∈ l ++ m, P f := fun f hf => (List.mem_append.1 hf).elim (h f) (k f)

theorem onlyIf_kept {b : Bool} {g : State → State} (h : ∀ s, LawsKept s (g s)) : ∀ f ∈ onlyIf b g, ∀ s, LawsKept s (f s) := by
  intro f hf
  obtain ⟨-, rfl⟩ := mem_onlyIf hf
  exact h

/-! ### The uplink queue -/

/-- A frame other than a NOTICE joins the uplink queue where there is room. -/
theorem pushUp_kept {e : UpEntry} (he : e ≠ .notice) {s : State} (hs : s.up.queue.length < 64) :
    LawsKept s (s.pushUp e) where
  queue l := by
    refine ⟨?_, l.routine, l.urgent⟩
    show (s.up.queue ++ [e]).length ≤ 64
    rw [List.length_append]
    exact hs
  notice l := by
    have hcount : (s.pushUp e).unsentUp.count .notice = s.unsentUp.count .notice := by
      rcases unsent_append s e with h | h <;> rw [h]
      rw [List.count_append, List.count_singleton, beq_false_of_ne he]
      rfl
    unfold NoticeLaw at *
    rw [hcount]
    exact l
  clock := ClockLaw.of_clk rfl

theorem offerAnswer_kept (dst cls : Nat) (payload : List Byte) (s : State) :
    LawsKept s (offerAnswer dst cls payload s) := by
  unfold offerAnswer
  split
  · exact pushUp_kept (by nofun) ‹_›
  · exact .refl s

theorem reply_kept (q : Req) (cls kind : Nat) (code : Code) (detail : List Byte) (s : State) :
    LawsKept s (reply q cls kind code detail s) := offerAnswer_kept _ _ _ s

theorem replyCtl_kept (q : Req) (kind : Nat) (code : Code) (detail : List Byte) (s : State) :
    LawsKept s (replyCtl q kind code detail s) := reply_kept _ _ _ _ _ s

theorem offerRelay_kept (src cls : Nat) (payload : List Byte) (s : State) : LawsKept s (offerRelay src cls payload s) := by
  unfold offerRelay
  split
  · exact pushUp_kept (by nofun) (by omega)
  · exact .refl s

theorem useChoice_kept (l : RecBytes) (s : State) : LawsKept s (useChoice l s) := by
  unfold useChoice
  exact .ite (.same rfl rfl rfl rfl) (.refl _)

theorem offerReport_kept (s : State) : LawsKept s (offerReport s) := by
  unfold offerReport
  split
  · next h =>
    refine .after (setEp_kept _ _) (.after (useChoice_kept _ _) ?_)
    exact pushUp_kept (by nofun) h.2
  · exact .refl s

theorem offerNotice_queueLaw {s : State} (l : QueueLaw s) : QueueLaw (offerNotice s) := by
  unfold offerNotice
  split
  · next h =>
    refine ⟨?_, l.routine, l.urgent⟩
    show (s.up.queue ++ [UpEntry.notice]).length ≤ 64
    rw [List.length_append]
    exact h
  · exact ⟨l.uplink, l.routine, l.urgent⟩

theorem offerNotice_clk (s : State) : (offerNotice s).clk = s.clk := by
  unfold offerNotice
  split <;> rfl

theorem causeNotice_kept (s : State) : LawsKept s (causeNotice s) := by
  refine ⟨fun l => ?_, causeNotice_law s, ClockLaw.of_clk ?_⟩ <;> unfold causeNotice <;> split
  · exact l
  · exact offerNotice_queueLaw l
  · rfl
  · exact offerNotice_clk s

/-- A frame start on the uplink takes the head of the queue from the frames not started. -/
theorem uplinkStart_kept (s : State) : LawsKept s (uplinkStart s) := by
  unfold uplinkStart
  split
  · next e l hair hq =>
    have start : LawsKept s { s with up := { s.up with air := some (s.uplinkBytes e) } } := by
      refine ⟨fun k => ⟨k.uplink, k.routine, k.urgent⟩, fun k => ?_, ClockLaw.of_clk rfl⟩
      simp only [NoticeLaw, State.unsentUp, hair, hq, Option.isSome_none, Option.isSome_some, Bool.false_eq_true, if_false,
        if_true, List.tail_cons] at k ⊢
      have := List.count_le_count_cons (a := UpEntry.notice) (b := e) (l := l)
      omega
    dsimp only
    split
    · exact start.trans (.shrink rfl rfl rfl le_rfl le_rfl)
    · exact start
  · exact .refl s

/-- A frame end on the uplink takes out the frame that was started; an owed NOTICE, with none waiting, takes the place. -/
theorem uplinkEnd_kept (s : State) : LawsKept s (uplinkEnd s) := by
  unfold uplinkEnd
  split
  · exact .refl s
  next b hair =>
  have stop : LawsKept s { s with up := { s.up with queue := s.up.queue.tail, air := none } } := by
    refine ⟨fun k => ⟨?_, k.routine, k.urgent⟩, fun k => ?_, ClockLaw.of_clk rfl⟩
    · exact (s.up.queue.tail_sublist.length_le).trans k.uplink
    · simpa only [NoticeLaw, State.unsentUp, hair, Option.isSome_some, Option.isSome_none, Bool.false_eq_true, if_false,
        if_true] using k
  refine stop.trans ?_
  generalize { s with up := { s.up with queue := s.up.queue.tail, air := none } } = t
  dsimp only
  split
  · next ho =>
    refine ⟨offerNotice_queueLaw, fun k => offerNotice_law t ?_, ClockLaw.of_clk (offerNotice_clk t)⟩
    unfold NoticeLaw at k
    rw [ho] at k
    simp only [if_true] at k
    omega
  · exact .refl t

end Sys2Proof.Machine
end

