-- ==== Sys2Proof/Proofs/QueueLawsBlocks.lean ====
section
/-! SUPPORT. The blocks' operations that are no runs of moves keep the laws of the queues, of the NOTICE and of the clock:
reports and silences, epochs and walks, table writes, requests (R15 to R28, R46 to R58, R63 to R77, R157 to R168). -/

namespace Sys2Proof.Machine

/-- What ends most commands: the SECURED test and the permit wait. -/
theorem settle_kept (s : State) : LawsKept s (settle s) := .moves (settle_moves rfl s)

theorem noteQueues_kept (s : State) : LawsKept s (noteQueues s) := .moves (noteQueues_moves s)

theorem latch_kept (f : Flag) (s : State) : LawsKept s (latch f s) := .moves (latch_moves f s)

theorem latchIf_kept (b : Bool) (f : Flag) (s : State) : LawsKept s (latchIf b f s) := .moves (latchIf_moves b f s)

theorem evaluateRound_kept (b : Bool) (s : State) : LawsKept s (evaluateRound b s) :=
  .moves (evaluateRound_moves (.inr rfl) b (.inl rfl))

theorem takeJudgement_kept (r : Nat) (s : State) : LawsKept s (takeJudgement r s) := .moves (takeJudgement_moves r s)

/-! ### Robots (R11, R15 to R20) -/

theorem freeDock_kept (x : Nat) (s : State) : LawsKept s (freeDock x s) := mapSup_kept s _

theorem occupy_kept (x r : Nat) (s : State) : LawsKept s (occupy x r s) := .after (updSup_kept _ _ _) (freeDock_kept x s)

theorem displace_kept (x : Nat) (s : State) : LawsKept s (displace x s) := .after (freeDock_kept _ _) (updRobot_kept s _ _)

theorem disturb_kept (r : Nat) (s : State) : LawsKept s (disturb r s) := updBanks_kept s _ _

theorem placeRobot_kept (x : Nat) (p : Pos) (s : State) : LawsKept s (placeRobot x p s) := by
  cases p with
  | dock r => exact .ite (.refl s) (occupy_kept x r s)
  | row r => exact .after (disturb_kept r _) (.ite (.refl s) (freeDock_kept x s))
  | cart c => exact freeDock_kept x s

theorem acceptRobot_kept (x : Nat) (rep : RobotReport) (s : State) : LawsKept s (acceptRobot x rep s) :=
  .after (placeRobot_kept _ _ _) (.after (latchIf_kept _ _ _) (.after (latchIf_kept _ _ _) (updRobot_kept s _ _)))

theorem robotWork_kept (x : Nat) (w : Bool) (res : Option PassResult) (d : Option Nat) (b : Bool) (s0 : State) :
    ∀ f ∈ robotWork x w res d b s0, ∀ s, LawsKept s (f s) := fun f hf s =>
  .moves (robotWork_moves x w b s0 (.inl rfl) (.inl rfl) f hf s)

theorem handRobot_kept (x : Nat) (w : Bool) (res : Option PassResult) (d : Option Nat) (b : Bool) (s : State) :
    LawsKept s (handRobot x w res d b s) := inAnyOrder_kept (robotWork_kept x w res d b s) s

theorem refuseRobot_kept (x : Nat) (s : State) : LawsKept s (refuseRobot x s) :=
  .after (handRobot_kept _ _ _ _ _ _) (.after (latch_kept _ _) (.after (updRobot_kept _ _ _) (displace_kept x s)))

theorem robotReport_kept (x : Nat) (rep : RobotReport) (s : State) : LawsKept s (robotReport x rep s) := by
  unfold robotReport
  split
  · exact refuseRobot_kept x s
  dsimp only
  split
  · exact .after (handRobot_kept _ _ _ _ _ _) (acceptRobot_kept x rep s)
  · next q _ =>
    refine .after (inAnyOrder_kept (forall_append (robotWork_kept _ _ _ _ _ _) (robotWork_kept _ _ _ _ _ _)) _) ?_
    exact .after (latch_kept _ _) (.after (acceptRobot_kept _ _ _) (displace_kept q s))

theorem robotSilence_kept (x : Nat) (s : State) : LawsKept s (robotSilence x s) := by
  unfold robotSilence
  split
  · refine .after (handRobot_kept _ _ _ _ _ _) ?_
    have marked : LawsKept s (latch .robotOffline (s.updRobot x fun k => { k with state := .offline })) :=
      .after (latch_kept _ _) (updRobot_kept s _ _)
    exact marked.thenIf (.moves (pinUnder_moves x _))
  · exact .refl s

/-! ### Carts (R22, R23) -/

theorem handCart_kept (c : Nat) (d : Option Nat) (b : Bool) (s : State) : LawsKept s (handCart c d b s) :=
  .moves (handCart_moves c d b s)

theorem cartReport_kept (c : Nat) (rep : CartReport) (s : State) : LawsKept s (cartReport c rep s) := by
  unfold cartReport
  split
  · exact latch_kept _ s
  · exact .after (handCart_kept _ _ _ _) (.after (latchIf_kept _ _ _) (updCart_kept s _ _))

theorem cartSilence_kept (c : Nat) (s : State) : LawsKept s (cartSilence c s) := by
  unfold cartSilence
  exact .ite (.after (handCart_kept _ _ _ _) (.after (latch_kept _ _) (updCart_kept s _ _))) (.refl s)

/-! ### Rows and masts (R8, R59, R63, R127, R128) -/

theorem supervisorSample_kept (r : Nat) (p : Posture) (b : Bool) (s : State) :
    LawsKept s (supervisorSample r p b s).1 := by
  refine .after (.moves ?_) (updSup_kept s r fun u => { u with reported := some p })
  exact .after (sampleLevel_moves _ _ _) (.after (sampleUnpin_moves rfl _ _ _)
    (.after (sampleResync_moves _ _ _) (sampleFault_moves _ _ _)))

theorem rowReport_kept (r : Nat) (rep : RowReport) (s : State) : LawsKept s (rowReport r rep s) := by
  have sample : LawsKept s (supervisorSample r rep.posture rep.fault (bankSample r rep s)).1 :=
    .after (supervisorSample_kept _ _ _ _) (updBanks_kept s _ _)
  unfold rowReport
  refine .after (.moves (.after (releaseSample_moves rfl rfl _ _ _) (sweepSample_moves rfl _ _ _))) ?_
  split
  · exact sample.trans (.moves (rowLevelTold_moves _ _))
  · exact sample

theorem takeIrradiance_kept (m g : Nat) (s : State) : LawsKept s (takeIrradiance m g s) := by
  unfold takeIrradiance
  exact .ite (.after (setYld_kept _ _) (updMast_kept s _ _)) (.refl s)

theorem irradianceSample_kept (m g : Nat) (s : State) : LawsKept s (irradianceSample m g s) :=
  .after (evaluateRound_kept _ _) (takeIrradiance_kept m g s)

theorem evaluate_kept (s : State) : LawsKept s (evaluate s) :=
  .after (.moves (evaluate_moves rfl rfl rfl s)) (setStm_kept s _)

theorem stormSample_kept (m g w : Nat) (s : State) : LawsKept s (stormSample m g w s) :=
  .after (evaluate_kept _) (.after (setStm_kept _ _) (updMast_kept s _ _))

theorem mastReport_kept (m : Nat) (rep : MastReport) (s : State) : LawsKept s (mastReport m rep s) := by
  refine inAnyOrder_kept (fun f hf => ?_) s
  rcases List.mem_cons.1 hf with rfl | hf
  · exact stormSample_kept _ _ _
  · exact onlyIf_kept (irradianceSample_kept _ _) f hf

theorem mastSilence_kept (s : State) : LawsKept s (mastSilence s) :=
  .after (.moves (mastSilence_moves rfl rfl s)) (setStm_kept s _)

theorem silenceExpiry_kept (s : State) : LawsKept s (silenceExpiry s) := by
  unfold silenceExpiry
  exact .ite (mastSilence_kept s) (.refl s)

/-! ### Field reports (R2, R24 to R28) -/

/-- A classified report keeps the laws where its delivery does. -/
theorem classifyReport_kept {α : Type} {src : Half} {cls : Nat} {payload : List Byte} {kind : NodeKind} {check : Option α}
    {exception : State → Nat → α → Bool} {deliver : Nat → α → State → State}
    (h : ∀ i rep s, LawsKept s (deliver i rep s)) (s : State) :
    LawsKept s (classifyReport src cls payload kind check exception deliver s) := by
  unfold classifyReport
  refine .ite (.refl s) (.ite (offerRelay_kept _ _ _ s) ?_)
  split
  · exact latch_kept _ s
  · refine .ite (latch_kept _ s) ?_
    split
    · exact latch_kept _ s
    · exact .after (settle_kept _) (.after (h _ _ _) (.ite (offerRelay_kept _ _ _ s) (.refl s)))

theorem leaveAsked_kept (x : Nat) (s : State) : LawsKept s (leaveAsked x s) := .moves (leaveAsked_moves x s)

/-! ### Epochs and batches (R46 to R54) -/

theorem openEpoch_kept (s : State) : LawsKept s (openEpoch s) := by
  unfold openEpoch
  dsimp only
  exact .after (setEp_kept _ _) (.after (setYld_kept _ _) (forEach_kept (fun _ _ => updBanks_kept _ _ _) s))

theorem takeStaging_kept (s : State) : LawsKept s (takeStaging s) := by
  unfold takeStaging
  dsimp only
  split
  · exact .after (setEp_kept _ _) (setPar_kept s _ _)
  · exact setEp_kept s _

theorem swapRow_kept (r : Nat) (s : State) : LawsKept s (swapRow r s) := by
  unfold swapRow
  exact updBanks_kept s _ _

theorem swap_kept (e : Epoch) (voided noTake : Bool) (s : State) : LawsKept s (swap e voided noTake s) := by
  unfold swap
  refine .after (latchIf_kept _ _ _) (.after (setEp_kept _ _) (.after (setYld_kept _ _) ?_))
  refine .after (forEach_kept swapRow_kept _) ?_
  exact .ite (setEp_kept s _) (takeStaging_kept s)

theorem boundary_kept (voided noTake : Bool) (s : State) : LawsKept s (boundary voided noTake s) := by
  unfold boundary
  split
  · exact .refl s
  · exact .ite (.thenIf (setEp_kept s _) (setEp_kept _ _)) (swap_kept _ _ _ s)

theorem applyStaging_kept (g : Staging) (s : State) : LawsKept s (applyStaging g s) := by
  refine .trans (foldl_kept (fun _ _ => updCfg_kept _ _ _) s) (foldl_kept (fun t p => ?_) _)
  split
  · exact setPar_kept t _ _
  · exact .refl t

theorem applyBatch_kept (s : State) : LawsKept s (applyBatch s) := by
  unfold applyBatch
  split
  · exact .refl s
  · refine .thenIf ?_ (evaluateRound_kept _ _)
    exact .after (forEach_kept takeJudgement_kept _) (.after (setEp_kept _ _) (applyStaging_kept _ s))

theorem applyDirect_kept (s : State) : LawsKept s (applyDirect s) := by
  unfold applyDirect
  refine .after (setEp_kept _ _) (.after (applyStaging_kept _ _) ?_)
  split
  · exact applyStaging_kept _ s
  · exact .refl s

/-! ### The walk (R69 to R77) -/

theorem walkVoid_kept (r : Nat) (w : Walk) (s : State) : LawsKept s (walkVoid r w s) :=
  .after (setYld_kept _ _) (updAcct_kept s _ _)

theorem walkMeasured_kept (r : Nat) (w : Walk) (b : Bank) (full : Bool) (s : State) :
    LawsKept s (walkMeasured r w b full s) :=
  .after (latchIf_kept _ _ _) (.after (latchIf_kept _ _ _) (.after (setYld_kept _ _) (.after (updAcct_kept _ _ _)
    (updSoil_kept s _ _))))

theorem walkRow_kept (r : Nat) (w : Walk) (s : State) : LawsKept s (walkRow r w s).1 := by
  unfold walkRow
  split
  · exact .refl s
  · split
    · exact walkVoid_kept r w s
    · split
      · exact walkVoid_kept r w s
      · exact walkMeasured_kept r w _ _ s
      · exact walkMeasured_kept r w _ _ s

/-- The step of one row with the due judgement it hands on (R81). -/
theorem walkJudged_kept (r : Nat) (w : Walk) (s : State) :
    LawsKept s (if (walkRow r w s).2 then takeJudgement r (walkRow r w s).1 else (walkRow r w s).1) :=
  .thenIf (walkRow_kept r w s) (takeJudgement_kept r _)

theorem finishWalk_kept (w : Walk) (s : State) : LawsKept s (finishWalk w s) := by
  have finished : LawsKept s (applyBatch (offerReport ((s.setYld (fun y => { y with walk := none })).setEp
      (fun e => { e with acc := e.acc.add w })))) :=
    .after (applyBatch_kept _) (.after (offerReport_kept _) (.after (setEp_kept _ _) (setYld_kept s _)))
  unfold finishWalk
  dsimp only
  split
  · exact finished.trans (swap_kept _ _ _ _)
  · exact finished

theorem walkStep_kept (s : State) : LawsKept s (walkStep s) := by
  unfold walkStep
  split
  · exact .refl s
  next w _ =>
  split
  · exact finishWalk_kept _ s
  dsimp only
  split
  · exact .after (finishWalk_kept _ _) (.after (walkJudged_kept _ _ _) (setYld_kept s _))
  · exact .after (walkJudged_kept _ _ _) (setYld_kept s _)

end Sys2Proof.Machine
end

