-- ==== Sys2Proof/Proofs/QueueLawsRequests.lean ====
section
/-! SUPPORT. Every request keeps the laws of the queues, of the NOTICE and of the clock: table writes and reads, orders and
the CONTROL kinds (R38, R46, R150 to R168, R170, R174). -/

namespace Sys2Proof.Machine

/-! ### TABLE WRITE and TABLE READ (R157 to R160) -/

theorem paramActs_kept (p : Param) (s0 : State) : ∀ f ∈ paramActs p s0, ∀ s, LawsKept s (f s) := by
  have mapped : ∀ {l : List Nat} {g : Nat → State → State}, (∀ i s, LawsKept s (g i s)) →
      ∀ f ∈ l.map g, ∀ s, LawsKept s (f s) := by
    intro l g h f hf
    obtain ⟨i, -, rfl⟩ := List.mem_map.1 hf
    exact h i
  unfold paramActs
  split
  · exact onlyIf_kept fun s => .moves (watchExpiry_moves rfl s)
  · exact onlyIf_kept fun s => .moves (parkExpiry_moves rfl rfl s)
  · exact onlyIf_kept fun s => .moves (calmExpiry_moves rfl rfl s)
  · exact onlyIf_kept fun s => .moves (releaseExpiry_moves rfl rfl s)
  · exact onlyIf_kept fun s => .moves (lockoutExpiry_moves rfl s)
  · exact onlyIf_kept silenceExpiry_kept
  · exact mapped robotSilence_kept
  · exact mapped cartSilence_kept
  · exact forall_append (mapped fun x s => .moves (parkReplay_moves x s)) (mapped fun c s => .moves (garageReplay_moves c s))
  · exact onlyIf_kept fun s => .moves (stallExpiry_moves s)
  iterate 4 exact fun f hf => List.mem_singleton.1 hf ▸ evaluateRound_kept false
  · exact fun _ hf => absurd hf List.not_mem_nil

theorem storeLive_kept (p : Param) (v : Nat) (s : State) : LawsKept s (storeLive p v s) := by
  unfold storeLive
  refine .after (settle_kept _) (.after (inAnyOrder_kept (paramActs_kept p _) _) ?_)
  exact .thenIf (setPar_kept s p v) (setStm_kept _ _)

theorem judgeWritten_kept (r : Nat) (s : State) : LawsKept s (judgeWritten r s) :=
  .ite (.after (settle_kept _) (takeJudgement_kept r s)) (.refl s)

theorem storeWrite_kept (t : Target) (i v : Nat) (s : State) : LawsKept s (storeWrite t i v s).1 := by
  have soil : ∀ f, LawsKept s (judgeWritten i (s.updSoil i f)) := fun f => .after (judgeWritten_kept i _) (updSoil_kept s i f)
  cases t with
  | partUplink | partField | partSupervisor =>
    unfold storeWrite
    dsimp only
    split
    · exact .refl s
    · exact .same rfl rfl rfl rfl
  | rowStaged f => exact .ite (setEp_kept s _) (updCfg_kept s i _)
  | rowBaseline => exact soil _
  | rowCapture =>
    unfold storeWrite
    dsimp only
    split
    · exact soil _
    · exact soil _
  | param =>
    unfold storeWrite
    dsimp only
    split
    · exact .refl s
    · split
      · exact .refl s
      · split
        · exact .ite (setEp_kept s _) (setPar_kept s _ _)
        · exact storeLive_kept _ _ s
  | rowNode | rowLane | rowSlot | robotNode | robotLane | cartNode | cartLane | cartGarage | mastNode | mastRef | forward
  | policy j => exact .same rfl rfl rfl rfl

theorem writeTable_kept (q : Req) (table index fld value : Nat) (s : State) :
    LawsKept s (writeTable q table index fld value s) := by
  unfold writeTable
  split
  · exact reply_kept _ _ _ _ _ s
  next t _ =>
  refine .ite (reply_kept _ _ _ _ _ s) (.ite (reply_kept _ _ _ _ _ s) ?_)
  have stored := storeWrite_kept t index value s
  generalize storeWrite t index value s = p at stored ⊢
  obtain ⟨u, a⟩ := p
  cases a with
  | inl v => exact stored.trans (reply_kept _ _ _ _ _ u)
  | inr c => exact stored.trans (reply_kept _ _ _ _ _ u)

theorem readTable_kept (q : Req) (table first count : Nat) (s : State) : LawsKept s (readTable q table first count s) := by
  unfold readTable
  split
  · exact reply_kept _ _ _ _ _ s
  · exact .ite (reply_kept _ _ _ _ _ s) (.after (useChoice_kept _ _) (offerAnswer_kept _ _ _ s))

/-! ### ORDER (R38, R39) -/

theorem passOrder_kept (q : Req) (dest : Nat) (o : Order) (s : State) : LawsKept s (passOrder q dest o s) := by
  unfold passOrder
  split
  · exact reply_kept _ _ _ _ _ s
  next hroom =>
  refine .after (reply_kept _ _ _ _ _ _) (.after (noteQueues_kept _) (.moves (dsp_moves ?_)))
  refine ⟨rfl, rfl, rfl, rfl, rfl, le_max_of_le_left ?_, le_max_right _ _⟩
  rw [List.length_append, groupEntries_length]
  exact not_lt.1 hroom

theorem requestOrder_kept (q : Req) (dest cls : Nat) (payload : List Byte) (s : State) :
    LawsKept s (requestOrder q dest cls payload s) := by
  unfold requestOrder
  split
  · exact latch_kept _ s
  · split
    · split
      · exact reply_kept _ _ _ _ _ s
      · exact passOrder_kept _ _ _ s
    · exact passOrder_kept _ _ _ s

/-! ### COMMIT, DECOMMIT, RESET RUN (R162 to R164, R168) -/

theorem restartFleet_kept (s : State) : LawsKept s (restartFleet s) := .same rfl rfl rfl rfl

theorem restartStorm_kept (s : State) : LawsKept s (restartStorm s) := .same rfl rfl rfl rfl

theorem restartPlanner_kept (s : State) : LawsKept s (restartPlanner s) :=
  .after (.moves (buildDueList_moves _)) (setRnd_kept s _)

theorem entrySilence_kept (s : State) : LawsKept s (entrySilence s) := by
  unfold entrySilence
  exact .ite (mastSilence_kept s) (.refl s)

theorem enterRunning_kept (s : State) : LawsKept s (enterRunning s) := by
  unfold enterRunning
  refine .after (settle_kept _) (.after (entrySilence_kept _) (.after (restartPlanner_kept _) ?_))
  refine .thenIf (.after (setEp_kept _ _) ?_) (openEpoch_kept _)
  exact .shrink rfl rfl rfl le_rfl le_rfl

theorem requestCommit_kept (q : Req) (s : State) : LawsKept s (requestCommit q s) := by
  unfold requestCommit
  split
  · exact replyCtl_kept _ _ _ _ s
  · split
    · exact replyCtl_kept _ _ _ _ s
    · exact .after (replyCtl_kept _ _ _ _ _) (enterRunning_kept s)

/-- DECOMMIT keeps the supervisor's orders alone. -/
theorem leaveRunning_kept (s : State) : LawsKept s (leaveRunning s) := by
  unfold leaveRunning
  refine .after (noteQueues_kept _) (.trans (applyDirect_kept s) ?_)
  exact .shrink rfl rfl rfl (List.length_filter_le _ _) (urgentWork_filter_le _ _)

theorem requestDecommit_kept (q : Req) (s : State) : LawsKept s (requestDecommit q s) :=
  .ite (replyCtl_kept _ _ _ _ s) (.after (replyCtl_kept _ _ _ _ _) (leaveRunning_kept s))

theorem clearQueues_kept (s : State) : LawsKept s (clearQueues s) := by
  unfold clearQueues
  exact .after (noteQueues_kept _) (.shrink rfl rfl rfl (Nat.zero_le _) (Nat.zero_le _))

theorem resetEpoch_kept (s : State) : LawsKept s (resetEpoch s) := .ite (boundary_kept _ _ s) (.refl s)

theorem resetRunning_kept (s : State) : LawsKept s (resetRunning s) := by
  unfold resetRunning
  refine .after (settle_kept _) (.after (entrySilence_kept _) (.after (restartPlanner_kept _) (.after (restartStorm_kept _) ?_)))
  refine .trans (clearQueues_kept s) (.ite (inAnyOrder_kept (fun f hf => ?_) _) ?_)
  · simp only [List.mem_cons, List.not_mem_nil, or_false] at hf
    rcases hf with rfl | rfl
    · exact resetEpoch_kept
    · exact restartFleet_kept
  · exact .after (restartFleet_kept _) (resetEpoch_kept _)

theorem requestReset_kept (q : Req) (s : State) : LawsKept s (requestReset q s) :=
  .after (replyCtl_kept _ _ _ _ _) (.ite (resetRunning_kept s) (clearQueues_kept s))

/-! ### TIME SET and CLOSE NOW (R46, R55) -/

theorem advisoryExpiry_kept (s : State) : LawsKept s (advisoryExpiry s) := by
  unfold advisoryExpiry
  exact .ite (.after (.moves (parkCause_moves rfl rfl _)) (setStm_kept s _)) (.refl s)

theorem clockStep_kept (s : State) : LawsKept s (clockStep s) := by
  refine .after (settle_kept _) (inAnyOrder_kept (fun f hf => ?_) s)
  rcases List.mem_cons.1 hf with rfl | hf
  · exact evaluateRound_kept true
  · exact onlyIf_kept advisoryExpiry_kept f hf

/-- A clock that is loaded with a 32-bit value is a 32-bit count, and is set. -/
theorem setClock_kept {v : Nat} (hv : v < 4294967296) (s : State) :
    LawsKept s { s with clk := { s.clk with clock := v, set := true } } :=
  ⟨fun l => ⟨l.uplink, l.routine, l.urgent⟩, id, fun _ => ⟨hv, nofun⟩⟩

theorem requestTime_kept (q : Req) {v : Nat} (hv : v < 4294967296) (s : State) : LawsKept s (requestTime q v s) := by
  unfold requestTime
  refine .after (replyCtl_kept _ _ _ _ _) (.thenIf (.after (latch_kept _ _) (setClock_kept hv s)) (.after (clockStep_kept _) ?_))
  split
  · exact openEpoch_kept _
  · exact boundary_kept _ _ _

theorem requestClose_kept (q : Req) (s : State) : LawsKept s (requestClose q s) := by
  unfold requestClose
  split
  · exact replyCtl_kept _ _ _ _ s
  · refine .ite (replyCtl_kept _ _ _ _ s) (.ite (replyCtl_kept _ _ _ _ s) ?_)
    exact .after (replyCtl_kept _ _ _ _ _) (.after (settle_kept _) (boundary_kept _ _ s))

/-! ### The storm requests (R150 to R152) -/

theorem forceEffect_kept (flag : Nat) (s0 s : State) : LawsKept s ((forceEffect flag s0).2 s) := by
  have release : LawsKept s (releaseEntry s) := .moves (releaseEntry_moves rfl rfl s)
  unfold forceEffect
  split
  case h_1 => exact .same rfl rfl rfl rfl
  case h_2 => exact .moves (lockoutEntry_moves rfl rfl s)
  case h_6 => exact .moves (parkEntry_moves rfl rfl s)
  case h_7 | h_8 =>
    split
    · exact .refl s
    · dsimp only
      exact release
  all_goals exact .refl s

theorem requestForce_kept (q : Req) (flags : Byte) (s : State) : LawsKept s (requestForce q flags s) :=
  .after (replyCtl_kept _ _ _ _ _) (.after (settle_kept _) (forceEffect_kept _ s s))

theorem requestAdvisory_kept (q : Req) (v : Nat) (s : State) : LawsKept s (requestAdvisory q v s) := by
  unfold requestAdvisory
  refine .ite (.after (replyCtl_kept _ _ _ _ _) (.after (settle_kept _) ?_)) (replyCtl_kept _ _ _ _ s)
  exact .after (advisoryExpiry_kept _) (setStm_kept s _)

theorem requestCancel_kept (q : Req) (s : State) : LawsKept s (requestCancel q s) :=
  .after (replyCtl_kept _ _ _ _ _) (setStm_kept s _)

/-! ### ROBOT MANUAL, ROBOT CLEAR, TRANSFER RESOLVE (R20, R21, R123) -/

theorem plannerChange_kept (x : Nat) (w : Bool) (res : Option PassResult) (s : State) :
    LawsKept s (plannerChange x w res s) := .moves (plannerChange_moves x w (.inl rfl) s)

theorem stormRobot_kept (x : Nat) (b : Bool) (s : State) : LawsKept s (stormRobot x b s) := .moves (stormRobot_moves x b s)

theorem manualTransfer_kept (x : Nat) (s : State) : LawsKept s (manualTransfer x s) := by
  unfold manualTransfer
  split
  · exact .moves (transferWithdraw_moves _ _ s)
  · exact .moves (transferRobot_moves x (.inl rfl) s)

theorem setMode_kept (x : Nat) (m : CtrlMode) (s : State) : LawsKept s (setMode x m s) := by
  unfold setMode
  refine .after (inAnyOrder_kept ?_ _) (updRobot_kept s x _)
  exact forall_append (forall_append (onlyIf_kept (plannerChange_kept _ _ _)) (onlyIf_kept (manualTransfer_kept x)))
    (onlyIf_kept (stormRobot_kept _ _))

theorem requestManual_kept (q : Req) (x mode : Nat) (s : State) : LawsKept s (requestManual q x mode s) := by
  unfold requestManual
  refine .ite (replyCtl_kept _ _ _ _ s) (.ite (replyCtl_kept _ _ _ _ s) (.ite (replyCtl_kept _ _ _ _ s) ?_))
  exact .after (replyCtl_kept _ _ _ _ _) (.after (settle_kept _) (setMode_kept _ _ s))

theorem requestClear_kept (q : Req) (x : Nat) (s : State) : LawsKept s (requestClear q x s) := by
  unfold requestClear
  refine .ite (replyCtl_kept _ _ _ _ s) (.ite (replyCtl_kept _ _ _ _ s) (.ite ?_ (replyCtl_kept _ _ _ _ s)))
  refine .after (replyCtl_kept _ _ _ _ _) (.after (settle_kept _) (.after (handRobot_kept _ _ _ _ _ _) ?_))
  exact .after (latchIf_kept _ _ _) (updRobot_kept s x _)

theorem dropStalled_kept (x : Nat) (s : State) : LawsKept s (dropStalled x s) := by
  unfold dropStalled
  split
  · exact .refl s
  · refine .moves (.after (garageFreed_moves _ _) (.after (freeReservation_moves _ _ _) (removeTransfer_moves _ _ _ ?_ s)))
    exact fun k l => unload_rederive rfl k l

theorem unload_kept (x c : Nat) (s : State) : LawsKept s (unload x c s) := .ite (updCart_kept s c _) (.refl s)

theorem waitingArbiters_kept (c : Prop) [Decidable c] (t : State) :
    ∀ f ∈ (if c then t.waitingArbiters else []), ∀ s, LawsKept s (f s) := by
  intro f hf
  split at hf
  · obtain ⟨l, -, rfl⟩ := List.mem_map.1 hf
    exact fun s => .moves (arbiter_moves l s)
  · exact absurd hf List.not_mem_nil

theorem resolve_kept (x row : Nat) (s : State) : LawsKept s (resolve x row s) := by
  unfold resolve
  refine .after (inAnyOrder_kept ?_ _) (.after (latchIf_kept _ _ _) (.after (updRobot_kept _ x _) ?_))
  · refine forall_append (forall_append (forall_append (onlyIf_kept (plannerChange_kept _ _ _)) ?_) (onlyIf_kept fun s => ?_))
      (onlyIf_kept fun s => .moves (sweepFreed_moves s))
    · exact waitingArbiters_kept _ _
    · exact .ite (.moves (leavePark_moves x s)) (stormRobot_kept _ _ s)
  · refine .trans ?_ (.ite (freeDock_kept x _) (occupy_kept x row _))
    exact .after (dropStalled_kept x _) (forEach_kept (unload_kept x) s)

theorem requestResolve_kept (q : Req) (x row : Nat) (s : State) : LawsKept s (requestResolve q x row s) := by
  unfold requestResolve
  split
  · exact replyCtl_kept _ _ _ _ s
  · exact .after (replyCtl_kept _ _ _ _ _) (.after (settle_kept _) (resolve_kept x row s))

/-! ### Rounds, accounts, notices (R166, R167, R170, R174) -/

theorem requestRounds_kept (q : Req) (v : Nat) (s : State) : LawsKept s (requestRounds q v s) :=
  .after (replyCtl_kept _ _ _ _ _) (storeLive_kept _ v s)

theorem clearAccount_kept (r : Nat) (s : State) : LawsKept s (clearAccount r s) :=
  .thenIf (updAcct_kept s r _) (updBanks_kept _ _ _)

theorem requestAccounts_kept (q : Req) (row : Nat) (s : State) : LawsKept s (requestAccounts q row s) := by
  unfold requestAccounts
  refine .ite (.after (replyCtl_kept _ _ _ _ _) (forEach_kept clearAccount_kept s)) (.ite (replyCtl_kept _ _ _ _ s) ?_)
  exact .after (replyCtl_kept _ _ _ _ _) (clearAccount_kept row s)

theorem requestNoticeClear_kept (q : Req) (marks : BitVec 24) (s : State) : LawsKept s (requestNoticeClear q marks s) :=
  .after (replyCtl_kept _ _ _ _ _) (.shrink rfl rfl rfl le_rfl le_rfl)

theorem requestNoticeMask_kept (q : Req) (marks : BitVec 24) (s : State) : LawsKept s (requestNoticeMask q marks s) := by
  unfold requestNoticeMask
  exact .after (replyCtl_kept _ _ _ _ _) (.thenIf (.shrink rfl rfl rfl le_rfl le_rfl) (causeNotice_kept _))

end Sys2Proof.Machine
end

