-- ==== Sys2Proof/Proofs/QueueLawsSteps.lean ====
section
/-! SUPPORT. Every command and every second keeps the laws of the queues, of the NOTICE and of the clock. -/

namespace Sys2Proof.Machine

/-! ### Transmitters, timers, the reset input -/

theorem powerOn_kept (s : State) : LawsKept s (powerOn s) :=
  ⟨fun _ => ⟨Nat.zero_le _, Nat.zero_le _, Nat.zero_le _⟩, fun _ => Nat.zero_le _, fun _ => ⟨Nat.zero_lt_succ _, fun _ => rfl⟩⟩

/-- An entry leaves its queue. -/
theorem sendEntry_kept (e : Entry) (urgent : Bool) (s : State) : LawsKept s (sendEntry e urgent s) := by
  refine .after (.moves (entryLeft_moves _ _)) (.shrink rfl rfl rfl ?_ ?_)
  · cases urgent
    · exact s.dsp.routine.tail_sublist.length_le
    · exact le_rfl
  · cases urgent
    · exact le_rfl
    · exact (s.dsp.urgent.tail_sublist.filter _).length_le

theorem frameStart_kept (s : State) : LawsKept s (frameStart s) := by
  unfold frameStart
  refine .ite ?_ (.refl s)
  have chosen := LawsKept.moves (chooseEntry_moves (s.dsp.routine.length + 1) s)
  generalize chooseEntry (s.dsp.routine.length + 1) s = p at chosen ⊢
  obtain ⟨t, _ | ⟨e, urgent⟩⟩ := p
  · exact chosen
  · exact chosen.trans (sendEntry_kept e urgent t)

theorem frameEnd_kept (s : State) : LawsKept s (frameEnd s) := by
  unfold frameEnd
  split
  · exact .refl s
  · exact .after (.moves (reofferAll_moves _)) (.thenIf (.shrink rfl rfl rfl le_rfl le_rfl) (.moves (sentEvent_moves _ _)))

theorem permitChange_kept (b : Bool) (s : State) : LawsKept s (permitChange b s) := .shrink rfl rfl rfl le_rfl le_rfl

theorem levelExpiry_kept (r : Nat) (s : State) : LawsKept s (levelExpiry r s) := by
  unfold levelExpiry
  split
  · exact .refl s
  · refine .ite ?_ (.refl s)
    refine .after (.moves (.after (levelTimedOut_moves _ _) (releaseLevel_moves _ _ _))) ?_
    exact .after (latch_kept _ _) (updSup_kept s r _)

/-! ### The commands -/

/-- The command keeps the laws. -/
def KeepsLaws (c : Instr) : Prop := ∀ s t, exec c s = .next t → LawsKept s t

/-- A command that is an operation on the state keeps the laws where the operation does. -/
theorem KeepsLaws.of {c : Instr} {f : State → State} (h : ∀ s, exec c s = .next (f s)) (k : ∀ s, LawsKept s (f s)) :
    KeepsLaws c := by
  intro s t ht
  rw [h] at ht
  cases ht
  exact k s

theorem settled_kept {f : State → State} (h : ∀ s, LawsKept s (f s)) (s : State) : LawsKept s (settle (f s)) :=
  .after (settle_kept _) (h s)

theorem taken_kept (q : Req) {f : State → State} (h : ∀ s, LawsKept s (f s)) (s : State) : LawsKept s (taken q s f) :=
  .ite (h s) (.refl s)

theorem takenRunning_kept (q : Req) (kind : Nat) {f : State → State} (h : ∀ s, LawsKept s (f s)) (s : State) :
    LawsKept s (takenRunning q kind s f) := taken_kept q (fun s => .ite (h s) (replyCtl_kept _ _ _ _ s)) s

theorem keepsLaws_of_report {c : Instr} (hc : c.report.isSome = true) : KeepsLaws c := by
  cases c with
  | rowSample src current posture fault => exact .of (fun _ => rfl) (classifyReport_kept rowReport_kept)
  | mastSample src irradiance mean gust => exact .of (fun _ => rfl) (classifyReport_kept mastReport_kept)
  | robotStatus src kind index activity result metres charge fault => exact .of (fun _ => rfl) (classifyReport_kept robotReport_kept)
  | cartStatus src slot motion garaged load fault => exact .of (fun _ => rfl) (classifyReport_kept cartReport_kept)
  | leaveAsk src => exact .of (fun _ => rfl) (classifyReport_kept fun x _ => leaveAsked_kept x)
  | _ => cases hc

theorem keepsLaws_of_request {c : Instr} (hc : c.request.isSome = true) : KeepsLaws c := by
  cases c with
  | tableWrite q table index fld value => exact .of (fun _ => rfl) (taken_kept q (writeTable_kept _ _ _ _ _))
  | baselineValueWrite q index value => exact .of (fun _ => rfl) (taken_kept q (writeTable_kept _ _ _ _ _))
  | baselineReset q index => exact .of (fun _ => rfl) (taken_kept q (writeTable_kept _ _ _ _ _))
  | tableRead q table first count => exact .of (fun _ => rfl) (taken_kept q (readTable_kept _ _ _ _))
  | order q dest cls payload => exact .of (fun _ => rfl) (taken_kept q (requestOrder_kept _ _ _ _))
  | commit q => exact .of (fun _ => rfl) (taken_kept q (requestCommit_kept q))
  | decommit q => exact .of (fun _ => rfl) (takenRunning_kept q 2 (requestDecommit_kept q))
  | timeSet q time => exact .of (fun _ => rfl) (taken_kept q (requestTime_kept q time.isLt))
  | stormForce q flags => exact .of (fun _ => rfl) (takenRunning_kept q 4 (requestForce_kept q flags))
  | stormAdvisory q arrival => exact .of (fun _ => rfl) (takenRunning_kept q 5 (requestAdvisory_kept q _))
  | advisoryCancel q => exact .of (fun _ => rfl) (takenRunning_kept q 6 (requestCancel_kept q))
  | robotManual q robot mode => exact .of (fun _ => rfl) (takenRunning_kept q 7 (requestManual_kept q _ _))
  | robotClear q robot => exact .of (fun _ => rfl) (takenRunning_kept q 8 (requestClear_kept q _))
  | transferResolve q robot row => exact .of (fun _ => rfl) (takenRunning_kept q 9 (requestResolve_kept q _ _))
  | roundsEnable q value => exact .of (fun _ => rfl) (takenRunning_kept q 10 (requestRounds_kept q _))
  | closeNow q => exact .of (fun _ => rfl) (takenRunning_kept q 11 (requestClose_kept q))
  | accountClear q row => exact .of (fun _ => rfl) (takenRunning_kept q 12 (requestAccounts_kept q _))
  | resetRun q => exact .of (fun _ => rfl) (taken_kept q (requestReset_kept q))
  | noticeClear q marks => exact .of (fun _ => rfl) (taken_kept q (requestNoticeClear_kept q marks))
  | noticeMask q marks => exact .of (fun _ => rfl) (taken_kept q (requestNoticeMask_kept q marks))
  | controlUnknownKind q kind => exact .of (fun _ => rfl) (taken_kept q (replyCtl_kept q _ _ _))
  | _ => cases hc

/-- A rejected frame is taken as the report or the request that its bytes spell, if they spell one. -/
theorem keepsLaws_fieldFrameRejected (bytes : List Byte) : KeepsLaws (.fieldFrameRejected bytes) := by
  refine .of (fun _ => rfl) fun s => ?_
  split
  · exact .refl s
  · exact latch_kept _ s
  · exact takeField_elim (P := LawsKept s) (fun _ => .refl s) (fun _ _ t hc ht => keepsLaws_of_report hc s t ht)
      fun _ => latch_kept _ s

theorem keepsLaws_uplinkFrameRejected (bytes : List Byte) : KeepsLaws (.uplinkFrameRejected bytes) := by
  refine .of (fun _ => rfl) fun s => ?_
  split
  · exact .refl s
  · exact latch_kept _ s
  · exact takeUplink_elim (P := LawsKept s) (.refl s) (fun _ t hc ht => keepsLaws_of_request hc s t ht) (latch_kept _ s)

theorem keepsLaws (c : Instr) : KeepsLaws c := by
  cases c with
  | fieldFrameRejected bytes => exact keepsLaws_fieldFrameRejected bytes
  | uplinkFrameRejected bytes => exact keepsLaws_uplinkFrameRejected bytes
  | rowSample | mastSample | robotStatus | cartStatus | leaveAsk => exact keepsLaws_of_report rfl
  | powerOnReset => exact .of (fun _ => rfl) (powerOn_kept)
  | frameStart => exact .of (fun _ => rfl) (settled_kept frameStart_kept)
  | frameEnd => exact .of (fun _ => rfl) (settled_kept frameEnd_kept)
  | sendPermitChange asserted => exact .of (fun _ => rfl) (fun s => .after (noteQueues_kept _) (permitChange_kept asserted s))
  | permitStallExpiry => exact .of (fun _ => rfl) (fun s => .moves (stallExpiry_moves s))
  | uplinkFrameStart => exact .of (fun _ => rfl) (uplinkStart_kept)
  | uplinkFrameEnd => exact .of (fun _ => rfl) (uplinkEnd_kept)
  | levelDeadlineExpiry row => exact .of (fun _ => rfl) (settled_kept (levelExpiry_kept row))
  | robotSilenceExpiry robot => exact .of (fun _ => rfl) (settled_kept (robotSilence_kept robot))
  | cartSilenceExpiry cart => exact .of (fun _ => rfl) (settled_kept (cartSilence_kept cart))
  | mastSilenceEvent => exact .of (fun _ => rfl) (settled_kept silenceExpiry_kept)
  | mastRecordStale mast => exact .of (fun _ => rfl) (settled_kept fun s => .ite (evaluateRound_kept false s) (.refl s))
  | passDeadlineExpiry robot => exact .of (fun _ => rfl) (settled_kept fun s => .ite (.moves (abandon_moves robot s)) (.refl s))
  | phaseDeadlineExpiry cart => exact .of (fun _ => rfl) (settled_kept fun s => .moves (phaseExpiry_moves cart s))
  | watchTimerExpiry => exact .of (fun _ => rfl) (settled_kept fun s => .moves (watchExpiry_moves rfl s))
  | parkTimerExpiry => exact .of (fun _ => rfl) (settled_kept fun s => .moves (parkExpiry_moves rfl rfl s))
  | calmTimerExpiry => exact .of (fun _ => rfl) (settled_kept fun s => .moves (calmExpiry_moves rfl rfl s))
  | releaseTimerExpiry => exact .of (fun _ => rfl) (settled_kept fun s => .moves (releaseExpiry_moves rfl rfl s))
  | lockoutTimerExpiry => exact .of (fun _ => rfl) (settled_kept fun s => .moves (lockoutExpiry_moves rfl s))
  | stowDeadlineExpiry row => exact .of (fun _ => rfl) (settled_kept fun s => .moves (stowExpiry_moves row s))
  | releaseDeadlineExpiry row => exact .of (fun _ => rfl) (settled_kept fun s => .moves (releaseRowExpiry_moves rfl rfl row s))
  | parkRepeatReplay robot => exact .of (fun _ => rfl) (settled_kept fun s => .moves (parkReplay_moves robot s))
  | garageReplay cart => exact .of (fun _ => rfl) (settled_kept fun s => .moves (garageReplay_moves cart s))
  | epochBoundary => exact .of (fun _ => rfl) (fun s => .ite (boundary_kept _ _ s) (.refl s))
  | roundWindowEdge => exact .of (fun _ => rfl) (settled_kept fun s => .ite (evaluateRound_kept false s) (.refl s))
  | advisoryReached => exact .of (fun _ => rfl) (settled_kept advisoryExpiry_kept)
  | walkStep => exact .of (fun _ => rfl) (settled_kept walkStep_kept)
  | _ => exact keepsLaws_of_request rfl

/-! ### The step -/

/-- A second: a clock that is set counts on in 32 bits, one that is not stands at 0. -/
theorem tick_kept (s : State) : LawsKept s (tick s) := by
  refine ⟨fun l => ⟨l.uplink, l.routine, l.urgent⟩, id, fun l => ⟨?_, fun hset => ?_⟩⟩
  · show (if s.clk.set then (s.clk.clock + 1) % 4294967296 else s.clk.clock) < 4294967296
    split
    · exact Nat.mod_lt _ (by decide)
    · exact l.range
  · replace hset : s.clk.set = false := hset
    show (if s.clk.set then (s.clk.clock + 1) % 4294967296 else s.clk.clock) = 0
    rw [hset]
    exact l.unset hset

/-- Settles O9: a step is a second or the front command, and each keeps the three laws. -/
theorem stepsKeepTheQueueLaws : Obligations.StepsKeepTheQueueLaws := by
  intro s t h
  have kept : LawsKept s t := by
    unfold step at h
    split at h
    · cases h
      exact tick_kept s
    · exact (keepsLaws _ _ t h).after (.same rfl rfl rfl rfl)
  exact ⟨kept.queue, kept.notice, kept.clock⟩

end Sys2Proof.Machine
end

