-- ==== Sys2Proof/Proofs/OneSecond.lean ====
section
/-! SUPPORT. One second: the conditions under which the timed events come due, and that the queue of a second holds each of
them once (R44, R45; log 1). -/

namespace Sys2Proof.Machine

/-! ### The configured records (R1) -/

theorem mem_rowIds {s : State} {r : Nat} : r ∈ s.rowIds ↔ s.rowOk r = true := Tab.mem_idsWhere s.rows rfl r
theorem mem_robotIds {s : State} {x : Nat} : x ∈ s.robotIds ↔ s.robotOk x = true := Tab.mem_idsWhere s.robots rfl x
theorem mem_cartIds {s : State} {c : Nat} : c ∈ s.cartIds ↔ s.cartOk c = true := Tab.mem_idsWhere s.carts rfl c
theorem mem_mastIds {s : State} {m : Nat} : m ∈ s.mastIds ↔ (s.mast m).node.isSome = true :=
  Tab.mem_idsWhere s.masts rfl m

theorem running_iff {s : State} : s.running = true ↔ s.ctl.mode = .running := decide_eq_true_iff

/-! ### What each condition says -/

theorem any_decide_iff {α : Type} {o : Option α} {p : α → Prop} [DecidablePred p] :
    o.any (fun a => decide (p a)) = true ↔ ∃ a, o = some a ∧ p a := by
  cases o <;> simp

theorem any_any_decide_iff {α β : Type} {o : Option α} {f : α → Option β} {p : β → Prop} [DecidablePred p] :
    o.any (fun a => (f a).any fun b => decide (p b)) = true ↔ ∃ a b, o = some a ∧ f a = some b ∧ p b := by
  cases o with
  | none => simp
  | some a => simpa using any_decide_iff

theorem timerDue_iff {t : Option Nat} {interval now : Nat} :
    timerDue t interval now = true ↔ ∃ b, t = some b ∧ b + interval ≤ now := any_decide_iff

theorem watchDue_iff {s : State} : s.watchDue = true ↔
    s.stm.state = .calm ∧ ∃ b, s.stm.watchT = some b ∧ b + s.par .watchDebounce ≤ s.now := by
  rw [State.watchDue, Bool.and_eq_true, decide_eq_true_iff, timerDue_iff]

theorem parkDue_iff {s : State} : s.parkDue = true ↔
    (s.stm.state = .calm ∨ s.stm.state = .watch ∨ s.stm.state = .release) ∧
      ∃ b, s.stm.parkT = some b ∧ b + s.par .parkDebounce ≤ s.now := by
  simp only [State.parkDue, Bool.and_eq_true, Bool.or_eq_true, decide_eq_true_eq, timerDue_iff, or_assoc]

theorem calmDue_iff {s : State} : s.calmDue = true ↔
    s.stm.state = .watch ∧ ∃ b, s.stm.calmT = some b ∧ b + s.par .calmHold ≤ s.now := by
  rw [State.calmDue, Bool.and_eq_true, decide_eq_true_iff, timerDue_iff]

theorem releaseDue_iff {s : State} : s.releaseDue = true ↔
    (s.stm.state = .park ∨ s.stm.state = .secured) ∧
      ∃ b, s.stm.releaseT = some b ∧ b + s.par .releaseHold ≤ s.now := by
  simp only [State.releaseDue, Bool.and_eq_true, Bool.or_eq_true, decide_eq_true_eq, timerDue_iff]

theorem lockoutDue_iff {s : State} : s.lockoutDue = true ↔
    s.stm.state = .lockout ∧ ∃ b, s.stm.lockoutT = some b ∧ b + s.par .lockoutHold ≤ s.now := by
  rw [State.lockoutDue, Bool.and_eq_true, decide_eq_true_iff, timerDue_iff]

theorem levelDue_iff {s : State} {r : Nat} : s.levelDue r = true ↔
    (s.row r).sup.levelClaim.isSome = true ∧ ∃ d, (s.row r).sup.levelDeadline = some d ∧ d ≤ s.now := by
  rw [State.levelDue, Bool.and_eq_true, any_decide_iff]

theorem passDue_iff {s : State} {x : Nat} : s.passDue x = true ↔
    ∃ a d, (s.robot x).asg = some a ∧ a.deadline = some d ∧ d ≤ s.now := any_any_decide_iff

theorem phaseDue_iff {s : State} {c : Nat} : s.phaseDue c = true ↔
    ∃ t d, (s.cart c).transfer = some t ∧ t.stalled = false ∧ t.deadline = some d ∧ d ≤ s.now := by
  rw [State.phaseDue]
  cases (s.cart c).transfer with
  | none => simp
  | some t => simp [any_decide_iff]

theorem stowDue_iff {s : State} {r : Nat} :
    s.stowDue r = true ↔ ∃ d, (s.row r).stow.deadline = some d ∧ d ≤ s.now := any_decide_iff

theorem releaseRowDue_iff {s : State} {r : Nat} : s.releaseRowDue r = true ↔
    (s.row r).sup.reported = some .stowed ∧ ∃ e d, (s.row r).rel = some e ∧ e.deadline = some d ∧ d ≤ s.now := by
  rw [State.releaseRowDue, Bool.and_eq_true, decide_eq_true_iff, and_comm, any_any_decide_iff]

theorem ParkOrder.wire_isSome {o : ParkOrder} : o.wire.isSome = true ↔ o ≠ .via := by cases o <;> decide

theorem parkReplayDue_iff {s : State} {x : Nat} : s.parkReplayDue x = true ↔
    ∃ e l, (s.robot x).park = some e ∧ e.order ≠ .via ∧ e.held = false ∧ e.last = some l ∧
      l + s.par .parkRepeat ≤ s.now := by
  rw [State.parkReplayDue]
  cases (s.robot x).park with
  | none => simp
  | some e => simp [any_decide_iff, ParkOrder.wire_isSome, and_assoc]

theorem garageReplayDue_iff {s : State} {c : Nat} : s.garageReplayDue c = true ↔
    ∃ e l, (s.cart c).garageEntry = some e ∧ e.held = false ∧ e.last = some l ∧ l + s.par .parkRepeat ≤ s.now := by
  rw [State.garageReplayDue]
  cases (s.cart c).garageEntry with
  | none => simp
  | some e => simp [any_decide_iff]

theorem heard_iff_hears {s : State} {m : Nat} : s.heard (s.mast m) = true ↔ s.hears m := by
  rw [State.heard, Bool.and_eq_true, any_decide_iff]
  rfl

theorem silenceDue_iff {s : State} :
    s.silenceDue = true ↔ s.ctl.mode = .running ∧ s.stm.silent = false ∧ ∀ m, ¬s.hears m := by
  rw [State.silenceDue, Bool.and_eq_true, Bool.and_eq_true, running_iff, Bool.not_eq_true', Tab.allRec_iff _ rfl, and_assoc]
  refine and_congr_right' (and_congr_right' (forall_congr' fun m => ?_))
  rw [← heard_iff_hears, Bool.not_eq_true', Bool.not_eq_true]
  rfl

theorem boundaryDue_iff {s : State} : s.boundaryDue = true ↔
    s.ep.held = none ∧ ∃ e, s.ep.epoch = some e ∧ e.nominalEnd - e.startPlant ≤ s.now - e.startMono := by
  rw [State.boundaryDue, Bool.and_eq_true, Option.isNone_iff_eq_none, any_decide_iff]

theorem edgeDue_iff {s : State} : s.edgeDue = true ↔ s.ctl.mode = .running ∧ s.clk.set = true ∧
    (s.tod = s.par .windowStart ∨ s.tod = s.par .windowEnd ∨ s.clk.clock = 0) := by
  simp only [State.edgeDue, Bool.and_eq_true, Bool.or_eq_true, decide_eq_true_eq, running_iff, and_assoc, or_assoc]

theorem advisoryDue_iff {s : State} : s.advisoryDue = true ↔
    s.ctl.mode = .running ∧ s.clk.set = true ∧ ∃ a, s.stm.advisory = some a ∧ a.parkEntry ≤ s.clk.clock := by
  rw [State.advisoryDue, Bool.and_eq_true, Bool.and_eq_true, running_iff, any_decide_iff, and_assoc]

theorem stallDue_iff {s : State} : s.stallDue = true ↔
    ∃ w, s.dsp.wait = some w ∧ w.stalled = false ∧ w.start + s.par .permitStall < s.now := by
  rw [State.stallDue]
  cases s.dsp.wait <;> simp

theorem robotSilent_iff {s : State} {x : Nat} : s.robotSilent x = true ↔
    s.ctl.mode = .running ∧ s.robotOk x = true ∧ (s.robot x).state ≠ .offline ∧
      ∃ h, (s.robot x).heard = some h ∧ h + s.par .robotSilence ≤ s.now := by
  simp only [State.robotSilent, Bool.and_eq_true, any_decide_iff, decide_eq_true_eq, running_iff, and_assoc]

theorem cartSilent_iff {s : State} {c : Nat} : s.cartSilent c = true ↔
    s.ctl.mode = .running ∧ s.cartOk c = true ∧ (s.cart c).state ≠ .faulted ∧
      ∃ h, (s.cart c).heard = some h ∧ h + s.par .cartSilence ≤ s.now := by
  simp only [State.cartSilent, Bool.and_eq_true, any_decide_iff, decide_eq_true_eq, running_iff, and_assoc]

/-! ### The events of a second -/

@[simp] theorem mem_dueIf {b : Bool} {c d : Instr} : d ∈ dueIf b c ↔ b = true ∧ d = c := by
  unfold dueIf
  cases b <;> simp

theorem dueIf_nodup (b : Bool) (c : Instr) : (dueIf b c).Nodup := by
  unfold dueIf
  cases b <;> simp

/-- The condition under which the model queues an event. -/
def State.dueNow (s : State) : Instr → Prop
  | .levelDeadlineExpiry r => s.rowOk r = true ∧ s.levelDue r = true
  | .robotSilenceExpiry x => s.robotOk x = true ∧ s.robotSilent x = true
  | .cartSilenceExpiry c => s.cartOk c = true ∧ s.cartSilent c = true
  | .mastSilenceEvent => s.silenceDue = true
  | .mastRecordStale m => (s.mast m).node.isSome = true ∧
      (s.mast m).irr.any (fun i => decide (s.now = i.time + s.par .mastStale + 1)) = true
  | .passDeadlineExpiry x => s.robotOk x = true ∧ s.passDue x = true
  | .phaseDeadlineExpiry c => s.cartOk c = true ∧ s.phaseDue c = true
  | .watchTimerExpiry => s.watchDue = true
  | .parkTimerExpiry => s.parkDue = true
  | .calmTimerExpiry => s.calmDue = true
  | .releaseTimerExpiry => s.releaseDue = true
  | .lockoutTimerExpiry => s.lockoutDue = true
  | .stowDeadlineExpiry r => s.rowOk r = true ∧ s.stowDue r = true
  | .releaseDeadlineExpiry r => s.rowOk r = true ∧ s.releaseRowDue r = true
  | .parkRepeatReplay x => s.robotOk x = true ∧ s.parkReplayDue x = true
  | .garageReplay c => s.cartOk c = true ∧ s.garageReplayDue c = true
  | .epochBoundary => s.boundaryDue = true
  | .roundWindowEdge => s.edgeDue = true
  | .advisoryReached => s.advisoryDue = true
  | .permitStallExpiry => s.stallDue = true
  | _ => False

theorem dueNow_of_mem {s : State} {c : Instr} (h : c ∈ s.dueEvents) : s.dueNow c := by
  unfold State.dueEvents at h
  simp only [List.mem_append, List.mem_map, List.mem_filter, mem_dueIf, mem_rowIds, mem_robotIds, mem_cartIds, mem_mastIds,
    or_assoc] at h
  rcases h with ⟨r, h, rfl⟩ | ⟨x, h, rfl⟩ | ⟨c, h, rfl⟩ | ⟨h, rfl⟩ | ⟨m, h, rfl⟩ | ⟨x, h, rfl⟩ | ⟨c, h, rfl⟩ | ⟨h, rfl⟩ |
    ⟨h, rfl⟩ | ⟨h, rfl⟩ | ⟨h, rfl⟩ | ⟨h, rfl⟩ | ⟨r, h, rfl⟩ | ⟨r, h, rfl⟩ | ⟨x, h, rfl⟩ | ⟨c, h, rfl⟩ | ⟨h, rfl⟩ | ⟨h, rfl⟩ |
    ⟨h, rfl⟩ | ⟨h, rfl⟩
  all_goals exact h

theorem mem_of_dueNow {s : State} {c : Instr} (h : s.dueNow c) : c ∈ s.dueEvents := by
  unfold State.dueEvents
  simp only [List.mem_append, List.mem_map, List.mem_filter, mem_dueIf, mem_rowIds, mem_robotIds, mem_cartIds, mem_mastIds]
  cases c with
  | levelDeadlineExpiry | robotSilenceExpiry | cartSilenceExpiry | mastSilenceEvent | mastRecordStale | passDeadlineExpiry
  | phaseDeadlineExpiry | watchTimerExpiry | parkTimerExpiry | calmTimerExpiry | releaseTimerExpiry | lockoutTimerExpiry
  | stowDeadlineExpiry | releaseDeadlineExpiry | parkRepeatReplay | garageReplay | epochBoundary | roundWindowEdge
  | advisoryReached | permitStallExpiry =>
    simp only [State.dueNow] at h
    simp [h]
  | _ => exact h.elim

theorem dueNow_iff_comesDue (s : State) (c : Instr) : s.dueNow c ↔ s.comesDue c := by
  cases c with
  | levelDeadlineExpiry r => exact and_congr_right' levelDue_iff
  | robotSilenceExpiry x =>
    exact ⟨fun h => robotSilent_iff.1 h.2, fun h => ⟨h.2.1, robotSilent_iff.2 h⟩⟩
  | cartSilenceExpiry c =>
    exact ⟨fun h => cartSilent_iff.1 h.2, fun h => ⟨h.2.1, cartSilent_iff.2 h⟩⟩
  | mastSilenceEvent => exact silenceDue_iff
  | mastRecordStale m => exact and_congr_right' any_decide_iff
  | passDeadlineExpiry x => exact and_congr_right' passDue_iff
  | phaseDeadlineExpiry c => exact and_congr_right' phaseDue_iff
  | watchTimerExpiry => exact watchDue_iff
  | parkTimerExpiry => exact parkDue_iff
  | calmTimerExpiry => exact calmDue_iff
  | releaseTimerExpiry => exact releaseDue_iff
  | lockoutTimerExpiry => exact lockoutDue_iff
  | stowDeadlineExpiry r => exact and_congr_right' stowDue_iff
  | releaseDeadlineExpiry r => exact and_congr_right' releaseRowDue_iff
  | parkRepeatReplay x => exact and_congr_right' parkReplayDue_iff
  | garageReplay c => exact and_congr_right' garageReplayDue_iff
  | epochBoundary => exact boundaryDue_iff
  | roundWindowEdge => exact edgeDue_iff
  | advisoryReached => exact advisoryDue_iff
  | permitStallExpiry => exact stallDue_iff
  | _ => exact Iff.rfl

theorem mem_dueEvents (s : State) (c : Instr) : c ∈ s.dueEvents ↔ s.comesDue c :=
  ⟨fun h => (dueNow_iff_comesDue s c).1 (dueNow_of_mem h), fun h => mem_of_dueNow ((dueNow_iff_comesDue s c).2 h)⟩

/-- An event that is not in the list joins it. -/
theorem nodup_append_dueIf {l : List Instr} (hl : l.Nodup) {b : Bool} {c : Instr} (hc : c ∉ l) :
    (l ++ dueIf b c).Nodup := by
  refine hl.append (dueIf_nodup b c) fun d hd hd' => hc ?_
  rw [← (mem_dueIf.1 hd').2]
  exact hd

/-- The events of one kind, for records in index order, join a list that has none of that kind. -/
theorem nodup_append_map {l : List Instr} (hl : l.Nodup) {f : Nat → Instr} {ids : List Nat} {p : Nat → Bool}
    (hids : ids.Nodup) (hf : ∀ i j, f i = f j → i = j) (hc : ∀ i, f i ∉ l) : (l ++ (ids.filter p).map f).Nodup := by
  refine hl.append ((hids.filter p).map fun i j => hf i j) fun d hd hd' => ?_
  obtain ⟨i, -, rfl⟩ := List.mem_map.1 hd'
  exact hc i hd

theorem dueEvents_nodup (s : State) : s.dueEvents.Nodup := by
  have rows : s.rowIds.Nodup := Tab.idsWhere_nodup _ _
  have robots : s.robotIds.Nodup := Tab.idsWhere_nodup _ _
  have carts : s.cartIds.Nodup := Tab.idsWhere_nodup _ _
  have masts : s.mastIds.Nodup := Tab.idsWhere_nodup _ _
  unfold State.dueEvents
  iterate 4 refine nodup_append_dueIf ?_ (by simp)
  refine nodup_append_map ?_ carts (by simp) (by simp)
  refine nodup_append_map ?_ robots (by simp) (by simp)
  iterate 2 refine nodup_append_map ?_ rows (by simp) (by simp)
  iterate 5 refine nodup_append_dueIf ?_ (by simp)
  refine nodup_append_map ?_ carts (by simp) (by simp)
  refine nodup_append_map ?_ robots (by simp) (by simp)
  refine nodup_append_map ?_ masts (by simp) (by simp)
  refine nodup_append_dueIf ?_ (by simp)
  refine nodup_append_map ?_ carts (by simp) (by simp)
  refine nodup_append_map ?_ robots (by simp) (by simp)
  exact (rows.filter _).map fun i j e => by simpa using e

/-! ### The second (R44, R45) -/

theorem enqueueDue_pending (l : List Instr) {s : State} (h : s.pending = []) : (enqueueDue l s).pending.Perm l := by
  rw [enqueueDue, h]
  exact freeOrder_perm _ _

/-- The queue of a second that began with no command waiting: the events due, in some order. -/
theorem tick_pending_perm {s : State} (h : s.pending = []) :
    (tick s).pending.Perm (State.dueEvents { s with clk := (advanceClocks s).clk }) :=
  enqueueDue_pending (advanceClocks s).dueEvents (s := advanceClocks s) h

/-- Settles O2: the step is the second `tick`, whose queue is an order of the events due; these are listed once each, and
are those whose condition holds. -/
theorem emptyQueueStepIsOneSecond : Obligations.EmptyQueueStepIsOneSecond := by
  intro s h
  have hstep : step s = .next (tick s) := by rw [step, h]
  have hperm := tick_pending_perm h
  refine ⟨tick s, hstep, rfl, rfl, rfl, hperm, hperm.nodup_iff.2 (dueEvents_nodup _),
    fun c => hperm.mem_iff.trans (mem_dueEvents _ c), rfl⟩

end Sys2Proof.Machine
end

