-- ==== Sys2Proof/Proofs/StagedWrites.lean ====
section
/-! SUPPORT. Writes to staged fields in RUNNING: what the row fields and the parameters do to the staging store, and the
divisor of a day that an epoch length is fitted to (R52, R158). -/

namespace Sys2Proof.Machine

/-! ### Fitting (R52, R158) -/

theorem clamp_zero (hi v : Nat) : clamp 0 hi v = min v hi := Nat.zero_max _

theorem optClamp_of_eq {lo hi v : Nat} (h : v = 0xFFFFFFFF) : optClamp lo hi v = none := if_pos h

theorem optClamp_of_ne {lo hi v : Nat} (h : v ≠ 0xFFFFFFFF) : optClamp lo hi v = some (clamp lo hi v) := if_neg h

theorem RowField.stage_iref (v : Nat) : RowField.iref.stage v = fun b => { b with iref := some (clamp 0 65535 v) } := rfl
theorem RowField.stage_prated (v : Nat) : RowField.prated.stage v = fun b => { b with prated := some (clamp 0 65535 v) } :=
  rfl
theorem RowField.stage_sDue (v : Nat) : RowField.sDue.stage v = fun b => { b with sDue := some (optClamp 1 1000 v) } := rfl

theorem Param.ofIndex_index (p : Param) : Param.ofIndex p.info.index = some p := by cases p <;> rfl

theorem Param.index_lt (p : Param) : p.info.index < 38 := p.place.isLt

theorem Param.not_gust_of_staged {p : Param} (h : p.info.staged = true) : p.isGust = false := by
  cases p with
  | releaseGust | watchGust | parkGust | lockoutGust => cases h
  | _ => rfl

theorem fitParam_of_staged {s : State} {p : Param} (hp : p.info.staged = true)
    (he : p ≠ .epochS) (v : Nat) : s.fitParam p v = some (clamp p.info.lo p.info.hi v) := by
  simp only [State.fitParam, Param.not_gust_of_staged hp, decide_eq_false he, Bool.and_false, Bool.false_eq_true, if_false]

theorem fitParam_epochS {s : State} (hrun : s.running = true) (v : Nat) :
    s.fitParam .epochS v = some (dayDivisor (clamp 60 3600 v)) := by
  simp only [State.fitParam, hrun]
  rfl

/-- The largest divisor of a day at or below a positive number. -/
theorem dayDivisor_spec (n : Nat) : 86400 % dayDivisor n = 0 ∧ (1 ≤ n → dayDivisor n ≤ n) ∧
    ∀ d, 86400 % d = 0 → d ≤ n → d ≤ dayDivisor n := by
  induction n with
  | zero => exact ⟨rfl, fun h => absurd h (by omega), fun d _ hd => hd.trans (Nat.zero_le _)⟩
  | succ n ih =>
    obtain ⟨hdiv, hle, hmax⟩ := ih
    unfold dayDivisor
    split
    · next h => exact ⟨h, fun _ => le_rfl, fun _ _ hd => hd⟩
    · next h =>
      refine ⟨hdiv, fun _ => ?_, fun d hd hdn => ?_⟩
      · rcases Nat.eq_zero_or_pos n with rfl | hn
        · exact le_rfl
        · exact (hle hn).trans (Nat.le_succ n)
      · refine hmax d hd (Nat.le_of_lt_succ (lt_of_le_of_ne hdn ?_))
        rintro rfl
        exact h hd

/-! ### Taken writes (R157) -/

theorem exec_tableWrite_taken {q : Req} {s : State} (hq : q.dst.toNat = s.ctl.part.uplink) (table : Byte) (index : Half)
    (fld : Byte) (value : Quad) : exec (.tableWrite q table index fld value) s =
      .next (writeTable q table.toNat index.toNat fld.toNat value.toNat s) :=
  congrArg Host.Outcome.next (if_pos hq)

section Taken

variable {s : State} (q : Req) {table fld i : Nat} (v : Nat) (hrun : s.running = true)
include hrun

theorem writeTable_rowStaged {f : RowField} (ht : Target.ofCodes table fld = some (.rowStaged f)) (hi : i < 1024) :
    writeTable q table i fld v s = reply q clsTableWrite 0 .accepted (be 4 (f.fitted v)) (stageRow i (f.stage v) s) := by
  have hin : ¬(Target.rowStaged f).count ≤ i := not_le.2 hi
  simp only [writeTable, ht, if_neg hin, Target.structural, Bool.false_and, Bool.false_eq_true, if_false, storeWrite, hrun,
    if_true]

theorem writeTable_param {p : Param} {w : Nat} (ht : Target.ofCodes table fld = some .param) (hp : p.info.index = i)
    (hs : p.info.staged = true) (hw : s.fitParam p v = some w) :
    writeTable q table i fld v s = reply q clsTableWrite 0 .accepted (be 4 w) (stageParam p w s) := by
  have hin : ¬Target.param.count ≤ i := not_le.2 (hp ▸ p.index_lt)
  have hof : Param.ofIndex i = some p := hp ▸ p.ofIndex_index
  simp only [writeTable, ht, if_neg hin, Target.structural, Bool.false_and, Bool.false_eq_true, if_false, storeWrite, hof,
    hw, hs, hrun, if_true]

end Taken

/-- Settles O29: by the field. A row's field is fitted by its clamp, a parameter by its range, an epoch length by the
divisor of a day besides. -/
theorem stagedWrites : Obligations.StagedWrites := by
  intro q index value s hq hrun
  dsimp only
  simp only [exec_tableWrite_taken hq, Host.Outcome.next.injEq]
  refine ⟨fun hi => ⟨?_, ?_, ?_, fun hv => ?_, fun hv => ?_⟩, fun p hp hs he => ?_, fun h0 => ?_⟩
  · refine (writeTable_rowStaged q _ hrun (f := .iref) rfl hi).trans ?_
    rw [RowField.fitted, RowField.stage_iref, clamp_zero]
    rfl
  · refine (writeTable_rowStaged q _ hrun (f := .prated) rfl hi).trans ?_
    rw [RowField.fitted, RowField.stage_prated, clamp_zero]
    rfl
  · exact writeTable_rowStaged q _ hrun (f := .length) rfl hi
  · refine (writeTable_rowStaged q _ hrun (f := .sDue) rfl hi).trans ?_
    rw [RowField.fitted, RowField.stage_sDue, optClamp_of_ne hv]
    rfl
  · refine (writeTable_rowStaged q _ hrun (f := .sDue) rfl hi).trans ?_
    rw [RowField.fitted, RowField.stage_sDue, optClamp_of_eq hv, hv]
    rfl
  · refine (writeTable_param q _ hrun rfl hp hs (fitParam_of_staged hs he _)).trans ?_
    simp only [← hp]
    rfl
  · obtain ⟨hdiv, hle, hmax⟩ := dayDivisor_spec (clamp 60 3600 value.toNat)
    have h60 : 60 ≤ clamp 60 3600 value.toNat := le_max_left _ _
    refine ⟨_, (writeTable_param q _ hrun (p := .epochS) rfl h0.symm rfl (fitParam_epochS hrun _)).trans ?_, hdiv,
      hmax 60 rfl h60, hle (by omega), hmax⟩
    simp only [h0]
    rfl

end Sys2Proof.Machine
end

