-- ==== Sys2Proof/Proofs/Clocks.lean ====
section
/-! SUPPORT. The clocks across the commands: every operation but power-on leaves the count of seconds, and every operation
but power-on and TIME SET the plant clock and its set flag (R44 to R46). The runs of moves leave them by their frame; the
lemmas here are for the operations that are no runs of moves. -/

namespace Sys2Proof.Machine

/-! ### Rules -/

theorem Moves.clk_eq {s t : State} (h : Moves Allow.all s t) : t.clk = s.clk := h.site.clk

theorem foldl_clk {β : Type} {l : List β} {f : State → β → State} (h : ∀ b s, (f s b).clk = s.clk) (s : State) :
    (l.foldl f s).clk = s.clk := by
  induction l generalizing s with
  | nil => rfl
  | cons b l ih => exact (ih _).trans (h b s)

theorem forEach_clk {l : List Nat} {f : Nat → State → State} (h : ∀ i s, (f i s).clk = s.clk) (s : State) :
    (forEach l f s).clk = s.clk := foldl_clk h s

theorem inAnyOrder_clk {l : List (State → State)} (h : ∀ f ∈ l, ∀ s, (f s).clk = s.clk) (s : State) :
    (inAnyOrder l s).clk = s.clk := by
  have fold : ∀ m : List (State → State), (∀ f ∈ m, ∀ s, (f s).clk = s.clk) → ∀ s : State,
      (m.foldl (fun (t : State) f => f t) s).clk = s.clk := by
    intro m
    induction m with
    | nil => exact fun _ _ => rfl
    | cons f m ih =>
      exact fun h s => (ih (fun g hg => h g (List.mem_cons_of_mem _ hg)) _).trans (h f (List.mem_cons_self ..) s)
  unfold inAnyOrder
  split
  · rfl
  · exact h _ (List.mem_cons_self ..) s
  · exact fold _ (fun f hf => h f ((freeOrder_perm _ _).mem_iff.1 hf)) _

theorem onlyIf_clk {b : Bool} {g : State → State} (h : ∀ s, (g s).clk = s.clk) : ∀ f ∈ onlyIf b g, ∀ s, (f s).clk = s.clk := by
  intro f hf
  obtain ⟨-, rfl⟩ := mem_onlyIf hf
  exact h

theorem map_clk {l : List Nat} {g : Nat → State → State} (h : ∀ i s, (g i s).clk = s.clk) :
    ∀ f ∈ l.map g, ∀ s, (f s).clk = s.clk := by
  intro f hf
  obtain ⟨i, -, rfl⟩ := List.mem_map.1 hf
  exact h i

/-! ### Answers, flags, and what ends a command -/

section Shared

variable (s : State)

@[simp] theorem settle_clk : (settle s).clk = s.clk := (settle_moves rfl s).clk_eq
@[simp] theorem noteQueues_clk : (noteQueues s).clk = s.clk := rfl
@[simp] theorem latchIf_clk (b : Bool) (f : Flag) : (latchIf b f s).clk = s.clk := (latchIf_moves b f s).clk_eq
@[simp] theorem causeNotice_clk : (causeNotice s).clk = s.clk := by
  unfold causeNotice
  split
  · rfl
  · exact offerNotice_clk s
@[simp] theorem offerAnswer_clk (dst cls : Nat) (p : List Byte) : (offerAnswer dst cls p s).clk = s.clk := by
  unfold offerAnswer
  split <;> rfl
@[simp] theorem reply_clk (q : Req) (cls kind : Nat) (code : Code) (d : List Byte) : (reply q cls kind code d s).clk = s.clk :=
  offerAnswer_clk s _ _ _
@[simp] theorem replyCtl_clk (q : Req) (kind : Nat) (code : Code) (d : List Byte) : (replyCtl q kind code d s).clk = s.clk :=
  reply_clk s _ _ _ _ _
@[simp] theorem offerRelay_clk (src cls : Nat) (p : List Byte) : (offerRelay src cls p s).clk = s.clk := by
  unfold offerRelay
  split <;> rfl
@[simp] theorem useChoice_clk (l : RecBytes) : (useChoice l s).clk = s.clk := by
  unfold useChoice
  split <;> rfl
@[simp] theorem evaluateRound_clk (b : Bool) : (evaluateRound b s).clk = s.clk :=
  (evaluateRound_moves (.inr rfl) b (.inl rfl)).clk_eq
@[simp] theorem takeJudgement_clk (r : Nat) : (takeJudgement r s).clk = s.clk := (takeJudgement_moves r s).clk_eq
@[simp] theorem buildDueList_clk : (buildDueList s).clk = s.clk := (buildDueList_moves s).clk_eq

/-! ### Reports and silences (R15 to R28, R127, R128) -/

@[simp] theorem freeDock_clk (x : Nat) : (freeDock x s).clk = s.clk := rfl
@[simp] theorem occupy_clk (x r : Nat) : (occupy x r s).clk = s.clk := rfl
@[simp] theorem displace_clk (x : Nat) : (displace x s).clk = s.clk := rfl
@[simp] theorem placeRobot_clk (x : Nat) (p : Pos) : (placeRobot x p s).clk = s.clk := by
  cases p with
  | dock r => unfold placeRobot; dsimp only; split <;> rfl
  | row r => unfold placeRobot disturb; dsimp only; split <;> rfl
  | cart c => rfl
@[simp] theorem latchFaulted_clk (x : Nat) (old : RobotState) : (latchFaulted x old s).clk = s.clk := latchIf_clk s _ _
@[simp] theorem acceptRobot_clk (x : Nat) (rep : RobotReport) : (acceptRobot x rep s).clk = s.clk := by simp [acceptRobot]

theorem robotWork_clk (x : Nat) (w : Bool) (res : Option PassResult) (d : Option Nat) (b : Bool) :
    ∀ f ∈ robotWork x w res d b s, ∀ t, (f t).clk = t.clk := fun f hf t =>
  (robotWork_moves x w b s (.inl rfl) (.inl rfl) f hf t).clk_eq

@[simp] theorem handRobot_clk (x : Nat) (w : Bool) (res : Option PassResult) (d : Option Nat) (b : Bool) :
    (handRobot x w res d b s).clk = s.clk := inAnyOrder_clk (robotWork_clk s x w res d b) s
@[simp] theorem handCart_clk (c : Nat) (d : Option Nat) (b : Bool) : (handCart c d b s).clk = s.clk :=
  (handCart_moves c d b s).clk_eq

@[simp] theorem robotReport_clk (x : Nat) (rep : RobotReport) : (robotReport x rep s).clk = s.clk := by
  unfold robotReport
  split
  · simp [refuseRobot]
  dsimp only
  split
  · simp
  · rw [inAnyOrder_clk (forall_append (robotWork_clk _ _ _ _ _ _) (robotWork_clk _ _ _ _ _ _))]
    simp

@[simp] theorem robotSilence_clk (x : Nat) : (robotSilence x s).clk = s.clk := by
  unfold robotSilence
  split
  · dsimp only
    split
    · rw [handRobot_clk, (pinUnder_moves x _).clk_eq]
      simp
    · simp
  · rfl

@[simp] theorem cartReport_clk (c : Nat) (rep : CartReport) : (cartReport c rep s).clk = s.clk := by
  unfold cartReport
  split <;> simp

@[simp] theorem cartSilence_clk (c : Nat) : (cartSilence c s).clk = s.clk := by
  unfold cartSilence
  split <;> simp

@[simp] theorem supervisorSample_clk (r : Nat) (p : Posture) (b : Bool) : (supervisorSample r p b s).1.clk = s.clk :=
  (Moves.after (sampleLevel_moves _ _ _) (.after (sampleUnpin_moves rfl _ _ _)
    (.after (sampleResync_moves _ _ _) (sampleFault_moves _ _ _)))).clk_eq

@[simp] theorem rowReport_clk (r : Nat) (rep : RowReport) : (rowReport r rep s).clk = s.clk := by
  unfold rowReport
  dsimp only
  rw [(releaseSample_moves rfl rfl _ _ _).clk_eq, (sweepSample_moves rfl _ _ _).clk_eq]
  split
  · rw [(rowLevelTold_moves _ _).clk_eq, supervisorSample_clk]
    rfl
  · rw [supervisorSample_clk]
    rfl

@[simp] theorem irradianceSample_clk (m g : Nat) : (irradianceSample m g s).clk = s.clk := by
  rw [irradianceSample, evaluateRound_clk, takeIrradiance]
  split <;> rfl

@[simp] theorem stormSample_clk (m g w : Nat) : (stormSample m g w s).clk = s.clk :=
  (evaluate_moves rfl rfl rfl _).clk_eq

@[simp] theorem mastReport_clk (m : Nat) (rep : MastReport) : (mastReport m rep s).clk = s.clk := by
  refine inAnyOrder_clk (fun f hf => ?_) s
  rcases List.mem_cons.1 hf with rfl | hf
  · exact fun t => stormSample_clk t _ _ _
  · exact onlyIf_clk (fun t => irradianceSample_clk t _ _) f hf

@[simp] theorem mastSilence_clk : (mastSilence s).clk = s.clk := (mastSilence_moves rfl rfl _).clk_eq

@[simp] theorem silenceExpiry_clk : (silenceExpiry s).clk = s.clk := by
  unfold silenceExpiry
  split <;> simp

theorem classifyReport_clk {α : Type} {src : Half} {cls : Nat} {payload : List Byte} {kind : NodeKind} {check : Option α}
    {exception : State → Nat → α → Bool} {deliver : Nat → α → State → State}
    (h : ∀ i rep s, (deliver i rep s).clk = s.clk) :
    (classifyReport src cls payload kind check exception deliver s).clk = s.clk := by
  unfold classifyReport
  split
  · rfl
  split
  · simp
  split
  · simp
  split
  · simp
  split
  · simp
  · dsimp only
    rw [settle_clk, h]
    split <;> simp

/-! ### Epochs, batches, the walk (R46 to R77) -/

@[simp] theorem openEpoch_clk : (openEpoch s).clk = s.clk := by
  have fresh : ∀ i (t : State), (t.updBanks i fun k => { k with opened := some (Bank.fresh (t.robotOn i) false) }).clk = t.clk :=
    fun _ _ => rfl
  exact forEach_clk fresh s

@[simp] theorem takeStaging_clk : (takeStaging s).clk = s.clk := by
  unfold takeStaging
  dsimp only
  split <;> rfl

@[simp] theorem swap_clk (e : Epoch) (voided noTake : Bool) : (swap e voided noTake s).clk = s.clk := by
  unfold swap
  dsimp only
  have swapped : ∀ r t, (swapRow r t).clk = t.clk := fun _ _ => rfl
  rw [latchIf_clk, State.setEp_clk, State.setYld_clk, forEach_clk swapped]
  split
  · rfl
  · exact takeStaging_clk s

@[simp] theorem boundary_clk (voided noTake : Bool) : (boundary voided noTake s).clk = s.clk := by
  unfold boundary
  split
  · rfl
  · dsimp only
    split
    · split <;> rfl
    · exact swap_clk s _ _ _

@[simp] theorem boundaryExpiry_clk : (boundaryExpiry s).clk = s.clk := by
  unfold boundaryExpiry
  split <;> simp

@[simp] theorem applyStaging_clk (g : Staging) : (applyStaging g s).clk = s.clk := by
  unfold applyStaging
  dsimp only
  refine (foldl_clk (fun p t => ?_) _).trans (foldl_clk (fun p t => State.updCfg_clk t _ _) s)
  split <;> rfl

@[simp] theorem applyBatch_clk : (applyBatch s).clk = s.clk := by
  unfold applyBatch
  split
  · rfl
  · dsimp only
    split <;> simp [forEach_clk (fun r t => takeJudgement_clk t r)]

@[simp] theorem offerReport_clk : (offerReport s).clk = s.clk := by
  unfold offerReport
  split <;> simp

@[simp] theorem walkRow_clk (r : Nat) (w : Walk) : (walkRow r w s).1.clk = s.clk := by
  unfold walkRow
  split
  · rfl
  split
  · rfl
  split <;> simp [walkVoid, walkMeasured]

@[simp] theorem finishWalk_clk (w : Walk) : (finishWalk w s).clk = s.clk := by
  unfold finishWalk
  dsimp only
  split <;> simp

@[simp] theorem walkStep_clk : (walkStep s).clk = s.clk := by
  unfold walkStep
  split
  · rfl
  split
  · simp
  dsimp only
  split <;> split <;> simp

/-! ### Requests (R38, R46, R55, R150 to R168) -/

theorem paramActs_clk (p : Param) (s0 : State) : ∀ f ∈ paramActs p s0, ∀ s, (f s).clk = s.clk := by
  unfold paramActs
  split
  · exact onlyIf_clk fun s => (watchExpiry_moves rfl s).clk_eq
  · exact onlyIf_clk fun s => (parkExpiry_moves rfl rfl s).clk_eq
  · exact onlyIf_clk fun s => (calmExpiry_moves rfl rfl s).clk_eq
  · exact onlyIf_clk fun s => (releaseExpiry_moves rfl rfl s).clk_eq
  · exact onlyIf_clk fun s => (lockoutExpiry_moves rfl s).clk_eq
  · exact onlyIf_clk silenceExpiry_clk
  · exact map_clk fun x s => robotSilence_clk s x
  · exact map_clk fun c s => cartSilence_clk s c
  · exact forall_append (map_clk fun x s => (parkReplay_moves x s).clk_eq) (map_clk fun c s => (garageReplay_moves c s).clk_eq)
  · exact onlyIf_clk fun s => (stallExpiry_moves s).clk_eq
  iterate 4 exact fun f hf s => List.mem_singleton.1 hf ▸ evaluateRound_clk s false
  · exact fun _ hf => absurd hf List.not_mem_nil

@[simp] theorem storeLive_clk (p : Param) (v : Nat) : (storeLive p v s).clk = s.clk := by
  unfold storeLive
  dsimp only
  rw [settle_clk, inAnyOrder_clk (paramActs_clk p _)]
  split <;> rfl

@[simp] theorem judgeWritten_clk (r : Nat) : (judgeWritten r s).clk = s.clk := by
  unfold judgeWritten
  split <;> simp

@[simp] theorem storeWrite_clk (t : Target) (i v : Nat) : (storeWrite t i v s).1.clk = s.clk := by
  cases t with
  | partUplink | partField | partSupervisor | rowStaged f => unfold storeWrite; dsimp only; split <;> rfl
  | rowBaseline => exact judgeWritten_clk _ i
  | rowCapture => unfold storeWrite; dsimp only; split <;> exact judgeWritten_clk _ i
  | param =>
    unfold storeWrite
    dsimp only
    split
    · rfl
    split
    · rfl
    split
    · dsimp only
      split <;> rfl
    · exact storeLive_clk s _ _
  | _ => rfl

@[simp] theorem writeTable_clk (q : Req) (table index fld value : Nat) :
    (writeTable q table index fld value s).clk = s.clk := by
  unfold writeTable
  split
  · simp
  next t _ =>
  split
  · simp
  split
  · simp
  have stored := storeWrite_clk s t index value
  generalize storeWrite t index value s = p at stored ⊢
  obtain ⟨u, a⟩ := p
  cases a <;> simpa using stored

@[simp] theorem readTable_clk (q : Req) (table first count : Nat) : (readTable q table first count s).clk = s.clk := by
  unfold readTable
  split
  · simp
  split <;> simp

@[simp] theorem passOrder_clk (q : Req) (dest : Nat) (o : Order) : (passOrder q dest o s).clk = s.clk := by
  unfold passOrder
  split <;> simp

@[simp] theorem requestOrder_clk (q : Req) (dest cls : Nat) (p : List Byte) : (requestOrder q dest cls p s).clk = s.clk := by
  unfold requestOrder
  split
  · simp
  split
  · split <;> simp
  · simp

@[simp] theorem entrySilence_clk : (entrySilence s).clk = s.clk := by
  unfold entrySilence
  split <;> simp

@[simp] theorem requestCommit_clk (q : Req) : (requestCommit q s).clk = s.clk := by
  unfold requestCommit
  split
  · simp
  split
  · simp
  · rw [replyCtl_clk, enterRunning]
    simp only [settle_clk, entrySilence_clk, restartPlanner, buildDueList_clk, State.setRnd_clk]
    split
    · exact openEpoch_clk _
    · rfl

@[simp] theorem requestDecommit_clk (q : Req) : (requestDecommit q s).clk = s.clk := by
  have direct : (applyDirect s).clk = s.clk := by
    unfold applyDirect
    dsimp only
    split <;> simp
  unfold requestDecommit
  split
  · simp
  · rw [replyCtl_clk, ← direct]
    rfl

@[simp] theorem clearQueues_clk : (clearQueues s).clk = s.clk := rfl

@[simp] theorem resetEpoch_clk : (resetEpoch s).clk = s.clk := by
  unfold resetEpoch
  split <;> simp

@[simp] theorem restartFleet_clk : (restartFleet s).clk = s.clk := rfl

@[simp] theorem requestReset_clk (q : Req) : (requestReset q s).clk = s.clk := by
  unfold requestReset
  rw [replyCtl_clk]
  split
  · unfold resetRunning
    simp only [settle_clk, entrySilence_clk, restartPlanner, buildDueList_clk, State.setRnd_clk]
    show (ite _ _ _ : State).clk = _
    split
    · rw [inAnyOrder_clk (fun f hf => ?_), clearQueues_clk]
      simp only [List.mem_cons, List.not_mem_nil, or_false] at hf
      rcases hf with rfl | rfl
      · exact resetEpoch_clk
      · exact restartFleet_clk
    · simp
  · simp

@[simp] theorem advisoryExpiry_clk : (advisoryExpiry s).clk = s.clk := by
  unfold advisoryExpiry
  split
  · exact (parkCause_moves rfl rfl _).clk_eq
  · rfl

@[simp] theorem clockStep_clk : (clockStep s).clk = s.clk := by
  unfold clockStep
  rw [settle_clk]
  refine inAnyOrder_clk (fun f hf => ?_) s
  rcases List.mem_cons.1 hf with rfl | hf
  · exact fun t => evaluateRound_clk t true
  · exact onlyIf_clk advisoryExpiry_clk f hf

/-- TIME SET loads the plant clock and sets its flag (R46). -/
theorem requestTime_clk (q : Req) (v : Nat) : (requestTime q v s).clk = ⟨s.clk.mono, v, true⟩ := by
  unfold requestTime
  dsimp only
  rw [replyCtl_clk]
  split
  · rw [clockStep_clk]
    split <;> simp
  · simp

@[simp] theorem requestClose_clk (q : Req) : (requestClose q s).clk = s.clk := by
  unfold requestClose
  split
  · simp
  split
  · simp
  split <;> simp

@[simp] theorem requestForce_clk (q : Req) (flags : Byte) : (requestForce q flags s).clk = s.clk := by
  have effect : ∀ flag s0, ((forceEffect flag s0).2 s).clk = s.clk := by
    intro flag s0
    have release : (releaseEntry s).clk = s.clk := (releaseEntry_moves rfl rfl s).clk_eq
    unfold forceEffect
    split
    case h_2 => exact (lockoutEntry_moves rfl rfl s).clk_eq
    case h_6 => exact (parkEntry_moves rfl rfl s).clk_eq
    case h_7 | h_8 =>
      split
      · rfl
      · exact release
    all_goals rfl
  simp [requestForce, effect]

@[simp] theorem requestAdvisory_clk (q : Req) (v : Nat) : (requestAdvisory q v s).clk = s.clk := by
  unfold requestAdvisory
  split <;> simp

theorem plannerChange_clk (x : Nat) (w : Bool) (res : Option PassResult) : (plannerChange x w res s).clk = s.clk :=
  (plannerChange_moves x w (.inl rfl) s).clk_eq

theorem stormRobot_clk (x : Nat) (b : Bool) : (stormRobot x b s).clk = s.clk := (stormRobot_moves x b s).clk_eq

@[simp] theorem setMode_clk (x : Nat) (m : CtrlMode) : (setMode x m s).clk = s.clk := by
  unfold setMode
  refine inAnyOrder_clk (forall_append (forall_append (onlyIf_clk fun t => plannerChange_clk t _ _ _)
    (onlyIf_clk fun t => ?_)) (onlyIf_clk fun t => stormRobot_clk t _ _)) _
  unfold manualTransfer
  split
  · exact (transferWithdraw_moves _ _ t).clk_eq
  · exact (transferRobot_moves x (.inl rfl) t).clk_eq

@[simp] theorem requestManual_clk (q : Req) (x mode : Nat) : (requestManual q x mode s).clk = s.clk := by
  unfold requestManual
  dsimp only
  split
  · simp
  split
  · simp
  split <;> simp

@[simp] theorem requestClear_clk (q : Req) (x : Nat) : (requestClear q x s).clk = s.clk := by
  unfold requestClear
  split
  · simp
  split
  · simp
  split <;> simp

@[simp] theorem dropStalled_clk (x : Nat) : (dropStalled x s).clk = s.clk := by
  unfold dropStalled
  split
  · rfl
  · refine Moves.clk_eq (.after (garageFreed_moves _ _) (.after (freeReservation_moves _ _ _) (removeTransfer_moves _ _ _ ?_ s)))
    exact fun k l => unload_rederive rfl k l

theorem waitingArbiters_clk (c : Prop) [Decidable c] :
    ∀ f ∈ (if c then s.waitingArbiters else []), ∀ t, (f t).clk = t.clk := by
  intro f hf
  split at hf
  · exact map_clk (fun l t => (arbiter_moves l t).clk_eq) f hf
  · exact absurd hf List.not_mem_nil

@[simp] theorem resolve_clk (x row : Nat) : (resolve x row s).clk = s.clk := by
  have unloaded : (forEach s.cartIds (unload x) s).clk = s.clk := by
    refine forEach_clk (fun c t => ?_) s
    unfold unload
    split <;> rfl
  unfold resolve
  dsimp only
  rw [inAnyOrder_clk (forall_append (forall_append (forall_append (onlyIf_clk fun t => plannerChange_clk t _ _ _)
    (waitingArbiters_clk _ _)) (onlyIf_clk fun t => ?_)) (onlyIf_clk fun t => (sweepFreed_moves t).clk_eq))]
  · split <;> simp [unloaded]
  · split
    · exact (leavePark_moves x t).clk_eq
    · exact stormRobot_clk t _ _

@[simp] theorem requestResolve_clk (q : Req) (x row : Nat) : (requestResolve q x row s).clk = s.clk := by
  unfold requestResolve
  split <;> simp

@[simp] theorem clearAccount_clk (r : Nat) : (clearAccount r s).clk = s.clk := by
  unfold clearAccount
  dsimp only
  split <;> rfl

@[simp] theorem requestAccounts_clk (q : Req) (row : Nat) : (requestAccounts q row s).clk = s.clk := by
  unfold requestAccounts
  split
  · simp [forEach_clk (fun r t => clearAccount_clk t r)]
  split <;> simp

@[simp] theorem requestNoticeMask_clk (q : Req) (marks : BitVec 24) : (requestNoticeMask q marks s).clk = s.clk := by
  unfold requestNoticeMask
  dsimp only
  rw [replyCtl_clk]
  split <;> simp

/-! ### Transmitters and timers -/

@[simp] theorem uplinkStart_clk : (uplinkStart s).clk = s.clk := by
  unfold uplinkStart
  split
  · dsimp only
    split <;> rfl
  · rfl

@[simp] theorem uplinkEnd_clk : (uplinkEnd s).clk = s.clk := by
  unfold uplinkEnd
  split
  · rfl
  · dsimp only
    split
    · exact offerNotice_clk _
    · rfl

@[simp] theorem frameStart_clk : (frameStart s).clk = s.clk := by
  unfold frameStart
  split
  · have chosen := (chooseEntry_moves (A := Allow.all) (s.dsp.routine.length + 1) s).clk_eq
    generalize chooseEntry (s.dsp.routine.length + 1) s = p at chosen ⊢
    obtain ⟨t, _ | ⟨e, urgent⟩⟩ := p
    · exact chosen
    · exact (entryLeft_moves _ _).clk_eq.trans chosen
  · rfl

@[simp] theorem frameEnd_clk : (frameEnd s).clk = s.clk := by
  unfold frameEnd
  split
  · rfl
  · dsimp only
    rw [(reofferAll_moves _).clk_eq]
    split
    · exact (sentEvent_moves _ _).clk_eq
    · rfl

@[simp] theorem levelExpiry_clk (r : Nat) : (levelExpiry r s).clk = s.clk := by
  unfold levelExpiry
  split
  · rfl
  split
  · dsimp only
    rw [(levelTimedOut_moves _ _).clk_eq, (releaseLevel_moves _ _ _).clk_eq]
    simp
  · rfl

end Shared

/-! ### The commands -/

/-- The command leaves the clocks. -/
def KeepsClocks (c : Instr) : Prop := ∀ s t, exec c s = .next t → t.clk = s.clk

/-- A command that is an operation on the state leaves the clocks where the operation does. -/
theorem KeepsClocks.of {c : Instr} {f : State → State} (h : ∀ s, exec c s = .next (f s)) (k : ∀ s, (f s).clk = s.clk) :
    KeepsClocks c := by
  intro s t ht
  rw [h] at ht
  cases ht
  exact k s

theorem settled_clk {f : State → State} (h : ∀ s, (f s).clk = s.clk) (s : State) : (settle (f s)).clk = s.clk :=
  (settle_clk _).trans (h s)

theorem taken_clk (q : Req) {f : State → State} (h : ∀ s, (f s).clk = s.clk) (s : State) : (taken q s f).clk = s.clk := by
  unfold taken
  split
  · exact h s
  · rfl

theorem takenRunning_clk (q : Req) (kind : Nat) {f : State → State} (h : ∀ s, (f s).clk = s.clk) (s : State) :
    (takenRunning q kind s f).clk = s.clk := by
  refine taken_clk q (fun t => ?_) s
  split
  · exact h t
  · exact replyCtl_clk t _ _ _ _

/-- A rejected frame latches a framing flag or does nothing. -/
theorem keepsClocks_of_rejected {bytes : List Byte} :
    ((Instr.fieldFrameRejected bytes).wf = true → KeepsClocks (.fieldFrameRejected bytes)) ∧
      ((Instr.uplinkFrameRejected bytes).wf = true → KeepsClocks (.uplinkFrameRejected bytes)) := by
  have ite_clk : ∀ {c : Prop} [Decidable c] (s : State) (f : Flag), (if c then s else latch f s).clk = s.clk := by
    intro c _ s f
    split <;> simp
  refine ⟨fun h s t ht => ?_, fun h s t ht => ?_⟩
  · obtain ⟨bad, good⟩ := (rejectedFramesLatch bytes s).1 h
    cases hj : judgeFrame bytes with
    | noFrame => simp [Instr.wf, fieldRejects, hj] at h
    | bad => rw [bad hj] at ht; cases ht; simp
    | good f => rw [good f hj] at ht; cases ht; exact ite_clk s _
  · obtain ⟨bad, good⟩ := (rejectedFramesLatch bytes s).2 h
    cases hj : judgeFrame bytes with
    | noFrame => simp [Instr.wf, uplinkRejects, hj] at h
    | bad => rw [bad hj] at ht; cases ht; simp
    | good f => rw [good f hj] at ht; cases ht; exact ite_clk s _

theorem keepsClocks {c : Instr} (hc : c.wf = true) (hp : c ≠ .powerOnReset) (hq : ∀ q v, c ≠ .timeSet q v) :
    KeepsClocks c := by
  cases c with
  | powerOnReset => exact absurd rfl hp
  | fieldFrameRejected bytes => exact keepsClocks_of_rejected.1 hc
  | rowSample src current posture fault =>
    exact .of (fun _ => rfl) fun s => classifyReport_clk s fun r rep t => rowReport_clk t r rep
  | mastSample src irradiance mean gust =>
    exact .of (fun _ => rfl) fun s => classifyReport_clk s fun m rep t => mastReport_clk t m rep
  | robotStatus src kind index activity result metres charge fault =>
    exact .of (fun _ => rfl) fun s => classifyReport_clk s fun x rep t => robotReport_clk t x rep
  | cartStatus src slot motion garaged load fault =>
    exact .of (fun _ => rfl) fun s => classifyReport_clk s fun c rep t => cartReport_clk t c rep
  | leaveAsk src => exact .of (fun _ => rfl) fun s => classifyReport_clk s fun x _ t => (leaveAsked_moves x t).clk_eq
  | uplinkFrameRejected bytes => exact keepsClocks_of_rejected.2 hc
  | tableWrite q table index fld value => exact .of (fun _ => rfl) (taken_clk q fun s => writeTable_clk s _ _ _ _ _)
  | baselineValueWrite q index value => exact .of (fun _ => rfl) (taken_clk q fun s => writeTable_clk s _ _ _ _ _)
  | baselineReset q index => exact .of (fun _ => rfl) (taken_clk q fun s => writeTable_clk s _ _ _ _ _)
  | tableRead q table first count => exact .of (fun _ => rfl) (taken_clk q fun s => readTable_clk s _ _ _ _)
  | order q dest cls payload => exact .of (fun _ => rfl) (taken_clk q fun s => requestOrder_clk s _ _ _ _)
  | commit q => exact .of (fun _ => rfl) (taken_clk q fun s => requestCommit_clk s q)
  | decommit q => exact .of (fun _ => rfl) (takenRunning_clk q 2 fun s => requestDecommit_clk s q)
  | timeSet q time => exact absurd rfl (hq q time)
  | stormForce q flags => exact .of (fun _ => rfl) (takenRunning_clk q 4 fun s => requestForce_clk s q flags)
  | stormAdvisory q arrival => exact .of (fun _ => rfl) (takenRunning_clk q 5 fun s => requestAdvisory_clk s q _)
  | advisoryCancel q => exact .of (fun _ => rfl) (takenRunning_clk q 6 fun s => replyCtl_clk _ _ _ _ _)
  | robotManual q robot mode => exact .of (fun _ => rfl) (takenRunning_clk q 7 fun s => requestManual_clk s q _ _)
  | robotClear q robot => exact .of (fun _ => rfl) (takenRunning_clk q 8 fun s => requestClear_clk s q _)
  | transferResolve q robot row => exact .of (fun _ => rfl) (takenRunning_clk q 9 fun s => requestResolve_clk s q _ _)
  | roundsEnable q value =>
    exact .of (fun _ => rfl) (takenRunning_clk q 10 fun s => (replyCtl_clk _ _ _ _ _).trans (storeLive_clk s _ _))
  | closeNow q => exact .of (fun _ => rfl) (takenRunning_clk q 11 fun s => requestClose_clk s q)
  | accountClear q row => exact .of (fun _ => rfl) (takenRunning_clk q 12 fun s => requestAccounts_clk s q _)
  | resetRun q => exact .of (fun _ => rfl) (taken_clk q fun s => requestReset_clk s q)
  | noticeClear q marks => exact .of (fun _ => rfl) (taken_clk q fun s => replyCtl_clk _ _ _ _ _)
  | noticeMask q marks => exact .of (fun _ => rfl) (taken_clk q fun s => requestNoticeMask_clk s q marks)
  | controlUnknownKind q kind => exact .of (fun _ => rfl) (taken_clk q fun s => replyCtl_clk s _ _ _ _)
  | frameStart => exact .of (fun _ => rfl) (settled_clk frameStart_clk)
  | frameEnd => exact .of (fun _ => rfl) (settled_clk frameEnd_clk)
  | sendPermitChange asserted => exact .of (fun _ => rfl) fun _ => rfl
  | permitStallExpiry => exact .of (fun _ => rfl) fun s => (stallExpiry_moves s).clk_eq
  | uplinkFrameStart => exact .of (fun _ => rfl) uplinkStart_clk
  | uplinkFrameEnd => exact .of (fun _ => rfl) uplinkEnd_clk
  | levelDeadlineExpiry row => exact .of (fun _ => rfl) (settled_clk fun s => levelExpiry_clk s row)
  | robotSilenceExpiry robot => exact .of (fun _ => rfl) (settled_clk fun s => robotSilence_clk s robot)
  | cartSilenceExpiry cart => exact .of (fun _ => rfl) (settled_clk fun s => cartSilence_clk s cart)
  | mastSilenceEvent => exact .of (fun _ => rfl) (settled_clk silenceExpiry_clk)
  | mastRecordStale mast =>
    refine .of (fun _ => rfl) (settled_clk fun s => ?_)
    unfold recordStale
    split <;> simp
  | passDeadlineExpiry robot =>
    refine .of (fun _ => rfl) (settled_clk fun s => ?_)
    unfold passExpiry
    split
    · exact (abandon_moves robot s).clk_eq
    · rfl
  | phaseDeadlineExpiry cart => exact .of (fun _ => rfl) (settled_clk fun s => (phaseExpiry_moves cart s).clk_eq)
  | watchTimerExpiry => exact .of (fun _ => rfl) (settled_clk fun s => (watchExpiry_moves rfl s).clk_eq)
  | parkTimerExpiry => exact .of (fun _ => rfl) (settled_clk fun s => (parkExpiry_moves rfl rfl s).clk_eq)
  | calmTimerExpiry => exact .of (fun _ => rfl) (settled_clk fun s => (calmExpiry_moves rfl rfl s).clk_eq)
  | releaseTimerExpiry => exact .of (fun _ => rfl) (settled_clk fun s => (releaseExpiry_moves rfl rfl s).clk_eq)
  | lockoutTimerExpiry => exact .of (fun _ => rfl) (settled_clk fun s => (lockoutExpiry_moves rfl s).clk_eq)
  | stowDeadlineExpiry row => exact .of (fun _ => rfl) (settled_clk fun s => (stowExpiry_moves row s).clk_eq)
  | releaseDeadlineExpiry row =>
    exact .of (fun _ => rfl) (settled_clk fun s => (releaseRowExpiry_moves rfl rfl row s).clk_eq)
  | parkRepeatReplay robot => exact .of (fun _ => rfl) (settled_clk fun s => (parkReplay_moves robot s).clk_eq)
  | garageReplay cart => exact .of (fun _ => rfl) (settled_clk fun s => (garageReplay_moves cart s).clk_eq)
  | epochBoundary => exact .of (fun _ => rfl) boundaryExpiry_clk
  | roundWindowEdge =>
    refine .of (fun _ => rfl) (settled_clk fun s => ?_)
    unfold windowEdge
    split <;> simp
  | advisoryReached => exact .of (fun _ => rfl) (settled_clk advisoryExpiry_clk)
  | walkStep => exact .of (fun _ => rfl) (settled_clk walkStep_clk)

theorem exec_timeSet_mono {q : Req} {v : Quad} {s t : State} (h : exec (.timeSet q v) s = .next t) :
    t.clk.mono = s.clk.mono := by
  cases h
  show (taken q s (requestTime q v.toNat)).clk.mono = _
  unfold taken
  split
  · rw [requestTime_clk]
  · rfl

/-- Settles O3: TIME SET by what it does to the clocks, every other command by leaving them. -/
theorem commandsKeepTheClocks : Obligations.CommandsKeepTheClocks := by
  intro c s t hc hp h
  by_cases hq : ∀ q v, c ≠ .timeSet q v
  · have kept := keepsClocks hc hp hq s t h
    rw [kept]
    exact ⟨rfl, fun _ => ⟨rfl, rfl⟩⟩
  · refine ⟨?_, fun k => absurd k hq⟩
    push Not at hq
    obtain ⟨q, v, rfl⟩ := hq
    exact exec_timeSet_mono h

end Sys2Proof.Machine
end

