-- ==== Sys2Proof/Proofs/Epochs.lean ====
section
/-! SUPPORT. The opening and the swap of an epoch, said once: what a swap makes of banks, site banks, walk, staging store and
batch, and what it leaves alone (R46 to R50, R53, R62, R69). -/

namespace Sys2Proof.Machine

/-! ### A latch changes notices and the uplink queue alone -/

theorem latch_eq (f : Flag) (s : State) :
    ∃ n q, latch f s = { s with ntc := n, up := { s.up with queue := q } } := by
  unfold latch causeNotice offerNotice
  dsimp only
  split_ifs <;> exact ⟨_, _, rfl⟩

theorem latchIf_eq (b : Bool) (f : Flag) (s : State) :
    ∃ n q, latchIf b f s = { s with ntc := n, up := { s.up with queue := q } } := by
  unfold latchIf
  split
  · exact latch_eq f s
  · exact ⟨_, _, rfl⟩

theorem latchIf_flag {b : Bool} (hb : b = true) (f : Flag) (s : State) : hasFlag (latchIf b f s).ntc.latched f = true := by
  rw [latchIf, if_pos hb, latch_flag]
  simp

section LatchIf

variable (b : Bool) (f : Flag) (s : State)

@[simp] theorem latchIf_ep : (latchIf b f s).ep = s.ep := (latchIf_moves (A := {}) b f s).site.ep
@[simp] theorem latchIf_yld : (latchIf b f s).yld = s.yld := (latchIf_moves (A := {}) b f s).site.yld
@[simp] theorem latchIf_ctl : (latchIf b f s).ctl = s.ctl := (latchIf_moves (A := {}) b f s).site.ctl
@[simp] theorem latchIf_row (r : Nat) : (latchIf b f s).row r = s.row r := by
  obtain ⟨_, _, h⟩ := latchIf_eq b f s
  rw [h]
  rfl
@[simp] theorem latchIf_rnd : (latchIf b f s).rnd = s.rnd := by
  obtain ⟨_, _, h⟩ := latchIf_eq b f s
  rw [h]

end LatchIf

/-! ### Fresh banks for each row in turn -/

/-- Banks changed for each row in turn, by what no bank has a part in. -/
theorem forEach_updBanks {g : Nat → State → Banks → Banks} (hg : ∀ i r f s, i ≠ r → g r (s.updBanks i f) = g r s)
    {l : List Nat} (hl : l.Nodup) (s : State) :
    ∃ rows, forEach l (fun r t => t.updBanks r (g r t)) s = { s with rows := rows } ∧
      ∀ j, rows.get j = if j ∈ l then { s.row j with banks := g j s (s.row j).banks } else s.row j := by
  induction l generalizing s with
  | nil => exact ⟨s.rows, rfl, fun j => rfl⟩
  | cons a l ih =>
    obtain ⟨ha, hl⟩ := List.nodup_cons.1 hl
    obtain ⟨rows, heq, hget⟩ := ih hl (s.updBanks a (g a s))
    refine ⟨rows, heq, fun j => ?_⟩
    rw [hget, State.row_updBanks]
    by_cases hja : j = a
    · subst hja
      simp [ha]
    · simp only [hja, if_false, List.mem_cons, false_or, hg a j _ s (Ne.symm hja)]

/-! ### The staging store at a swap (R53, R58) -/

/-- The staging store without its epoch length: the batch in hand, or none where that holds nothing (log 27). -/
def Staging.rest (g : Staging) : Option Staging :=
  if Staging.isEmpty ⟨g.rows, g.params.set 0 none⟩ then none else some ⟨g.rows, g.params.set 0 none⟩

theorem Tab.eq_empty_iff {α : Type} {d : α} {t : Tab d} : t.1 = [] ↔ ∀ k, t.get k = d := by
  constructor
  · intro h k
    rw [Tab.get, h]
    rfl
  · intro h
    rw [Tab.ext_get (u := Tab.empty d) h]
    rfl

theorem Staging.isEmpty_iff {g : Staging} :
    Staging.isEmpty ⟨g.rows, g.params.set 0 none⟩ = true ↔
      g.rows = Tab.empty _ ∧ ∀ k, k ≠ 0 → g.params.get k = none := by
  simp only [Staging.isEmpty, Bool.and_eq_true, decide_eq_true_eq]
  refine and_congr ⟨fun h => Subtype.ext h, fun h => by rw [h]; rfl⟩ ?_
  rw [Tab.eq_empty_iff]
  refine forall_congr' fun k => ?_
  rw [Tab.get_set]
  by_cases hk : k = 0 <;> simp [hk]

theorem Staging.rest_of_empty {g : Staging} (hr : g.rows = Tab.empty _) (hp : ∀ k, k ≠ 0 → g.params.get k = none) :
    g.rest = none := if_pos (isEmpty_iff.2 ⟨hr, hp⟩)

theorem Staging.rest_of_some {g : Staging} (h : g.rows ≠ Tab.empty _ ∨ ∃ k, k ≠ 0 ∧ g.params.get k ≠ none) :
    g.rest = some ⟨g.rows, g.params.set 0 none⟩ := by
  refine if_neg fun he => ?_
  obtain ⟨hr, hp⟩ := isEmpty_iff.1 he
  rcases h with h | ⟨k, hk, h⟩
  · exact h hr
  · exact h (hp k hk)

/-- The batch in hand differs from a row's active fields where the staging store did. -/
theorem Staging.rest_differs (g : Staging) (r : Nat) (c : RowCfg) :
    g.rest.any (fun b => (b.rows.get r).differs c) = (g.rows.get r).differs c := by
  unfold Staging.rest
  split
  · next h =>
    rw [(isEmpty_iff.1 h).1]
    rfl
  · rfl

/-- The parameters, the batch in hand and the staging store after a swap took the store, or left it (R53, R58). -/
def State.takenParams (noTake : Bool) (s : State) : Params :=
  if noTake then s.ctl.params
  else
    match s.ep.staging.params.get 0 with
    | some v => s.ctl.params.set Param.epochS.place v
    | none => s.ctl.params

def State.takenBatch (noTake : Bool) (s : State) : Option Staging := if noTake then none else s.ep.staging.rest

def State.takenStaging (noTake : Bool) (s : State) : Staging := if noTake then s.ep.staging else Staging.empty

/-- The state as a swap takes or leaves the staging store. -/
def State.storeTaken (noTake : Bool) (s : State) : State :=
  { s with
    ctl := { s.ctl with params := s.takenParams noTake }
    ep := { s.ep with batch := s.takenBatch noTake, staging := s.takenStaging noTake } }

theorem storeTaken_eq (noTake : Bool) (s : State) :
    (if noTake then s.setEp (fun e => { e with batch := none }) else takeStaging s) = s.storeTaken noTake := by
  cases noTake with
  | true => rfl
  | false =>
    have h0 : Param.epochS.info.index = 0 := rfl
    simp only [Bool.false_eq_true, if_false, takeStaging, State.storeTaken, State.takenParams, State.takenBatch,
      State.takenStaging, h0]
    cases s.ep.staging.params.get 0 <;> rfl

theorem par_takenParams (noTake : Bool) (s : State) (p : Param) :
    (s.storeTaken noTake).par p =
      if noTake = false ∧ p = .epochS then (s.ep.staging.params.get 0).getD (s.par .epochS) else s.par p := by
  cases noTake with
  | true => rfl
  | false =>
    show Vector.get (s.takenParams false) p.place = _
    simp only [State.takenParams, Bool.false_eq_true, if_false, true_and]
    cases s.ep.staging.params.get 0 with
    | some v => exact State.par_setPar s .epochS p v
    | none =>
      show s.par p = if p = .epochS then s.par .epochS else s.par p
      split
      · next hp => rw [hp]
      · rfl

/-! ### The swap (R49, R53, R62, R69) -/

/-- The walk that a swap of epoch e starts. -/
def swapWalk (e : Epoch) (voided : Bool) (s : State) : Walk :=
  startWalk e.startPlant s.clk.clock (s.now - e.startMono) (voided || decide (s.now - e.startMono < 60) || e.voidMark)
    (s.yld.openSite.getD SiteBank.fresh)

/-- The banks of a row after a swap. -/
def swapBanks (r : Nat) (s : State) (k : Banks) : Banks :=
  ⟨some (Bank.fresh (s.robotOn r) (s.ep.batch.any fun b => (b.rows.get r).differs (s.row r).cfg)), k.opened⟩

/-- The rows after a swap. -/
def State.swappedRows (noTake : Bool) (s : State) : Tab Row.powerOn :=
  (forEach s.rowIds swapRow (s.storeTaken noTake)).rows

/-- The state after a swap but for EPOCH_VOID. -/
def swapCore (e : Epoch) (voided noTake : Bool) (s : State) : State :=
  { s with
    rows := s.swappedRows noTake
    ctl := { s.ctl with params := s.takenParams noTake }
    yld := ⟨some ⟨0, 0⟩, some (s.yld.openSite.getD ⟨0, 0⟩), some (swapWalk e voided s)⟩
    ep := ⟨some ⟨s.clk.clock, s.now, nominalEnd s.clk.clock ((s.storeTaken noTake).par .epochS), false⟩, none,
      s.takenStaging noTake, s.takenBatch noTake, s.ep.acc⟩ }

theorem swapRows_spec (noTake : Bool) (s : State) :
    forEach s.rowIds swapRow (s.storeTaken noTake) = { s.storeTaken noTake with rows := s.swappedRows noTake } ∧
      ∀ j, (s.swappedRows noTake).get j =
        if j ∈ s.rowIds then { s.row j with banks := swapBanks j (s.storeTaken noTake) (s.row j).banks } else s.row j := by
  have local_swap : ∀ i r f t, i ≠ r → swapBanks r (State.updBanks t i f) = swapBanks r t := by
    intro i r f t hir
    unfold swapBanks
    rw [State.row_updBanks, if_neg (Ne.symm hir)]
    rfl
  obtain ⟨rows, heq, hget⟩ :=
    forEach_updBanks (g := swapBanks) local_swap (Tab.idsWhere_nodup s.rows fun r => r.cfg.node.isSome) (s.storeTaken noTake)
  have hrows : s.swappedRows noTake = rows := congrArg State.rows heq
  rw [hrows]
  exact ⟨heq, hget⟩

theorem swap_eq (e : Epoch) (voided noTake : Bool) (s : State) :
    swap e voided noTake s = latchIf (swapWalk e voided s).siteVoid .epochVoid (swapCore e voided noTake s) := by
  unfold swap
  dsimp only
  rw [storeTaken_eq, show (s.storeTaken noTake).rowIds = s.rowIds from rfl, (swapRows_spec noTake s).1]
  rfl

/-- A swap leaves everything but epochs, banks, staging store and EPOCH_VOID. -/
theorem swap_frame (e : Epoch) (voided noTake : Bool) (s : State) :
    let u := swap e voided noTake s
    { u with
      rows := s.rows, ep := s.ep, yld := s.yld, ntc := s.ntc, up := { u.up with queue := s.up.queue }
      ctl := { u.ctl with params := s.ctl.params } } = s := by
  obtain ⟨n, q, h⟩ := latchIf_eq (swapWalk e voided s).siteVoid .epochVoid (swapCore e voided noTake s)
  rw [← swap_eq] at h
  dsimp only
  rw [h]
  rfl

section Swap

variable (e : Epoch) (voided noTake : Bool) (s : State)

theorem swap_ep : (swap e voided noTake s).ep = (swapCore e voided noTake s).ep := by rw [swap_eq, latchIf_ep]
theorem swap_yld : (swap e voided noTake s).yld = (swapCore e voided noTake s).yld := by rw [swap_eq, latchIf_yld]

theorem swap_par (p : Param) : (swap e voided noTake s).par p =
    if noTake = false ∧ p = .epochS then (s.ep.staging.params.get 0).getD (s.par .epochS) else s.par p := by
  rw [← par_takenParams, State.par, swap_eq, latchIf_ctl]
  rfl

theorem swap_row (r : Nat) : (swap e voided noTake s).row r =
    if r ∈ s.rowIds then { s.row r with banks := swapBanks r (s.storeTaken noTake) (s.row r).banks } else s.row r := by
  rw [swap_eq, latchIf_row]
  exact (swapRows_spec noTake s).2 r

/-- A swap changes no field of a row but its banks. -/
theorem swap_row_banks (r : Nat) : { (swap e voided noTake s).row r with banks := (s.row r).banks } = s.row r := by
  rw [swap_row]
  split <;> rfl

theorem swap_row_of_configured {r : Nat} (hr : r ∈ s.rowIds) :
    ((swap e voided noTake s).row r).banks = swapBanks r (s.storeTaken noTake) (s.row r).banks := by
  rw [swap_row, if_pos hr]

theorem swap_flags : FlagsKept s (swap e voided noTake s) := by
  rw [swap_eq]
  have h := (latchIf_moves (A := {}) (swapWalk e voided s).siteVoid .epochVoid (swapCore e voided noTake s)).flags
  exact ⟨h.mask, h.latched, h.risen⟩

theorem swap_links : LinksKept s (swap e voided noTake s) := by
  rw [swap_eq]
  have h := (latchIf_moves (A := {}) (swapWalk e voided s).siteVoid .epochVoid (swapCore e voided noTake s)).links
  exact ⟨h.air, h.rx, h.queue, h.fieldAir, h.permit, h.fell, h.fieldRx, h.echo⟩

theorem swap_epochVoid (h : (swapWalk e voided s).siteVoid = true) :
    hasFlag (swap e voided noTake s).ntc.latched .epochVoid = true := by
  rw [swap_eq]
  exact latchIf_flag h _ _

theorem swapWalk_siteVoid_iff : (swapWalk e voided s).siteVoid = true ↔
    (voided || e.voidMark) = true ∨ s.now - e.startMono < 60 ∨ (s.yld.openSite.getD ⟨0, 0⟩).count = 0 := by
  have h0 : ∀ n : Nat, decide (n = 0) = true ↔ n = 0 := fun _ => decide_eq_true_iff
  rw [swapWalk, startWalk, Bool.or_eq_true, Bool.or_eq_true, Bool.or_eq_true, Bool.or_eq_true, h0, decide_eq_true_eq,
    SiteBank.fresh]
  tauto

theorem swap_swapped : Swapped s (swap e voided noTake s) e (voided || e.voidMark) where
  epoch := by
    rw [swap_ep, State.par, show (swap e voided noTake s).ctl = (swapCore e voided noTake s).ctl by rw [swap_eq, latchIf_ctl]]
    exact ⟨_, rfl, rfl, rfl, rfl, rfl⟩
  held := by rw [swap_ep]; rfl
  walk := by
    rw [swap_yld]
    exact ⟨_, rfl, rfl, rfl, rfl, swapWalk_siteVoid_iff e voided s, rfl, rfl⟩
  site := by rw [swap_yld]; exact ⟨rfl, rfl⟩
  closing r hr := by rw [swap_row_of_configured e voided noTake s hr]; rfl
  opened r hr := by
    rw [swap_row_of_configured e voided noTake s hr]
    exact ⟨_, rfl, rfl, rfl, rfl, rfl⟩

theorem swap_kept_of_noTake : (swap e voided true s).ep.staging = s.ep.staging ∧ (swap e voided true s).ep.batch = none := by
  rw [swap_ep]
  exact ⟨rfl, rfl⟩

end Swap

theorem RowStage.differs_iff (g : RowStage) (c : RowCfg) : g.differs c = true ↔
    (∃ v, g.iref = some v ∧ v ≠ c.iref) ∨ (∃ v, g.prated = some v ∧ v ≠ c.prated) ∨
      (∃ v, g.length = some v ∧ v ≠ c.length) ∨ ∃ v, g.sDue = some v ∧ v ≠ c.sDue := by
  simp only [RowStage.differs, Bool.or_eq_true, any_decide_iff, or_assoc]

theorem swap_takes (e : Epoch) (voided : Bool) (s : State) : SwapTakes s (swap e voided false s) where
  epochS := by rw [swap_par]; exact if_pos ⟨rfl, rfl⟩
  staging := by rw [swap_ep]; rfl
  empty hr hp := by rw [swap_ep]; exact Staging.rest_of_empty hr hp
  batch h := by rw [swap_ep]; exact Staging.rest_of_some h
  banks r hr b hb := by
    rw [swap_row_of_configured e voided false s hr] at hb
    cases hb
    refine ⟨Iff.rfl, ?_⟩
    have hdiff : (s.storeTaken false).ep.batch.any (fun g => (g.rows.get r).differs ((s.storeTaken false).row r).cfg) =
        (s.ep.staging.rows.get r).differs (s.row r).cfg := Staging.rest_differs _ _ _
    rw [← RowStage.differs_iff, ← hdiff]
    rfl

/-! ### The boundary (R48, R50) -/

theorem boundary_of_idle {s : State} {e : Epoch} (he : s.ep.epoch = some e) (hw : s.yld.walk = none) (voided noTake : Bool) :
    boundary voided noTake s = swap e voided noTake s := by
  simp only [boundary, he, hw, Option.isSome_none, Bool.false_eq_true, if_false]

/-- A boundary behind a walk in flight is held; the epoch is marked where its cause says so. -/
theorem boundary_of_walk {s : State} {e : Epoch} (he : s.ep.epoch = some e) (hw : s.yld.walk.isSome = true)
    (voided noTake : Bool) :
    boundary voided noTake s = { s with ep := { s.ep with
      held := some ⟨noTake || s.ep.held.any (fun h => h.noTake)⟩
      epoch := some (if voided then { e with voidMark := true } else e) } } := by
  simp only [boundary, he, hw, if_true]
  cases voided
  · simp only [Bool.false_eq_true, if_false, ← he]
    rfl
  · simp only [if_true, markVoid, State.setEp, he]
    rfl

/-- Settles O56: the boundary is due, and is held behind a walk in flight or swaps. -/
theorem epochBoundaryTaken : Obligations.EpochBoundaryTaken := by
  intro s e he hh hdue
  have hexec : exec .epochBoundary s = .next (boundary false false s) := by
    show Host.Outcome.next (boundaryExpiry s) = _
    rw [boundaryExpiry, if_pos (boundaryDue_iff.2 ⟨hh, e, he, hdue⟩)]
  refine ⟨fun hw => ?_, fun hw => ⟨_, hexec.trans (congrArg _ (boundary_of_idle he hw false false)), ?_⟩⟩
  · rw [hexec, boundary_of_walk he hw, hh]
    simp only [Bool.false_eq_true, if_false, ← he]
    rfl
  · refine ⟨swap_swapped e false false s, swap_takes e false s,
      (congrArg EpochUnit.acc (swap_ep e false false s)).trans rfl, fun p hp => ?_,
      swap_row_banks e false false s, swap_frame e false false s, swap_flags e false false s, swap_links e false false s⟩
    rw [swap_par, if_neg fun h => hp h.2]

end Sys2Proof.Machine
end

