-- ==== Sys2Proof/Proofs/ClosedRound.lean ====
section
/-! SUPPORT. What the Round Planner and the arbiters leave alone while the round is closed: the epoch banks, which only a
dispatch would disturb, and the round record (R62, R88, R95, R97, R109, R112). With it the SECURED test and CLOSE NOW. -/

namespace Sys2Proof.Machine

/-! ### Posture orders leave the banks (R6, R7) -/

theorem offerRoutine_row (o : Owner) (d : Nat) (os : List Order) (s : State) (j : Nat) :
    (offerRoutine o d os s).1.row j = s.row j :=
  congrArg (fun t : Tab Row.powerOn => t.get j) (offerRoutine_rows o d os s)

theorem offerRoutine_rnd (o : Owner) (d : Nat) (os : List Order) (s : State) : (offerRoutine o d os s).1.rnd = s.rnd := by
  unfold offerRoutine
  split_ifs <;> rfl

@[simp] theorem updSup_banks (r : Nat) (f : RowSup → RowSup) (s : State) (j : Nat) :
    ((s.updSup r f).row j).banks = (s.row j).banks := by
  rw [State.row_updSup]
  split
  · next h => rw [h]
  · rfl

theorem offerPosture_banks (r : Nat) (o : Order) (s : State) (j : Nat) :
    ((offerPosture r o s).row j).banks = (s.row j).banks := by
  have h := offerRoutine_row .row (s.rowAddr r) [o] s j
  unfold offerPosture
  generalize offerRoutine .row (s.rowAddr r) [o] s = p at h ⊢
  obtain ⟨t, a⟩ := p
  cases a <;> exact (updSup_banks _ _ _ _).trans (congrArg Row.banks h)

theorem applyDemand_banks (r : Nat) (s : State) (j : Nat) : ((applyDemand r s).1.row j).banks = (s.row j).banks := by
  unfold applyDemand
  extract_lets u new had t
  have ht : (t.row j).banks = (s.row j).banks := updSup_banks _ _ _ _
  clear_value new
  split
  · rfl
  split
  · exact ht
  · split
    · split
      · exact ht
      · exact (updSup_banks _ _ _ _).trans ht
    · exact (offerPosture_banks _ _ _ _).trans ht
  · split
    · exact ht
    · exact (offerPosture_banks _ _ _ _).trans ht

theorem releaseLevel_banks (x r : Nat) (s : State) (j : Nat) : ((releaseLevel x r s).row j).banks = (s.row j).banks := by
  unfold releaseLevel
  split
  · exact (applyDemand_banks _ _ _).trans (updSup_banks _ _ _ _)
  · rfl

/-! ### Grants leave banks and round (R111, R112) -/

/-- The banks and the round record with its due list stand. -/
structure PlanKept (s t : State) : Prop where
  banks : ∀ r, (t.row r).banks = (s.row r).banks
  rnd : t.rnd = s.rnd

theorem PlanKept.refl (s : State) : PlanKept s s := ⟨fun _ => rfl, rfl⟩

theorem PlanKept.trans {s t u : State} (h : PlanKept s t) (k : PlanKept t u) : PlanKept s u :=
  ⟨fun r => (k.banks r).trans (h.banks r), k.rnd.trans h.rnd⟩

/-- A change outside rows and round. -/
theorem PlanKept.same {s t : State} (hr : t.rows = s.rows) (hp : t.rnd = s.rnd) : PlanKept s t :=
  ⟨fun r => congrArg (fun u : Tab Row.powerOn => (u.get r).banks) hr, hp⟩

theorem PlanKept.updSup (s : State) (r : Nat) (f : RowSup → RowSup) : PlanKept s (s.updSup r f) :=
  ⟨fun _ => updSup_banks r f s _, rfl⟩

theorem offerPhase_planKept (c : Nat) (s : State) : PlanKept s (offerPhase c s).1 := by
  unfold offerPhase
  split
  · exact .refl s
  next t _ =>
  split
  · exact .refl s
  have hr := offerRoutine_rows .transfer (phaseOrder c t s).1 [(phaseOrder c t s).2] s
  have hp := offerRoutine_rnd .transfer (phaseOrder c t s).1 [(phaseOrder c t s).2] s
  dsimp only
  generalize offerRoutine .transfer (phaseOrder c t s).1 [(phaseOrder c t s).2] s = p at hr hp ⊢
  obtain ⟨u, a⟩ := p
  cases a <;> exact .same hr hp

theorem grant_planKept (lane c : Nat) (q : Request) (s : State) : PlanKept s (grant lane c q s) := by
  unfold grant
  extract_lets s1 s2 s3 s4
  have h2 : PlanKept s s2 := .same rfl rfl
  have h3 : PlanKept s2 s3 := .updSup s2 q.dest _
  have h4 : PlanKept s3 s4 := .same rfl rfl
  exact ((h2.trans h3).trans h4).trans (offerPhase_planKept c s4)

theorem grants_planKept (lane n : Nat) (s : State) : PlanKept s (grants lane n s) := by
  induction n generalizing s with
  | zero => exact .refl s
  | succ n ih =>
    unfold grants
    split
    · exact .refl s
    split
    · exact .refl s
    · exact (grant_planKept _ _ _ _).trans (ih _)

theorem arbiter_planKept (lane : Nat) (s : State) : PlanKept s (arbiter lane s) := by
  unfold arbiter
  split
  · exact grants_planKept _ _ s
  · exact .refl s

/-! ### Nothing is planned while the round is closed (R95, R97) -/

theorem planRobot_of_closed {s : State} (h : s.rnd.isOpen = false) (x : Nat) : planRobot x s = s := by
  simp only [planRobot, h, Bool.false_and, Bool.false_eq_true, if_false]

theorem planRow_of_closed {s : State} (h : s.rnd.isOpen = false) (r : Nat) : planRow r s = s := by
  simp only [planRow, h, Bool.false_eq_true, if_false]

theorem offerReturned_of_closed {s : State} (h : s.rnd.isOpen = false) (r : Nat) : offerReturned r s = s := by
  unfold offerReturned
  split
  · split
    · exact planRow_of_closed h r
    · rfl
  · rfl

/-- Moves that open and close no round leave a closed one closed. -/
theorem Moves.closed {s t : State} (h : Moves {} s t) (hs : s.rnd.isOpen = false) : t.rnd.isOpen = false :=
  (h.round_kept rfl rfl).isOpen.trans hs

theorem reenter_rows (r : Nat) (s : State) : (reenter r s).1.rows = s.rows := by
  unfold reenter
  split <;> rfl

theorem endAssignment_banks (x : Nat) (a : Assignment) (s : State) (j : Nat) :
    ((endAssignment x a s).1.row j).banks = (s.row j).banks := by
  have h := reenter_rows a.row (releaseLevel x a.row (s.updRobot x fun k => { k with asg := none }))
  exact (congrArg (fun u : Tab Row.powerOn => (u.get j).banks) h).trans (releaseLevel_banks _ _ _ _)

theorem endPass_banks {s : State} (h : s.rnd.isOpen = false) (x j : Nat) :
    ((endPass x s).row j).banks = (s.row j).banks := by
  unfold endPass
  split
  · rfl
  next a _ =>
  have hb := endAssignment_banks x a s j
  have hc := (endAssignment_moves (A := {}) x a s).closed h
  generalize endAssignment x a s = p at hb hc ⊢
  obtain ⟨t, b⟩ := p
  cases b
  · dsimp only
    rw [planRobot_of_closed hc]
    exact hb
  · dsimp only
    rw [planRobot_of_closed hc, offerReturned_of_closed hc]
    exact hb

theorem closePass_banks {s : State} (h : s.rnd.isOpen = false) (x j : Nat) :
    ((closePass x s).row j).banks = (s.row j).banks := by
  unfold closePass
  split
  · rfl
  split
  · exact endPass_banks h x j
  · unfold decideSetup
    split
    · rfl
    split
    · exact endPass_banks h x j
    split
    · exact endPass_banks (s := withdrawTag _ s) h x j
    · rfl
  · rfl

/-! ### A claim dropped, a request withdrawn (R92, R109) -/

/-- An entry but for its claimant and its time. -/
def DueEntry.key (e : DueEntry) : Nat × Nat := (e.row, e.u)

/-- The banks stand, and the due list but for its claimants. -/
structure DueKept (s t : State) : Prop where
  banks : ∀ r, (t.row r).banks = (s.row r).banks
  due : t.rnd.due.map DueEntry.key = s.rnd.due.map DueEntry.key

theorem DueKept.refl (s : State) : DueKept s s := ⟨fun _ => rfl, rfl⟩

theorem DueKept.trans {s t u : State} (h : DueKept s t) (k : DueKept t u) : DueKept s u :=
  ⟨fun r => (k.banks r).trans (h.banks r), k.due.trans h.due⟩

theorem PlanKept.dueKept {s t : State} (h : PlanKept s t) : DueKept s t := ⟨h.banks, by rw [h.rnd]⟩

theorem dropClaim_dueKept (x : Nat) (s : State) : DueKept s (dropClaim x s) := by
  unfold dropClaim
  split
  · exact .refl s
  · refine ⟨fun _ => rfl, ?_⟩
    show (s.rnd.due.map _).map DueEntry.key = _
    rw [List.map_map]
    refine List.map_congr_left fun e _ => ?_
    simp only [Function.comp]
    split <;> rfl

theorem withdrawQueued_dueKept {s : State} (h : s.rnd.isOpen = false) (x : Nat) : DueKept s (withdrawQueued x s) := by
  unfold withdrawQueued
  extract_lets lane t1
  split
  · exact .refl s
  next q _ =>
  extract_lets t2 t3
  have h2 : PlanKept s t2 := ⟨fun _ => updSup_banks q.dest _ _ _, rfl⟩
  have h3 : PlanKept s t3 := h2.trans (.same rfl rfl)
  have hc : (dropClaim x t3).rnd.isOpen = false :=
    (dropClaim_moves (A := {}) x t3).closed (by rw [h3.rnd]; exact h)
  rw [planRobot_of_closed hc]
  exact h3.dueKept.trans ((dropClaim_dueKept x t3).trans (arbiter_planKept _ _).dueKept)

theorem loseClaim_dueKept {s : State} (h : s.rnd.isOpen = false) (x : Nat) : DueKept s (loseClaim x s) := by
  unfold loseClaim
  dsimp only
  split
  · exact (dropClaim_dueKept x s).trans (withdrawQueued_dueKept ((dropClaim_moves (A := {}) x s).closed h) x)
  · exact dropClaim_dueKept x s

theorem closeClaim_banks {s : State} (h : s.rnd.isOpen = false) (x j : Nat) :
    ((closeClaim x s).row j).banks = (s.row j).banks := by
  unfold closeClaim
  split
  · exact (withdrawQueued_dueKept h x).banks j
  · rfl

/-! ### The close of a round, the SECURED test (R88, R134) -/

/-- Work that leaves the banks in a closed round, and the round closed, leaves the banks for each index in turn. -/
theorem forEach_banks {l : List Nat} {f : Nat → State → State} (hf : ∀ i s, Moves {} s (f i s))
    (hb : ∀ i s j, s.rnd.isOpen = false → ((f i s).row j).banks = (s.row j).banks) {s : State} (h : s.rnd.isOpen = false)
    (j : Nat) : ((forEach l f s).row j).banks = (s.row j).banks := by
  have key : (forEach l f s).rnd.isOpen = false ∧ ((forEach l f s).row j).banks = (s.row j).banks :=
    forEach_keeps (P := fun t => t.rnd.isOpen = false ∧ (t.row j).banks = (s.row j).banks)
      (fun i t ⟨ho, ht⟩ => ⟨(hf i t).closed ho, (hb i t j ho).trans ht⟩) ⟨h, rfl⟩
  exact key.2

theorem closeRound_banks (c : CloseReason) (s : State) (j : Nat) : ((closeRound c s).row j).banks = (s.row j).banks := by
  unfold closeRound
  extract_lets t u
  have ht : t.rnd.isOpen = false := rfl
  have hu : u.rnd.isOpen = false := (forEach_moves (A := {}) (fun x _ s => closePass_moves x s) t).closed ht
  have hb : (u.row j).banks = (t.row j).banks := forEach_banks closePass_moves (fun x s j h => closePass_banks h x j) ht j
  exact (forEach_banks closeClaim_moves (fun x s j h => closeClaim_banks h x j) hu j).trans hb

theorem roundCondition_of_storm {s : State} (h : s.stm.state ≠ .calm) : s.roundCondition = false := by
  simp only [State.roundCondition, decide_eq_false h, Bool.and_false]

theorem evaluateRound_of_closed {s : State} (h : s.stm.state ≠ .calm) (ho : s.rnd.isOpen = false) (b : Bool) :
    evaluateRound b s = s := by
  simp only [evaluateRound, roundCondition_of_storm h, ho, Bool.false_eq_true, if_false]

theorem evaluateRound_banks {s : State} (h : s.stm.state ≠ .calm) (b : Bool) (j : Nat) :
    ((evaluateRound b s).row j).banks = (s.row j).banks := by
  simp only [evaluateRound, roundCondition_of_storm h, Bool.false_eq_true, if_false]
  split
  · exact closeRound_banks _ s j
  · rfl

/-- Outside CALM the arbiters grant nothing. -/
theorem arbiters_of_storm {s : State} (h : s.stm.state ≠ .calm) : arbiters s = s :=
  forEach_eq_self fun _ _ => arbiter_of_idle (.inl h)

/-- A storm state handed on outside CALM is the evaluation of the round. -/
theorem handState_of_storm {s : State} (h : s.stm.state ≠ .calm) : handState s = evaluateRound false s := by
  refine arbiters_of_storm ?_
  rw [(evaluateRound_moves (A := { round := true }) (.inl rfl) false (.inr h)).stm_eq rfl]
  exact h

theorem secure_banks (s : State) (j : Nat) : ((secure s).row j).banks = (s.row j).banks := by
  unfold secure
  split
  · have hs : (changeState .secured s).stm.state ≠ .calm := by simp
    rw [handState_of_storm hs, evaluateRound_banks hs]
    unfold changeState
    rw [latch_row]
    rfl
  · rfl

/-- With the round closed the SECURED test changes the storm state or nothing. -/
theorem secure_of_closed {s : State} (h : s.rnd.isOpen = false) : secure s = s ∨ secure s = changeState .secured s := by
  unfold secure
  split
  · have hs : (changeState .secured s).stm.state ≠ .calm := by simp
    have ho : (changeState .secured s).rnd.isOpen = false := by
      unfold changeState
      rw [latch_rnd]
      exact h
    exact .inr ((handState_of_storm hs).trans (evaluateRound_of_closed hs ho false))
  · exact .inl rfl

@[simp] theorem settle_banks (s : State) (j : Nat) : ((settle s).row j).banks = (s.row j).banks := secure_banks s j

theorem settle_rnd_of_closed {s : State} (h : s.rnd.isOpen = false) : (settle s).rnd = s.rnd := by
  show (secure s).rnd = _
  rcases secure_of_closed h with e | e
  · rw [e]
  · rw [e, changeState, latch_rnd]
    rfl

/-- What ends most commands is a run of moves that changes no mark or mode of the fleet. -/
theorem settle_runs (s : State) : Moves { storm := true } s (settle s) := settle_moves rfl s

/-! ### What an epoch's opening or boundary leaves alone -/

/-- Everything but epochs, banks, staging store, the parameters and EPOCH_VOID stands. -/
structure EpochFrame (s u : State) : Prop where
  apart : { u with
    rows := s.rows, ep := s.ep, yld := s.yld, ntc := s.ntc, up := { u.up with queue := s.up.queue }
    ctl := { u.ctl with params := s.ctl.params } } = s
  rows : ∀ r, { u.row r with banks := (s.row r).banks } = s.row r
  flags : FlagsKept s u
  links : LinksKept s u

namespace EpochFrame

variable {s u v : State} (h : EpochFrame s u)
include h

theorem pending : u.pending = s.pending := (congrArg State.pending h.apart :)
theorem clk : u.clk = s.clk := (congrArg State.clk h.apart :)
theorem lookup : u.lookup = s.lookup := (congrArg State.lookup h.apart :)
theorem masts : u.masts = s.masts := (congrArg State.masts h.apart :)
theorem stm : u.stm = s.stm := (congrArg State.stm h.apart :)
theorem rnd : u.rnd = s.rnd := (congrArg State.rnd h.apart :)
theorem mode : u.ctl.mode = s.ctl.mode := (congrArg (fun t => t.ctl.mode) h.apart :)
theorem robot (x : Nat) : u.robot x = s.robot x := (congrArg (fun t => t.robot x) h.apart :)
theorem cart (c : Nat) : u.cart c = s.cart c := (congrArg (fun t => t.cart c) h.apart :)
theorem cfg (r : Nat) : (u.row r).cfg = (s.row r).cfg := (congrArg Row.cfg (h.rows r) :)
theorem soil (r : Nat) : (u.row r).soil = (s.row r).soil := (congrArg Row.soil (h.rows r) :)
theorem acct (r : Nat) : (u.row r).acct = (s.row r).acct := (congrArg Row.acct (h.rows r) :)
theorem sup (r : Nat) : (u.row r).sup = (s.row r).sup := (congrArg Row.sup (h.rows r) :)

end EpochFrame

theorem EpochFrame.refl (s : State) : EpochFrame s s := ⟨rfl, fun _ => rfl, .refl s, .refl s⟩

theorem swap_epochFrame (e : Epoch) (voided noTake : Bool) (s : State) : EpochFrame s (swap e voided noTake s) :=
  ⟨swap_frame e voided noTake s, swap_row_banks e voided noTake s, swap_flags e voided noTake s, swap_links e voided noTake s⟩

theorem boundary_epochFrame {s : State} {e : Epoch} (he : s.ep.epoch = some e) (voided noTake : Bool) :
    EpochFrame s (boundary voided noTake s) := by
  cases hw : s.yld.walk with
  | none =>
    rw [boundary_of_idle he hw]
    exact swap_epochFrame e voided noTake s
  | some w =>
    rw [boundary_of_walk he (by rw [hw]; rfl)]
    exact ⟨rfl, fun _ => rfl, ⟨rfl, fun _ => id, fun _ => id⟩, ⟨rfl, rfl, ⟨0, by simp⟩, rfl, rfl, rfl, rfl, rfl⟩⟩

/-! ### Moves after a swap -/

/-- A change outside epochs, parameters and site banks that keeps every row's banks, but for the disturbed flag of the open
one, keeps what a swap made. -/
theorem Swapped.kept {s t u : State} {e : Epoch} {void : Bool} (h : Swapped s t e void) (hep : u.ep = t.ep)
    (hctl : u.ctl = t.ctl) (hyld : u.yld = t.yld) (hrow : ∀ r, RowKept (t.row r) (u.row r)) : Swapped s u e void where
  epoch := by
    rw [hep, State.par, hctl]
    exact h.epoch
  held := by rw [hep]; exact h.held
  walk := by rw [hyld]; exact h.walk
  site := by rw [hyld]; exact h.site
  closing r hr := by rw [(hrow r).closing]; exact h.closing r hr
  opened r hr := by
    obtain ⟨b, hb, hsum, hvalid, hstale, hbroken⟩ := h.opened r hr
    have hcore := (hrow r).opened
    rw [hb, Option.map_some, Option.map_eq_some_iff] at hcore
    obtain ⟨c, hc, hcb⟩ := hcore
    simp only [Bank.core, Bank.mk.injEq] at hcb
    obtain ⟨e1, e2, e3, -, e5, -⟩ := hcb
    exact ⟨c, hc, e1.trans hsum, e2.trans hvalid, e3.trans hstale, e5.trans hbroken⟩

theorem Swapped.moves {A : Allow} (hA : A.clean = false) {s t u : State} {e : Epoch} {void : Bool} (h : Swapped s t e void)
    (k : Moves A t u) : Swapped s u e void :=
  h.kept k.site.ep k.site.ctl k.site.yld (k.row_kept hA)

/-- Moves that leave the banks keep what a swap took. -/
theorem SwapTakes.moves {A : Allow} {s t u : State} (h : SwapTakes s t) (k : Moves A t u)
    (hb : ∀ r, (u.row r).banks = (t.row r).banks) : SwapTakes s u where
  epochS := by rw [State.par, k.site.ctl]; exact h.epochS
  staging := by rw [k.site.ep]; exact h.staging
  empty := by rw [k.site.ep]; exact h.empty
  batch := by rw [k.site.ep]; exact h.batch
  banks r hr b := by rw [hb]; exact h.banks r hr b

/-! ### CLOSE NOW (R55) -/

theorem exec_closeNow_taken {q : Req} {s : State} (hq : q.dst.toNat = s.ctl.part.uplink) (hrun : s.running = true) :
    exec (.closeNow q) s = .next (requestClose q s) := by
  show Host.Outcome.next (takenRunning q 11 s (requestClose q)) = _
  rw [takenRunning, taken, if_pos hq, if_pos hrun]

/-- Settles O38: the three refusals in their order, and else the boundary, held behind a walk or swapped; the SECURED test
after it leaves the epoch banks. -/
theorem closeNowTaken : Obligations.CloseNowTaken := by
  intro q s hq hrun
  rw [exec_closeNow_taken hq hrun]
  refine ⟨fun he => by rw [requestClose, he], fun e he => ⟨fun hh => ?_, fun hh ht => ?_, fun hh ht => ?_⟩⟩
  · simp only [requestClose, he, hh, if_true]
  · replace ht : s.now - e.startMono < 60 := ht
    simp only [requestClose, he, hh, Option.isSome_none, Bool.false_eq_true, if_false, ht, if_true]
  have hframe := boundary_epochFrame he false false
  have hmoves := settle_runs (boundary false false s)
  have hrow := fun r => hmoves.row_kept rfl r
  refine ⟨settle (boundary false false s), ?_, fun hw => ⟨?_, ?_⟩, fun hw => ⟨?_, ?_, fun r => ?_⟩, fun r => ?_, fun x => ?_,
    fun c => ?_, ?_, ?_, ?_, ?_, hframe.links.trans hmoves.links, hframe.flags.trans hmoves.flags, ?_⟩
  · replace ht : ¬s.now - e.startMono < 60 := not_lt.2 ht
    simp only [requestClose, he, hh, Option.isSome_none, Bool.false_eq_true, if_false, ht]
    rfl
  · have h := swap_swapped e false false s
    rw [← boundary_of_idle he hw] at h
    exact h.moves rfl hmoves
  · have h := swap_takes e false s
    rw [← boundary_of_idle he hw] at h
    exact h.moves hmoves (settle_banks _)
  · rw [hmoves.site.ep, boundary_of_walk he hw, hh]
    simp only [Bool.false_eq_true, if_false, ← he]
    rfl
  · rw [hmoves.site.yld, boundary_of_walk he hw]
  · have hsame : (boundary false false s).row r = s.row r := by rw [boundary_of_walk he hw]; rfl
    rw [← hsame]
    exact hrow r
  · exact ⟨(hrow r).cfg.trans (hframe.cfg r), (hrow r).soil.trans (hframe.soil r), (hrow r).acct.trans (hframe.acct r),
      (hrow r).occupant.trans (congrArg RowSup.occupant (hframe.sup r)),
      (hrow r).reported.trans (congrArg RowSup.reported (hframe.sup r))⟩
  · rw [← hframe.robot x]
    exact hmoves.robot_still rfl x
  · rw [← hframe.cart c]
    exact ⟨hmoves.cart_kept c, (hmoves.load c).resolve_right nofun⟩
  · exact hmoves.site.clk.trans hframe.clk
  · exact hmoves.site.lookup.trans hframe.lookup
  · exact hmoves.site.masts.trans hframe.masts
  · exact hmoves.site.pending.trans hframe.pending
  · obtain ⟨hgust, hadvisory, hsilent⟩ := hmoves.wind
    rw [hframe.stm] at hgust hadvisory hsilent
    exact ⟨hgust, hadvisory, hsilent⟩

end Sys2Proof.Machine
end

