-- ==== Sys2Proof/Proofs/ClockStep.lean ====
section
/-! SUPPORT. TIME SET: the epoch it opens or closes, and the clock-step event with its two judgements in either order (R46,
R47, R87, R132, R151). -/

namespace Sys2Proof.Machine

/-! ### An epoch opened (R47) -/

/-- The state after an epoch opened but for the banks. -/
theorem openEpoch_eq (s : State) : ∃ rows : Tab Row.powerOn,
    openEpoch s = { s with
      rows := rows, yld := { s.yld with openSite := some ⟨0, 0⟩ }, ep := { s.ep with epoch := some s.freshEpoch } } ∧
    ∀ j, rows.get j = if j ∈ s.rowIds then
      { s.row j with banks := { (s.row j).banks with opened := some (Bank.fresh (s.robotOn j) false) } } else s.row j := by
  obtain ⟨rows, heq, hget⟩ := forEach_updBanks
    (g := fun r s k => { k with opened := some (Bank.fresh (s.robotOn r) false) }) (fun _ _ _ _ _ => rfl)
    (Tab.idsWhere_nodup s.rows fun r => r.cfg.node.isSome) s
  refine ⟨rows, ?_, hget⟩
  unfold openEpoch
  exact congrArg (fun t : State => (t.setYld fun y => { y with openSite := some SiteBank.fresh }).setEp
    fun e => { e with epoch := some t.freshEpoch }) heq

theorem openEpoch_epochFrame (s : State) : EpochFrame s (openEpoch s) := by
  obtain ⟨rows, heq, hget⟩ := openEpoch_eq s
  rw [heq]
  refine ⟨rfl, fun r => ?_, ⟨rfl, fun _ => id, fun _ => id⟩, ⟨rfl, rfl, ⟨0, by simp⟩, rfl, rfl, rfl, rfl, rfl⟩⟩
  show ({ rows.get r with banks := (s.row r).banks } : Row) = s.row r
  rw [hget]
  split <;> rfl

theorem openEpoch_ep (s : State) : (openEpoch s).ep = { s.ep with epoch := some s.freshEpoch } := by
  obtain ⟨_, heq, -⟩ := openEpoch_eq s
  rw [heq]

theorem openEpoch_yld (s : State) : (openEpoch s).yld = { s.yld with openSite := some ⟨0, 0⟩ } := by
  obtain ⟨_, heq, -⟩ := openEpoch_eq s
  rw [heq]

theorem openEpoch_opened {s : State} {r : Nat} (hr : r ∈ s.rowIds) :
    ((openEpoch s).row r).banks.opened = some (Bank.fresh (s.robotOn r) false) := by
  obtain ⟨rows, heq, hget⟩ := openEpoch_eq s
  rw [heq]
  show (rows.get r).banks.opened = _
  rw [hget, if_pos hr]

/-! ### The round judged afresh (R86, R87, R88) -/

theorem siteG_congr {s t : State} (hctl : t.ctl = s.ctl) (hclk : t.clk = s.clk) (hmasts : t.masts = s.masts) :
    t.siteG = s.siteG := by
  have hfresh : t.fresh = s.fresh := by
    funext i
    exact decide_eq_decide.2 (by simp only [State.now, State.par, hctl, hclk])
  rw [State.siteG, State.siteG, State.freshValues, State.freshValues, hmasts, hfresh]

theorem roundCondition_congr {s t : State} (hctl : t.ctl = s.ctl) (hclk : t.clk = s.clk) (hmasts : t.masts = s.masts)
    (hstate : t.stm.state = s.stm.state) : t.roundCondition = s.roundCondition := by
  have hpar : t.par = s.par := by funext p; rw [State.par, hctl]; rfl
  simp only [State.roundCondition, State.running, State.windowOpen, State.tod, State.dark, siteG_congr hctl hclk hmasts, hpar,
    hctl, hclk, hstate]

theorem openRound_isOpen (s : State) : (openRound s).rnd.isOpen = true :=
  ((forEach_moves (A := {}) (fun x _ t => planRobot_moves x t) _).round_kept rfl rfl).isOpen

theorem closeRound_isOpen (c : CloseReason) (s : State) : (closeRound c s).rnd.isOpen = false :=
  (((forEach_moves (A := {}) (fun x _ t => closePass_moves x t) _).trans
    (forEach_moves (fun x _ t => closeClaim_moves x t) _)).round_kept rfl rfl).isOpen

theorem evaluateRound_isOpen (b : Bool) (s : State) : (evaluateRound b s).rnd.isOpen = s.roundCondition := by
  unfold evaluateRound
  split
  · next h =>
    rw [h]
    split
    · assumption
    · exact openRound_isOpen s
  · next h =>
    rw [Bool.eq_false_iff.2 h]
    split
    · exact closeRound_isOpen _ s
    · next ho => exact Bool.eq_false_iff.2 ho

/-- The moves of a round judged afresh, where it may open. -/
theorem evaluateRound_runs (b : Bool) (s : State) : Moves { opens := true, round := true } s (evaluateRound b s) :=
  evaluateRound_moves (.inl rfl) b (.inl rfl)

theorem evaluateRound_judged (b : Bool) (s : State) :
    (evaluateRound b s).rnd.isOpen = (evaluateRound b s).roundCondition := by
  have h := evaluateRound_runs b s
  rw [evaluateRound_isOpen]
  exact (roundCondition_congr h.site.ctl h.site.clk h.site.masts (by rw [h.stm_eq rfl])).symm

/-- The SECURED test leaves a round that is open just where its condition holds. -/
theorem settle_judged {s : State} (h : s.rnd.isOpen = s.roundCondition) :
    (settle s).rnd.isOpen = (settle s).roundCondition := by
  by_cases hp : s.stm.state = .park
  · have ho : s.rnd.isOpen = false := h.trans (roundCondition_of_storm (by rw [hp]; nofun))
    have hs : (settle s).stm.state ≠ .calm := by
      show (secure s).stm.state ≠ .calm
      rcases secure_of_closed ho with e | e
      · rw [e, hp]; nofun
      · rw [e, changeState_state]; nofun
    rw [settle_rnd_of_closed ho, ho, roundCondition_of_storm hs]
  · rw [settle_of_law fun _ h => absurd h hp]
    exact h

/-! ### A park cause (R132, R151) -/

/-- The storm states that a park cause leads to or leaves (R132). -/
def State.parked (s : State) : Prop := s.stm.state = .park ∨ s.stm.state = .secured ∨ s.stm.state = .lockout

theorem State.parked.ne_calm {s : State} (h : s.parked) : s.stm.state ≠ .calm := by
  rcases h with h | h | h <;> rw [h] <;> nofun

theorem State.parked.congr {s t : State} (h : s.parked) (ht : t.stm = s.stm) : t.parked := by
  rw [State.parked, ht]
  exact h

theorem parkEntry_state (s : State) : (parkEntry s).stm.state = .park := by
  have howners : ∀ (s0 t : State), (inAnyOrder [plannerPark, transferPark s0, purge, allAuto, sweepStart, buildLists s0 false]
      t).stm = t.stm := by
    intro s0 t
    refine (inAnyOrder_moves (A := { fleet := true }) ?_ t).stm_eq rfl
    simp only [List.mem_cons, List.not_mem_nil, or_false, forall_eq_or_imp, forall_eq]
    exact ⟨plannerPark_moves, transferPark_moves _, purge_moves, allAuto_moves rfl, sweepStart_moves, buildLists_moves _ _⟩
  have hclose : ∀ t, (closeForStorm t).stm = t.stm := fun t =>
    (closeForStorm_moves (A := { round := true }) (.inl rfl) t).stm_eq rfl
  unfold parkEntry
  rw [howners, hclose]
  exact changeState_state _ _

theorem parkCause_parked (s : State) : (parkCause s).parked := by
  unfold parkCause State.parked
  split
  case h_1 | h_2 | h_3 => exact .inl (parkEntry_state s)
  case h_4 h => exact .inl h
  case h_5 h => exact .inr (.inl h)
  case h_6 h => exact .inr (.inr h)

theorem evaluateRound_parked {s : State} (h : s.parked) (b : Bool) : (evaluateRound b s).parked :=
  h.congr ((evaluateRound_moves (A := { round := true }) (.inl rfl) b (.inr h.ne_calm)).stm_eq rfl)

theorem settle_parked {s : State} (h : s.parked) : (settle s).parked := by
  show (secure s).parked
  unfold secure
  split
  · rw [handState_of_storm (by simp)]
    exact evaluateRound_parked (.inr (.inl (changeState_state _ _))) false
  · exact h

/-! ### The clock-step event (R46) -/

/-- The frame of the clock-step event: all that a storm entry leaves, but for the advisory. -/
structure ClockStepFrame (s t : State) : Prop where
  site : SiteKept s t
  links : LinksKept s t
  flags : FlagsKept s t
  rows : ∀ r, RowKept (s.row r) (t.row r)
  robots : ∀ x, RobotKept (s.robot x) (t.robot x)
  carts : ∀ c, CartKept (s.cart c) (t.cart c)

theorem ClockStepFrame.trans {s t u : State} (h : ClockStepFrame s t) (k : ClockStepFrame t u) : ClockStepFrame s u :=
  ⟨h.site.trans k.site, h.links.trans k.links, h.flags.trans k.flags, fun r => (h.rows r).trans (k.rows r),
    fun x => (h.robots x).trans (k.robots x), fun c => (h.carts c).trans (k.carts c)⟩

theorem Moves.clockStepFrame {A : Allow} (hA : A.clean = false) {s t : State} (h : Moves A s t) : ClockStepFrame s t :=
  ⟨h.site, h.links, h.flags, h.row_kept hA, h.robot_kept, h.cart_kept⟩

/-- The clock-step event keeps what a swap made, but for the disturbed flags of the fresh banks. -/
theorem ClockStepFrame.swapped {s t u : State} {e : Epoch} {void : Bool} (k : ClockStepFrame t u) (h : Swapped s t e void) :
    Swapped s u e void :=
  h.kept k.site.ep k.site.ctl k.site.yld k.rows

/-- The advisory removed. -/
def dropAdvisory (s : State) : State := s.setStm fun m => { m with advisory := none }

theorem dropAdvisory_clockStepFrame (s : State) : ClockStepFrame s (dropAdvisory s) :=
  ⟨⟨rfl, rfl, rfl, rfl, rfl, rfl, rfl⟩, ⟨rfl, rfl, ⟨0, by simp [dropAdvisory]⟩, rfl, rfl, rfl, rfl, rfl⟩,
    ⟨rfl, fun _ => id, fun _ => id⟩, fun _ => .refl _, fun _ => .refl _, fun _ => .refl _⟩

/-- A reached advisory consumed: no advisory is left, and the storm state is one that a park cause leads to or leaves. -/
structure Consumed (s t : State) : Prop where
  frame : ClockStepFrame s t
  advisory : t.stm.advisory = none
  parked : t.parked

theorem advisoryExpiry_consumed {s : State} (h : s.advisoryDue = true) : Consumed s (advisoryExpiry s) := by
  have hmoves := parkCause_moves (A := { fleet := true, storm := true }) rfl rfl (dropAdvisory s)
  rw [show advisoryExpiry s = parkCause (dropAdvisory s) from if_pos h]
  exact ⟨(dropAdvisory_clockStepFrame s).trans (hmoves.clockStepFrame rfl), hmoves.wind.advisory, parkCause_parked _⟩

theorem Consumed.before {s t u : State} (h : ClockStepFrame s t) (k : Consumed t u) : Consumed s u :=
  ⟨h.trans k.frame, k.advisory, k.parked⟩

/-- Moves that stay outside CALM, WATCH and RELEASE leave an advisory consumed. -/
theorem Consumed.moves {A : Allow} (hA : A.clean = false) {s t u : State} (h : Consumed s t) (k : Moves A t u) (hu : u.parked) :
    Consumed s u :=
  ⟨h.frame.trans (k.clockStepFrame hA), k.wind.advisory.trans h.advisory, hu⟩

theorem advisoryDue_evaluateRound (b : Bool) (s : State) : (evaluateRound b s).advisoryDue = s.advisoryDue := by
  have h := evaluateRound_runs b s
  simp only [State.advisoryDue, State.running, h.site.ctl, h.site.clk, h.stm_eq rfl]

/-- Two pieces of work in an order left open are done in one of the two orders, after a choice. -/
theorem inAnyOrder_pair (f g : State → State) (s : State) :
    inAnyOrder [f, g] s = g (f { s with choices := s.choices + 1 }) ∨
      inAnyOrder [f, g] s = f (g { s with choices := s.choices + 1 }) := by
  have hperm := freeOrder_perm s.choices [f, g]
  show (freeOrder s.choices [f, g]).foldl (fun t f => f t) _ = _ ∨ (freeOrder s.choices [f, g]).foldl (fun t f => f t) _ = _
  rcases List.perm_pair.1 hperm with h | h <;> rw [h]
  · exact .inl rfl
  · exact .inr rfl

theorem clockStep_of_due {s : State} (h : s.advisoryDue = true) : Consumed s (clockStep s) := by
  have hchoice := (choice_moves (A := {}) s).clockStepFrame rfl
  have hboth : Consumed s (inAnyOrder [evaluateRound true, advisoryExpiry] s) := by
    rcases inAnyOrder_pair (evaluateRound true) advisoryExpiry s with e | e <;> rw [e]
    · have hround := (evaluateRound_runs true { s with choices := s.choices + 1 }).clockStepFrame rfl
      have hdue := (advisoryDue_evaluateRound true { s with choices := s.choices + 1 }).trans h
      exact (advisoryExpiry_consumed hdue).before (hchoice.trans hround)
    · have hdone := (advisoryExpiry_consumed (s := { s with choices := s.choices + 1 }) h).before hchoice
      exact hdone.moves rfl (evaluateRound_runs true _) (evaluateRound_parked hdone.parked true)
  rw [clockStep, onlyIf, if_pos h]
  exact hboth.moves rfl (settle_runs _) (settle_parked hboth.parked)

theorem clockStep_of_not_due {s : State} (h : s.advisoryDue = false) : clockStep s = settle (evaluateRound true s) := by
  rw [clockStep, onlyIf, h]
  rfl

/-- Without an advisory due the clock-step event is moves of a round that may open. -/
theorem clockStep_runs {s : State} (h : s.advisoryDue = false) :
    Moves { opens := true, round := true, storm := true } s (clockStep s) := by
  rw [clockStep_of_not_due h]
  exact (evaluateRound_moves (.inl rfl) true (.inl rfl)).trans (settle_moves rfl _)

theorem clockStep_judged {s : State} (h : s.advisoryDue = false) :
    (clockStep s).rnd.isOpen = (clockStep s).roundCondition := by
  rw [clockStep_of_not_due h]
  exact settle_judged (evaluateRound_judged true s)

theorem clockStep_frame (s : State) : ClockStepFrame s (clockStep s) := by
  cases h : s.advisoryDue with
  | true => exact (clockStep_of_due h).frame
  | false => exact (clockStep_runs h).clockStepFrame rfl

/-! ### TIME SET (R46; logs 10, 62) -/

/-- The state with its clock loaded and CLOCK_STEP latched. -/
def clockLoaded (time : Nat) (s : State) : State := latch .clockStep { s with clk := ⟨s.clk.mono, time, true⟩ }

/-- The epoch opened or closed by TIME SET. -/
def epochStepped (s : State) : State :=
  match s.ep.epoch with
  | none => openEpoch s
  | some _ => boundary true false s

theorem exec_timeSet_taken {q : Req} {s : State} (time : Quad) (hq : q.dst.toNat = s.ctl.part.uplink) :
    exec (.timeSet q time) s = .next (replyCtl q 3 .accepted []
      (if s.running then clockStep (epochStepped (clockLoaded time.toNat s)) else clockLoaded time.toNat s)) := by
  have hrun : (clockLoaded time.toNat s).running = s.running := by simp only [clockLoaded, State.running, latch_ctl]
  rw [← hrun]
  show Host.Outcome.next (taken q s (requestTime q time.toNat)) = _
  rw [taken, if_pos hq]
  rfl

theorem epochStepped_epochFrame (s : State) : EpochFrame s (epochStepped s) := by
  unfold epochStepped
  split
  · exact openEpoch_epochFrame s
  · next he => exact boundary_epochFrame he true false

/-- What a swap made stands apart from notices. -/
theorem Swapped.of_latch {f : Flag} {s t : State} {e : Epoch} {void : Bool} (h : Swapped (latch f s) t e void) :
    Swapped s t e void := by
  obtain ⟨n, q, heq⟩ := latch_eq f s
  rw [heq] at h
  exact ⟨h.epoch, h.held, h.walk, h.site, h.closing, h.opened⟩

/-- Settles O37: the clock is loaded, the epoch opened or closed, and the clock-step event follows; an advisory is due at the
new time or the event is moves that keep it. -/
theorem timeSetTaken : Obligations.TimeSetTaken := by
  intro q time s hq
  dsimp only
  have hexec := exec_timeSet_taken time hq
  set t := clockLoaded time.toNat s with ht
  have htep : t.ep = s.ep := latch_ep _ _
  have htyld : t.yld = s.yld := latch_yld _ _
  refine ⟨fun hrun => by rw [hexec, if_neg (by simp [hrun])]; rfl, fun hrun => ?_⟩
  rw [if_pos hrun] at hexec
  have hload : Moves {} { s with clk := ⟨s.clk.mono, time.toNat, true⟩ } t := latch_moves _ _
  have hepoch := epochStepped_epochFrame t
  set v := epochStepped t with hv
  have hstep := clockStep_frame v
  have htrow : ∀ r, t.row r = s.row r := latch_row .clockStep _
  have htclk : t.clk = ⟨s.clk.mono, time.toNat, true⟩ := latch_clk _ _
  have hrobot : ∀ x, v.robot x = s.robot x := fun x => (hepoch.robot x).trans (latch_robot _ _ x)
  have hvclk : v.clk = ⟨s.clk.mono, time.toNat, true⟩ := hepoch.clk.trans htclk
  have hvstm : v.stm = s.stm := hepoch.stm.trans (latch_stm _ _)
  have hvrun : v.running = true := by
    rw [State.running, hepoch.mode, ht, clockLoaded, latch_ctl]
    exact hrun
  have hdue : v.advisoryDue = s.stm.advisory.any fun a => decide (a.parkEntry ≤ time.toNat) := by
    rw [State.advisoryDue, hvrun, hvclk, hvstm]
    rfl
  refine ⟨clockStep v, hexec, ?_, ?_, ?_, ?_, fun he => ?_, fun e he hw => ?_, fun e w he hw => ?_, fun r => ?_, fun x => ?_,
    fun c => ?_, ?_, fun ha => ?_, fun a ha hle => ?_, fun a ha hlt => ?_⟩
  · exact hstep.site.clk.trans hvclk
  · refine (hepoch.flags.trans hstep.flags).latched _ ?_
    rw [ht, clockLoaded, latch_flag]
    simp
  · have k : FlagsKept s t := ⟨hload.flags.mask, hload.flags.latched, hload.flags.risen⟩
    exact k.trans (hepoch.flags.trans hstep.flags)
  · have hl := hload.links
    have k : LinksKept s t := ⟨hl.air, hl.rx, hl.queue, hl.fieldAir, hl.permit, hl.fell, hl.fieldRx, hl.echo⟩
    exact k.trans (hepoch.links.trans hstep.links)
  · have hopen : v = openEpoch t := by
      rw [hv, epochStepped, htep, he]
    refine ⟨?_, ?_, ?_, fun r hr => ?_⟩
    · rw [hstep.site.ep, hopen, openEpoch_ep, State.freshEpoch, htep]
      simp only [ht, clockLoaded, State.now, State.par, latch_clk, latch_ctl]
    · rw [hstep.site.yld, hopen, openEpoch_yld]
    · rw [hstep.site.yld, hopen, openEpoch_yld, htyld]
    · have hrv : r ∈ t.rowIds := mem_rowIds.2 (by rw [State.rowOk, htrow]; exact hr)
      have hopened := (hstep.rows r).opened
      rw [hopen, openEpoch_opened hrv, Option.map_some, Option.map_eq_some_iff] at hopened
      rw [hopen]
      obtain ⟨b, hb, hcore⟩ := hopened
      exact ⟨b, hb, hcore⟩
  · have hswap : v = swap e true false t := by
      rw [hv, epochStepped, htep, he]
      exact boundary_of_idle (by rw [htep]; exact he) (by rw [htyld]; exact hw) true false
    have hsw : Swapped { s with clk := ⟨s.clk.mono, time.toNat, true⟩ } v e true := by
      rw [hswap]
      exact (swap_swapped e true false t).of_latch
    refine ⟨hstep.swapped hsw, hstep.flags.latched _ ?_, ?_⟩
    · rw [hswap]
      exact swap_epochVoid _ _ _ _ ((swapWalk_siteVoid_iff e true t).2 (.inl rfl))
    · rw [hstep.site.ep, hswap]
      exact (swap_takes e true t).staging
  · have hheld := boundary_of_walk (s := t) (by rw [htep]; exact he) (by rw [htyld, hw]; rfl) true false
    have hvb : v = boundary true false t := by
      rw [hv, epochStepped, htep, he]
    rw [hstep.site.ep, hstep.site.yld, hvb, hheld]
    exact ⟨rfl, rfl, htyld⟩
  · rw [← htrow r]
    exact ⟨(hstep.rows r).cfg.trans (hepoch.cfg r), (hstep.rows r).soil.trans (hepoch.soil r),
      (hstep.rows r).acct.trans (hepoch.acct r)⟩
  · have h := hstep.robots x
    rw [hrobot] at h
    exact h
  · have h := hstep.carts c
    rw [hepoch.cart c, ht, clockLoaded, latch_cart] at h
    exact h
  · exact hstep.site.masts.trans (hepoch.masts.trans (latch_masts _ _))
  · have hnot : v.advisoryDue = false := by rw [hdue, ha]; rfl
    refine ⟨clockStep_judged hnot, fun x => ?_⟩
    rw [← hrobot]
    exact (clockStep_runs hnot).robot_still rfl x
  · have hcon := clockStep_of_due (s := v) (by rw [hdue, ha]; exact decide_eq_true hle)
    exact ⟨hcon.advisory, hcon.parked⟩
  · have hnot : v.advisoryDue = false := by rw [hdue, ha]; exact decide_eq_false (not_le.2 hlt)
    rw [(clockStep_runs hnot).wind.advisory, hvstm, ha]

end Sys2Proof.Machine
end

