-- ==== Sys2Proof/Proofs/WalkRow.lean ====
section
/-! SUPPORT. The walk's step for one row, by the row's class: what it makes of the soiling record, the account and the walk's
totals, and what it leaves alone (R69 to R76, R85). -/

namespace Sys2Proof.Machine

/-! ### At most one NOTICE more waits (R171) -/

/-- The uplink queue is q with one NOTICE at most at its tail, or two where q was empty: its first frame may be on the air. -/
def Announced (q : List UpEntry) (s : State) : Prop :=
  ∃ n, s.up.queue = q ++ List.replicate n .notice ∧ (n ≤ 1 ∨ n = 2 ∧ q = [])

theorem Announced.refl (s : State) : Announced s.up.queue s := ⟨0, by simp, .inl (Nat.zero_le _)⟩

theorem Announced.congr {q : List UpEntry} {s t : State} (h : Announced q s) (ht : t.up = s.up) : Announced q t := by
  rw [Announced, ht]
  exact h

theorem Announced.length_lt {q : List UpEntry} {s : State} (h : Announced q s) (hq : q.length < 63) : s.up.queue.length < 64 := by
  obtain ⟨n, hn, hle⟩ := h
  rw [hn, List.length_append, List.length_replicate]
  rcases hle with hle | ⟨rfl, rfl⟩
  · omega
  · simp

/-- A NOTICE behind another entry waits. -/
theorem noticeWaiting_of_tail {s : State} (h : UpEntry.notice ∈ s.up.queue.tail) : s.noticeWaiting = true := by
  unfold State.noticeWaiting
  rw [List.any_eq_true]
  refine ⟨.notice, ?_, decide_eq_true rfl⟩
  split
  · exact h
  · exact List.mem_of_mem_tail h

/-- A latch offers no NOTICE behind one that waits. -/
theorem latch_queue_of_waiting {s : State} (h : s.noticeWaiting = true) (f : Flag) : (latch f s).up.queue = s.up.queue := by
  unfold latch
  dsimp only
  split
  · rfl
  · have hw : State.noticeWaiting { s with ntc := s.ntc.latch f } = true := h
    rw [causeNotice, hw, Bool.true_or, if_pos rfl]
    split <;> rfl

theorem latch_announced {q : List UpEntry} {s : State} (h : Announced q s) (f : Flag) : Announced q (latch f s) := by
  rcases latch_queue f s with e | ⟨e, -⟩
  · rw [Announced, e]
    exact h
  by_cases hw : s.noticeWaiting = true
  · rw [Announced, latch_queue_of_waiting hw]
    exact h
  obtain ⟨n, hn, hle⟩ := h
  have htail : UpEntry.notice ∉ s.up.queue.tail := fun hm => hw (noticeWaiting_of_tail hm)
  refine ⟨n + 1, ?_, ?_⟩
  · rw [e, hn, List.append_assoc, List.replicate_succ']
  · rw [hn] at htail
    rcases hle with hle | ⟨rfl, rfl⟩
    · cases q with
      | nil => exact .imp_right (fun h => ⟨h, rfl⟩) (by omega)
      | cons a q =>
        have h0 : n = 0 := by
          by_contra hne
          exact htail (List.mem_append_right _ (List.mem_replicate.2 ⟨hne, rfl⟩))
        exact .inl (by omega)
    · exact absurd (by simp) htail

theorem Move.announced {A : Allow} {q : List UpEntry} {s t : State} (k : Move A s t) (h : Announced q s) : Announced q t := by
  cases k with
  | latch f => exact latch_announced h f
  | clean _ r =>
    obtain ⟨rows, e⟩ := clean_eq r s
    rw [e]
    exact h.congr rfl
  | _ => exact h.congr rfl

theorem Moves.announced {A : Allow} {q : List UpEntry} {s t : State} (k : Moves A s t) (h : Announced q s) :
    Announced q t := by
  induction k with
  | refl => exact h
  | tail _ b ih => exact b.announced ih

/-! ### A row of the walk by its class (R69 to R76) -/

/-- A row void for its epoch: by the site, by I_ref 0, or by its bank (R69, R70). -/
def Walk.voidsRow (w : Walk) (iref : Nat) (b : Bank) : Prop :=
  w.siteVoid = true ∨ iref = 0 ∨ b.disturbed = true ∨ b.broken = true ∨ b.staged = true

/-- The soiling record as a thin or full row settles it, with the answer whether a capture found the ratio too low (R72, R73). -/
def State.settledSoil (s : State) (r : Nat) (b : Bank) : Soil × Bool :=
  if b.valid < s.par .minSamples then ((s.row r).soil, false)
  else (s.row r).soil.settle (s.par .smoothing) (b.ratioSum / b.valid)

/-- The energy terms of a thin or full row (R74 to R76). -/
def State.rowEnergy (s : State) (r : Nat) (w : Walk) (b : Bank) : Soil × Account × Nat × Nat × Bool :=
  energyTerms (s.row r).cfg.prated w.gbar w.t (s.settledSoil r b).1 (s.row r).acct

/-- The account of a thin or full row after its step. -/
def State.chargedAccount (s : State) (r : Nat) (w : Walk) (b : Bank) : Account :=
  let a := (s.rowEnergy r w b).2.1
  if b.valid < s.par .minSamples then { a with thins := min (a.thins + 1) 4294967295 } else a

/-- The walk past a row, with its totals after a void row, or a thin or full one. -/
def Walk.past (w : Walk) (r : Nat) : Walk := { w with cursor := r + 1 }

def Walk.pastVoid (w : Walk) (r : Nat) : Walk := { w with cursor := r + 1, voids := w.voids + 1 }

def State.walkPast (s : State) (r : Nat) (w : Walk) (b : Bank) : Walk := { w with
  cursor := r + 1, lost := w.lost + (s.rowEnergy r w b).2.2.1, recovered := w.recovered + (s.rowEnergy r w b).2.2.2.1
  thins := w.thins + (if b.valid < s.par .minSamples then 1 else 0) }

theorem walkRow_of_void {r : Nat} {w : Walk} {s : State} {b : Bank} (hb : (s.row r).banks.closing = some b)
    (h : w.voidsRow (s.row r).cfg.iref b) : walkRow r w s = (walkVoid r w s, false) := by
  rw [walkRow, hb]
  dsimp only
  split
  · rfl
  · next hs =>
    have hclass : classify (s.row r).cfg.iref (s.par .minSamples) b = .void := if_pos (h.resolve_left hs)
    rw [hclass]

theorem walkRow_of_measured {r : Nat} {w : Walk} {s : State} {b : Bank} (hb : (s.row r).banks.closing = some b)
    (h : ¬w.voidsRow (s.row r).cfg.iref b) :
    walkRow r w s = (walkMeasured r w b (!decide (b.valid < s.par .minSamples)) s, true) := by
  obtain ⟨hs, hbank⟩ := not_or.1 h
  rw [walkRow, hb]
  dsimp only
  rw [if_neg hs]
  by_cases hv : b.valid < s.par .minSamples
  · have hclass : classify (s.row r).cfg.iref (s.par .minSamples) b = .thin := by rw [classify, if_neg hbank, if_pos hv]
    rw [hclass, decide_eq_true hv]
    rfl
  · have hclass : classify (s.row r).cfg.iref (s.par .minSamples) b = .full := by rw [classify, if_neg hbank, if_neg hv]
    rw [hclass, decide_eq_false hv]
    rfl

/-- State s with a row's soiling record and account replaced, and the walk, but for notices: what a row's step makes. -/
structure RowStepped (r : Nat) (o : Soil) (c : Account) (v : Walk) (s a : State) : Prop where
  apart : { a with rows := s.rows, yld := s.yld, ntc := s.ntc, up := { a.up with queue := s.up.queue } } = s
  row : ∀ j, a.row j = if j = r then { s.row r with soil := o, acct := c } else s.row j
  yld : a.yld = { s.yld with walk := some v }
  flags : FlagsKept s a
  links : LinksKept s a
  announced : Announced s.up.queue a

/-- A row's record and the walk replaced. -/
def stepRow (r : Nat) (o : Soil) (c : Account) (v : Walk) (s : State) : State :=
  ((s.updSoil r fun _ => o).updAcct r fun _ => c).setYld fun y => { y with walk := some v }

theorem stepRow_stepped (r : Nat) (o : Soil) (c : Account) (v : Walk) (s : State) : RowStepped r o c v s (stepRow r o c v s) where
  apart := rfl
  row j := by
    show ((s.updSoil r fun _ => o).updAcct r fun _ => c).row j = _
    rw [State.row_updAcct, State.row_updSoil, State.row_updSoil]
    by_cases hj : j = r <;> simp [hj]
  yld := rfl
  flags := ⟨rfl, fun _ => id, fun _ => id⟩
  links := ⟨rfl, rfl, ⟨0, by simp [stepRow]⟩, rfl, rfl, rfl, rfl, rfl⟩
  announced := (Announced.refl s).congr rfl

theorem RowStepped.latchIf {r : Nat} {o : Soil} {c : Account} {v : Walk} {s a : State} (h : RowStepped r o c v s a)
    (b : Bool) (f : Flag) : RowStepped r o c v s (latchIf b f a) where
  apart := by
    obtain ⟨n, q, e⟩ := latchIf_eq b f a
    rw [e]
    exact h.apart
  row j := by rw [latchIf_row]; exact h.row j
  yld := by rw [latchIf_yld]; exact h.yld
  flags := h.flags.trans (latchIf_moves (A := {}) b f a).flags
  links := h.links.trans (latchIf_moves (A := {}) b f a).links
  announced := (latchIf_moves (A := {}) b f a).announced h.announced

/-- The row under the cursor stepped, the walk's cursor behind it. -/
def walkedRow (r : Nat) (w : Walk) (s : State) : State × Bool :=
  walkRow r (w.past r) (s.setYld fun y => { y with walk := some (w.past r) })

/-- A row without a closing bank is passed by, nothing else. -/
theorem walkedRow_of_no_bank {r : Nat} {s : State} (h : (s.row r).banks.closing = none) (w : Walk) :
    walkedRow r w s = (s.setYld fun y => { y with walk := some (w.past r) }, false) := by
  have h' : ((s.setYld fun y => { y with walk := some (w.past r) }).row r).banks.closing = none := h
  rw [walkedRow, walkRow, h']

theorem passRow_stepped (r : Nat) (w : Walk) (s : State) :
    RowStepped r (s.row r).soil (s.row r).acct w s (s.setYld fun y => { y with walk := some w }) where
  apart := rfl
  row j := by
    split
    · next hj => rw [hj]; rfl
    · rfl
  yld := rfl
  flags := ⟨rfl, fun _ => id, fun _ => id⟩
  links := ⟨rfl, rfl, ⟨0, by simp⟩, rfl, rfl, rfl, rfl, rfl⟩
  announced := (Announced.refl s).congr rfl

theorem voidRow_stepped (r : Nat) (w : Walk) (s : State) :
    RowStepped r (s.row r).soil { (s.row r).acct with voids := min ((s.row r).acct.voids + 1) 4294967295 } (w.pastVoid r) s
      (walkVoid r (w.past r) (s.setYld fun y => { y with walk := some (w.past r) })) where
  apart := rfl
  row j := by
    show (s.updAcct r fun a => { a with voids := min (a.voids + 1) 4294967295 }).row j = _
    rw [State.row_updAcct]
  yld := rfl
  flags := ⟨rfl, fun _ => id, fun _ => id⟩
  links := ⟨rfl, rfl, ⟨0, by simp [walkVoid]⟩, rfl, rfl, rfl, rfl, rfl⟩
  announced := (Announced.refl s).congr rfl

theorem walkedRow_of_void {r : Nat} {w : Walk} {s : State} {b : Bank} (hb : (s.row r).banks.closing = some b)
    (h : w.voidsRow (s.row r).cfg.iref b) :
    walkedRow r w s = (walkVoid r (w.past r) (s.setYld fun y => { y with walk := some (w.past r) }), false) :=
  walkRow_of_void (w := w.past r) (s := s.setYld fun y => { y with walk := some (w.past r) }) hb h

/-- A thin or full row's step: the record, then the flags. -/
theorem walkMeasured_eq (r : Nat) (w : Walk) (b : Bank) (s : State) :
    walkMeasured r (w.past r) b (!decide (b.valid < s.par .minSamples)) (s.setYld fun y => { y with walk := some (w.past r) }) =
      latchIf (s.rowEnergy r w b).2.2.2.2 .accountSaturated (latchIf (s.settledSoil r b).2 .baselineLow
        (stepRow r (s.rowEnergy r w b).1 (s.chargedAccount r w b) (s.walkPast r w b) s)) := by
  by_cases hv : b.valid < s.par .minSamples
  · simp only [State.rowEnergy, State.chargedAccount, State.walkPast, State.settledSoil, decide_eq_true hv, if_pos hv]
    rfl
  · simp only [State.rowEnergy, State.chargedAccount, State.walkPast, State.settledSoil, decide_eq_false hv, if_neg hv]
    rfl

/-- A thin or full row hands its due judgement on. -/
theorem walkedRow_of_measured {r : Nat} {w : Walk} {s : State} {b : Bank} (hb : (s.row r).banks.closing = some b)
    (h : ¬w.voidsRow (s.row r).cfg.iref b) : walkedRow r w s =
      (latchIf (s.rowEnergy r w b).2.2.2.2 .accountSaturated (latchIf (s.settledSoil r b).2 .baselineLow
        (stepRow r (s.rowEnergy r w b).1 (s.chargedAccount r w b) (s.walkPast r w b) s)), true) := by
  rw [← walkMeasured_eq]
  exact walkRow_of_measured (w := w.past r) (s := s.setYld fun y => { y with walk := some (w.past r) }) hb h

/-- What the walk's step for row r makes of its soiling record, its account and the walk, and whether it hands the due
judgement on. -/
structure RowTaken (r : Nat) (w : Walk) (s : State) (o : Soil) (c : Account) (v : Walk) (a : State × Bool) : Prop where
  stepped : RowStepped r o c v s a.1
  passed : (s.row r).banks.closing = none →
    o = (s.row r).soil ∧ c = (s.row r).acct ∧ v = w.past r ∧ a.2 = false ∧ a.1.up = s.up
  voided : ∀ b, (s.row r).banks.closing = some b → w.voidsRow (s.row r).cfg.iref b → o = (s.row r).soil ∧
    c = { (s.row r).acct with voids := min ((s.row r).acct.voids + 1) 4294967295 } ∧ v = w.pastVoid r ∧ a.2 = false
  measured : ∀ b, (s.row r).banks.closing = some b → ¬w.voidsRow (s.row r).cfg.iref b → o = (s.rowEnergy r w b).1 ∧
    c = s.chargedAccount r w b ∧ v = s.walkPast r w b ∧ a.2 = true ∧
    ((s.settledSoil r b).2 = true → hasFlag a.1.ntc.latched .baselineLow = true) ∧
    ((s.rowEnergy r w b).2.2.2.2 = true → hasFlag a.1.ntc.latched .accountSaturated = true)

/-- Every row's step, by its class. -/
theorem walkedRow_taken (r : Nat) (w : Walk) (s : State) : ∃ o c v, RowTaken r w s o c v (walkedRow r w s) := by
  cases hb : (s.row r).banks.closing with
  | none =>
    rw [walkedRow_of_no_bank hb]
    exact ⟨_, _, _, passRow_stepped r _ s, fun _ => ⟨rfl, rfl, rfl, rfl, rfl⟩, fun b h => absurd (hb.symm.trans h) nofun,
      fun b h => absurd (hb.symm.trans h) nofun⟩
  | some b =>
    have only {P : Bank → Prop} (h : P b) : ∀ d, (s.row r).banks.closing = some d → P d := by
      intro d hd
      rw [hb] at hd
      cases hd
      exact h
    by_cases hv : w.voidsRow (s.row r).cfg.iref b
    · rw [walkedRow_of_void hb hv]
      exact ⟨_, _, _, voidRow_stepped r w s, fun h => absurd (hb.symm.trans h) nofun, only fun _ => ⟨rfl, rfl, rfl, rfl⟩,
        only fun h => absurd hv h⟩
    · rw [walkedRow_of_measured hb hv]
      refine ⟨_, _, _, ((stepRow_stepped r _ _ _ s).latchIf _ _).latchIf _ _, fun h => absurd (hb.symm.trans h) nofun,
        only fun h => absurd h hv, only fun _ => ⟨rfl, rfl, rfl, rfl, fun h => ?_, fun h => latchIf_flag h _ _⟩⟩
      exact (latchIf_moves (A := {}) _ _ _).flags.latched _ (latchIf_flag h _ _)

end Sys2Proof.Machine
end

