-- ==== Sys2Proof/Proofs/DueJudgements.lean ====
section
/-! SUPPORT. A row's due judgement taken while the round is closed: it changes the due list and claims, and no bank (R80, R90,
R92). -/

namespace Sys2Proof.Machine

theorem mem_placeDue {e d : DueEntry} {s : State} :
    d ∈ (placeDue e s).rnd.due ↔ d = e ∨ d ∈ s.rnd.due ∧ d.row ≠ e.row := by
  show d ∈ insertDue e (s.rnd.due.filter fun d => decide (d.row ≠ e.row)) ↔ _
  rw [mem_insertDue, List.mem_filter, decide_eq_true_iff]

theorem mem_removeDue {r : Nat} {d : DueEntry} {s : State} :
    d ∈ (removeDue r s).rnd.due ↔ d ∈ s.rnd.due ∧ d.row ≠ r := by
  show d ∈ s.rnd.due.filter (fun d => decide (d.row ≠ r)) ↔ _
  rw [List.mem_filter, decide_eq_true_iff]

/-- An entry placed is the only one of its row. -/
theorem eq_of_mem_placeDue {e d : DueEntry} {s : State} (h : d ∈ (placeDue e s).rnd.due) (hr : d.row = e.row) : d = e :=
  (mem_placeDue.1 h).resolve_right fun k => k.2 hr

theorem row_of_dueEntry {r : Nat} {s : State} {e : DueEntry} (h : s.dueEntry r = some e) : e.row = r :=
  of_decide_eq_true (List.find?_some (p := fun e : DueEntry => decide (e.row = r)) h)

theorem no_entry_of_dueEntry {r : Nat} {s : State} (h : s.dueEntry r = none) : ∀ d ∈ s.rnd.due, d.row ≠ r := fun d hd =>
  of_decide_eq_false (Bool.eq_false_iff.2 (List.find?_eq_none.1 h d hd))

/-- An entry of a list whose rows and urgencies stand. -/
theorem DueKept.mem {s t : State} (h : DueKept s t) {d : DueEntry} (hd : d ∈ t.rnd.due) :
    ∃ e ∈ s.rnd.due, e.row = d.row ∧ e.u = d.u := by
  have hkey : d.key ∈ s.rnd.due.map DueEntry.key := by
    rw [← h.due]
    exact List.mem_map_of_mem hd
  obtain ⟨e, he, hke⟩ := List.mem_map.1 hkey
  exact ⟨e, he, congrArg Prod.fst hke, congrArg Prod.snd hke⟩

theorem removeDue_closed {s : State} (h : s.rnd.isOpen = false) (r : Nat) : (removeDue r s).rnd.isOpen = false := h

theorem placeDue_closed {s : State} (h : s.rnd.isOpen = false) (e : DueEntry) : (placeDue e s).rnd.isOpen = false := h

theorem takeJudgement_banks {s : State} (h : s.rnd.isOpen = false) (r j : Nat) :
    ((takeJudgement r s).row j).banks = (s.row j).banks := by
  unfold takeJudgement
  split
  · rfl
  split
  · rfl
  · rfl
  · split
    · exact (loseClaim_dueKept (removeDue_closed h r) _).banks j
    · rfl
  · rw [planRow_of_closed (placeDue_closed h _)]
    rfl
  · rfl

/-- The due list after a judgement in a closed round, for a row that no robot holds an assignment for: a row DUE stands in it
with its urgency, a row within the hysteresis stands in it with its urgency or not at all, a CLEAR row does not. -/
theorem takeJudgement_due {s : State} {r : Nat} (h : s.rnd.isOpen = false) (ha : s.assigned r = false) :
    (∀ n, s.judge r = .due n → ∃ d ∈ (takeJudgement r s).rnd.due, d.row = r ∧ d.u = n) ∧
    (∀ n, s.judge r = .hold n → ∀ d ∈ (takeJudgement r s).rnd.due, d.row = r → d.u = n) ∧
    (s.judge r = .clear → ∀ d ∈ (takeJudgement r s).rnd.due, d.row ≠ r) := by
  unfold takeJudgement
  rw [ha]
  simp only [Bool.false_eq_true, if_false]
  cases he : s.dueEntry r with
  | none =>
    have hno := no_entry_of_dueEntry he
    cases hj : s.judge r with
    | due n =>
      dsimp only
      rw [planRow_of_closed (placeDue_closed h _)]
      refine ⟨fun m hm => ⟨⟨r, n, s.clk.clock, none⟩, mem_placeDue.2 (.inl rfl), rfl, ?_⟩, nofun, nofun⟩
      cases hm
      rfl
    | hold n => exact ⟨nofun, fun _ _ d hd hr => absurd hr (hno d hd), nofun⟩
    | clear => exact ⟨nofun, nofun, fun _ => hno⟩
  | some e =>
    have hrow := row_of_dueEntry he
    cases hj : s.judge r with
    | due n =>
      refine ⟨fun m hm => ⟨{ e with u := n }, mem_placeDue.2 (.inl rfl), hrow, ?_⟩, nofun, nofun⟩
      cases hm
      rfl
    | hold n =>
      refine ⟨nofun, fun m hm d hd hr => ?_, nofun⟩
      cases hm
      rw [eq_of_mem_placeDue hd (hr.trans hrow.symm)]
    | clear =>
      refine ⟨nofun, nofun, fun _ d hd => ?_⟩
      dsimp only at hd
      split at hd
      · obtain ⟨e', he', hr', -⟩ := (loseClaim_dueKept (removeDue_closed h r) _).mem hd
        rw [← hr']
        exact (mem_removeDue.1 he').2
      · exact (mem_removeDue.1 hd).2

/-- The judgement reads the row's configuration and soiling record and two parameters. -/
theorem judge_congr {s t : State} {r : Nat} (hcfg : (t.row r).cfg = (s.row r).cfg) (hsoil : (t.row r).soil = (s.row r).soil)
    (hctl : t.ctl = s.ctl) : t.judge r = s.judge r := by
  have hpar : t.par = s.par := by funext p; rw [State.par, hctl]; rfl
  rw [State.judge, State.judge, State.dueThreshold, State.dueThreshold, hcfg, hsoil, hpar]

theorem assigned_eq_false {s : State} {r : Nat} (h : ∀ x a, (s.robot x).asg = some a → a.row ≠ r) : s.assigned r = false := by
  refine (Tab.anyRec_eq_false _ rfl).2 fun x => ?_
  change ((s.robot x).asg.any fun a => decide (a.row = r)) = false
  cases ha : (s.robot x).asg with
  | none => rfl
  | some a => exact decide_eq_false (h x a ha)

end Sys2Proof.Machine
end

