-- ==== Sys2Proof/Proofs/WalkFinish.lean ====
section
/-! SUPPORT. The finish of a walk: totals and ACCOUNT REPORT, the batch in hand, the held close (R50, R53, R56, R57, R77). -/

namespace Sys2Proof.Machine

/-! ### What the finish leaves alone -/

/-- Soiling records, accounts, fleet, flags, wind, clocks and the frames that wait in the uplink queue stand. -/
structure WalkFrame (s t : State) : Prop where
  soil : ∀ j, (t.row j).soil = (s.row j).soil
  acct : ∀ j, (t.row j).acct = (s.row j).acct
  occupant : ∀ j, (t.row j).sup.occupant = (s.row j).sup.occupant
  reported : ∀ j, (t.row j).sup.reported = (s.row j).sup.reported
  robots : ∀ x, RobotStill (s.robot x) (t.robot x)
  carts : ∀ c, CartKept (s.cart c) (t.cart c)
  loads : ∀ c, (t.cart c).load = (s.cart c).load
  flags : FlagsKept s t
  wind : WindKept s t
  clk : t.clk = s.clk
  queue : s.up.queue <+: t.up.queue

theorem LinksKept.queue_prefix {s t : State} (h : LinksKept s t) : s.up.queue <+: t.up.queue := by
  obtain ⟨n, hn⟩ := h.queue
  rw [hn]
  exact List.prefix_append _ _

namespace WalkFrame

variable {s t u : State}

theorem trans (h : WalkFrame s t) (k : WalkFrame t u) : WalkFrame s u where
  soil j := (k.soil j).trans (h.soil j)
  acct j := (k.acct j).trans (h.acct j)
  occupant j := (k.occupant j).trans (h.occupant j)
  reported j := (k.reported j).trans (h.reported j)
  robots x := (h.robots x).trans (k.robots x)
  carts c := (h.carts c).trans (k.carts c)
  loads c := (k.loads c).trans (h.loads c)
  flags := h.flags.trans k.flags
  wind := h.wind.trans k.wind
  clk := k.clk.trans h.clk
  queue := h.queue.trans k.queue

theorem of_frame (h : Frame s t) : WalkFrame s t where
  soil j := (h.rows j).soil
  acct j := (h.rows j).acct
  occupant j := (h.rows j).occupant
  reported j := (h.rows j).reported
  robots := h.robots
  carts := h.carts
  loads := h.loads
  flags := h.flags
  wind := h.wind
  clk := h.site.clk
  queue := h.links.queue_prefix

theorem of_epochFrame (h : EpochFrame s t) : WalkFrame s t where
  soil := h.soil
  acct := h.acct
  occupant j := congrArg RowSup.occupant (h.sup j)
  reported j := congrArg RowSup.reported (h.sup j)
  robots x := by rw [h.robot x]; exact .refl _
  carts c := by rw [h.cart c]; exact .refl _
  loads c := congrArg Cart.load (h.cart c)
  flags := h.flags
  wind := ⟨congrArg StormUnit.gust h.stm, congrArg StormUnit.advisory h.stm, congrArg StormUnit.silent h.stm⟩
  clk := h.clk
  queue := h.links.queue_prefix

end WalkFrame

/-! ### Totals and ACCOUNT REPORT (R56, R57; log 61) -/

@[simp] theorem be_length (n v : Nat) : (be n v).length = n := by
  induction n with
  | zero => rfl
  | succ n ih => rw [be, List.length_cons, ih]

@[simp] theorem field_length (n v : Nat) : (field n v).length = n := by
  unfold field
  split <;> simp

theorem field_of_lt {n v : Nat} (h : v < 256 ^ n) : field n v = (be n v).map some := if_pos h

@[simp] theorem render_length (c : Nat) (l : RecBytes) : (render c l).length = l.length := by
  simp [render]

/-- Bytes that are all stated are sent as they are. -/
theorem render_map_some (c : Nat) (l : List Byte) : render c (l.map some) = l := by
  rw [render, List.zipIdx_map, List.map_map]
  exact List.zipIdx_map_fst 0 l

theorem Accum.payload_length (a : Accum) : a.payload.length = 30 := by
  simp [Accum.payload]

/-- The ACCOUNT REPORT's bytes where every number fits its field. -/
def Accum.bytes (a : Accum) : List Byte :=
  be 4 (a.firstStart.getD 0) ++ be 4 a.lastEnd ++ be 4 a.totalT ++ be 2 a.epochs ++ be 4 a.lost ++ be 4 a.recovered ++
    be 4 a.voids ++ be 4 a.thins

theorem satQuad_lt (n : Nat) : satQuad n < 256 ^ 4 := by
  rw [satQuad]
  omega

theorem Accum.payload_add {a : Accum} {w : Walk} (hf : ((a.add w).firstStart.getD 0) < 4294967296)
    (he : (a.add w).lastEnd < 4294967296) (ht : (a.add w).totalT < 4294967296) (hn : (a.add w).epochs < 65536) :
    (a.add w).payload = (a.add w).bytes.map some := by
  have hlost : (a.add w).lost < 256 ^ 4 := satQuad_lt _
  have hrecovered : (a.add w).recovered < 256 ^ 4 := satQuad_lt _
  have hvoids : (a.add w).voids < 256 ^ 4 := satQuad_lt _
  have hthins : (a.add w).thins < 256 ^ 4 := satQuad_lt _
  rw [Accum.payload, Accum.bytes, field_of_lt hf, field_of_lt he, field_of_lt ht, field_of_lt hn, field_of_lt hlost,
    field_of_lt hrecovered, field_of_lt hvoids, field_of_lt hthins]
  simp only [List.map_append]

/-- The walk ended, its totals added and the report offered. -/
def totalled (w : Walk) (s : State) : State :=
  offerReport ((s.setYld fun y => { y with walk := none }).setEp fun e => { e with acc := e.acc.add w })

theorem totalled_of_no_report {w : Walk} {s : State} (h : s.ep.acc.walks < s.par .reportDivider ∨ 64 ≤ s.up.queue.length) :
    totalled w s = (s.setYld fun y => { y with walk := none }).setEp fun e => { e with acc := e.acc.add w } := by
  refine if_neg fun k => ?_
  obtain ⟨hdiv, hroom⟩ := k
  replace hdiv : s.par .reportDivider + 1 ≤ s.ep.acc.walks + 1 := hdiv
  replace hroom : s.up.queue.length < 64 := hroom
  omega

theorem totalled_of_report {w : Walk} {s : State} (hdiv : s.par .reportDivider ≤ s.ep.acc.walks)
    (hroom : s.up.queue.length < 64) : ∃ n, totalled w s = { s with
      yld := { s.yld with walk := none }, ep := { s.ep with acc := Accum.zero }, choices := n
      up := { s.up with queue := s.up.queue ++ [.report (render s.choices (s.ep.acc.add w).payload)] } } := by
  have hcond : s.par .reportDivider + 1 ≤ s.ep.acc.walks + 1 ∧ s.up.queue.length < 64 := ⟨by omega, hroom⟩
  rw [show totalled w s = _ from if_pos hcond]
  unfold useChoice
  dsimp only
  split <;> exact ⟨_, rfl⟩

/-- A walk totalled changes the walk, the accumulators, the tail of the uplink queue and the count of choices. -/
theorem totalled_eq (w : Walk) (s : State) : ∃ c q n, totalled w s = { s with
    yld := { s.yld with walk := none }, ep := { s.ep with acc := c }, choices := n
    up := { s.up with queue := s.up.queue ++ q } } := by
  by_cases h : s.ep.acc.walks < s.par .reportDivider ∨ 64 ≤ s.up.queue.length
  · rw [totalled_of_no_report h]
    refine ⟨s.ep.acc.add w, [], s.choices, ?_⟩
    rw [List.append_nil]
    rfl
  · rw [not_or, not_lt, not_le] at h
    obtain ⟨n, e⟩ := totalled_of_report (w := w) h.1 h.2
    exact ⟨_, _, n, e⟩

theorem totalled_walkFrame (w : Walk) (s : State) : WalkFrame s (totalled w s) := by
  obtain ⟨c, q, n, e⟩ := totalled_eq w s
  rw [e]
  exact ⟨fun _ => rfl, fun _ => rfl, fun _ => rfl, fun _ => rfl, fun _ => .refl _, fun _ => .refl _, fun _ => rfl,
    ⟨rfl, fun _ => id, fun _ => id⟩, ⟨rfl, rfl, rfl⟩, rfl, List.prefix_append _ _⟩

/-! ### The batch (R53) -/

theorem RowStage.apply_none (c : RowCfg) : RowStage.none.apply c = c := rfl

/-- Pending values stored for each row of a table in turn. -/
theorem foldl_updCfg {l : List (Nat × RowStage)} (hl : l.Pairwise fun a b => a.1 < b.1) (s : State) :
    ∃ rows : Tab Row.powerOn, l.foldl (fun t p => t.updCfg p.1 p.2.apply) s = { s with rows := rows } ∧
      ∀ j, rows.get j = { s.row j with cfg := (tabGet RowStage.none l j).apply (s.row j).cfg } := by
  induction l generalizing s with
  | nil => exact ⟨s.rows, rfl, fun _ => rfl⟩
  | cons x l ih =>
    obtain ⟨hx, hl⟩ := List.pairwise_cons.1 hl
    obtain ⟨rows, heq, hget⟩ := ih hl (s.updCfg x.1 x.2.apply)
    refine ⟨rows, heq, fun j => ?_⟩
    rw [hget, State.row_updCfg, tabGet]
    by_cases hj : x.1 = j
    · subst hj
      rw [tabGet_of_lt hx]
      simp [RowStage.apply_none]
    · simp [hj, Ne.symm hj]

theorem Param.index_of_ofIndex {i : Nat} {p : Param} (h : Param.ofIndex i = some p) : p.info.index = i := by
  have hall : ∀ k : Fin 38, Param.all[k].info.index = k := by decide
  obtain ⟨hi, rfl⟩ := List.getElem?_eq_some_iff.1 h
  exact hall ⟨i, hi⟩

/-- Store one pending value. -/
def storePending (s : State) (p : Nat × Option Nat) : State :=
  match p.2, Param.ofIndex p.1 with
  | some v, some q => s.setPar q v
  | _, _ => s

theorem storePending_eq (s : State) (x : Nat × Option Nat) :
    (∃ params, storePending s x = { s with ctl := { s.ctl with params := params } }) ∧
      ∀ p : Param, (storePending s x).par p = if p.info.index = x.1 then x.2.getD (s.par p) else s.par p := by
  obtain ⟨i, v⟩ := x
  cases v with
  | none => exact ⟨⟨_, rfl⟩, fun p => (ite_self _).symm⟩
  | some v =>
    cases hq : Param.ofIndex i with
    | none =>
      have hs : storePending s (i, some v) = s := by rw [storePending, hq]
      rw [hs]
      refine ⟨⟨_, rfl⟩, fun p => (if_neg ?_).symm⟩
      rintro rfl
      rw [p.ofIndex_index] at hq
      cases hq
    | some q =>
      have hs : storePending s (i, some v) = s.setPar q v := by rw [storePending, hq]
      rw [hs]
      refine ⟨⟨_, rfl⟩, fun p => ?_⟩
      have hiff : p = q ↔ p.info.index = i := by
        rw [← Param.index_of_ofIndex hq]
        refine ⟨fun h => by rw [h], fun h => ?_⟩
        have hp := p.ofIndex_index
        rw [h, q.ofIndex_index, Option.some_inj] at hp
        exact hp.symm
      rw [State.par_setPar]
      simp only [hiff, Option.getD_some]

theorem foldl_storePending {l : List (Nat × Option Nat)} (hl : l.Pairwise fun a b => a.1 < b.1) (s : State) :
    (∃ params, l.foldl storePending s = { s with ctl := { s.ctl with params := params } }) ∧
      ∀ p : Param, (l.foldl storePending s).par p = (tabGet none l p.info.index).getD (s.par p) := by
  induction l generalizing s with
  | nil => exact ⟨⟨_, rfl⟩, fun _ => rfl⟩
  | cons x l ih =>
    obtain ⟨hx, hl⟩ := List.pairwise_cons.1 hl
    obtain ⟨⟨params, hp⟩, hpar⟩ := storePending_eq s x
    obtain ⟨⟨params', hp'⟩, hpar'⟩ := ih hl (storePending s x)
    refine ⟨⟨params', ?_⟩, fun p => ?_⟩
    · rw [List.foldl_cons, hp', hp]
    · rw [List.foldl_cons, hpar', hpar, tabGet]
      by_cases hi : p.info.index = x.1
      · rw [if_pos hi, if_pos hi.symm, hi, tabGet_of_lt hx]
        rfl
      · rw [if_neg hi, if_neg (Ne.symm hi)]

theorem applyStaging_spec (g : Staging) (s : State) : ∃ (rows : Tab Row.powerOn) (params : Params),
    applyStaging g s = { s with rows := rows, ctl := { s.ctl with params := params } } ∧
    (∀ j, rows.get j = { s.row j with cfg := (g.rows.get j).apply (s.row j).cfg }) ∧
    ∀ p : Param, (applyStaging g s).par p = (g.params.get p.info.index).getD (s.par p) := by
  obtain ⟨rows, heq, hget⟩ := foldl_updCfg g.rows.2.1 s
  obtain ⟨⟨params, hp⟩, hpar⟩ := foldl_storePending g.params.2.1 { s with rows := rows }
  have h : applyStaging g s = g.params.1.foldl storePending { s with rows := rows } := by
    rw [← heq]
    rfl
  refine ⟨rows, params, h.trans hp, hget, fun p => ?_⟩
  rw [h]
  exact hpar p

/-- The batch in hand stored, the rows it concerns not judged yet. -/
def batchStored (g : Staging) (s : State) : State := (applyStaging g s).setEp fun e => { e with batch := none }

theorem batchStored_walkFrame (g : Staging) (s : State) : WalkFrame s (batchStored g s) := by
  obtain ⟨rows, params, heq, hget, -⟩ := applyStaging_spec g s
  rw [batchStored, heq]
  exact ⟨fun j => (congrArg Row.soil (hget j) :), fun j => (congrArg Row.acct (hget j) :),
    fun j => congrArg (·.sup.occupant) (hget j), fun j => congrArg (·.sup.reported) (hget j), fun _ => .refl _, fun _ => .refl _, fun _ => rfl,
    ⟨rfl, fun _ => id, fun _ => id⟩, ⟨rfl, rfl, rfl⟩, rfl, List.prefix_rfl⟩

theorem batchStored_cfg (g : Staging) (s : State) (j : Nat) :
    ((batchStored g s).row j).cfg = (g.rows.get j).apply (s.row j).cfg := by
  obtain ⟨rows, params, heq, hget, -⟩ := applyStaging_spec g s
  rw [batchStored, heq]
  exact congrArg Row.cfg (hget j)

theorem batchStored_par (g : Staging) (s : State) (p : Param) :
    (batchStored g s).par p = (g.params.get p.info.index).getD (s.par p) := by
  obtain ⟨rows, params, -, -, hpar⟩ := applyStaging_spec g s
  exact hpar p

theorem batchStored_ep (g : Staging) (s : State) : (batchStored g s).ep = { s.ep with batch := none } := by
  obtain ⟨rows, params, heq, -⟩ := applyStaging_spec g s
  rw [batchStored, heq]
  rfl

theorem batchStored_yld (g : Staging) (s : State) : (batchStored g s).yld = s.yld := by
  obtain ⟨rows, params, heq, -⟩ := applyStaging_spec g s
  rw [batchStored, heq]
  rfl

/-- After a batch is stored the planner judges rows, and the round, again. -/
theorem applyBatch_runs {g : Staging} {s : State} (h : s.ep.batch = some g) :
    Moves { opens := true, round := true } (batchStored g s) (applyBatch s) := by
  have hjudged : ∀ l t, Moves { opens := true, round := true } t (forEach l takeJudgement t) := fun l t =>
    forEach_moves (fun r _ => takeJudgement_moves r) t
  unfold applyBatch
  rw [h]
  dsimp only
  split
  · exact (hjudged _ _).trans (evaluateRound_runs false _)
  · exact hjudged _ _

theorem applyBatch_of_none {s : State} (h : s.ep.batch = none) : applyBatch s = s := by
  rw [applyBatch, h]

section Batch

variable (s : State)

theorem applyBatch_walkFrame : WalkFrame s (applyBatch s) := by
  cases h : s.ep.batch with
  | none => rw [applyBatch_of_none h]; exact .of_frame ((Moves.refl (A := {}) s).frame rfl rfl rfl)
  | some g => exact (batchStored_walkFrame g s).trans (.of_frame ((applyBatch_runs h).frame rfl rfl rfl))

theorem applyBatch_ep : (applyBatch s).ep = { s.ep with batch := none } := by
  cases h : s.ep.batch with
  | none => rw [applyBatch_of_none h, ← h]
  | some g => rw [(applyBatch_runs h).site.ep, batchStored_ep]

theorem applyBatch_yld : (applyBatch s).yld = s.yld := by
  cases h : s.ep.batch with
  | none => rw [applyBatch_of_none h]
  | some g => rw [(applyBatch_runs h).site.yld, batchStored_yld]

end Batch

theorem applyBatch_cfg {g : Staging} {s : State} (h : s.ep.batch = some g) (j : Nat) :
    ((applyBatch s).row j).cfg = (g.rows.get j).apply (s.row j).cfg := by
  rw [((applyBatch_runs h).row_kept rfl j).cfg, batchStored_cfg]

theorem applyBatch_par {g : Staging} {s : State} (h : s.ep.batch = some g) (p : Param) :
    (applyBatch s).par p = (g.params.get p.info.index).getD (s.par p) := by
  rw [State.par, (applyBatch_runs h).site.ctl]
  exact batchStored_par g s p

/-! ### The finish (R50, R77) -/

/-- The walk totalled and the batch applied. -/
def walkApplied (w : Walk) (s : State) : State := applyBatch (totalled w s)

theorem totalled_ep (w : Walk) (s : State) : (totalled w s).ep = { s.ep with acc := (totalled w s).ep.acc } := by
  obtain ⟨c, q, n, e⟩ := totalled_eq w s
  rw [e]

theorem totalled_yld (w : Walk) (s : State) : (totalled w s).yld = { s.yld with walk := none } := by
  obtain ⟨c, q, n, e⟩ := totalled_eq w s
  rw [e]

theorem totalled_ctl (w : Walk) (s : State) : (totalled w s).ctl = s.ctl := by
  obtain ⟨c, q, n, e⟩ := totalled_eq w s
  rw [e]

theorem totalled_rows (w : Walk) (s : State) : (totalled w s).rows = s.rows := by
  obtain ⟨c, q, n, e⟩ := totalled_eq w s
  rw [e]

theorem walkApplied_ep (w : Walk) (s : State) :
    (walkApplied w s).ep = { s.ep with batch := none, acc := (totalled w s).ep.acc } := by
  rw [walkApplied, applyBatch_ep, totalled_ep]

theorem walkApplied_yld (w : Walk) (s : State) : (walkApplied w s).yld = { s.yld with walk := none } := by
  rw [walkApplied, applyBatch_yld, totalled_yld]

theorem walkApplied_walkFrame (w : Walk) (s : State) : WalkFrame s (walkApplied w s) :=
  (totalled_walkFrame w s).trans (applyBatch_walkFrame _)

/-- The held close swapped, where one is held. -/
def heldSwapped (s : State) : State :=
  match s.ep.held, s.ep.epoch with
  | some h, some e => swap e false h.noTake s
  | _, _ => s

/-- The finish: totals and report, the batch, the held close. -/
theorem finishWalk_eq (w : Walk) (s : State) : finishWalk w s = heldSwapped (walkApplied w s) := rfl

theorem heldSwapped_cases (s : State) : heldSwapped s = s ∨ ∃ e noTake, heldSwapped s = swap e false noTake s := by
  unfold heldSwapped
  split
  · exact .inr ⟨_, _, rfl⟩
  · exact .inl rfl

theorem finishWalk_of_unheld {s : State} (h : s.ep.held = none) (w : Walk) : finishWalk w s = walkApplied w s := by
  have hheld : (walkApplied w s).ep.held = none := by rw [walkApplied_ep, h]
  rw [finishWalk_eq, heldSwapped, hheld]

theorem finishWalk_of_held {s : State} {h : HeldClose} {e : Epoch} (hh : s.ep.held = some h) (he : s.ep.epoch = some e)
    (w : Walk) : finishWalk w s = swap e false h.noTake (walkApplied w s) := by
  have hheld : (walkApplied w s).ep.held = some h := by rw [walkApplied_ep, hh]
  have hepoch : (walkApplied w s).ep.epoch = some e := by rw [walkApplied_ep, he]
  rw [finishWalk_eq, heldSwapped, hheld, hepoch]

/-- What the finish keeps of the state with its batch applied. -/
theorem finishWalk_epochFrame (w : Walk) (s : State) : EpochFrame (walkApplied w s) (finishWalk w s) := by
  rw [finishWalk_eq]
  rcases heldSwapped_cases (walkApplied w s) with h | ⟨e, noTake, h⟩ <;> rw [h]
  · exact .refl _
  · exact swap_epochFrame e false noTake _

theorem finishWalk_walkFrame (w : Walk) (s : State) : WalkFrame s (finishWalk w s) :=
  (walkApplied_walkFrame w s).trans (.of_epochFrame (finishWalk_epochFrame w s))

theorem finishWalk_acc (w : Walk) (s : State) : (finishWalk w s).ep.acc = (totalled w s).ep.acc := by
  have h0 : (walkApplied w s).ep.acc = (totalled w s).ep.acc := by rw [walkApplied_ep]
  rw [finishWalk_eq]
  rcases heldSwapped_cases (walkApplied w s) with h | ⟨e, noTake, h⟩ <;> rw [h]
  · exact h0
  · rw [swap_ep]
    exact h0

theorem finishWalk_par {p : Param} (hp : p ≠ .epochS) (w : Walk) (s : State) :
    (finishWalk w s).par p = (walkApplied w s).par p := by
  rw [finishWalk_eq]
  rcases heldSwapped_cases (walkApplied w s) with h | ⟨e, noTake, h⟩ <;> rw [h]
  rw [swap_par, if_neg fun k => hp k.2]

/-! ### What a swap reads (R49, R53) -/

/-- What the swap of an epoch reads stands: clock, parameters, site bank, staging store, each row's configuration and banks,
and where robots stand. -/
structure SwapReads (s t : State) : Prop where
  clk : t.clk = s.clk
  ctl : t.ctl = s.ctl
  site : t.yld.openSite = s.yld.openSite
  staging : t.ep.staging = s.ep.staging
  cfg : ∀ r, (t.row r).cfg = (s.row r).cfg
  banks : ∀ r, (t.row r).banks = (s.row r).banks
  robotOn : ∀ r, t.robotOn r = s.robotOn r

namespace SwapReads

variable {s t u : State}

theorem trans (h : SwapReads s t) (k : SwapReads t u) : SwapReads s u where
  clk := k.clk.trans h.clk
  ctl := k.ctl.trans h.ctl
  site := k.site.trans h.site
  staging := k.staging.trans h.staging
  cfg r := (k.cfg r).trans (h.cfg r)
  banks r := (k.banks r).trans (h.banks r)
  robotOn r := (k.robotOn r).trans (h.robotOn r)

theorem mem_rowIds (h : SwapReads s t) {r : Nat} : r ∈ t.rowIds ↔ r ∈ s.rowIds := by
  rw [Machine.mem_rowIds, Machine.mem_rowIds, State.rowOk, State.rowOk, h.cfg]

theorem par (h : SwapReads s t) : t.par = s.par := by funext p; rw [State.par, h.ctl]; rfl

theorem swapped (h : SwapReads s t) {e : Epoch} {void : Bool} (k : Swapped t u e void) : Swapped s u e void := by
  obtain ⟨hepoch, hheld, hwalk, hsite, hclosing, hopened⟩ := k
  rw [h.clk] at hepoch
  rw [h.clk, h.site] at hwalk
  rw [h.site] at hsite
  exact ⟨hepoch, hheld, hwalk, hsite, fun r hr => (hclosing r (h.mem_rowIds.2 hr)).trans (by rw [h.banks]),
    fun r hr => hopened r (h.mem_rowIds.2 hr)⟩

theorem takes (h : SwapReads s t) (k : SwapTakes t u) : SwapTakes s u := by
  obtain ⟨hepochS, hstaging, hempty, hbatch, hbanks⟩ := k
  rw [h.staging, h.par] at hepochS
  rw [h.staging] at hempty hbatch
  refine ⟨hepochS, hstaging, hempty, hbatch, fun r hr b hb => ?_⟩
  have hbank := hbanks r (h.mem_rowIds.2 hr) b hb
  rw [h.staging, h.cfg, h.robotOn] at hbank
  exact hbank

end SwapReads

theorem onRow_congr {x y : Robot} (h : RobotStill x y) (r : Nat) : y.onRow r = x.onRow r := by
  rw [Robot.onRow, Robot.onRow, h.pos, h.state]

theorem robotOn_congr {s t : State} (h : ∀ x, RobotStill (s.robot x) (t.robot x)) (r : Nat) : t.robotOn r = s.robotOn r := by
  have key : ∀ u : State, u.robotOn r = true ↔ ∃ x, ((u.robot x).node.isSome && (u.robot x).onRow r) = true := fun u =>
    Tab.anyRec_iff _ rfl
  rw [Bool.eq_iff_iff, key, key]
  simp only [(h _).node, onRow_congr (h _)]

/-- Moves of a closed round that leave the banks leave all that a swap reads. -/
theorem Moves.swapReads {A : Allow} (hc : A.clean = false) (hf : A.fleet = false) {s t : State} (k : Moves A s t)
    (hb : ∀ r, (t.row r).banks = (s.row r).banks) : SwapReads s t where
  clk := k.site.clk
  ctl := k.site.ctl
  site := by rw [k.site.yld]
  staging := by rw [k.site.ep]
  cfg r := (k.row_kept hc r).cfg
  banks := hb
  robotOn := robotOn_congr (k.robot_still hf)

/-- Without a batch in hand the finish leaves what a swap reads. -/
theorem walkApplied_swapReads {s : State} (h : s.ep.batch = none) (w : Walk) : SwapReads s (walkApplied w s) := by
  have hnone : (totalled w s).ep.batch = none := by rw [totalled_ep, h]
  obtain ⟨c, q, n, e⟩ := totalled_eq w s
  rw [walkApplied, applyBatch_of_none hnone, e]
  exact ⟨rfl, rfl, rfl, rfl, fun _ => rfl, fun _ => rfl, fun _ => rfl⟩

end Sys2Proof.Machine
end

