-- ==== Sys2Proof/Proofs/WalkStep.lean ====
section
/-! SUPPORT. One step of the close walk: the row under the cursor, its due judgement, and after the last row the finish (R69,
R77, R81; logs 44, 57). -/

namespace Sys2Proof.Machine

theorem rowFrom_isSome_iff {s : State} {c : Nat} : (s.rowFrom c).isSome = true ↔ ∃ r, s.rowOk r = true ∧ c ≤ r := by
  simp only [State.rowFrom, List.find?_isSome, mem_rowIds, decide_eq_true_eq]

theorem rowFrom_isSome_congr {s t : State} (h : ∀ r, (t.row r).cfg = (s.row r).cfg) (c : Nat) :
    (t.rowFrom c).isSome = (s.rowFrom c).isSome := by
  rw [Bool.eq_iff_iff, rowFrom_isSome_iff, rowFrom_isSome_iff]
  simp only [State.rowOk, h]

/-! ### The row stepped and judged -/

namespace RowStepped

variable {r : Nat} {o : Soil} {c : Account} {v : Walk} {s a : State} (h : RowStepped r o c v s a)
include h

theorem ep : a.ep = s.ep := (congrArg State.ep h.apart :)
theorem ctl : a.ctl = s.ctl := (congrArg State.ctl h.apart :)
theorem clk : a.clk = s.clk := (congrArg State.clk h.apart :)
theorem rnd : a.rnd = s.rnd := (congrArg State.rnd h.apart :)
theorem stm : a.stm = s.stm := (congrArg State.stm h.apart :)
theorem robots : a.robots = s.robots := (congrArg State.robots h.apart :)
theorem robot (x : Nat) : a.robot x = s.robot x := (congrArg (fun t : State => t.robot x) h.apart :)
theorem cart (x : Nat) : a.cart x = s.cart x := (congrArg (fun t : State => t.cart x) h.apart :)

theorem row_ne {j : Nat} (hj : j ≠ r) : a.row j = s.row j := by rw [h.row, if_neg hj]

/-- Nothing of a row changes but its soiling record and account. -/
theorem apart_row (j : Nat) : { a.row j with soil := (s.row j).soil, acct := (s.row j).acct } = s.row j := by
  rw [h.row]
  split
  · next hj => rw [hj]
  · rfl

theorem cfg (j : Nat) : (a.row j).cfg = (s.row j).cfg := (congrArg Row.cfg (h.apart_row j) :)
theorem sup (j : Nat) : (a.row j).sup = (s.row j).sup := (congrArg Row.sup (h.apart_row j) :)
theorem banks (j : Nat) : (a.row j).banks = (s.row j).banks := (congrArg Row.banks (h.apart_row j) :)

theorem soil : (a.row r).soil = o := by rw [h.row, if_pos rfl]
theorem acct : (a.row r).acct = c := by rw [h.row, if_pos rfl]

theorem swapReads : SwapReads s a where
  clk := h.clk
  ctl := h.ctl
  site := by rw [h.yld]
  staging := by rw [h.ep]
  cfg := h.cfg
  banks := h.banks
  robotOn _ := by rw [State.robotOn, h.robots]; rfl

end RowStepped

/-- The row stepped, and its due judgement taken where it is handed on (R81). -/
def walkJudged (r : Nat) (w : Walk) (s : State) : State :=
  if (walkedRow r w s).2 then takeJudgement r (walkedRow r w s).1 else (walkedRow r w s).1

theorem walkJudged_runs {A : Allow} (r : Nat) (w : Walk) (s : State) : Moves A (walkedRow r w s).1 (walkJudged r w s) := by
  unfold walkJudged
  split
  · exact takeJudgement_moves r _
  · exact .refl _

theorem walkJudged_banks {r : Nat} {w : Walk} {s : State} (h : (walkedRow r w s).1.rnd.isOpen = false) (j : Nat) :
    ((walkJudged r w s).row j).banks = ((walkedRow r w s).1.row j).banks := by
  unfold walkJudged
  split
  · exact takeJudgement_banks h r j
  · rfl

/-- The walk after a row: it goes on where a row follows, and ends after the last one (R77). -/
def walkAdvanced (r : Nat) (b : State) : State :=
  match b.yld.walk, b.rowFrom (r + 1) with
  | some v, none => finishWalk v b
  | _, _ => b

theorem walkStep_eq {s : State} {w : Walk} {r : Nat} (hw : s.yld.walk = some w) (hr : s.rowFrom w.cursor = some r) :
    walkStep s = walkAdvanced r (walkJudged r w s) := by
  rw [walkStep, hw]
  dsimp only
  rw [hr]
  rfl

section Advance

variable {s : State} {w v : Walk} {r : Nat} {o : Soil} {c : Account} (ht : RowStepped r o c v s (walkedRow r w s).1)
include ht

theorem walkJudged_rowFrom (k : Nat) : ((walkJudged r w s).rowFrom k).isSome = (s.rowFrom k).isSome :=
  rowFrom_isSome_congr (fun j => ((walkJudged_runs (A := {}) r w s).row_kept rfl j).cfg.trans (ht.cfg j)) k

theorem walkAdvanced_of_more (h : (s.rowFrom (r + 1)).isSome = true) :
    walkAdvanced r (walkJudged r w s) = walkJudged r w s := by
  obtain ⟨j, hj⟩ := Option.isSome_iff_exists.1 ((walkJudged_rowFrom ht (r + 1)).trans h)
  rw [walkAdvanced, hj]
  cases (walkJudged r w s).yld.walk <;> rfl

theorem walkAdvanced_of_last (h : s.rowFrom (r + 1) = none) :
    walkAdvanced r (walkJudged r w s) = finishWalk v (walkJudged r w s) := by
  have hv : (walkJudged r w s).yld.walk = some v := by rw [(walkJudged_runs (A := {}) r w s).site.yld, ht.yld]
  have hnone : (walkJudged r w s).rowFrom (r + 1) = none := by
    rw [← Option.isNone_iff_eq_none, ← Option.not_isSome, walkJudged_rowFrom ht, h]
    rfl
  rw [walkAdvanced, hv, hnone]

/-- What the finish reads of the row stepped and judged is what it was, but for the walk and the uplink queue's tail. -/
theorem walkJudged_ep : (walkJudged r w s).ep = s.ep := (walkJudged_runs (A := {}) r w s).site.ep.trans ht.ep

theorem walkJudged_par (p : Param) : (walkJudged r w s).par p = s.par p := by
  rw [State.par, (walkJudged_runs (A := {}) r w s).site.ctl, ht.ctl]
  rfl

theorem walkJudged_cfg (j : Nat) : ((walkJudged r w s).row j).cfg = (s.row j).cfg :=
  ((walkJudged_runs (A := {}) r w s).row_kept rfl j).cfg.trans (ht.cfg j)

theorem walkJudged_swapReads (h : s.rnd.isOpen = false) : SwapReads s (walkJudged r w s) :=
  ht.swapReads.trans ((walkJudged_runs (A := {}) r w s).swapReads rfl rfl (walkJudged_banks (by rw [ht.rnd]; exact h)))

theorem walkJudged_queue_le : s.up.queue.length ≤ (walkJudged r w s).up.queue.length :=
  (ht.links.trans (walkJudged_runs (A := {}) r w s).links).queue_prefix.length_le

theorem walkJudged_queue_lt (h : s.up.queue.length < 63) : (walkJudged r w s).up.queue.length < 64 :=
  ((walkJudged_runs (A := {}) r w s).announced ht.announced).length_lt h

theorem walkAdvanced_walkFrame : WalkFrame (walkedRow r w s).1 (walkAdvanced r (walkJudged r w s)) := by
  refine (WalkFrame.of_frame ((walkJudged_runs (A := {}) r w s).frame rfl rfl rfl)).trans ?_
  cases h : s.rowFrom (r + 1) with
  | none =>
    rw [walkAdvanced_of_last ht h]
    exact finishWalk_walkFrame v _
  | some j =>
    rw [walkAdvanced_of_more ht (by rw [h]; rfl)]
    exact .of_frame ((Moves.refl (A := {}) _).frame rfl rfl rfl)

end Advance

/-- The state after a step of the walk, the SECURED test made. -/
def walkTaken (r : Nat) (w : Walk) (s : State) : State := settle (walkAdvanced r (walkJudged r w s))

theorem exec_walkStep {s : State} {w : Walk} {r : Nat} (hw : s.yld.walk = some w) (hr : s.rowFrom w.cursor = some r) :
    exec .walkStep s = .next (walkTaken r w s) := by
  rw [walkTaken, ← walkStep_eq hw hr]
  rfl

/-! ### A row to follow -/

section More

variable {s : State} {w v : Walk} {r : Nat} {o : Soil} {c : Account} (ht : RowTaken r w s o c v (walkedRow r w s))
include ht

theorem walkTaken_of_more (h : (s.rowFrom (r + 1)).isSome = true) : walkTaken r w s = settle (walkJudged r w s) := by
  rw [walkTaken, walkAdvanced_of_more ht.stepped h]

/-- With a row to follow the step is moves after the row. -/
theorem walkTaken_runs (h : (s.rowFrom (r + 1)).isSome = true) :
    Moves { storm := true } (walkedRow r w s).1 (walkTaken r w s) := by
  rw [walkTaken_of_more ht h]
  exact (walkJudged_runs r w s).trans (settle_runs _)

/-- A row passed by, or void, leaves the round record. -/
theorem walkTaken_rnd (h : (s.rowFrom (r + 1)).isSome = true) (hno : (walkedRow r w s).2 = false)
    (hround : s.rnd.isOpen = false ∨ s.stm.state ≠ .park) : (walkTaken r w s).rnd = s.rnd := by
  have hrow := ht.stepped
  rw [walkTaken_of_more ht h, walkJudged, hno, ← hrow.rnd]
  simp only [Bool.false_eq_true, if_false]
  rcases hround with hclosed | hstate
  · exact settle_rnd_of_closed (by rw [hrow.rnd]; exact hclosed)
  · rw [settle_of_law fun _ hp => absurd (hrow.stm ▸ hp) hstate]
    rfl

/-- The due list after a thin or full row's judgement, the round closed and no robot assigned to the row. -/
theorem walkTaken_due (h : (s.rowFrom (r + 1)).isSome = true) (hyes : (walkedRow r w s).2 = true)
    (hclosed : s.rnd.isOpen = false) (ha : ∀ x a, (s.robot x).asg = some a → a.row ≠ r) :
    let u := walkTaken r w s
    (∀ n, u.judge r = .due n → ∃ d ∈ u.rnd.due, d.row = r ∧ d.u = n) ∧
    (∀ n, u.judge r = .hold n → ∀ d ∈ u.rnd.due, d.row = r → d.u = n) ∧
    (u.judge r = .clear → ∀ d ∈ u.rnd.due, d.row ≠ r) := by
  have hrow := ht.stepped
  have hk := walkTaken_runs ht h
  have hopen : (walkedRow r w s).1.rnd.isOpen = false := by rw [hrow.rnd]; exact hclosed
  have hjudge : (walkTaken r w s).judge r = (walkedRow r w s).1.judge r :=
    judge_congr (hk.row_kept rfl r).cfg (hk.row_kept rfl r).soil hk.site.ctl
  have hrnd : (walkTaken r w s).rnd = (takeJudgement r (walkedRow r w s).1).rnd := by
    rw [walkTaken_of_more ht h, settle_rnd_of_closed ((walkJudged_runs r w s).closed hopen), walkJudged, if_pos hyes]
  dsimp only
  rw [hjudge, hrnd]
  exact takeJudgement_due hopen (assigned_eq_false fun x => by rw [hrow.robot x]; exact ha x)

end More

/-! ### The last row -/

section Last

variable {s : State} {w v : Walk} {r : Nat} {o : Soil} {c : Account} (ht : RowTaken r w s o c v (walkedRow r w s))
  (h : s.rowFrom (r + 1) = none)
include ht h

/-- After the last row the finish follows, and the SECURED test. -/
theorem finish_runs : Moves { storm := true } (finishWalk v (walkJudged r w s)) (walkTaken r w s) := by
  rw [walkTaken, walkAdvanced_of_last ht.stepped h]
  exact settle_runs _

theorem walkTaken_acc : (walkTaken r w s).ep.acc = (totalled v (walkJudged r w s)).ep.acc := by
  rw [(finish_runs ht h).site.ep, finishWalk_acc]

theorem walkTaken_acc_of_no_report (hno : s.ep.acc.walks < s.par .reportDivider ∨ 64 ≤ s.up.queue.length) :
    (walkTaken r w s).ep.acc = s.ep.acc.add v := by
  have hrow := ht.stepped
  rw [walkTaken_acc ht h, totalled_of_no_report, ← walkJudged_ep hrow]
  · rfl
  · rw [walkJudged_ep hrow, walkJudged_par hrow]
    exact hno.imp_right fun k => k.trans (walkJudged_queue_le hrow)

theorem walkTaken_report (hdiv : s.par .reportDivider ≤ s.ep.acc.walks)
    (hroom : s.up.queue.length < if (s.row r).banks.closing = none then 64 else 63) :
    (walkTaken r w s).ep.acc = Accum.zero ∧
      ∃ n, UpEntry.report (render n (s.ep.acc.add v).payload) ∈ (walkTaken r w s).up.queue := by
  have hrow := ht.stepped
  have hlt : (walkJudged r w s).up.queue.length < 64 := by
    split at hroom
    · next hb =>
      obtain ⟨-, -, -, hno, hup⟩ := ht.passed hb
      rw [walkJudged, hno, if_neg Bool.false_ne_true, hup]
      exact hroom
    · exact walkJudged_queue_lt hrow hroom
  obtain ⟨n, heq⟩ := totalled_of_report (w := v) (s := walkJudged r w s)
    (by rw [walkJudged_par hrow, walkJudged_ep hrow]; exact hdiv) hlt
  refine ⟨by rw [walkTaken_acc ht h, heq], (walkJudged r w s).choices, ?_⟩
  have hmem : UpEntry.report (render (walkJudged r w s).choices ((walkJudged r w s).ep.acc.add v).payload) ∈
      (totalled v (walkJudged r w s)).up.queue := by
    rw [heq]
    simp
  rw [walkJudged_ep hrow] at hmem
  have hkept := (applyBatch_walkFrame (totalled v (walkJudged r w s))).trans
    (.of_epochFrame (finishWalk_epochFrame v (walkJudged r w s)))
  exact (hkept.queue.trans (finish_runs ht h).links.queue_prefix).subset hmem

theorem walkTaken_cfg (j : Nat) : ((walkTaken r w s).row j).cfg = ((walkApplied v (walkJudged r w s)).row j).cfg := by
  rw [((finish_runs ht h).row_kept rfl j).cfg, (finishWalk_epochFrame v _).cfg]

theorem walkTaken_cfg_of_batch {g : Staging} (hg : s.ep.batch = some g) (j : Nat) :
    ((walkTaken r w s).row j).cfg = (g.rows.get j).apply (s.row j).cfg := by
  have hrow := ht.stepped
  have hbatch : (totalled v (walkJudged r w s)).ep.batch = some g := by rw [totalled_ep, walkJudged_ep hrow, hg]
  rw [walkTaken_cfg ht h, walkApplied, applyBatch_cfg hbatch, State.row, totalled_rows]
  exact congrArg _ (walkJudged_cfg hrow j)

theorem walkTaken_par_of_batch {g : Staging} (hg : s.ep.batch = some g) {p : Param} (hp : p ≠ .epochS) :
    (walkTaken r w s).par p = (g.params.get p.info.index).getD (s.par p) := by
  have hrow := ht.stepped
  have hbatch : (totalled v (walkJudged r w s)).ep.batch = some g := by rw [totalled_ep, walkJudged_ep hrow, hg]
  have hpar : (totalled v (walkJudged r w s)).par p = s.par p := by
    rw [State.par, totalled_ctl]
    exact walkJudged_par hrow p
  rw [State.par, (finish_runs ht h).site.ctl]
  refine (finishWalk_par hp v _).trans ?_
  rw [walkApplied, applyBatch_par hbatch, hpar]

theorem walkTaken_cfg_of_no_batch (hg : s.ep.batch = none) (j : Nat) : ((walkTaken r w s).row j).cfg = (s.row j).cfg := by
  have hrow := ht.stepped
  rw [walkTaken_cfg ht h, (walkApplied_swapReads (by rw [walkJudged_ep hrow, hg]) v).cfg, walkJudged_cfg hrow]

theorem walkTaken_of_unheld (hh : s.ep.held = none) : (walkTaken r w s).yld.walk = none ∧
    (walkTaken r w s).ep.epoch = s.ep.epoch ∧ (walkTaken r w s).ep.staging = s.ep.staging ∧
    (walkTaken r w s).ep.batch = none := by
  have hrow := ht.stepped
  rw [(finish_runs ht h).site.ep, (finish_runs ht h).site.yld,
    finishWalk_of_unheld (by rw [walkJudged_ep hrow, hh]), walkApplied_ep, walkApplied_yld, walkJudged_ep hrow]
  exact ⟨rfl, rfl, rfl, rfl⟩

/-- A held close swaps with what stood before the step, where no batch was in hand and the round closed. -/
theorem walkTaken_of_held {k : HeldClose} {p : Epoch} (hh : s.ep.held = some k) (hp : s.ep.epoch = some p)
    (hg : s.ep.batch = none) (hclosed : s.rnd.isOpen = false) :
    Swapped s (walkTaken r w s) p p.voidMark ∧ (k.noTake = false → SwapTakes s (walkTaken r w s)) ∧
      (k.noTake = true → (walkTaken r w s).ep.staging = s.ep.staging ∧ (walkTaken r w s).ep.batch = none) := by
  have hrow := ht.stepped
  have hep := walkJudged_ep hrow
  have hreads := (walkJudged_swapReads hrow hclosed).trans (walkApplied_swapReads (by rw [hep, hg]) v)
  have hfinish := finishWalk_of_held (by rw [hep, hh]) (by rw [hep, hp]) v
  have hruns := finish_runs ht h
  have hbanks : ∀ j, ((walkTaken r w s).row j).banks = ((finishWalk v (walkJudged r w s)).row j).banks := by
    intro j
    rw [walkTaken, walkAdvanced_of_last hrow h, settle_banks]
  rw [hfinish] at hruns hbanks
  refine ⟨?_, fun htake => ?_, fun hno => ?_⟩
  · exact hreads.swapped ((swap_swapped p false k.noTake _).moves rfl hruns)
  · rw [htake] at hruns hbanks
    exact hreads.takes ((swap_takes p false _).moves hruns hbanks)
  · rw [hno] at hruns
    obtain ⟨hstaging, hbatch⟩ := swap_kept_of_noTake p false (walkApplied v (walkJudged r w s))
    rw [hruns.site.ep]
    exact ⟨hstaging.trans hreads.staging, hbatch⟩

end Last

/-! ### The step (R69 to R77) -/

theorem walkTaken_walkFrame {s : State} {w v : Walk} {r : Nat} {o : Soil} {c : Account}
    (ht : RowTaken r w s o c v (walkedRow r w s)) : WalkFrame (walkedRow r w s).1 (walkTaken r w s) :=
  (walkAdvanced_walkFrame ht.stepped).trans (.of_frame ((settle_runs _).frame rfl rfl rfl))

/-- The accumulators after a walk, spelled out. -/
theorem Accum.add_eq (old : Accum) (v : Walk) : old.add v =
    { walks := old.walks + 1
      lost := min (old.lost + v.lost) 4294967295, recovered := min (old.recovered + v.recovered) 4294967295
      voids := min (old.voids + v.voids) 4294967295, thins := min (old.thins + v.thins) 4294967295
      firstStart := some (old.firstStart.getD v.start)
      lastEnd := v.endTime, totalT := old.totalT + v.t, epochs := old.epochs + 1 } := rfl

/-- Settles O57: the row's step by its class, then the end of the event with a row to follow and after the last row. -/
theorem walkStepTaken : Obligations.WalkStepTaken := by
  intro s w r hw hr row void thin k e onward
  obtain ⟨o, c, v, ht⟩ := walkedRow_taken r w s
  have hrow := ht.stepped
  have hframe := walkTaken_walkFrame ht
  have hsoil : ((walkTaken r w s).row r).soil = o := (hframe.soil r).trans hrow.soil
  have hacct : ((walkTaken r w s).row r).acct = c := (hframe.acct r).trans hrow.acct
  refine ⟨walkTaken r w s, v, exec_walkStep hw hr, ⟨fun hb => ?_, fun b hb hv => ?_, fun b hb hv => ?_⟩,
    fun j => ⟨?_, ?_, fun hj => ⟨?_, ?_⟩⟩, fun x => ?_, fun x => ⟨?_, ?_⟩, hrow.flags.trans hframe.flags, ?_,
    hframe.clk.trans hrow.clk, fun hb => ?_, fun b hb hv => ?_, fun b hb hv => ?_, fun hmore => ?_, fun hlast => ?_⟩
  · obtain ⟨-, -, hpast, -⟩ := ht.passed hb
    exact hpast
  · obtain ⟨-, -, hpast, -⟩ := ht.voided b hb hv
    exact hpast
  · obtain ⟨-, -, hpast, -⟩ := ht.measured b hb hv
    exact hpast
  · exact (hframe.reported j).trans (congrArg RowSup.reported (hrow.sup j))
  · exact (hframe.occupant j).trans (congrArg RowSup.occupant (hrow.sup j))
  · exact (hframe.acct j).trans (congrArg Row.acct (hrow.row_ne hj))
  · exact (hframe.soil j).trans (congrArg Row.soil (hrow.row_ne hj))
  · rw [← hrow.robot x]
    exact hframe.robots x
  · rw [← hrow.cart x]
    exact hframe.carts x
  · exact (hframe.loads x).trans (congrArg Cart.load (hrow.cart x))
  · obtain ⟨hgust, hadvisory, hsilent⟩ := hframe.wind
    rw [hrow.stm] at hgust hadvisory hsilent
    exact ⟨hgust, hadvisory, hsilent⟩
  · obtain ⟨ho, hc, -⟩ := ht.passed hb
    exact ⟨hsoil.trans ho, hacct.trans hc⟩
  · obtain ⟨ho, hc, -⟩ := ht.voided b hb hv
    exact ⟨hsoil.trans ho, hacct.trans hc⟩
  · obtain ⟨ho, hc, -, -, hlow, hsat⟩ := ht.measured b hb hv
    refine ⟨hsoil.trans ho, fun hthin => ?_, fun hfull => ?_, fun h => ?_, fun h => ?_⟩
    · exact (hacct.trans hc).trans (if_pos hthin)
    · exact (hacct.trans hc).trans (if_neg hfull)
    · exact hframe.flags.latched _ (hlow h)
    · exact hframe.flags.latched _ (hsat h)
  · have hruns := walkTaken_runs ht hmore
    refine ⟨hruns.site.yld.trans hrow.yld, hruns.site.ep.trans hrow.ep, hruns.site.ctl.trans hrow.ctl,
      hrow.links.trans hruns.links, fun j hj => ?_, ?_, ?_, fun hno hround => ?_, fun b hb hv hclosed ha => ?_⟩
    · rw [← hrow.row_ne hj]
      exact hruns.row_kept rfl j
    · exact (hruns.row_kept rfl r).cfg.trans (hrow.cfg r)
    · exact (hruns.row_kept rfl r).closing.trans (congrArg Banks.closing (hrow.banks r))
    · refine walkTaken_rnd ht hmore ?_ hround
      rcases hno with hb | ⟨b, hb, hv⟩
      · obtain ⟨-, -, -, hno, -⟩ := ht.passed hb
        exact hno
      · obtain ⟨-, -, -, hno⟩ := ht.voided b hb hv
        exact hno
    · obtain ⟨-, -, -, hyes, -⟩ := ht.measured b hb hv
      exact walkTaken_due ht hmore hyes hclosed ha
  · intro old a
    have hadd : a = s.ep.acc.add v := by
      rw [Accum.add_eq]
      cases hf : s.ep.acc.firstStart <;> simp [a, old, hf]
    rw [hadd]
    refine ⟨walkTaken_acc_of_no_report ht hlast, fun hdiv hroom => ?_,
      fun g hg => ⟨walkTaken_cfg_of_batch ht hlast hg, fun p hp => ?_⟩, walkTaken_cfg_of_no_batch ht hlast, walkTaken_of_unheld ht hlast, fun h p hh hp hg hclosed => ?_⟩
    · obtain ⟨hzero, n, hmem⟩ := walkTaken_report ht hlast hdiv hroom
      refine ⟨hzero, _, ?_, hmem, fun hstart hend htime hepochs => ?_⟩
      · rw [render_length, Accum.payload_length]
      · rw [Accum.payload_add hstart hend htime hepochs, render_map_some]
        rfl
    · exact walkTaken_par_of_batch ht hlast hg hp
    · exact walkTaken_of_held ht hlast hh hp hg hclosed

end Sys2Proof.Machine
end
